-- ==== Sys2Proof/Word.lean ====
section
/-! DEFINITION. The word types of the engine: the byte of every bus and frame (R9, R11). -/

namespace Sys2Proof

/-- A bus or frame byte (R9: every bus byte is 8 bits; R10: bit 0 is the least significant). -/
abbrev Byte := BitVec 8

/-- A byte string (R11: index 0 is the first byte sent or received). -/
abbrev Bytes := List Byte

end Sys2Proof
end

