-- ==== Sys2Proof/Config.lean ====
section
/-! DEFINITION. What an implementation fixes (R8): the source's constants; the parameters the model takes as an argument,
which are the OPEN ones, the reader chip's map and the card's bytes, with the spec's default values for the last two
(general knowledge, PRESUMED, log entries 1 to 3); and the free values of the environment (log entries 4 and 5). -/

namespace Sys2Proof.Config

/-! ### Constants of the source (R8) -/

/-- `WATERLEVEL`, the byte written to `REG_WATERLEVEL` (R8, R211). -/
def waterLevel : Byte := 32

/-- `CHUNK`, the bytes one low- or high-watermark event moves (R8, R219, R220). -/
def chunk : Nat := 32

/-- `TIMER_FACTOR` (R8, R200). -/
def timerFactor : Nat := 13560

/-- `PRESCALER_MAX` (R8, R200). -/
def prescalerMax : Nat := 0xFFF

/-- `RELOAD_MAX` (R8, R200). -/
def reloadMax : Nat := 0xFFFF

/-- `TMODE_TAUTO`, the control bit of the timer mode that is always written 1 (R8, R200). -/
def tmodeTauto : Byte := 0x80

/-- `MAX_ATTEMPTS` of a Classic authenticate or block read (R8, R331). -/
def maxAttempts : Nat := 3

/-- `SECTORS` (R8). -/
def sectors : Nat := 16

/-- Data blocks of a sector: `BLOCKS_PER_SECTOR` less the trailer (R8, R330). -/
def dataBlocks : Nat := 3

/-- `KEY_SIZE` (R8). -/
def keySize : Nat := 6

/-- `UL_MAX_PAGES` (R8, R353). -/
def ulMaxPages : Nat := 135

/-- `UL_END_BOUNDARIES` (R8, R353). -/
def ulEndBoundaries : List Nat := [44, 136]

/-- `RESET_LOW_MS` (R8, R261). -/
def resetLowMs : Nat := 300

/-- `RESET_WAIT_MS` (R8, R261). -/
def resetWaitMs : Nat := 300

/-- `ANTICOLL_NVB` (R8, R160). -/
def anticollNvb : Byte := 0x20

/-- `SELECT_NVB` (R8, R160). -/
def selectNvb : Byte := 0x70

/-- `MF_ACK`, the acknowledge nibble (R8, R326). -/
def mfAck : Byte := 0x0A

/-- `DUMMY`, the filler byte of a read frame (R8, R140). -/
def dummy : Byte := 0x00

/-! ### The reader chip as configuration (R50, R52, R150): what a chip map holds. The engine's control flow does not
depend on it. -/

/-- A chip register address (R84: 6 bits). -/
abbrev Addr := BitVec 6

/-- An address as the byte the multiplexer frames. -/
def Addr.byte (a : Addr) : Byte := a.setWidth 8

/-- A bit field of a chip register: its lowest bit and its width. -/
structure Field where
  lo : Nat
  width : Nat
deriving DecidableEq, Repr, Inhabited

/-- The number a field holds in a register's byte. -/
def Field.get (f : Field) (v : Byte) : Nat := v.toNat / 2 ^ f.lo % 2 ^ f.width

/-- The byte that holds `x` in the field and 0 elsewhere. -/
def Field.put (f : Field) (x : Nat) : Byte := BitVec.ofNat 8 (x % 2 ^ f.width * 2 ^ f.lo)

/-- The chip's register map, bit masks, bit fields and command codes (R50, R52, R150). -/
structure Chip where
  -- addresses
  command : Addr
  comIEn : Addr
  comIrq : Addr
  divIrq : Addr
  error : Addr
  status2 : Addr
  fifoData : Addr
  fifoLevel : Addr
  waterLevel : Addr
  control : Addr
  bitFraming : Addr
  coll : Addr
  txMode : Addr
  rxMode : Addr
  txControl : Addr
  txAuto : Addr
  rxThreshold : Addr
  gsn : Addr
  cwGsp : Addr
  modGsp : Addr
  tMode : Addr
  tPrescaler : Addr
  tReloadH : Addr
  tReloadL : Addr
  -- bytes and masks
  /-- `ARM_VALUE` (R210) -/
  armValue : Byte
  /-- `FlushBuffer` of `REG_FIFOLEVEL` (R208) -/
  flushBuffer : Byte
  /-- the write that clears every flag of `REG_COMIRQ` or `REG_DIVIRQ` (R209) -/
  irqClearAll : Byte
  /-- `TxCRCEn` of `REG_TXMODE` (R211) -/
  txCrcEn : Byte
  /-- `RxCRCEn` of `REG_RXMODE` (R211) -/
  rxCrcEn : Byte
  /-- `StartSend` of `REG_BITFRAMING` (R219) -/
  startSend : Byte
  /-- `CollErr` of `REG_ERROR` (R218) -/
  collErr : Byte
  /-- `MFCrypto1On` of `REG_STATUS2` (R265, R320) -/
  crypto1On : Byte
  /-- `Tx1RFEn` of `REG_TXCONTROL` (R266) -/
  tx1RfEn : Byte
  /-- `Tx2RFEn` of `REG_TXCONTROL` (R266) -/
  tx2RfEn : Byte
  -- the flags of `REG_COMIRQ` (R52)
  irqTimer : Byte
  irqErr : Byte
  irqLoAlert : Byte
  irqHiAlert : Byte
  irqIdle : Byte
  irqRx : Byte
  irqTx : Byte
  /-- `Set1`: ignored on read, written 0 (R216, R224). -/
  irqSet1 : Byte
  -- fields
  /-- `Command` of `REG_COMMAND` (R150) -/
  commandField : Field
  /-- `RxLastBits` of `REG_CONTROL` (R222) -/
  rxLastBits : Field
  /-- `FIFOLevel` of `REG_FIFOLEVEL` (R222) -/
  fifoCount : Field
  /-- `CollPos` of `REG_COLL` (R218) -/
  collPos : Field
  /-- the receive bit count of `REG_BITFRAMING` (R213) -/
  rxBitsField : Field
  /-- `TxLastBits` of `REG_BITFRAMING` (R212, R213) -/
  txBitsField : Field
  /-- prescaler bits 11:8 in `REG_TMODE` (R200) -/
  prescalerHi : Field
  -- command codes
  cmdIdle : BitVec 4
  cmdTransceive : BitVec 4
  cmdAuthent : BitVec 4
deriving DecidableEq, Repr, Inhabited

/-- The default chip map: the values of R50, R52 and R150. PRESUMED, log entry 1. -/
def chipDefault : Chip where
  command := 0x01
  comIEn := 0x02
  comIrq := 0x04
  divIrq := 0x05
  error := 0x06
  status2 := 0x08
  fifoData := 0x09
  fifoLevel := 0x0A
  waterLevel := 0x0B
  control := 0x0C
  bitFraming := 0x0D
  coll := 0x0E
  txMode := 0x12
  rxMode := 0x13
  txControl := 0x14
  txAuto := 0x15
  rxThreshold := 0x18
  gsn := 0x27
  cwGsp := 0x28
  modGsp := 0x29
  tMode := 0x2A
  tPrescaler := 0x2B
  tReloadH := 0x2C
  tReloadL := 0x2D
  armValue := 0x10
  flushBuffer := 0x80
  irqClearAll := 0x7F
  txCrcEn := 0x80
  rxCrcEn := 0x80
  startSend := 0x80
  collErr := 0x08
  crypto1On := 0x08
  tx1RfEn := 0x01
  tx2RfEn := 0x02
  irqTimer := 0x01
  irqErr := 0x02
  irqLoAlert := 0x04
  irqHiAlert := 0x08
  irqIdle := 0x10
  irqRx := 0x20
  irqTx := 0x40
  irqSet1 := 0x80
  commandField := ⟨0, 4⟩
  rxLastBits := ⟨0, 3⟩
  fifoCount := ⟨0, 7⟩
  collPos := ⟨0, 5⟩
  rxBitsField := ⟨4, 3⟩
  txBitsField := ⟨0, 3⟩
  prescalerHi := ⟨0, 4⟩
  cmdIdle := 0x0
  cmdTransceive := 0xC
  cmdAuthent := 0xE

/-! ### The card as configuration (R160, R289, R332, R335) -/

/-- The card command bytes, the access bits, the SAK table and the UID offset. -/
structure Card where
  /-- `WUPA` -/
  wupa : Byte
  /-- `SEL[1]`, `SEL[2]`, `SEL[3]` (R285) -/
  sel1 : Byte
  sel2 : Byte
  sel3 : Byte
  /-- `HLTA`, two bytes -/
  hlta0 : Byte
  hlta1 : Byte
  /-- `AUTH_A`, `AUTH_B` -/
  authA : Byte
  authB : Byte
  /-- `MF_READ`, `MF_WRITE` -/
  mfRead : Byte
  mfWrite : Byte
  /-- `ACCESS_BITS`, four bytes (R335) -/
  access0 : Byte
  access1 : Byte
  access2 : Byte
  access3 : Byte
  /-- `SAK_CLASS`: the listed SAKs with their types (R289) -/
  sakTable : List (Byte × Byte)
  /-- the type of any other SAK (R289) -/
  sakOther : Byte
  /-- `AUTH_UID_OFFSET` (R332) -/
  authUidOffset : Nat
deriving DecidableEq, Repr, Inhabited

/-- The four bytes between key A and key B of a trailer (R335). -/
def Card.accessBits (c : Card) : Bytes := [c.access0, c.access1, c.access2, c.access3]

/-- The first bytes of the card frames differ, so that a frame names one row of R160. -/
def Card.distinct (c : Card) : Bool :=
  decide [c.sel1, c.sel2, c.sel3, c.hlta0, c.authA, c.authB, c.mfRead, c.mfWrite].Nodup

/-- The default card bytes: the values of R160, R289, R332 and R335. PRESUMED, log entries 2 and 3. -/
def cardDefault : Card where
  wupa := 0x52
  sel1 := 0x93
  sel2 := 0x95
  sel3 := 0x97
  hlta0 := 0x50
  hlta1 := 0x00
  authA := 0x60
  authB := 0x61
  mfRead := 0x30
  mfWrite := 0xA0
  access0 := 0xFF
  access1 := 0x07
  access2 := 0x80
  access3 := 0x69
  sakTable := [(0x08, 0x01), (0x09, 0x01), (0x18, 0x01), (0x00, 0x02)]
  sakOther := 0x00
  authUidOffset := 0

/-! ### The parameters of the machine (R8) -/

/-- The OPEN parameters of R8. No value is given for them. -/
structure Open where
  /-- `T_WUPA` (R295). -/
  tWupa : BitVec 16
  /-- `T_ANTICOLL` (R295). -/
  tAnticoll : BitVec 16
  /-- `T_SELECT` (R295). -/
  tSelect : BitVec 16
  /-- `T_HALT` (R295). -/
  tHalt : BitVec 16
  /-- `T_AUTH` (R8). -/
  tAuth : BitVec 16
  /-- `T_READ` (R8). -/
  tRead : BitVec 16
  /-- `T_WRITE` (R8). -/
  tWrite : BitVec 16
  /-- `SCAN_INCLUDES_HALT` (R290). -/
  scanIncludesHalt : Bool
  /-- `INIT_WRITES`, the ordered register writes of INIT (R265: every address is in 0..63). -/
  initWrites : List (Addr × Byte)
deriving DecidableEq, Repr, Inhabited

/-- Everything the model takes as an argument: the OPEN parameters, the chip map and the card bytes. One record for the
machine; no rule writes it (log entry 4). -/
structure Params extends Open where
  chip : Chip
  card : Card
deriving DecidableEq, Repr

/-- The OPEN parameters of the machine at hand (R8, log entry 4): nothing is known of them. -/
opaque openParams : Open

/-- The parameters of the machine at hand: the OPEN ones unknown, the others at the spec's default values. -/
def params : Params where
  toOpen := openParams
  chip := chipDefault
  card := cardDefault

/-! ### Free values of the environment: what the bus, the deadline clock and the time base answer where the
inputs held in State say nothing. Each is applied to the number of free values drawn so far (log entry 5). -/

/-- A byte the bus returns (R82: an oracle answer, no law but the length). -/
opaque freeByte : Nat → Byte

/-- How often an executor run finds its deadline not yet passed before it passes (R215: a fair monotone draw). -/
opaque freeDeadline : Nat → Nat

/-- A reading of the time base, in the deadline clock's OPEN unit (R12 `Now`, R436). -/
opaque freeTime : Nat → Nat

end Sys2Proof.Config
end

