-- ==== Sys2Proof/Syntax.lean ====
section
/-! DEFINITION. The instructions: the 23 host commands (R125 to R128), and the bus frames (R140 to R143) and card
frames (R160) that the opcode table also lists. -/

namespace Sys2Proof

/-- The executor's two priming disciplines (R33 `D_FAMILY`, R14). -/
inductive Family where
  | transceive
  | authenticate
deriving DecidableEq, Repr

/-- The input fields of one executor run (R33, R128, R160): EXECUTE carries one, and every card frame stands for one. -/
structure Descriptor where
  family : Family
  crcTx : Bool
  crcRx : Bool
  /-- Valid bits of the last sent byte, 0 meaning all 8. -/
  txBits : BitVec 3
  rxBits : BitVec 3
  /-- Bytes expected, 0 meaning any length. -/
  rxLen : Byte
  /-- Capacity of the receive buffer. -/
  rxCap : Byte
  timeout : BitVec 16
  /-- The send buffer. -/
  tx : Bytes
deriving DecidableEq, Repr

/-- One constructor per row of the opcode table, its operands as the frame carries them (R127). -/
inductive Instr where
  -- register access multiplexer
  | regRead (addr : Byte)
  | regWrite (addr value : Byte)
  | regModify (addr mask set : Byte)
  | fifoRead (n : Byte)
  | fifoWrite (data : Bytes)
  -- timing controller and command executor
  | setTimeout (t : BitVec 16)
  | execute (d : Descriptor)
  -- reset pin, session, init and carrier
  | hardReset
  | startSession
  | endSession
  | init
  | carrier (mode : Byte)
  -- ISO14443-A activation
  | wakeup
  | anticoll (level : Byte)
  | select (level : Byte) (part : Bytes) (bcc : Byte)
  | halt
  | scan
  -- MIFARE Classic
  | auth (keysel sector : Byte) (key uid4 : Bytes)
  | readBlock (block : Byte)
  | writeBlock (block : Byte) (data : Bytes)
  | readClassic (uidlen : Byte) (uid keyA keyB : Bytes)
  -- MIFARE Ultralight/NTAG
  | readPage (page : Byte)
  | readUltralight
  -- bus frames
  | busRegRead (addr : Byte)
  | busRegWrite (addr value : Byte)
  | busFifoRead (n : Nat)
  | busFifoWrite (data : Bytes)
  -- card frames
  | cardWupa
  | cardAnticollL1
  | cardSelectL1 (part : Bytes) (bcc : Byte)
  | cardAnticollL2
  | cardSelectL2 (part : Bytes) (bcc : Byte)
  | cardAnticollL3
  | cardSelectL3 (part : Bytes) (bcc : Byte)
  | cardHlta
  | cardAuthA (sector : Byte) (key uid4 : Bytes)
  | cardAuthB (sector : Byte) (key uid4 : Bytes)
  | cardRead (addr : Byte)
  | cardWrite (block : Byte)
deriving DecidableEq, Repr

/-- The three encodings the engine speaks (30_encoding.md): host frames at the host port, bus frames on the bus,
card frames in the chip FIFO. A byte string means something only together with the encoding it is read in. -/
inductive Port where
  | host
  | bus
  | card
deriving DecidableEq, Repr

/-- A frame waiting to be taken: a host command frame held at the host port (R122), or, for the opcode table's
other rows, one bus or card frame handed to the multiplexer or the executor directly (log entry 6). -/
structure Offer where
  port : Port
  frame : Bytes
deriving DecidableEq, Repr

end Sys2Proof
end

