-- ==== Sys2Proof/Machine/Operands.lean ====
section
/-! DEFINITION. Operand forms without any state: the ranges of R127, the assembly of multi-byte and control operands
(R123, R128), the bytes of bus frames (R140 to R143) and card frames (R160), and the identity record (R129). -/

namespace Sys2Proof.Machine

/-! ### Operand ranges (R127, R403) -/

/-- A chip register address is in 0..63 (R84, R185). -/
def addrOk (a : Byte) : Bool := a.toNat ≤ 63

/-- The `set` operand of REG_MODIFY is 0 or 1 (R185). -/
def setOk (v : Byte) : Bool := v.toNat ≤ 1

/-- The data of FIFO_WRITE has 0..253 bytes (R127). -/
def fifoDataOk (s : Bytes) : Bool := s.length ≤ 253

/-- The send buffer of EXECUTE has 0..247 bytes and `rx_cap ≥ rx_len` (R128). -/
def executeOk (d : Descriptor) : Bool := d.tx.length ≤ 247 && d.rxLen.toNat ≤ d.rxCap.toNat

/-- The `mode` operand of CARRIER is in 0..3 (R266). -/
def modeOk (m : Byte) : Bool := m.toNat ≤ 3

/-- A cascade level is in 1..3 (R282, R284). -/
def levelOk (l : Byte) : Bool := 1 ≤ l.toNat && l.toNat ≤ 3

/-- A UID part has 4 bytes (R127). -/
def partOk (p : Bytes) : Bool := p.length == 4

/-- The `keysel` operand of AUTH is 0 or 1 (R320). -/
def keyselOk (k : Byte) : Bool := k.toNat ≤ 1

/-- A sector is in 0..63 (R165). -/
def sectorOk (s : Byte) : Bool := s.toNat ≤ 63

/-- A key has 6 bytes (R9). -/
def keyOk (k : Bytes) : Bool := k.length == 6

/-- The UID field of an authenticate frame has 4 bytes (R127). -/
def uid4Ok (u : Bytes) : Bool := u.length == 4

/-- Every operand of AUTH is in range (R127). -/
def authOk (keysel sector : Byte) (key uid4 : Bytes) : Bool :=
  keyselOk keysel && sectorOk sector && keyOk key && uid4Ok uid4

/-- The data of WRITE_BLOCK has 16 bytes (R127). -/
def blockDataOk (d : Bytes) : Bool := d.length == 16

/-- The UID length of READ_CLASSIC is 4, 7 or 10 (R330). -/
def uidlenOk (l : Byte) : Bool := l.toNat == 4 || l.toNat == 7 || l.toNat == 10

/-- Every operand of READ_CLASSIC is in range: UID length, the 10-byte UID field, 16 keys A and 16 keys B (R127). -/
def classicOk (uidlen : Byte) (uid keyA keyB : Bytes) : Bool :=
  uidlenOk uidlen && uid.length == 10 && keyA.length == 96 && keyB.length == 96

/-- A FIFO read frame pops 1..255 bytes (R88, R142). -/
def fifoCountOk (n : Nat) : Bool := 1 ≤ n && n ≤ 255

/-- A FIFO write frame pushes 1..255 bytes (R88, R143). -/
def fifoPushOk (s : Bytes) : Bool := 1 ≤ s.length && s.length ≤ 255

/-! ### Operand assembly (R123, R128) -/

/-- A 16-bit operand, low byte first (R123). -/
def u16 (lo hi : Byte) : BitVec 16 := hi ++ lo

/-- The low byte of a 16-bit operand (R123). -/
def loByte (t : BitVec 16) : Byte := t.extractLsb' 0 8

/-- The high byte of a 16-bit operand (R123). -/
def hiByte (t : BitVec 16) : Byte := t.extractLsb' 8 8

/-- The byte `n mod 256`, for counts written into frames (R121, R200). -/
def byteOfNat (n : Nat) : Byte := BitVec.ofNat 8 n

/-- Bit 0 of EXECUTE's `C0` selects the family (R128). -/
def familyOfBit (b : Bool) : Family := if b then .authenticate else .transceive

/-- The family as the bit `D_FAMILY` (R33). -/
def familyBit : Family → Bool
  | .transceive => false
  | .authenticate => true

/-- EXECUTE's control byte `C0`: family, `crc_tx`, `crc_rx`, reserved bits 0 (R128). -/
def controlC0 (d : Descriptor) : Byte :=
  (0 : BitVec 5) ++ BitVec.ofBool d.crcRx ++ BitVec.ofBool d.crcTx ++ BitVec.ofBool (familyBit d.family)

/-- EXECUTE's control byte `C1`: `tx_bits` in 2:0, `rx_bits` in 6:4, reserved bits 3 and 7 zero (R128). -/
def controlC1 (d : Descriptor) : Byte :=
  (0 : BitVec 1) ++ d.rxBits ++ (0 : BitVec 1) ++ d.txBits

/-- The reserved bits of `C0` (7:3) and of `C1` (3 and 7) are 0 (R128, R170b). -/
def controlReservedOk (c0 c1 : Byte) : Bool :=
  c0.extractLsb' 3 5 == 0 && !c1.getLsbD 3 && !c1.getLsbD 7

/-- The descriptor an EXECUTE frame carries (R128). -/
def assembleDescriptor (c0 c1 rxl cap tl th : Byte) (tx : Bytes) : Descriptor where
  family := familyOfBit (c0.getLsbD 0)
  crcTx := c0.getLsbD 1
  crcRx := c0.getLsbD 2
  txBits := c1.extractLsb' 0 3
  rxBits := c1.extractLsb' 4 3
  rxLen := rxl
  rxCap := cap
  timeout := u16 tl th
  tx := tx

/-- `D_CMD`: the chip command code of a family (R150). -/
def chipCommand (c : Config.Chip) : Family → BitVec 4
  | .transceive => c.cmdTransceive
  | .authenticate => c.cmdAuthent

/-- The byte PRIME writes to `REG_BITFRAMING`: the receive and the transmit bit count in their fields, every other bit 0
(R212, R213). -/
def bitFraming (c : Config.Chip) (rxBits txBits : BitVec 3) : Byte :=
  c.rxBitsField.put rxBits.toNat ||| c.txBitsField.put txBits.toNat

/-- Key `s` of a 96-byte key field (R127: `keyA[s] = KA(6s)..KA(6s+5)`). -/
def keyOfField (field : Bytes) (s : Nat) : Bytes := (field.drop (Config.keySize * s)).take Config.keySize

/-- The 16 keys of a 96-byte key field (R127). -/
def keysOfField (field : Bytes) : List Bytes := (List.range Config.sectors).map (keyOfField field)

/-- The four UID bytes a full read authenticates with (R332). The spec does not say what is sent where the slice passes the
UID's end (U28); there it is the bytes the UID still has, fewer than four (DESIGN CHOICE, log entry 24). -/
def authUid (c : Config.Card) (uid : Bytes) : Bytes := (uid.drop c.authUidOffset).take 4

/-! ### Bus frames (R140 to R143) -/

/-- First byte of a register read frame: `((a << 1) | 0x80) & 0xFF` (R140). -/
def readByte (a : Byte) : Byte := (a <<< 1) ||| 0x80

/-- First byte of a register write frame: `(a << 1) & 0x7E` (R141). -/
def writeByte (a : Byte) : Byte := (a <<< 1) &&& 0x7E

/-- Register read frame (R140). -/
def regReadFrame (a : Byte) : Bytes := [readByte a, Config.dummy]

/-- Register write frame (R141). -/
def regWriteFrame (a v : Byte) : Bytes := [writeByte a, v]

/-- FIFO read frame: the read address once per byte, then the dummy byte (R142). -/
def fifoReadFrame (c : Config.Chip) (n : Nat) : Bytes :=
  List.replicate n (readByte c.fifoData.byte) ++ [Config.dummy]

/-- FIFO write frame: the write address once, then the bytes (R143). -/
def fifoWriteFrame (c : Config.Chip) (s : Bytes) : Bytes := writeByte c.fifoData.byte :: s

/-! ### Card frames (R160) -/

/-- `SEL[level]` (R160, R285). -/
def selByte (c : Config.Card) (level : Nat) : Byte :=
  if level = 1 then c.sel1 else if level = 2 then c.sel2 else c.sel3

def wupaBytes (c : Config.Card) : Bytes := [c.wupa]
def anticollBytes (c : Config.Card) (level : Nat) : Bytes := [selByte c level, Config.anticollNvb]
def selectBytes (c : Config.Card) (level : Nat) (part : Bytes) (bcc : Byte) : Bytes :=
  [selByte c level, Config.selectNvb] ++ part ++ [bcc]
def hltaBytes (c : Config.Card) : Bytes := [c.hlta0, c.hlta1]

/-- The authenticate command byte: key A or key B (R320). -/
def authByte (c : Config.Card) (keyB : Bool) : Byte := if keyB then c.authB else c.authA

/-- `[AUTH_A or AUTH_B, 4·sector, K0..K5, U0..U3]` (R160). -/
def authBytes (c : Config.Card) (keyB : Bool) (sector : Byte) (key uid4 : Bytes) : Bytes :=
  [authByte c keyB, byteOfNat (4 * sector.toNat)] ++ key ++ uid4

def mfReadBytes (c : Config.Card) (addr : Byte) : Bytes := [c.mfRead, addr]
def mfWriteBytes (c : Config.Card) (block : Byte) : Bytes := [c.mfWrite, block]

/-- The descriptor of a transceive card frame; `rx_bits` is 0 in every row of R160. -/
def cardDesc (tx : Bytes) (txBits : BitVec 3) (crcTx crcRx : Bool) (rxLen rxCap : Byte) (t : BitVec 16) :
    Descriptor where
  family := .transceive
  crcTx := crcTx
  crcRx := crcRx
  txBits := txBits
  rxBits := 0
  rxLen := rxLen
  rxCap := rxCap
  timeout := t
  tx := tx

/-- WUPA: 7 significant bits, no CRC, 2-byte ATQA (R160, R280). -/
def wupaDesc (p : Config.Params) : Descriptor := cardDesc (wupaBytes p.card) 7 false false 2 2 p.tWupa

/-- ANTICOLL of a level: no CRC, 5 bytes (R160, R282). -/
def anticollDesc (p : Config.Params) (level : Nat) : Descriptor :=
  cardDesc (anticollBytes p.card level) 0 false false 5 5 p.tAnticoll

/-- SELECT of a level: CRC both ways, 1-byte SAK (R160, R284). -/
def selectDesc (p : Config.Params) (level : Nat) (part : Bytes) (bcc : Byte) : Descriptor :=
  cardDesc (selectBytes p.card level part bcc) 0 true true 1 1 p.tSelect

/-- HLTA: CRC on send, any reply up to 255 bytes (R160, R286). -/
def hltaDesc (p : Config.Params) : Descriptor := cardDesc (hltaBytes p.card) 0 true false 0 255 p.tHalt

/-- AUTH: authenticate family, no CRC, no reply bytes (R160, R320, R321). -/
def authDesc (p : Config.Params) (keyB : Bool) (sector : Byte) (key uid4 : Bytes) : Descriptor where
  family := .authenticate
  crcTx := false
  crcRx := false
  txBits := 0
  rxBits := 0
  rxLen := 0
  rxCap := 0
  timeout := p.tAuth
  tx := authBytes p.card keyB sector key uid4

/-- READ of a block or page: CRC both ways, 16 bytes (R160, R323, R350). -/
def mfReadDesc (p : Config.Params) (addr : Byte) : Descriptor :=
  cardDesc (mfReadBytes p.card addr) 0 true true 16 16 p.tRead

/-- WRITE: CRC on send, one acknowledge byte (R160, R325). -/
def mfWriteDesc (p : Config.Params) (block : Byte) : Descriptor :=
  cardDesc (mfWriteBytes p.card block) 0 true false 1 1 p.tWrite

/-- WRITE-DATA: the 16 payload bytes, CRC on send, one acknowledge byte (R160, R325). -/
def writeDataDesc (p : Config.Params) (data : Bytes) : Descriptor :=
  cardDesc data 0 true false 1 1 p.tWrite

/-! ### Activation operands and records -/

/-- `CascadeLevels`: bits 7:6 of ATQA byte 0; the pattern `11` is reserved (R288). -/
def cascadeLevels (b : Byte) : Option Nat :=
  match (b.extractLsb' 6 2).toNat with
  | 0 => some 1
  | 1 => some 2
  | 2 => some 3
  | _ => none

/-- `SAK_CLASS`, the tag type of a SAK: the table is a parameter (R289). -/
def sakClass (c : Config.Card) (sak : Byte) : Byte :=
  match c.sakTable.find? fun r => r.1 == sak with
  | some r => r.2
  | none => c.sakOther

/-- The bytes of a UID part that belong to the UID: all four at the last level, bytes 1..3 below it (R294). -/
def uidBytesOfPart (last : Bool) (part : Bytes) : Bytes := if last then part.take 4 else (part.drop 1).take 3

/-- Per-level bytes of the identity record: 0x00 above the last level (R129). -/
def perLevel (levels : Nat) (bs : Bytes) : Bytes :=
  (List.range 3).map fun k => if k < levels then bs.getD k 0 else 0

/-- A UID in its 10-byte field, padded with 0x00 (R129). -/
def padUid (uid : Bytes) : Bytes := uid ++ List.replicate (10 - uid.length) 0

/-- The 21-byte identity record of SCAN (R129). -/
def identityRecord (type : Byte) (atqa : Bytes) (levels : Nat) (uid bcc sak : Bytes) : Bytes :=
  [type, atqa.getD 0 0, atqa.getD 1 0, byteOfNat levels, byteOfNat uid.length]
    ++ padUid uid ++ perLevel levels bcc ++ perLevel levels sak

/-- The reconstructed trailer block of a sector (R335). -/
def trailer (c : Config.Card) (keyA keyB : Bytes) : Bytes := keyA ++ c.accessBits ++ keyB

/-- A string with the bytes of `lo .. hi` written 0 (R334). -/
def zeroRange (lo hi : Nat) (s : Bytes) : Bytes :=
  s.take lo ++ List.replicate (min hi s.length - lo) 0 ++ s.drop hi

end Sys2Proof.Machine
end

