-- ==== Sys2Proof/WellFormed.lean ====
section
/-! DEFINITION. Which instructions are well formed: every operand in the range R127 (host frames), R140 to R143 (bus
frames) or R160 (card frames) gives it. The checks themselves are those the meanings use (Machine/Operands.lean). -/

namespace Sys2Proof

open Machine

/-- R124(c), R127: every operand of the instruction is in its range. -/
def Instr.wellFormed : Instr → Bool
  | .regRead a => addrOk a
  | .regWrite a _ => addrOk a
  | .regModify a _ set => addrOk a && setOk set
  | .fifoRead _ => true
  | .fifoWrite s => fifoDataOk s
  | .setTimeout _ => true
  | .execute d => executeOk d
  | .hardReset => true
  | .startSession => true
  | .endSession => true
  | .init => true
  | .carrier m => modeOk m
  | .wakeup => true
  | .anticoll l => levelOk l
  | .select l part _ => levelOk l && partOk part
  | .halt => true
  | .scan => true
  | .auth k s key u => authOk k s key u
  | .readBlock _ => true
  | .writeBlock _ d => blockDataOk d
  | .readClassic l u ka kb => classicOk l u ka kb
  | .readPage _ => true
  | .readUltralight => true
  | .busRegRead a => addrOk a
  | .busRegWrite a _ => addrOk a
  | .busFifoRead n => fifoCountOk n
  | .busFifoWrite s => fifoPushOk s
  | .cardWupa => true
  | .cardAnticollL1 => true
  | .cardSelectL1 part _ => partOk part
  | .cardAnticollL2 => true
  | .cardSelectL2 part _ => partOk part
  | .cardAnticollL3 => true
  | .cardSelectL3 part _ => partOk part
  | .cardHlta => true
  | .cardAuthA s key u => sectorOk s && keyOk key && uid4Ok u
  | .cardAuthB s key u => sectorOk s && keyOk key && uid4Ok u
  | .cardRead _ => true
  | .cardWrite _ => true

end Sys2Proof
end

