-- ==== Sys2Proof/Decode.lean ====
section
/-! DEFINITION. Decoding of the three encodings, total on any bytes and rejecting by name, and after it the encoder
written from the same tables (R125 to R128, R140 to R143, R160). Bus and card frames are read with the machine's chip map
and card bytes. -/

namespace Sys2Proof

open Machine

/-- Why a byte string is no frame of an encoding. -/
inductive DecodeError where
  /-- A host frame has at least one byte (R120). -/
  | emptyFrame
  /-- A host frame has at most 255 bytes (R120). -/
  | frameTooLong
  /-- The opcode is not in R125 (R124a, R170a). -/
  | unassignedOpcode
  /-- The length is not the one R127 gives for the opcode (R124b). -/
  | wrongLength
  /-- A reserved bit of an EXECUTE control byte is set (R124d, R128). -/
  | reservedBit
  /-- No bus frame of R140 to R143. -/
  | notABusFrame
  /-- No card frame of R160. -/
  | notACardFrame
deriving DecidableEq, Repr

/-! ### Host frames -/

/-- The host opcodes (R125). -/
inductive HostOp where
  | regRead | regWrite | regModify | fifoRead | fifoWrite
  | setTimeout | execute
  | hardReset | startSession | endSession | init | carrier
  | wakeup | anticoll | select | halt | scan
  | auth | readBlock | writeBlock | readClassic
  | readPage | readUltralight
deriving DecidableEq, Repr

/-- The opcode byte (R125). -/
def HostOp.code : HostOp → Byte
  | .regRead => 0x01
  | .regWrite => 0x02
  | .regModify => 0x03
  | .fifoRead => 0x04
  | .fifoWrite => 0x05
  | .setTimeout => 0x10
  | .execute => 0x11
  | .hardReset => 0x20
  | .startSession => 0x21
  | .endSession => 0x22
  | .init => 0x23
  | .carrier => 0x24
  | .wakeup => 0x30
  | .anticoll => 0x31
  | .select => 0x32
  | .halt => 0x33
  | .scan => 0x34
  | .auth => 0x40
  | .readBlock => 0x41
  | .writeBlock => 0x42
  | .readClassic => 0x43
  | .readPage => 0x50
  | .readUltralight => 0x51

/-- Every assigned opcode, in the order of R125. -/
def hostOps : List HostOp :=
  [.regRead, .regWrite, .regModify, .fifoRead, .fifoWrite, .setTimeout, .execute,
    .hardReset, .startSession, .endSession, .init, .carrier,
    .wakeup, .anticoll, .select, .halt, .scan,
    .auth, .readBlock, .writeBlock, .readClassic, .readPage, .readUltralight]

/-- The opcode a byte is assigned to, if any (R124a). -/
def hostOpOf (b : Byte) : Option HostOp := hostOps.find? fun o => o.code == b

/-- The frame length in bytes, from byte 0 and, for FIFO_WRITE and EXECUTE, bytes 1 and 3 (R127, R171). -/
def hostFrameLength (o : HostOp) (b1 b3 : Byte) : Nat :=
  match o with
  | .regRead => 2
  | .regWrite => 3
  | .regModify => 4
  | .fifoRead => 2
  | .fifoWrite => 2 + b1.toNat
  | .setTimeout => 3
  | .execute => 8 + b3.toNat
  | .hardReset => 1
  | .startSession => 1
  | .endSession => 1
  | .init => 1
  | .carrier => 2
  | .wakeup => 1
  | .anticoll => 2
  | .select => 7
  | .halt => 1
  | .scan => 1
  | .auth => 13
  | .readBlock => 2
  | .writeBlock => 18
  | .readClassic => 204
  | .readPage => 2
  | .readUltralight => 1

/-- Operand bytes of a host frame whose length is the one R127 gives. The ranges of R127 are checked when the
instruction runs; a reserved bit leaves no instruction to run and is rejected here. -/
def decodeOperands (o : HostOp) (ops : Bytes) : Except DecodeError Instr :=
  match o with
  | .regRead => match ops with | [a] => .ok (.regRead a) | _ => .error .wrongLength
  | .regWrite => match ops with | [a, v] => .ok (.regWrite a v) | _ => .error .wrongLength
  | .regModify => match ops with | [a, m, set] => .ok (.regModify a m set) | _ => .error .wrongLength
  | .fifoRead => match ops with | [n] => .ok (.fifoRead n) | _ => .error .wrongLength
  | .fifoWrite => match ops with | _ :: s => .ok (.fifoWrite s) | [] => .error .wrongLength
  | .setTimeout => match ops with | [lo, hi] => .ok (.setTimeout (u16 lo hi)) | _ => .error .wrongLength
  | .execute => match ops with
    | c0 :: c1 :: _ :: rxl :: cap :: tl :: th :: s =>
      if controlReservedOk c0 c1 then .ok (.execute (assembleDescriptor c0 c1 rxl cap tl th s))
      else .error .reservedBit
    | _ => .error .wrongLength
  | .hardReset => .ok .hardReset
  | .startSession => .ok .startSession
  | .endSession => .ok .endSession
  | .init => .ok .init
  | .carrier => match ops with | [m] => .ok (.carrier m) | _ => .error .wrongLength
  | .wakeup => .ok .wakeup
  | .anticoll => match ops with | [l] => .ok (.anticoll l) | _ => .error .wrongLength
  | .select => match ops with
    | [l, u0, u1, u2, u3, k] => .ok (.select l [u0, u1, u2, u3] k)
    | _ => .error .wrongLength
  | .halt => .ok .halt
  | .scan => .ok .scan
  | .auth => match ops with
    | ks :: sec :: rest => .ok (.auth ks sec (rest.take 6) (rest.drop 6))
    | _ => .error .wrongLength
  | .readBlock => match ops with | [b] => .ok (.readBlock b) | _ => .error .wrongLength
  | .writeBlock => match ops with | b :: d => .ok (.writeBlock b d) | [] => .error .wrongLength
  | .readClassic => match ops with
    | ul :: rest => .ok (.readClassic ul (rest.take 10) ((rest.drop 10).take 96) (rest.drop 106))
    | [] => .error .wrongLength
  | .readPage => match ops with | [p] => .ok (.readPage p) | _ => .error .wrongLength
  | .readUltralight => .ok .readUltralight

/-- A host command frame (R120, R124). -/
def decodeHost (f : Bytes) : Except DecodeError Instr :=
  match f with
  | [] => .error .emptyFrame
  | b0 :: ops =>
    if 255 < f.length then .error .frameTooLong
    else match hostOpOf b0 with
      | none => .error .unassignedOpcode
      | some o =>
        if f.length = hostFrameLength o (f.getD 1 0) (f.getD 3 0) then decodeOperands o ops
        else .error .wrongLength

/-! ### Bus frames -/

/-- The register address in bits 6:1 of a bus frame's first byte (R84). -/
def busAddr (b : Byte) : Byte := (b >>> 1) &&& 0x3F

/-- A bus frame. The FIFO-data address is reserved for the FIFO (R91), so its frames read as FIFO frames; with one
byte they are also the register frames of that address (R142). -/
def decodeBus (c : Config.Chip) (f : Bytes) : Except DecodeError Instr :=
  match f with
  | [] => .error .notABusFrame
  | b0 :: rest =>
    if b0 = readByte c.fifoData.byte then
      if fifoCountOk rest.length && f == fifoReadFrame c rest.length then .ok (.busFifoRead rest.length)
      else .error .notABusFrame
    else if b0 = writeByte c.fifoData.byte then
      if fifoPushOk rest then .ok (.busFifoWrite rest) else .error .notABusFrame
    else match rest with
      | [v] =>
        if b0 &&& 0x81 = 0x80 ∧ v = Config.dummy then .ok (.busRegRead (busAddr b0))
        else if b0 &&& 0x81 = 0x00 then .ok (.busRegWrite (busAddr b0) v)
        else .error .notABusFrame
      | _ => .error .notABusFrame

/-! ### Card frames -/

/-- The anticollision frame of the level whose `SEL` byte is given. -/
def cardAnticollOf (c : Config.Card) (sel : Byte) : Except DecodeError Instr :=
  if sel = c.sel1 then .ok .cardAnticollL1
  else if sel = c.sel2 then .ok .cardAnticollL2
  else if sel = c.sel3 then .ok .cardAnticollL3
  else .error .notACardFrame

/-- The select frame of the level whose `SEL` byte is given. -/
def cardSelectOf (c : Config.Card) (sel : Byte) (part : Bytes) (bcc : Byte) : Except DecodeError Instr :=
  if sel = c.sel1 then .ok (.cardSelectL1 part bcc)
  else if sel = c.sel2 then .ok (.cardSelectL2 part bcc)
  else if sel = c.sel3 then .ok (.cardSelectL3 part bcc)
  else .error .notACardFrame

/-- The authenticate frame of key A or key B: its block byte is `4·sector` (R160). -/
def cardAuthOf (c : Config.Card) (sel blk : Byte) (rest : Bytes) : Except DecodeError Instr :=
  if rest.length = 10 ∧ blk.toNat % 4 = 0 then
    if sel = c.authA then .ok (.cardAuthA (blk >>> 2) (rest.take 6) (rest.drop 6))
    else if sel = c.authB then .ok (.cardAuthB (blk >>> 2) (rest.take 6) (rest.drop 6))
    else .error .notACardFrame
  else .error .notACardFrame

/-- A card frame (R160). -/
def decodeCard (c : Config.Card) (f : Bytes) : Except DecodeError Instr :=
  match f with
  | [b0] => if b0 = c.wupa then .ok .cardWupa else .error .notACardFrame
  | [b0, b1] =>
    if b0 = c.hlta0 ∧ b1 = c.hlta1 then .ok .cardHlta
    else if b0 = c.mfRead then .ok (.cardRead b1)
    else if b0 = c.mfWrite then .ok (.cardWrite b1)
    else if b1 = Config.anticollNvb then cardAnticollOf c b0
    else .error .notACardFrame
  | [b0, b1, p0, p1, p2, p3, k] =>
    if b1 = Config.selectNvb then cardSelectOf c b0 [p0, p1, p2, p3] k else .error .notACardFrame
  | b0 :: b1 :: rest => cardAuthOf c b0 b1 rest
  | [] => .error .notACardFrame

/-! ### One decoder over the three encodings -/

/-- The instruction an offered frame stands for in the encoding it is offered in. -/
def decodeOffer (p : Config.Params) (o : Offer) : Except DecodeError Instr :=
  match o.port with
  | .host => decodeHost o.frame
  | .bus => decodeBus p.chip o.frame
  | .card => decodeCard p.card o.frame

/-! ### The encoder -/

/-- The encoding an instruction belongs to. -/
def Instr.port : Instr → Port
  | .regRead _ | .regWrite _ _ | .regModify _ _ _ | .fifoRead _ | .fifoWrite _ => .host
  | .setTimeout _ | .execute _ => .host
  | .hardReset | .startSession | .endSession | .init | .carrier _ => .host
  | .wakeup | .anticoll _ | .select _ _ _ | .halt | .scan => .host
  | .auth _ _ _ _ | .readBlock _ | .writeBlock _ _ | .readClassic _ _ _ _ => .host
  | .readPage _ | .readUltralight => .host
  | .busRegRead _ | .busRegWrite _ _ | .busFifoRead _ | .busFifoWrite _ => .bus
  | .cardWupa | .cardAnticollL1 | .cardSelectL1 _ _ | .cardAnticollL2 | .cardSelectL2 _ _ => .card
  | .cardAnticollL3 | .cardSelectL3 _ _ | .cardHlta | .cardAuthA _ _ _ | .cardAuthB _ _ _ => .card
  | .cardRead _ | .cardWrite _ => .card

/-- The frame of an instruction (R126 formats, R140 to R143, R160). -/
def encode (p : Config.Params) : Instr → Bytes
  | .regRead a => [HostOp.regRead.code, a]
  | .regWrite a v => [HostOp.regWrite.code, a, v]
  | .regModify a m set => [HostOp.regModify.code, a, m, set]
  | .fifoRead n => [HostOp.fifoRead.code, n]
  | .fifoWrite s => HostOp.fifoWrite.code :: byteOfNat s.length :: s
  | .setTimeout t => [HostOp.setTimeout.code, loByte t, hiByte t]
  | .execute d =>
    [HostOp.execute.code, controlC0 d, controlC1 d, byteOfNat d.tx.length, d.rxLen, d.rxCap,
      loByte d.timeout, hiByte d.timeout] ++ d.tx
  | .hardReset => [HostOp.hardReset.code]
  | .startSession => [HostOp.startSession.code]
  | .endSession => [HostOp.endSession.code]
  | .init => [HostOp.init.code]
  | .carrier m => [HostOp.carrier.code, m]
  | .wakeup => [HostOp.wakeup.code]
  | .anticoll l => [HostOp.anticoll.code, l]
  | .select l part k => HostOp.select.code :: l :: (part ++ [k])
  | .halt => [HostOp.halt.code]
  | .scan => [HostOp.scan.code]
  | .auth ks sec key u => HostOp.auth.code :: ks :: sec :: (key ++ u)
  | .readBlock b => [HostOp.readBlock.code, b]
  | .writeBlock b d => HostOp.writeBlock.code :: b :: d
  | .readClassic ul u ka kb => HostOp.readClassic.code :: ul :: (u ++ ka ++ kb)
  | .readPage a => [HostOp.readPage.code, a]
  | .readUltralight => [HostOp.readUltralight.code]
  | .busRegRead a => regReadFrame a
  | .busRegWrite a v => regWriteFrame a v
  | .busFifoRead n => fifoReadFrame p.chip n
  | .busFifoWrite s => fifoWriteFrame p.chip s
  | .cardWupa => wupaBytes p.card
  | .cardAnticollL1 => anticollBytes p.card 1
  | .cardSelectL1 part k => selectBytes p.card 1 part k
  | .cardAnticollL2 => anticollBytes p.card 2
  | .cardSelectL2 part k => selectBytes p.card 2 part k
  | .cardAnticollL3 => anticollBytes p.card 3
  | .cardSelectL3 part k => selectBytes p.card 3 part k
  | .cardHlta => hltaBytes p.card
  | .cardAuthA s key u => authBytes p.card false s key u
  | .cardAuthB s key u => authBytes p.card true s key u
  | .cardRead a => mfReadBytes p.card a
  | .cardWrite b => mfWriteBytes p.card b

/-- The instruction's frame, offered in its own encoding. -/
def Instr.offer (p : Config.Params) (i : Instr) : Offer := ⟨i.port, encode p i⟩

/-- The one name the decoder gives each frame: a register frame at the FIFO-data address is the FIFO frame of one
byte (R142 "With n = 1 the frame equals the register read frame"). -/
def Instr.canonical (c : Config.Chip) : Instr → Instr
  | .busRegRead a => if a = c.fifoData.byte then .busFifoRead 1 else .busRegRead a
  | .busRegWrite a v => if a = c.fifoData.byte then .busFifoWrite [v] else .busRegWrite a v
  | i => i

/-! ### The opcode table's numbering -/

/-- Byte `k` of the word `w`, whose bits above `nbits` are 0: byte 0 is the first byte of the frame. -/
def tableByte (nbits w k : Nat) : Byte := byteOfNat ((w % 2 ^ nbits) / 256 ^ k)

/-- The first `n` bytes of a table word. -/
def tableBytes (nbits w n : Nat) : Bytes := (List.range n).map (tableByte nbits w)

/-- The length of the card frame that begins with two given bytes (R160), if one does. -/
def cardFrameLength (c : Config.Card) (b0 b1 : Byte) : Option Nat :=
  if b0 = c.wupa then some 1
  else if b0 = c.hlta0 ∨ b0 = c.mfRead ∨ b0 = c.mfWrite then some 2
  else if b0 = c.authA ∨ b0 = c.authB then some 12
  else if b0 = c.sel1 ∨ b0 = c.sel2 ∨ b0 = c.sel3 then
    if b1 = Config.anticollNvb then some 2 else if b1 = Config.selectNvb then some 7 else none
  else none

/-- The frame a table word stands for. The three encodings overlap, so the first that fits is taken: a host
frame, then a card frame, then a FIFO frame, then a register frame on the bus (log entry 6). -/
def tableOffer (p : Config.Params) (nbits w : Nat) : Offer :=
  let b := tableByte nbits w
  match hostOpOf (b 0) with
  | some o => ⟨.host, tableBytes nbits w (hostFrameLength o (b 1) (b 3))⟩
  | none =>
    match cardFrameLength p.card (b 0) (b 1) with
    | some n => ⟨.card, tableBytes nbits w n⟩
    | none =>
      if b 0 = readByte p.chip.fifoData.byte then
        let n := ((tableBytes nbits w (nbits / 8)).takeWhile (· == b 0)).length
        ⟨.bus, tableBytes nbits w (max 1 n + 1)⟩
      else if b 0 = writeByte p.chip.fifoData.byte then ⟨.bus, tableBytes nbits w (max 2 (nbits / 8))⟩
      else if b 0 &&& 0x01 = 0 then ⟨.bus, tableBytes nbits w 2⟩
      else ⟨.host, tableBytes nbits w (max 1 (nbits / 8))⟩

/-- The instruction the decoder reads from a word of the opcode table, with the parameters of the machine at hand. -/
def decodeTableWord (nbits w : Nat) : Option Instr :=
  match decodeOffer Config.params (tableOffer Config.params nbits w) with
  | .ok i => some i
  | .error _ => none

end Sys2Proof
end

