-- ==== Sys2Proof/Machine/State.lean ====
section
/-! DEFINITION. The engine's state (10_state.md), the inputs the environment still holds for it, the record of what its
ports have shown (R5), the state at power-up (R450) and after reset (R451), and the reasons a step can stop. -/

namespace Sys2Proof.Machine

/-- `x[STATE]` (R30). -/
inductive EngineState where
  /-- The construction-time hard reset is still to run. -/
  | reset
  /-- The engine waits for a host frame. -/
  | idle
  /-- A host command is executing. -/
  | busy
  /-- Sticky, left only by HARD_RESET (R404). -/
  | fatal
deriving DecidableEq, Repr

/-- Status codes (R400). -/
inductive Status where
  | ok | generic | param | chip | timer | length | comm | auth | wakeup | collision | select | activate | halt
  | read | write | fatal
deriving DecidableEq, Repr

/-- The outer part of `STEP`: a line of the executing command's own rule (R31). Every loop of a rule has a label for its
head. A line that only tests what the line before it answered has no label of its own (log entry 19). -/
inductive Line where
  /-- the frame is accepted and validated (R122, R124) -/
  | first
  /-- `finish` (R121) -/
  | finish
  -- register access (R180 to R184), SET_TIMEOUT (R200), EXECUTE (R205)
  | transfer | modify | timer | exec
  -- HARD_RESET (R261)
  | pinLow | waitLow | pinHigh | waitHigh | closeSession | zeroKeys | toIdle
  -- INIT (R265), CARRIER (R266), START_SESSION and END_SESSION (R263, R264)
  | initWrites | initStatus | carrierWave1 | carrierWave2 | carrierMode | active
  -- the stages (R280 to R286) and SCAN (R287); `cascade` is the head of its loop
  | wakeup | anticoll | select | halt
  | clearUid | atqa | cascadeLevels | cascade | record | type
  -- AUTH (R320), READ_BLOCK and READ_PAGE (R323, R350), WRITE_BLOCK (R325)
  | auth | authStatus | read | writeCommand | writeData
  -- READ_CLASSIC (R330): `sector`, `authAttempt`, `block` and `readAttempt` are the heads of its loops
  | loadKeys | sector | authAttempt | block | readAttempt | append | trailer
  -- READ_ULTRALIGHT (R352): `window` is the head of its loop
  | clearImage | window | boundary | next
deriving DecidableEq, Repr

/-- The inner part of `STEP`: a line of a routine that several rules call. -/
inductive Phase where
  /-- in no such routine -/
  | none
  -- `RegModify` (R182)
  | modifyRead | modifyWrite
  -- `SetTimeout` (R200)
  | search | tMode | tPrescaler | tReloadH | tReloadL
  -- the executor: LOAD (R207), PRE-RUN (R208 to R211), PRIME (R212, R213)
  | load | flush | clearCom | clearDiv | arm | waterLevel | txCrc | rxCrc | timeout | push | command | framing
  -- LOOP (R214): its head, the snapshot, the seven branches, the clearing of a flag (R224)
  | loop | snapshot | timer | err | loAlert | hiAlert | idle | rx | tx | clear
  -- EXIT (R226) and RESULT (R227)
  | exitFraming | exitCommand | result
deriving DecidableEq, Repr

/-- `STEP`, the label of `pc` inside a command's rule (R31; the labels are the model's, log entry 19). -/
structure StepLabel where
  line : Line
  phase : Phase
deriving DecidableEq, Repr

/-- The first step of a command. -/
def StepLabel.first : StepLabel := ⟨.first, .none⟩

/-- The last step of a command. -/
def StepLabel.finish : StepLabel := ⟨.finish, .none⟩

/-- The sequencer step pointer `pc` (R31). -/
structure Pc where
  op : Byte
  step : StepLabel
deriving DecidableEq, Repr

/-- The command-executor descriptor registers (R33). -/
structure Desc where
  /-- `D_FAMILY` -/
  family : Family
  /-- `D_CMD` -/
  cmd : BitVec 4
  /-- `D_CRC_TX` -/
  crcTx : Bool
  /-- `D_CRC_RX` -/
  crcRx : Bool
  /-- `D_TX_BITS` -/
  txBits : BitVec 3
  /-- `D_TX_LEN` -/
  txLen : BitVec 8
  /-- `D_RX_BITS` -/
  rxBits : BitVec 3
  /-- `D_RX_LEN` -/
  rxLen : BitVec 8
  /-- `D_RX_BITS_ACT` -/
  rxBitsAct : BitVec 3
  /-- `D_RX_CNT` -/
  rxCnt : BitVec 11
  /-- `D_COLL_POS` -/
  collPos : BitVec 5
  /-- `D_ERR` -/
  err : Byte
  /-- `D_TIMEOUT` -/
  timeout : BitVec 16
  /-- `D_TX_PEND` -/
  txPend : Bytes
  /-- `D_RX_BUF` -/
  rxBuf : Bytes
  /-- `D_RX_CAP` -/
  rxCap : BitVec 11
  /-- `D_SEND_DONE` -/
  sendDone : Bool
  /-- `D_IRQ` -/
  irq : Byte
  /-- `D_T0` -/
  t0 : Nat
deriving DecidableEq, Repr

/-- The session registers (R34). -/
structure Session where
  /-- `S_ACTIVE` -/
  active : Bool
  /-- `S_CARRIER` -/
  carrier : BitVec 2
deriving DecidableEq, Repr

/-- The identity working registers (R35). -/
structure Ident where
  /-- `I_ATQA` -/
  atqa : Bytes
  /-- `I_LEVELS` -/
  levels : BitVec 2
  /-- `I_UID` -/
  uid : Bytes
  /-- `I_BCC[1..3]` -/
  bcc : Bytes
  /-- `I_SAK[1..3]` -/
  sak : Bytes
  /-- `I_TYPE` -/
  type : Byte
deriving DecidableEq, Repr

/-- The sequencer working registers of the full reads (R36). -/
structure Work where
  /-- `W_SECTOR` -/
  sector : BitVec 5
  /-- `W_BLOCK` -/
  block : BitVec 2
  /-- `W_ATTEMPT` -/
  attempt : BitVec 2
  /-- `W_PAGE` -/
  page : BitVec 8
  /-- `W_IMAGE` -/
  image : Bytes
  /-- `W_KEYA[0..15]` -/
  keyA : List Bytes
  /-- `W_KEYB[0..15]` -/
  keyB : List Bytes
  /-- `W_UID` -/
  uid : Bytes
deriving DecidableEq, Repr

/-- The host port registers (R37). -/
structure HostPort where
  /-- `H_CMD` -/
  cmd : Bytes
  /-- `H_RES` -/
  res : Bytes
  /-- `H_RES_VALID` -/
  resValid : Bool
deriving DecidableEq, Repr

/-- What the environment will still answer: the bytes the bus returns (R82), for each coming executor run the number
of deadline draws that are false before the first true one (R215), and the readings of the time base (R436). Where a
list is used up the answer is a free value of Config, applied to `draws`, the number of free values drawn so far. -/
structure Env where
  busIn : Bytes
  deadlines : List Nat
  times : List Nat
  draws : Nat
deriving DecidableEq, Repr

/-- What the engine's ports show, one entry per event (R5). -/
inductive Event where
  /-- A host command frame is taken from the host port (R122). -/
  | command (frame : Bytes)
  /-- A result frame is written (R121). -/
  | result (frame : Bytes)
  /-- One bus transfer, the bytes sent and the bytes returned (R82). -/
  | xfer (out inp : Bytes)
  /-- The reset line is driven to a level (R262). -/
  | pin (level : Bool)
  /-- At least `ms` milliseconds pass (R262). -/
  | wait (ms : Nat)
deriving DecidableEq, Repr

/-- The whole state. The spec's own registers come first; `rOut`, `xStatus`, `offers`, `env`, `params` and `hist` are
the model's (log entries 4 to 8). -/
structure State where
  /-- `x[STATE]` (R30) -/
  st : EngineState
  /-- `pc` (R31) -/
  pc : Pc
  /-- descriptor registers (R33) -/
  d : Desc
  /-- session registers (R34) -/
  sess : Session
  /-- identity working registers (R35) -/
  ident : Ident
  /-- full-read working registers (R36) -/
  work : Work
  /-- host port registers (R37) -/
  host : HostPort
  /-- `P_RST`, true when high, that is released (R38) -/
  pRst : Bool
  /-- the bytes the multiplexer's last read returned (R180, R183) -/
  rOut : Bytes
  /-- the status the last executor run returned (R227) -/
  xStatus : Status
  /-- frames the environment has offered and the engine has not taken, oldest first (R122) -/
  offers : List Offer
  /-- the environment's coming answers -/
  env : Env
  /-- the parameters: the OPEN ones (R8), the chip map (R50) and the card bytes (R160) -/
  params : Config.Params
  /-- the events at the ports so far, oldest first (R5) -/
  hist : List Event
deriving DecidableEq, Repr

/-- Why a step stops with a fault. -/
inductive Fault where
  /-- Raised by `step` alone, in a state whose `x[STATE]` is BUSY: the model runs a command whole inside one step (R32
  "Two commands never interleave"), so no step of a run begins in the middle of one. Safe: nothing goes on. -/
  | insideCommand
deriving DecidableEq, Repr

/-- Why a step has no meaning. -/
inductive Refusal where
  /-- Raised by an arm of `exec` whose instruction has no meaning yet (none in this model). Safe. -/
  | notModelled (mnemonic : String)
  /-- Raised by `step` alone, on a byte string offered as a bus or card frame that is none of R140 to R143 or R160:
  the engine never sends one (log entry 6). Safe. -/
  | notAnEngineFrame
deriving DecidableEq, Repr

/-! ### Updates -/

namespace State

def setSt (s : State) (v : EngineState) : State := { s with st := v }
def setPc (s : State) (v : Pc) : State := { s with pc := v }
def setD (s : State) (v : Desc) : State := { s with d := v }
def setSess (s : State) (v : Session) : State := { s with sess := v }
def setIdent (s : State) (v : Ident) : State := { s with ident := v }
def setWork (s : State) (v : Work) : State := { s with work := v }
def setHost (s : State) (v : HostPort) : State := { s with host := v }
def setPRst (s : State) (v : Bool) : State := { s with pRst := v }
def setROut (s : State) (v : Bytes) : State := { s with rOut := v }
def setXStatus (s : State) (v : Status) : State := { s with xStatus := v }
def setOffers (s : State) (v : List Offer) : State := { s with offers := v }
def setEnv (s : State) (v : Env) : State := { s with env := v }

/-- Record one event at the ports (R5). -/
def log (s : State) (e : Event) : State := { s with hist := s.hist ++ [e] }

end State

/-! ### Power-up and reset -/

/-- The descriptor registers' values at reset: the spec gives none (R451), so 0 (DESIGN CHOICE, log entry 9). -/
def Desc.initial : Desc where
  family := .transceive
  cmd := 0
  crcTx := false
  crcRx := false
  txBits := 0
  txLen := 0
  rxBits := 0
  rxLen := 0
  rxBitsAct := 0
  rxCnt := 0
  collPos := 0
  err := 0
  timeout := 0
  txPend := []
  rxBuf := []
  rxCap := 0
  sendDone := false
  irq := 0
  t0 := 0

/-- The identity registers' values at reset: the spec gives none (R451), so 0 (DESIGN CHOICE, log entry 9). -/
def Ident.initial : Ident where
  atqa := [0, 0]
  levels := 0
  uid := []
  bcc := [0, 0, 0]
  sak := [0, 0, 0]
  type := 0

/-- 16 keys of 6 zero bytes (R451). -/
def zeroKeyBank : List Bytes := List.replicate Config.sectors (List.replicate Config.keySize 0)

/-- The working registers at reset: the keys are 0 (R451); the spec gives no value for the others, so 0 (DESIGN
CHOICE, log entry 9). `State.powerUp`, where R36 leaves the keys unspecified too, takes the same values. -/
def Work.initial : Work where
  sector := 0
  block := 0
  attempt := 0
  page := 0
  image := []
  keyA := zeroKeyBank
  keyB := zeroKeyBank
  uid := []

/-- Before the power-up sequence of R450: `x[STATE]` is RESET. The spec does not give the level of the reset line (R38) nor
the keys (R36) there, since R450 has yet to write them: the line is taken low and the keys 0 (DESIGN CHOICE, log
entry 9). -/
def State.powerUp : State where
  st := .reset
  pc := ⟨0, .first⟩
  d := Desc.initial
  sess := ⟨false, 0⟩
  ident := Ident.initial
  work := Work.initial
  host := ⟨[], [], false⟩
  pRst := false
  rOut := []
  xStatus := .ok
  offers := []
  env := ⟨[], [], [], 0⟩
  params := Config.params
  hist := []

/-- After the power-up sequence has ended (R451): IDLE, the session closed, keys 0, host port empty, the reset line
released; the history holds the four pin events of R450. -/
def State.reset : State where
  st := .idle
  pc := ⟨0, .first⟩
  d := Desc.initial
  sess := ⟨false, 0⟩
  ident := Ident.initial
  work := Work.initial
  host := ⟨[], [], false⟩
  pRst := true
  rOut := []
  xStatus := .ok
  offers := []
  env := ⟨[], [], [], 0⟩
  params := Config.params
  hist := [.pin false, .wait Config.resetLowMs, .pin true, .wait Config.resetWaitMs]

end Sys2Proof.Machine
end

