-- ==== Sys2Proof/Machine/Flags.lean ====
section
/-! DEFINITION. Status codes (R400), the chip's communication-IRQ flags and the branch guards over them (R52, R217 to
R223), and the checks on replies: error register (R218), length (R222), BCC (R283), acknowledge (R326). -/

namespace Sys2Proof.Machine

/-- The status byte of a result frame (R400). -/
def Status.code : Status → Byte
  | .ok => 0x00
  | .generic => 0x01
  | .param => 0x02
  | .chip => 0x03
  | .timer => 0x04
  | .length => 0x05
  | .comm => 0x06
  | .auth => 0x07
  | .wakeup => 0x08
  | .collision => 0x09
  | .select => 0x0A
  | .activate => 0x0B
  | .halt => 0x0C
  | .read => 0x0D
  | .write => 0x0E
  | .fatal => 0xFF

/-- A flag of mask `m` is set in the snapshot `irq`. -/
def flagSet (irq m : Byte) : Bool := irq &&& m != 0

/-! ### Branch guards (R217 to R223, R413). The masks are the chip map's (R52). -/

/-- Branch 1: timer expired (R217). -/
def guardTimer (c : Config.Chip) (d : Desc) : Bool := flagSet d.irq c.irqTimer

/-- Branch 2: protocol error (R218). -/
def guardErr (c : Config.Chip) (d : Desc) : Bool := flagSet d.irq c.irqErr

/-- Branch 3: FIFO low watermark (R219). -/
def guardLoAlert (c : Config.Chip) (d : Desc) : Bool := flagSet d.irq c.irqLoAlert

/-- Branch 4: FIFO high watermark, only after the send is finished (R220). -/
def guardHiAlert (c : Config.Chip) (d : Desc) : Bool := flagSet d.irq c.irqHiAlert && d.sendDone

/-- Branch 5: idle complete, authenticate family only (R221). -/
def guardIdle (c : Config.Chip) (d : Desc) : Bool := flagSet d.irq c.irqIdle && d.family == .authenticate

/-- Branch 6: receive complete, transceive family only (R222). -/
def guardRx (c : Config.Chip) (d : Desc) : Bool := flagSet d.irq c.irqRx && d.family == .transceive

/-- Branch 7: transmission complete (R223). -/
def guardTx (c : Config.Chip) (d : Desc) : Bool := flagSet d.irq c.irqTx

/-! ### Checks on what the chip answered -/

/-- `CollErr` is set in the error byte (R218). -/
def collisionSet (c : Config.Chip) (err : Byte) : Bool := err &&& c.collErr != 0

/-- `CollPos` of `REG_COLL` (R218). -/
def collPosOf (c : Config.Chip) (v : Byte) : BitVec 5 := BitVec.ofNat 5 (c.collPos.get v)

/-- `RxLastBits` of `REG_CONTROL` (R222). -/
def rxLastBitsOf (c : Config.Chip) (v : Byte) : BitVec 3 := BitVec.ofNat 3 (c.rxLastBits.get v)

/-- `FIFOLevel` of `REG_FIFOLEVEL` (R222). -/
def fifoLevelOf (c : Config.Chip) (v : Byte) : Nat := c.fifoCount.get v

/-- A drain of `n` bytes would make the received count exceed the capacity (R228). -/
def drainOverflows (d : Desc) (n : Nat) : Bool := d.rxCap.toNat < d.rxCnt.toNat + n

/-- The status of a completed receive: the count is compared with the expectation unless that is 0 (R222). -/
def receiveStatus (d : Desc) : Status :=
  if d.rxLen.toNat ≠ 0 ∧ d.rxCnt.toNat ≠ d.rxLen.toNat then .length else .ok

/-- `xor(s)` (R11). -/
def xorBytes (s : Bytes) : Byte := s.foldl (· ^^^ ·) 0

/-- The BCC check of an anticollision reply (R283). -/
def bccOk (r : Bytes) : Bool := xorBytes r == 0

/-- The acknowledge check: the low nibble is 0xA (R326). -/
def ackOk (a : Bytes) : Bool := a.getD 0 0 &&& 0x0F == Config.mfAck

/-- `MFCrypto1On` is set in the status byte (R320). -/
def crypto1Set (c : Config.Chip) (v : Byte) : Bool := v &&& c.crypto1On != 0

end Sys2Proof.Machine
end

