-- ==== Sys2Proof/Machine/Ops.lean ====
section
/-! DEFINITION. The operations every meaning is written in: the environment's draws, the bus transfer (R82), the register
access multiplexer (R180 to R184), the end of a command (R121), error entry and FATAL (R404, R421), key zeroing
(R334), the pin and waits (R262), and the acceptance of a frame (R122). -/

namespace Sys2Proof.Machine

/-! ### Draws from the environment -/

/-- The next byte the bus returns. -/
def Env.drawByte (e : Env) : Byte × Env :=
  match e.busIn with
  | b :: bs => (b, { e with busIn := bs })
  | [] => (Config.freeByte e.draws, { e with draws := e.draws + 1 })

/-- The next `n` bytes the bus returns. -/
def Env.drawBytes : Nat → Env → Bytes × Env
  | 0, e => ([], e)
  | n + 1, e =>
    let b := e.drawByte
    let r := drawBytes n b.2
    (b.1 :: r.1, r.2)

/-- How many deadline draws of the next executor run are false before the first true one (R215: a monotone and fair
draw is such a number and nothing else). -/
def Env.drawDeadline (e : Env) : Nat × Env :=
  match e.deadlines with
  | n :: ns => (n, { e with deadlines := ns })
  | [] => (Config.freeDeadline e.draws, { e with draws := e.draws + 1 })

/-- `Now()` (R12). -/
def Env.drawTime (e : Env) : Nat × Env :=
  match e.times with
  | t :: ts => (t, { e with times := ts })
  | [] => (Config.freeTime e.draws, { e with draws := e.draws + 1 })

namespace State

/-! ### The labels of `pc` (R31) -/

/-- `pc` moves to a line of the command's rule. -/
def atLine (l : Line) (s : State) : State := s.setPc ⟨s.pc.op, ⟨l, .none⟩⟩

/-- `pc` moves to a line of a shared routine, inside the same line of the command's rule. -/
def atPhase (p : Phase) (s : State) : State := s.setPc ⟨s.pc.op, ⟨s.pc.step.line, p⟩⟩

/-! ### The bus and the register access multiplexer -/

/-- `Xfer(out) -> in`, with `len(in) = len(out)` (R82). -/
def xfer (out : Bytes) (s : State) : Bytes × State :=
  let r := s.env.drawBytes out.length
  (r.1, (s.setEnv r.2).log (.xfer out r.1))

/-- `RegRead(a)`: the second returned byte is the value (R140, R180). -/
def regRead (a : Byte) (s : State) : Byte × State :=
  let r := s.xfer (regReadFrame a)
  let v := r.1.getD 1 0
  (v, r.2.setROut [v])

/-- `RegWrite(a, v)`: the returned bytes are ignored (R141, R181). -/
def regWrite (a v : Byte) (s : State) : State := (s.xfer (regWriteFrame a v)).2

/-- `v | m` or `v & ~m` (R182). -/
def modified (v m : Byte) (set : Bool) : Byte := if set then v ||| m else v &&& (0xFF ^^^ m)

/-- `RegModify(a, m, set)`: a read transfer, then a write transfer in every case (R182). -/
def regModify (a m : Byte) (set : Bool) (s : State) : State :=
  let r := (s.atPhase .modifyRead).regRead a
  (r.2.atPhase .modifyWrite).regWrite a (modified r.1 m set)

/-- `FifoRead(n)`: bytes 1 to n of the returned string; no transfer for n = 0 (R142, R183). -/
def fifoRead (n : Nat) (s : State) : Bytes × State :=
  if n = 0 then ([], s.setROut [])
  else
    let r := s.xfer (fifoReadFrame s.params.chip n)
    let b := (r.1.drop 1).take n
    (b, r.2.setROut b)

/-- `FifoWrite(s)`: no transfer for an empty string (R143, R184). -/
def fifoWrite (b : Bytes) (s : State) : State :=
  if b = [] then s else (s.xfer (fifoWriteFrame s.params.chip b)).2

/-- The ordered register writes of a list (R265). -/
def regWrites : List (Config.Addr × Byte) → State → State
  | [], s => s
  | (a, v) :: rest, s => regWrites rest (s.regWrite a.byte v)

/-! ### Reset line -/

/-- `Pin(level)` (R262). -/
def pin (level : Bool) (s : State) : State := (s.setPRst level).log (.pin level)

/-- `Wait(ms)` (R262). -/
def wait (ms : Nat) (s : State) : State := s.log (.wait ms)

/-- The reset pulse: low, wait, released, wait (R261, R450). -/
def resetPulse (s : State) : State :=
  (((s.pin false).wait Config.resetLowMs).pin true).wait Config.resetWaitMs

/-! ### The end of a command -/

/-- The result frame `[ST, LEN[7:0], LEN[15:8]] ++ DATA` (R121). -/
def resultFrame (st : Status) (data : Bytes) : Bytes :=
  [st.code, byteOfNat data.length, byteOfNat (data.length / 256)] ++ data

/-- The result frame is written and ready (R121). -/
def writeResult (st : Status) (data : Bytes) (s : State) : State :=
  (s.setHost { s.host with res := resultFrame st data, resValid := true }).log (.result (resultFrame st data))

/-- `finish(st, data)`: the result frame is written and the engine returns to IDLE, or stays FATAL (R121). What the
multiplexer last read is not kept between commands (R97). -/
def finish (st : Status) (data : Bytes) (s : State) : State :=
  let s1 := ((s.atLine .finish).writeResult st data).setROut []
  if s1.st = .fatal then s1 else s1.setSt .idle

/-- Error entry at instruction level: the status with an empty payload (R421). -/
def fail (st : Status) (s : State) : State := s.finish st []

/-- `raise Fatal`: the sticky state, the result `[FF 00 00]`, and nothing more on the bus (R228, R404). -/
def raiseFatal (s : State) : State := (s.setSt .fatal).finish .fatal []

/-- `ZeroKeys()`: every key register, and the bytes `lo .. hi` of `H_CMD` that hold the current command's keys (R334;
`lo = hi` where the command carries none). -/
def zeroKeys (lo hi : Nat) (s : State) : State :=
  let s1 := s.setWork { s.work with keyA := zeroKeyBank, keyB := zeroKeyBank }
  s1.setHost { s1.host with cmd := zeroRange lo hi s1.host.cmd }

/-- `ZeroKeys()` of AUTH: bytes 3..8 of `H_CMD` (R334). -/
def zeroAuthKeys (s : State) : State := s.zeroKeys 3 9

/-- `ZeroKeys()` of READ_CLASSIC: bytes 12..203 of `H_CMD` (R334). -/
def zeroClassicKeys (s : State) : State := s.zeroKeys 12 204

/-- A host command: in FATAL it is answered `[FF 00 00]` with no other effect (R122, R404); with an operand out of range
it is `ERR_PARAM` (R124), after `clean`, which is what the command does before every `finish` but FATAL's (R36); otherwise
its body runs. -/
def commandWith (clean : State → State) (ok : Bool) (body : State → State) (s : State) : State :=
  if s.st = .fatal then s.writeResult .fatal [] else if ok then body s else (clean s).fail .param

/-- A host command that carries no key. HARD_RESET alone is not one of these. -/
def command (ok : Bool) (body : State → State) (s : State) : State := s.commandWith id ok body

/-- The frame of a bus or card frame run on its own: in FATAL there is no bus transfer of any kind (R404). -/
def internal (body : State → State) (s : State) : State := if s.st = .fatal then s else body s

/-! ### Power-up and the acceptance of frames -/

/-- The session registers closed (R261, R450). -/
def closeSession (s : State) : State := s.setSess ⟨false, 0⟩

/-- The power-up sequence, run in RESET with no host frame and no result frame (R450). -/
def powerUpSequence (s : State) : State :=
  ((((s.setHost ⟨[], [], false⟩).resetPulse).closeSession).zeroKeys 0 0).setSt .idle

/-- The frame of HARD_RESET (R261). -/
def hardResetFrame : Bytes := [0x20]

/-- The longest host frame, and the size of `H_CMD` (R120, R37). -/
def hostFrameMax : Nat := 255

/-- A host frame is taken from the port (R122): copied to `H_CMD`, `H_RES_VALID` cleared, the engine BUSY at the
command's first step; in FATAL a frame other than HARD_RESET is only consumed. Of a byte string too long to be a
frame `H_CMD` holds what fits (log entry 10). -/
def acceptHost (f : Bytes) (s : State) : State :=
  let s1 := s.log (.command f)
  if s1.st = .fatal ∧ f ≠ hardResetFrame then s1
  else ((s1.setHost { s1.host with cmd := f.take hostFrameMax, resValid := false }).setSt .busy).setPc ⟨f.getD 0 0, .first⟩

/-- An offered frame is taken: a host frame as R122 says; a bus or card frame goes to its unit as it is. -/
def accept (o : Offer) (s : State) : State :=
  match o.port with
  | .host => s.acceptHost o.frame
  | .bus => s
  | .card => s

/-- What the opcode in `H_CMD` asks for before `finish`: AUTH and READ_CLASSIC zero their keys (R36, R334). -/
def cleanKeys (s : State) : State :=
  if s.host.cmd.getD 0 0 = 0x40 then s.zeroAuthKeys
  else if s.host.cmd.getD 0 0 = 0x43 then s.zeroClassicKeys
  else s

/-- A host frame that fails validation: `ERR_PARAM`, or in FATAL `[FF 00 00]` (R124, R122). The keys of a rejected AUTH or
READ_CLASSIC frame are zeroed too: R124's register write is a chip register's (log entry 23). -/
def rejectHost (s : State) : State := s.commandWith cleanKeys false id

end State

end Sys2Proof.Machine
end

