-- ==== Sys2Proof/Machine/BusFrames.lean ====
section
/-! DEFINITION. The bus frames of the opcode table, each one transfer of the register access multiplexer (R140 to R143,
R83). The value or bytes read are what the multiplexer returns (`rOut`). No result frame is written: the host port
takes no part (log entry 6). -/

namespace Sys2Proof.Machine

/-- BUS_REG_READ (R140). -/
def execBusRegRead (addr : Byte) (s : State) : Host.Outcome State Fault Refusal :=
  .next (s.internal fun s => (s.regRead addr).2)

/-- BUS_REG_WRITE (R141). -/
def execBusRegWrite (addr value : Byte) (s : State) : Host.Outcome State Fault Refusal :=
  .next (s.internal fun s => s.regWrite addr value)

/-- BUS_FIFO_READ (R142). -/
def execBusFifoRead (n : Nat) (s : State) : Host.Outcome State Fault Refusal :=
  .next (s.internal fun s => (s.fifoRead n).2)

/-- BUS_FIFO_WRITE (R143). -/
def execBusFifoWrite (data : Bytes) (s : State) : Host.Outcome State Fault Refusal :=
  .next (s.internal fun s => s.fifoWrite data)

end Sys2Proof.Machine
end

