-- ==== Sys2Proof/Machine/Timer.lean ====
section
/-! DEFINITION. The timing controller: the prescaler search and the four timer writes (R200), and SET_TIMEOUT. -/

namespace Sys2Proof.Machine

/-- `N` of R200: the clamped request in chip clocks, less 1. -/
def timerTicks (t : Nat) : Nat := max t 1 * Config.timerFactor - 1

/-- The search of R200 over the prescalers `p, p + 1, …` (`fuel` of them): the first whose reload fits 16 bits. -/
def searchPrescaler : (fuel p N : Nat) → Option (Nat × Nat)
  | 0, _, _ => none
  | fuel + 1, p, N =>
    if N / (p * 2 + 1) ≤ Config.reloadMax then some (p, N / (p * 2 + 1)) else searchPrescaler fuel (p + 1) N

/-- The prescaler and reload of a request; with no fit both saturate (R200, R203). -/
def timerPair (t : Nat) : Nat × Nat :=
  match searchPrescaler (Config.prescalerMax + 1) 0 (timerTicks t) with
  | some pr => pr
  | none => (Config.prescalerMax, Config.reloadMax)

/-- `SetTimeout(t)`: the writes of TMODE, TPRESCALER, TRELOADH, TRELOADL, in this order (R200, R201). -/
def State.setTimeout (t : BitVec 16) (s : State) : State :=
  let c := s.params.chip
  let pr := timerPair t.toNat
  let s1 := s.atPhase .search
  let s2 := (s1.atPhase .tMode).regWrite c.tMode.byte (Config.tmodeTauto ||| c.prescalerHi.put (pr.1 / 256))
  let s3 := (s2.atPhase .tPrescaler).regWrite c.tPrescaler.byte (byteOfNat pr.1)
  let s4 := (s3.atPhase .tReloadH).regWrite c.tReloadH.byte (byteOfNat (pr.2 / 256))
  (s4.atPhase .tReloadL).regWrite c.tReloadL.byte (byteOfNat pr.2)

/-- SET_TIMEOUT (R200). -/
def execSetTimeout (t : BitVec 16) (s : State) : Host.Outcome State Fault Refusal :=
  .next (s.command true fun s => ((s.atLine .timer).setTimeout t).finish .ok [])

end Sys2Proof.Machine
end

