-- ==== Sys2Proof/Machine/Executor.lean ====
section
/-! DEFINITION. The command executor (R206 to R228), the shared engine of every card operation, and EXECUTE (R205). -/

namespace Sys2Proof.Machine

namespace State

/-- The receive slice `D_RX_BUF[0 .. D_RX_CNT)` (R227). -/
def rxSlice (s : State) : Bytes := s.d.rxBuf.take s.d.rxCnt.toNat

/-! ### LOAD, PRE-RUN and PRIME -/

/-- LOAD: the descriptor registers are written fresh (R207). -/
def execLoad (d : Descriptor) (s : State) : State :=
  (s.atPhase .load).setD
    { family := d.family
      cmd := chipCommand s.params.chip d.family
      crcTx := d.crcTx
      crcRx := d.crcRx
      txBits := d.txBits
      txLen := BitVec.ofNat 8 d.tx.length
      rxBits := d.rxBits
      rxLen := d.rxLen
      rxBitsAct := 0
      rxCnt := 0
      collPos := 0
      err := 0
      timeout := d.timeout
      txPend := d.tx
      rxBuf := []
      rxCap := d.rxCap.setWidth 11
      sendDone := false
      irq := s.d.irq
      t0 := s.d.t0 }

/-- PRE-RUN: FIFO drain, IRQ clear, arm, water level, CRC enables, timer (R208 to R211). -/
def execPreRun (s : State) : State :=
  let c := s.params.chip
  let s1 := (s.atPhase .flush).regWrite c.fifoLevel.byte c.flushBuffer
  let s2 := (s1.atPhase .clearCom).regWrite c.comIrq.byte c.irqClearAll
  let s3 := (s2.atPhase .clearDiv).regWrite c.divIrq.byte c.irqClearAll
  let s4 := (s3.atPhase .arm).regWrite c.comIEn.byte c.armValue
  let s5 := (s4.atPhase .waterLevel).regWrite c.waterLevel.byte Config.waterLevel
  let s6 := (s5.atPhase .txCrc).regModify c.txMode.byte c.txCrcEn s.d.crcTx
  let s7 := (s6.atPhase .rxCrc).regModify c.rxMode.byte c.rxCrcEn s.d.crcRx
  (s7.atPhase .timeout).setTimeout s.d.timeout

/-- The command register is written with `D_CMD` (R212, R213). -/
def primeCommand (s : State) : State :=
  (s.atPhase .command).regWrite s.params.chip.command.byte (s.params.chip.commandField.put s.d.cmd.toNat)

/-- The bit-framing register is written with the two bit counts, `StartSend` 0 (R212, R213). -/
def primeFraming (rxBits : BitVec 3) (s : State) : State :=
  (s.atPhase .framing).regWrite s.params.chip.bitFraming.byte (bitFraming s.params.chip rxBits s.d.txBits)

/-- PRIME of the authenticate family: the whole send buffer, then the command, then the bit framing (R212). -/
def primeAuthenticate (s : State) : State :=
  let s1 := (s.atPhase .push).fifoWrite s.d.txPend
  ((s1.setD { s1.d with txPend := [] }).primeCommand).primeFraming 0

/-- PRIME of the transceive family: the command, then both bit counts in one write, no FIFO push (R213). -/
def primeTransceive (s : State) : State := s.primeCommand.primeFraming s.d.rxBits

/-- PRIME (R212, R213). -/
def execPrime (s : State) : State :=
  match s.d.family with
  | .authenticate => s.primeAuthenticate
  | .transceive => s.primeTransceive

/-! ### LOOP -/

/-- A handled flag is cleared by a single-bit write of `REG_COMIRQ` (R224). -/
def clearFlag (m : Byte) (s : State) : State := (s.atPhase .clear).regWrite s.params.chip.comIrq.byte m

/-- The bytes a drain read are appended to the receive buffer and counted (R220, R222). -/
def appendRx (b : Bytes) (n : Nat) (s : State) : State :=
  s.setD { s.d with rxBuf := s.d.rxBuf ++ b, rxCnt := BitVec.ofNat 11 (s.d.rxCnt.toNat + n) }

end State

/-- What one branch of an iteration leads to: the next branch, or the end of LOOP with a status. The status `fatal`
skips EXIT and RESULT (R206). -/
inductive Flow where
  | goOn (s : State)
  | stop (s : State) (st : Status)
deriving DecidableEq, Repr

/-- Fall through to the next branch, at its label, unless the run has ended (R214). -/
def Flow.andThen (f : Flow) (p : Phase) (g : State → Flow) : Flow :=
  match f with
  | .goOn s => g (s.atPhase p)
  | .stop s st => .stop s st

namespace State

/-- Branch 1, timer expired (R217). -/
def branchTimer (s : State) : Flow :=
  if guardTimer s.params.chip s.d then .stop (s.clearFlag s.params.chip.irqTimer) .timer else .goOn s

/-- The error register is read, and on a collision the collision position too (R218). -/
def readError (s : State) : State × Status :=
  let r := s.regRead s.params.chip.error.byte
  let s1 := r.2.setD { r.2.d with err := r.1 }
  if collisionSet s.params.chip r.1 then
    let c := s1.regRead s.params.chip.coll.byte
    (c.2.setD { c.2.d with collPos := collPosOf s.params.chip c.1 }, .collision)
  else (s1, .comm)

/-- Branch 2, protocol error (R218). -/
def branchErr (s : State) : Flow :=
  if guardErr s.params.chip s.d then .stop (s.readError.1.clearFlag s.params.chip.irqErr) s.readError.2 else .goOn s

/-- One chunk of the pending send bytes is pushed and `StartSend` set, if any byte is pending (R219). -/
def feed (s : State) : State :=
  if s.d.txPend = [] then s
  else
    let s1 := s.fifoWrite (s.d.txPend.take Config.chunk)
    let s2 := s1.setD { s1.d with txPend := s.d.txPend.drop Config.chunk }
    s2.regModify s.params.chip.bitFraming.byte s.params.chip.startSend true

/-- Branch 3, FIFO low watermark: the flag is cleared whether or not bytes remained (R219). -/
def branchLoAlert (s : State) : Flow :=
  if guardLoAlert s.params.chip s.d then .goOn (s.feed.clearFlag s.params.chip.irqLoAlert) else .goOn s

/-- Branch 4, FIFO high watermark: one chunk is drained, then the capacity is checked (R220, R228). -/
def branchHiAlert (s : State) : Flow :=
  if guardHiAlert s.params.chip s.d then
    let r := s.fifoRead Config.chunk
    if drainOverflows r.2.d Config.chunk then .stop r.2.raiseFatal .fatal
    else .goOn ((r.2.appendRx r.1 Config.chunk).clearFlag s.params.chip.irqHiAlert)
  else .goOn s

/-- Branch 5, idle complete (R221). -/
def branchIdle (s : State) : Flow :=
  if guardIdle s.params.chip s.d then .stop (s.clearFlag s.params.chip.irqIdle) .ok else .goOn s

/-- The last-bit count is read (R222). -/
def readLastBits (s : State) : State :=
  let c := s.regRead s.params.chip.control.byte
  c.2.setD { c.2.d with rxBitsAct := rxLastBitsOf s.params.chip c.1 }

/-- The remaining `n` bytes are drained, with the capacity and length checks (R222, R228). -/
def drainRemainder (n : Nat) (s : State) : Flow :=
  let r := s.fifoRead n
  if drainOverflows r.2.d n then .stop r.2.raiseFatal .fatal
  else
    let s1 := (r.2.appendRx r.1 n).clearFlag s.params.chip.irqRx
    .stop s1 (receiveStatus s1.d)

/-- Branch 6, receive complete: last-bit count, FIFO level, drain of the remainder (R222). -/
def branchRx (s : State) : Flow :=
  if guardRx s.params.chip s.d then
    let l := s.readLastBits.regRead s.params.chip.fifoLevel.byte
    l.2.drainRemainder (fifoLevelOf s.params.chip l.1)
  else .goOn s

/-- Branch 7, transmission complete (R223). -/
def branchTx (s : State) : Flow :=
  if guardTx s.params.chip s.d then .goOn ((s.setD { s.d with sendDone := true }).clearFlag s.params.chip.irqTx) else .goOn s

/-- The snapshot of the flag register (R216). -/
def snapshot (s : State) : State :=
  let r := (s.atPhase .snapshot).regRead s.params.chip.comIrq.byte
  r.2.setD { r.2.d with irq := r.1 }

/-- One iteration: the snapshot, then the seven branches in the fixed order, all on that snapshot (R214, R416). -/
def iteration (s : State) : Flow :=
  (Flow.goOn s.snapshot).andThen .timer branchTimer
    |>.andThen .err branchErr
    |>.andThen .loAlert branchLoAlert
    |>.andThen .hiAlert branchHiAlert
    |>.andThen .idle branchIdle
    |>.andThen .rx branchRx
    |>.andThen .tx branchTx

/-- LOOP with `n` deadline draws false before the first true one: at the loop's head the draw comes before the snapshot,
and when it is true the run ends with `ERR_TIMER` (R214, R215, R225). -/
def execLoop : Nat → State → State × Status
  | 0, s => (s.atPhase .loop, .timer)
  | n + 1, s =>
    match (s.atPhase .loop).iteration with
    | .goOn s1 => execLoop n s1
    | .stop s1 st => (s1, st)

/-- Loop entry: `D_T0` is sampled once, and the run's deadline draws are taken from the environment (R214, R215). -/
def enterLoop (s : State) : Nat × State :=
  let t := s.env.drawTime
  let n := t.2.drawDeadline
  (n.1, ((s.setEnv n.2).setD { s.d with t0 := t.1 }).atPhase .loop)

/-! ### EXIT and RESULT -/

/-- EXIT: `StartSend` cleared, the command register idle (R226). -/
def execExit (s : State) : State :=
  let c := s.params.chip
  let s1 := (s.atPhase .exitFraming).regModify c.bitFraming.byte c.startSend false
  (s1.atPhase .exitCommand).regWrite c.command.byte (c.commandField.put c.cmdIdle.toNat)

/-- The six phases of a run (R206): the state and status it ends with. FATAL skips EXIT and RESULT. -/
def runExec (d : Descriptor) (s : State) : State × Status :=
  let l := (((s.execLoad d).execPreRun).execPrime).enterLoop
  let r := execLoop l.1 l.2
  if r.2 = .fatal then (r.1.setXStatus .fatal, .fatal)
  else ((r.1.execExit.atPhase .result).setXStatus r.2, r.2)

/-- One executor run inside a command: a FATAL run ends the command as it is, any other goes on with its status
(R228 "ends at once with the same result"). -/
def withExec (d : Descriptor) (k : State → Status → State) (s : State) : State :=
  let r := s.runExec d
  if r.2 = .fatal then r.1 else k r.1 r.2

/-- EXECUTE's payload: the descriptor outputs, then the bytes received (R229). -/
def executePayload (s : State) : Bytes :=
  [s.d.rxBitsAct.setWidth 8, s.d.collPos.setWidth 8, s.d.err] ++ s.rxSlice

end State

/-- EXECUTE (R205). -/
def execExecute (d : Descriptor) (s : State) : Host.Outcome State Fault Refusal :=
  .next (s.command (executeOk d) fun s =>
    (s.atLine .exec).withExec d fun s st => s.finish st s.executePayload)

end Sys2Proof.Machine
end

