-- ==== Sys2Proof/Machine/CardFrames.lean ====
section
/-! DEFINITION. The card frames of the opcode table, each one executor run on the descriptor of its row (R160). The
outcome stands in the descriptor registers and in the executor's returned status (`xStatus`); a run that overflows
its receive buffer enters FATAL as R228 says. No result frame is written otherwise (log entry 6). -/

namespace Sys2Proof.Machine

/-- CARD_WUPA (R160). -/
def execCardWupa (s : State) : Host.Outcome State Fault Refusal :=
  .next (s.internal fun s => (s.runExec (wupaDesc s.params)).1)

/-- CARD_ANTICOLL_L1 (R160). -/
def execCardAnticollL1 (s : State) : Host.Outcome State Fault Refusal :=
  .next (s.internal fun s => (s.runExec (anticollDesc s.params 1)).1)

/-- CARD_SELECT_L1 (R160). -/
def execCardSelectL1 (part : Bytes) (bcc : Byte) (s : State) : Host.Outcome State Fault Refusal :=
  .next (s.internal fun s => (s.runExec (selectDesc s.params 1 part bcc)).1)

/-- CARD_ANTICOLL_L2 (R160). -/
def execCardAnticollL2 (s : State) : Host.Outcome State Fault Refusal :=
  .next (s.internal fun s => (s.runExec (anticollDesc s.params 2)).1)

/-- CARD_SELECT_L2 (R160). -/
def execCardSelectL2 (part : Bytes) (bcc : Byte) (s : State) : Host.Outcome State Fault Refusal :=
  .next (s.internal fun s => (s.runExec (selectDesc s.params 2 part bcc)).1)

/-- CARD_ANTICOLL_L3 (R160). -/
def execCardAnticollL3 (s : State) : Host.Outcome State Fault Refusal :=
  .next (s.internal fun s => (s.runExec (anticollDesc s.params 3)).1)

/-- CARD_SELECT_L3 (R160). -/
def execCardSelectL3 (part : Bytes) (bcc : Byte) (s : State) : Host.Outcome State Fault Refusal :=
  .next (s.internal fun s => (s.runExec (selectDesc s.params 3 part bcc)).1)

/-- CARD_HLTA (R160). -/
def execCardHlta (s : State) : Host.Outcome State Fault Refusal :=
  .next (s.internal fun s => (s.runExec (hltaDesc s.params)).1)

/-- CARD_AUTH_A (R160). -/
def execCardAuthA (sector : Byte) (key uid4 : Bytes) (s : State) : Host.Outcome State Fault Refusal :=
  .next (s.internal fun s => (s.runExec (authDesc s.params false sector key uid4)).1)

/-- CARD_AUTH_B (R160). -/
def execCardAuthB (sector : Byte) (key uid4 : Bytes) (s : State) : Host.Outcome State Fault Refusal :=
  .next (s.internal fun s => (s.runExec (authDesc s.params true sector key uid4)).1)

/-- CARD_READ (R160). -/
def execCardRead (addr : Byte) (s : State) : Host.Outcome State Fault Refusal :=
  .next (s.internal fun s => (s.runExec (mfReadDesc s.params addr)).1)

/-- CARD_WRITE: the WRITE frame of R160; its data frame is a run of its own (R325). -/
def execCardWrite (block : Byte) (s : State) : Host.Outcome State Fault Refusal :=
  .next (s.internal fun s => (s.runExec (mfWriteDesc s.params block)).1)

end Sys2Proof.Machine
end

