-- ==== Sys2Proof/Machine/RegisterAccess.lean ====
section
/-! DEFINITION. The host instructions of the register access multiplexer (R180 to R186). -/

namespace Sys2Proof.Machine

/-- REG_READ (R180). -/
def execRegRead (addr : Byte) (s : State) : Host.Outcome State Fault Refusal :=
  .next (s.command (addrOk addr) fun s =>
    let r := (s.atLine .transfer).regRead addr
    r.2.finish .ok [r.1])

/-- REG_WRITE (R181). -/
def execRegWrite (addr value : Byte) (s : State) : Host.Outcome State Fault Refusal :=
  .next (s.command (addrOk addr) fun s => ((s.atLine .transfer).regWrite addr value).finish .ok [])

/-- REG_MODIFY (R182). -/
def execRegModify (addr mask set : Byte) (s : State) : Host.Outcome State Fault Refusal :=
  .next (s.command (addrOk addr && setOk set) fun s =>
    ((s.atLine .modify).regModify addr mask (set == 1)).finish .ok [])

/-- FIFO_READ (R183). -/
def execFifoRead (n : Byte) (s : State) : Host.Outcome State Fault Refusal :=
  .next (s.command true fun s =>
    let r := (s.atLine .transfer).fifoRead n.toNat
    r.2.finish .ok r.1)

/-- FIFO_WRITE (R184). -/
def execFifoWrite (data : Bytes) (s : State) : Host.Outcome State Fault Refusal :=
  .next (s.command (fifoDataOk data) fun s => ((s.atLine .transfer).fifoWrite data).finish .ok [])

end Sys2Proof.Machine
end

