-- ==== Sys2Proof/Machine/SessionControl.lean ====
section
/-! DEFINITION. Reset pin, session, init and carrier control (R260 to R267). None of them uses the executor. -/

namespace Sys2Proof.Machine

namespace State

/-- `InitBody()`: the OPEN register writes, then `MFCrypto1On` cleared (R265). -/
def initBody (s : State) : State :=
  let c := s.params.chip
  (((s.atLine .initWrites).regWrites s.params.initWrites).atLine .initStatus).regModify c.status2.byte c.crypto1On false

/-- `CarrierBody(mode)`: bit 0 is carrier wave 1, bit 1 carrier wave 2 (R266). -/
def carrierBody (mode : BitVec 2) (s : State) : State :=
  let c := s.params.chip
  let s1 := (s.atLine .carrierWave1).regModify c.txControl.byte c.tx1RfEn (mode.getLsbD 0)
  let s2 := (s1.atLine .carrierWave2).regModify c.txControl.byte c.tx2RfEn (mode.getLsbD 1)
  (s2.atLine .carrierMode).setSess { s2.sess with carrier := mode }

/-- `S_ACTIVE` is written (R263, R264). -/
def setActive (v : Bool) (s : State) : State := (s.atLine .active).setSess { s.sess with active := v }

/-- HARD_RESET's lines up to `finish` (R261). -/
def hardResetBody (s : State) : State :=
  let s1 := (s.atLine .pinLow).pin false
  let s2 := (s1.atLine .waitLow).wait Config.resetLowMs
  let s3 := (s2.atLine .pinHigh).pin true
  let s4 := (s3.atLine .waitHigh).wait Config.resetWaitMs
  let s5 := (s4.atLine .closeSession).closeSession
  let s6 := (s5.atLine .zeroKeys).zeroKeys 0 0
  (s6.atLine .toIdle).setSt .idle

end State

/-- HARD_RESET, in every state of the engine, FATAL too: the reset pulse, the session closed, the keys zeroed, the
engine IDLE (R261). -/
def execHardReset (s : State) : Host.Outcome State Fault Refusal :=
  .next (s.hardResetBody.finish .ok [])

/-- START_SESSION (R263). -/
def execStartSession (s : State) : Host.Outcome State Fault Refusal :=
  .next (s.command true fun s => (((s.initBody).carrierBody 3).setActive true).finish .ok [])

/-- END_SESSION (R264). -/
def execEndSession (s : State) : Host.Outcome State Fault Refusal :=
  .next (s.command true fun s => ((s.carrierBody 0).setActive false).finish .ok [])

/-- INIT (R265). -/
def execInit (s : State) : Host.Outcome State Fault Refusal :=
  .next (s.command true fun s => s.initBody.finish .ok [])

/-- CARRIER (R266). -/
def execCarrier (mode : Byte) (s : State) : Host.Outcome State Fault Refusal :=
  .next (s.command (modeOk mode) fun s => (s.carrierBody (mode.setWidth 2)).finish .ok [])

end Sys2Proof.Machine
end

