-- ==== Sys2Proof/Machine/Activation.lean ====
section
/-! DEFINITION. ISO14443-A activation: WAKEUP, ANTICOLL, SELECT, HALT and SCAN (R280 to R295). -/

namespace Sys2Proof.Machine

namespace State

/-! ### The stages, each one executor run (R280 to R286). A stage answers `ok`, its own error, or `fatal`. -/

/-- The stage's status: success, or the stage's own error for every other executor status; FATAL is never mapped. -/
def stageStatus (good : Bool) (err st : Status) : Status :=
  if st = .fatal then .fatal else if good then .ok else err

/-- Wake-up (R280). -/
def wakeupStage (s : State) : State × Status :=
  let r := (s.atLine .wakeup).runExec (wupaDesc s.params)
  (r.1, stageStatus (r.2 == .ok) .wakeup r.2)

/-- Anticollision of a level, with the BCC check (R282, R283). -/
def anticollStage (level : Nat) (s : State) : State × Status :=
  let r := (s.atLine .anticoll).runExec (anticollDesc s.params level)
  (r.1, stageStatus (r.2 == .ok && bccOk r.1.rxSlice) .collision r.2)

/-- Select of a level (R284). -/
def selectStage (level : Nat) (part : Bytes) (bcc : Byte) (s : State) : State × Status :=
  let r := (s.atLine .select).runExec (selectDesc s.params level part bcc)
  (r.1, stageStatus (r.2 == .ok) .select r.2)

/-- Halt: the executor's timeout is the success (R286). -/
def haltStage (s : State) : State × Status :=
  let r := (s.atLine .halt).runExec (hltaDesc s.params)
  (r.1, stageStatus (r.2 == .timer) .halt r.2)

/-- The end of a command from a stage's answer: FATAL has ended it already, an error ends it with an empty payload,
success goes on (R287, R418). -/
def afterStage (r : State × Status) (k : State → State) : State :=
  if r.2 = .fatal then r.1 else if r.2 = .ok then k r.1 else r.1.fail r.2

/-! ### The cascade loop of SCAN -/

/-- The registers of one completed level are written: BCC, SAK, and the level's UID bytes (R287, R294). -/
def recordLevel (level : Nat) (last : Bool) (part : Bytes) (bcc sak : Byte) (s : State) : State :=
  (s.atLine .record).setIdent
    { s.ident with
      bcc := s.ident.bcc.set (level - 1) bcc
      sak := s.ident.sak.set (level - 1) sak
      uid := s.ident.uid ++ uidBytesOfPart last part }

/-- One cascade level: anticollision, select, record (R287). -/
def cascadeLevel (level : Nat) (last : Bool) (s : State) : State × Status :=
  let a := s.anticollStage level
  if a.2 = .ok then
    let part := a.1.rxSlice.take 4
    let bcc := a.1.rxSlice.getD 4 0
    let c := a.1.selectStage level part bcc
    if c.2 = .ok then (c.1.recordLevel level last part bcc (c.1.rxSlice.getD 0 0), .ok) else c
  else a

/-- The levels `level, level + 1, …` (`n` of them); the first failure aborts the remaining ones (R287). -/
def cascadeLoop : (n level : Nat) → State → State × Status
  | 0, _, s => (s, .ok)
  | n + 1, level, s =>
    let r := (s.atLine .cascade).cascadeLevel level (n == 0)
    if r.2 = .ok then cascadeLoop n (level + 1) r.1 else r

/-- The halt at the end of SCAN, where the parameter asks for it (R290). -/
def scanHalt (s : State) : State × Status := if s.params.scanIncludesHalt then s.haltStage else (s, .ok)

/-- The end of a successful SCAN: the tag type of the last SAK, then the identity record (R287, R129). -/
def scanFinish (levels : Nat) (s : State) : State :=
  let s1 := (s.atLine .type).setIdent { s.ident with type := sakClass s.params.card (s.ident.sak.getD (levels - 1) 0) }
  s1.finish .ok (identityRecord s1.ident.type s1.ident.atqa levels s1.ident.uid s1.ident.bcc s1.ident.sak)

/-- SCAN from the ATQA on (R287, R288). -/
def scanCascade (s : State) : State :=
  match cascadeLevels (s.ident.atqa.getD 0 0) with
  | none => s.fail .activate
  | some levels =>
    let s1 := (s.atLine .cascadeLevels).setIdent { s.ident with levels := BitVec.ofNat 2 levels }
    afterStage (s1.cascadeLoop levels 1) fun s2 => afterStage s2.scanHalt (scanFinish levels)

/-- SCAN (R287). -/
def scanBody (s : State) : State :=
  afterStage ((s.atLine .clearUid).setIdent { s.ident with uid := [] }).wakeupStage fun s1 =>
    ((s1.atLine .atqa).setIdent { s1.ident with atqa := s1.rxSlice }).scanCascade

end State

/-- WAKEUP (R280). -/
def execWakeup (s : State) : Host.Outcome State Fault Refusal :=
  .next (s.command true fun s => State.afterStage s.wakeupStage fun s => s.finish .ok s.rxSlice)

/-- ANTICOLL (R282). -/
def execAnticoll (level : Byte) (s : State) : Host.Outcome State Fault Refusal :=
  .next (s.command (levelOk level) fun s =>
    State.afterStage (s.anticollStage level.toNat) fun s => s.finish .ok s.rxSlice)

/-- SELECT (R284). -/
def execSelect (level : Byte) (part : Bytes) (bcc : Byte) (s : State) : Host.Outcome State Fault Refusal :=
  .next (s.command (levelOk level && partOk part) fun s =>
    State.afterStage (s.selectStage level.toNat part bcc) fun s => s.finish .ok s.rxSlice)

/-- HALT (R286). -/
def execHalt (s : State) : Host.Outcome State Fault Refusal :=
  .next (s.command true fun s => State.afterStage s.haltStage fun s => s.finish .ok [])

/-- SCAN (R287). -/
def execScan (s : State) : Host.Outcome State Fault Refusal :=
  .next (s.command true State.scanBody)

end Sys2Proof.Machine
end

