-- ==== Sys2Proof/Machine/MifareClassic.lean ====
section
/-! DEFINITION. The MIFARE Classic sequencer: AUTH, READ_BLOCK, WRITE_BLOCK, READ_CLASSIC (R320 to R336). -/

namespace Sys2Proof.Machine

namespace State

/-! ### Single exchanges -/

/-- `AuthBody`: the authenticate run, then the status bit decides (R320). -/
def authBody (keyB : Bool) (sector : Byte) (key uid4 : Bytes) (s : State) : State × Status :=
  let r := (s.atLine .auth).runExec (authDesc s.params keyB sector key uid4)
  if r.2 = .ok then
    let v := (r.1.atLine .authStatus).regRead s.params.chip.status2.byte
    (v.2, if crypto1Set s.params.chip v.1 then .ok else .auth)
  else (r.1, stageStatus false .auth r.2)

/-- `ReadBlockBody`, and READ_PAGE's exchange, which sends the same frame (R323, R351). -/
def readStage (addr : Byte) (s : State) : State × Status :=
  let r := (s.atLine .read).runExec (mfReadDesc s.params addr)
  (r.1, stageStatus (r.2 == .ok) .read r.2)

/-- One phase of a block write: the run, then the acknowledge nibble (R325, R326). -/
def writePhase (l : Line) (d : Descriptor) (s : State) : State × Status :=
  let r := (s.atLine l).runExec d
  (r.1, stageStatus (r.2 == .ok && ackOk r.1.rxSlice) .write r.2)

/-- WRITE_BLOCK: the command phase, then the data phase (R325). -/
def writeBlockBody (block : Byte) (data : Bytes) (s : State) : State :=
  afterStage (s.writePhase .writeCommand (mfWriteDesc s.params block)) fun s1 =>
    afterStage (s1.writePhase .writeData (writeDataDesc s1.params data)) fun s2 => s2.finish .ok []

/-! ### The full read -/

/-- `W_ATTEMPT` is set to 0 (R330). -/
def clearAttempts (s : State) : State := s.setWork { s.work with attempt := 0 }

/-- `W_ATTEMPT <- W_ATTEMPT + 1` (R330). -/
def countAttempt (s : State) : State := s.setWork { s.work with attempt := s.work.attempt + 1 }

/-- Up to `n` attempts of a step, each from the loop's head; success and FATAL end them at once (R331). -/
def attempts (head : Line) (f : State → State × Status) (exhausted : Status) : Nat → State → State × Status
  | 0, s => (s.atLine head, exhausted)
  | n + 1, s =>
    let r := f (s.atLine head).countAttempt
    if r.2 = .ok ∨ r.2 = .fatal then r else attempts head f exhausted n r.1

/-- The authenticate step of a sector: key A and the chosen UID bytes (R330, R332). -/
def sectorAuth (sec : Nat) (s : State) : State × Status :=
  attempts .authAttempt
    (fun s => s.authBody false (byteOfNat sec) (s.work.keyA.getD sec []) (authUid s.params.card s.work.uid))
    .auth Config.maxAttempts s.clearAttempts

/-- The read step of one data block; its 16 bytes are appended to the image (R330). -/
def blockRead (sec b : Nat) (s : State) : State × Status :=
  let s1 := ((s.atLine .block).setWork { s.work with block := BitVec.ofNat 2 b }).clearAttempts
  let r := attempts .readAttempt (fun s => s.readStage (byteOfNat (4 * sec + b))) .read Config.maxAttempts s1
  if r.2 = .ok then
    ((r.1.atLine .append).setWork { r.1.work with image := r.1.work.image ++ r.1.rxSlice }, .ok)
  else r

/-- The data blocks `b, b + 1, …` of a sector (`n` of them) (R330). -/
def blockLoop (sec : Nat) : (n b : Nat) → State → State × Status
  | 0, _, s => (s, .ok)
  | n + 1, b, s =>
    let r := s.blockRead sec b
    if r.2 = .ok then blockLoop sec n (b + 1) r.1 else r

/-- The reconstructed trailer is appended to the image (R335). -/
def appendTrailer (sec : Nat) (s : State) : State :=
  (s.atLine .trailer).setWork { s.work with
    image := s.work.image ++ trailer s.params.card (s.work.keyA.getD sec []) (s.work.keyB.getD sec []) }

/-- One sector: authenticate, three data blocks, the trailer (R330). -/
def readSector (sec : Nat) (s : State) : State × Status :=
  let a := ((s.atLine .sector).setWork { s.work with sector := BitVec.ofNat 5 sec }).sectorAuth sec
  if a.2 = .ok then
    let b := a.1.blockLoop sec Config.dataBlocks 0
    if b.2 = .ok then (b.1.appendTrailer sec, .ok) else b
  else a

/-- The sectors `sec, sec + 1, …` (`n` of them) (R330). -/
def sectorLoop : (n sec : Nat) → State → State × Status
  | 0, _, s => (s, .ok)
  | n + 1, sec, s =>
    let r := s.readSector sec
    if r.2 = .ok then sectorLoop n (sec + 1) r.1 else r

/-- The working registers a full Classic read starts from (R330). -/
def loadClassic (uidlen : Byte) (uid keyA keyB : Bytes) (s : State) : State :=
  (s.atLine .loadKeys).setWork { s.work with
    uid := uid.take uidlen.toNat
    keyA := keysOfField keyA
    keyB := keysOfField keyB
    image := [] }

/-- READ_CLASSIC: the keys are zeroed before every `finish` but FATAL's (R330, R334). -/
def readClassicBody (uidlen : Byte) (uid keyA keyB : Bytes) (s : State) : State :=
  let r := (s.loadClassic uidlen uid keyA keyB).sectorLoop Config.sectors 0
  if r.2 = .fatal then r.1
  else if r.2 = .ok then (r.1.atLine .zeroKeys).zeroClassicKeys.finish .ok r.1.work.image
  else (r.1.atLine .zeroKeys).zeroClassicKeys.fail r.2

/-- AUTH: the keys are zeroed before every `finish` but FATAL's (R320, R334). -/
def authInstr (keysel sector : Byte) (key uid4 : Bytes) (s : State) : State :=
  let r := s.authBody (keysel == 1) sector key uid4
  if r.2 = .fatal then r.1
  else if r.2 = .ok then (r.1.atLine .zeroKeys).zeroAuthKeys.finish .ok []
  else (r.1.atLine .zeroKeys).zeroAuthKeys.fail r.2

end State

/-- AUTH (R320). -/
def execAuth (keysel sector : Byte) (key uid4 : Bytes) (s : State) : Host.Outcome State Fault Refusal :=
  .next (s.commandWith State.zeroAuthKeys (authOk keysel sector key uid4) (State.authInstr keysel sector key uid4))

/-- READ_BLOCK (R323). -/
def execReadBlock (block : Byte) (s : State) : Host.Outcome State Fault Refusal :=
  .next (s.command true fun s => State.afterStage (s.readStage block) fun s => s.finish .ok s.rxSlice)

/-- WRITE_BLOCK (R325). -/
def execWriteBlock (block : Byte) (data : Bytes) (s : State) : Host.Outcome State Fault Refusal :=
  .next (s.command (blockDataOk data) (State.writeBlockBody block data))

/-- READ_CLASSIC (R330). -/
def execReadClassic (uidlen : Byte) (uid keyA keyB : Bytes) (s : State) : Host.Outcome State Fault Refusal :=
  .next (s.commandWith State.zeroClassicKeys (classicOk uidlen uid keyA keyB) (State.readClassicBody uidlen uid keyA keyB))

end Sys2Proof.Machine
end

