-- ==== Sys2Proof/Machine/Ultralight.lean ====
section
/-! DEFINITION. MIFARE Ultralight/NTAG access: READ_PAGE and READ_ULTRALIGHT (R350 to R354). -/

namespace Sys2Proof.Machine

namespace State

/-- The image clipped to a page count, at most `UL_MAX_PAGES` (R352). -/
def clippedImage (pages : Nat) (s : State) : Bytes := s.work.image.take (4 * min pages Config.ulMaxPages)

/-- A failed window: at an end boundary the read is complete, elsewhere it is `ERR_READ` (R352, R353). -/
def windowFailed (s : State) : State :=
  let s1 := s.atLine .boundary
  if s1.work.page.toNat ∈ Config.ulEndBoundaries then s1.finish .ok (s1.clippedImage s1.work.page.toNat)
  else s1.fail .read

/-- A window's 16 bytes are appended and the page index moves on by 4 (R352). -/
def windowRead (s : State) : State :=
  (s.atLine .next).setWork { s.work with image := s.work.image ++ s.rxSlice, page := s.work.page + 4 }

/-- The loop of R352 over the windows from `W_PAGE` on, while it is below `UL_MAX_PAGES`. `fuel` bounds the number of
windows; the loop's own test ends it. -/
def windowLoop : (fuel : Nat) → State → State
  | 0, s => s.finish .ok (s.clippedImage Config.ulMaxPages)
  | fuel + 1, s =>
    if s.work.page.toNat < Config.ulMaxPages then
      let r := (s.atLine .window).readStage s.work.page
      if r.2 = .fatal then r.1
      else if r.2 = .ok then windowLoop fuel r.1.windowRead
      else r.1.windowFailed
    else s.finish .ok (s.clippedImage Config.ulMaxPages)

/-- READ_ULTRALIGHT (R352). -/
def readUltralightBody (s : State) : State :=
  windowLoop Config.ulMaxPages ((s.atLine .clearImage).setWork { s.work with image := [], page := 0 })

end State

/-- READ_PAGE (R350). -/
def execReadPage (page : Byte) (s : State) : Host.Outcome State Fault Refusal :=
  .next (s.command true fun s => State.afterStage (s.readStage page) fun s => s.finish .ok s.rxSlice)

/-- READ_ULTRALIGHT (R352). -/
def execReadUltralight (s : State) : Host.Outcome State Fault Refusal :=
  .next (s.command true State.readUltralightBody)

end Sys2Proof.Machine
end

