-- ==== Sys2Proof/Machine/Dispatch.lean ====
section
/-! DEFINITION. One arm per instruction, each one call of its meaning. -/

namespace Sys2Proof.Machine

def exec (i : Instr) (s : State) : Host.Outcome State Fault Refusal :=
  match i with
  | .regRead addr => Sys2Proof.Machine.execRegRead addr s
  | .regWrite addr value => Sys2Proof.Machine.execRegWrite addr value s
  | .regModify addr mask set => Sys2Proof.Machine.execRegModify addr mask set s
  | .fifoRead n => Sys2Proof.Machine.execFifoRead n s
  | .fifoWrite data => Sys2Proof.Machine.execFifoWrite data s
  | .setTimeout t => Sys2Proof.Machine.execSetTimeout t s
  | .execute d => Sys2Proof.Machine.execExecute d s
  | .hardReset => Sys2Proof.Machine.execHardReset s
  | .startSession => Sys2Proof.Machine.execStartSession s
  | .endSession => Sys2Proof.Machine.execEndSession s
  | .init => Sys2Proof.Machine.execInit s
  | .carrier mode => Sys2Proof.Machine.execCarrier mode s
  | .wakeup => Sys2Proof.Machine.execWakeup s
  | .anticoll level => Sys2Proof.Machine.execAnticoll level s
  | .select level part bcc => Sys2Proof.Machine.execSelect level part bcc s
  | .halt => Sys2Proof.Machine.execHalt s
  | .scan => Sys2Proof.Machine.execScan s
  | .auth keysel sector key uid4 => Sys2Proof.Machine.execAuth keysel sector key uid4 s
  | .readBlock block => Sys2Proof.Machine.execReadBlock block s
  | .writeBlock block data => Sys2Proof.Machine.execWriteBlock block data s
  | .readClassic uidlen uid keyA keyB => Sys2Proof.Machine.execReadClassic uidlen uid keyA keyB s
  | .readPage page => Sys2Proof.Machine.execReadPage page s
  | .readUltralight => Sys2Proof.Machine.execReadUltralight s
  | .busRegRead addr => Sys2Proof.Machine.execBusRegRead addr s
  | .busRegWrite addr value => Sys2Proof.Machine.execBusRegWrite addr value s
  | .busFifoRead n => Sys2Proof.Machine.execBusFifoRead n s
  | .busFifoWrite data => Sys2Proof.Machine.execBusFifoWrite data s
  | .cardWupa => Sys2Proof.Machine.execCardWupa s
  | .cardAnticollL1 => Sys2Proof.Machine.execCardAnticollL1 s
  | .cardSelectL1 part bcc => Sys2Proof.Machine.execCardSelectL1 part bcc s
  | .cardAnticollL2 => Sys2Proof.Machine.execCardAnticollL2 s
  | .cardSelectL2 part bcc => Sys2Proof.Machine.execCardSelectL2 part bcc s
  | .cardAnticollL3 => Sys2Proof.Machine.execCardAnticollL3 s
  | .cardSelectL3 part bcc => Sys2Proof.Machine.execCardSelectL3 part bcc s
  | .cardHlta => Sys2Proof.Machine.execCardHlta s
  | .cardAuthA sector key uid4 => Sys2Proof.Machine.execCardAuthA sector key uid4 s
  | .cardAuthB sector key uid4 => Sys2Proof.Machine.execCardAuthB sector key uid4 s
  | .cardRead addr => Sys2Proof.Machine.execCardRead addr s
  | .cardWrite block => Sys2Proof.Machine.execCardWrite block s

end Sys2Proof.Machine
end

