-- ==== Sys2Proof/Machine/Sequencer.lean ====
section
/-! DEFINITION. How an offered frame runs: accepted, decoded, executed or rejected (R122, R124). -/

namespace Sys2Proof.Machine

/-- A byte string that is no frame of its encoding. On the host port the engine answers it (R124); on the bus or as a
card frame the engine never sends it, and the step is refused by name (log entry 6). -/
def rejectOffer (o : Offer) (s : State) : Host.Outcome State Fault Refusal :=
  match o.port with
  | .host => .next s.rejectHost
  | .bus => .refused .notAnEngineFrame
  | .card => .refused .notAnEngineFrame

/-- One offered frame is taken and run to its end (R32, R122). -/
def runOffer (o : Offer) (s : State) : Host.Outcome State Fault Refusal :=
  match decodeOffer s.params o with
  | .ok i => exec i (s.accept o)
  | .error _ => rejectOffer o (s.accept o)

/-- A step in IDLE or FATAL: the oldest offered frame runs, and with none the engine waits (R122, R446). -/
def takeNext (s : State) : Host.Outcome State Fault Refusal :=
  match s.offers with
  | [] => .next s
  | o :: rest => runOffer o (s.setOffers rest)

/-- A frame is put where the next step takes it from: first at its port, the engine ready to take it. -/
def State.placeOffer (o : Offer) (s : State) : State :=
  let s1 := s.setOffers (o :: s.offers)
  if s1.st = .fatal then s1 else s1.setSt .idle

end Sys2Proof.Machine
end

