-- ==== Sys2Proof/Machine/Step.lean ====
section
/-! DEFINITION. One step of the machine, and the placing of a table word where the next step takes it from. -/

namespace Sys2Proof.Machine

/-- One step: in RESET the power-up sequence runs (R450), in IDLE and FATAL the next offered frame runs to its end
(R122, R404). Between steps the engine is never BUSY; such a state stops by name. -/
def step (s : State) : Host.Outcome State Fault Refusal :=
  match s.st with
  | .reset => .next s.powerUpSequence
  | .idle => takeNext s
  | .busy => .fault .insideCommand
  | .fatal => takeNext s

/-- `s` with the frame of a table word offered first, so that the next step runs it. -/
def State.withFetchWord (s : State) (nbits w : Nat) : State := s.placeOffer (tableOffer s.params nbits w)

end Sys2Proof.Machine
end

