-- ==== Sys2Proof/Safety.lean ====
section
/-! DEFINITION. The terms claims are stated in: well-framed port events, result frames, and the invariant of the engine
between commands. -/

namespace Sys2Proof.Machine

/-- The event is a bus transfer. -/
def Event.isXfer : Event → Bool
  | .xfer _ _ => true
  | _ => false

/-- The bytes an event sends on the bus. -/
def Event.sent : Event → Bytes
  | .xfer out _ => out
  | _ => []

/-- The event is a result frame. -/
def Event.isResult : Event → Bool
  | .result _ => true
  | _ => false

/-- What the bus port shows of a transfer: bytes are sent, as many come back (R82), and bit 0 of the address byte is 0
(R84). Other events are not constrained. -/
def Event.wellFramed : Event → Bool
  | .xfer out inp => !out.isEmpty && inp.length == out.length && !(out.getD 0 0).getLsbD 0
  | _ => true

/-- `s` with the result frame of status byte `st` and payload `data` written and the engine IDLE (R121: what a `finish`
leaves outside FATAL). That `pc` then names the command's last line and that the multiplexer's last read is forgotten are
the model's (log entries 7, 14 and 19). -/
def State.answered (st : Byte) (data : Bytes) (s : State) : State :=
  let r := [st, BitVec.ofNat 8 data.length, BitVec.ofNat 8 (data.length / 256)] ++ data
  { s with
    st := .idle
    pc := ⟨s.pc.op, .finish⟩
    host := { s.host with res := r, resValid := true }
    rOut := []
    hist := s.hist ++ [.result r] }

/-- A byte string is empty or a result frame: three header bytes, the length as the header says, at most 1024 data
bytes (R121). -/
def resultWellFormed (r : Bytes) : Bool :=
  r.isEmpty || (3 ≤ r.length && r.length == 3 + (r.getD 1 0).toNat + 256 * (r.getD 2 0).toNat && r.length ≤ 1027)

/-- A key bank has 16 keys of 6 bytes (R36). -/
def keyBankShaped (k : List Bytes) : Bool := k.length == 16 && k.all fun b => b.length == 6

/-- The receive registers agree: the count is the buffer's length and within its capacity, which is at most 255
(R33, R128, R228). -/
structure ReceiveInv (d : Desc) : Prop where
  count : d.rxBuf.length = d.rxCnt.toNat
  fits : d.rxCnt.toNat ≤ d.rxCap.toNat
  cap : d.rxCap.toNat ≤ 255

/-- The identity registers have the sizes of R35. -/
structure IdentInv (i : Ident) : Prop where
  atqa : i.atqa.length = 2
  uid : i.uid.length ≤ 10
  bcc : i.bcc.length = 3
  sak : i.sak.length = 3

/-- The working registers have the sizes of R36. -/
structure WorkInv (w : Work) : Prop where
  image : w.image.length ≤ 1024
  uid : w.uid.length ≤ 10
  keyA : keyBankShaped w.keyA = true
  keyB : keyBankShaped w.keyB = true

/-- The host port registers: sizes of R37, a result that is ready is there, and it is a result frame (R121). -/
structure HostInv (h : HostPort) : Prop where
  cmd : h.cmd.length ≤ 255
  res : resultWellFormed h.res = true
  valid : h.resValid = true → h.res ≠ []

/-- What holds of the engine between commands. -/
structure Inv (s : State) : Prop where
  /-- A command is never left half run (R32). -/
  notBusy : s.st ≠ .busy
  receive : ReceiveInv s.d
  ident : IdentInv s.ident
  work : WorkInv s.work
  host : HostInv s.host
  /-- No key outlives its command, but in FATAL (R334). -/
  keys : s.st ≠ .fatal → s.work.keyA = zeroKeyBank ∧ s.work.keyB = zeroKeyBank
  /-- In FATAL the host has been answered `[FF 00 00]` (R404a). -/
  fatal : s.st = .fatal → s.host.res = [0xFF, 0x00, 0x00] ∧ s.host.resValid = true
  /-- The reset line is released outside the reset sequences (R38, R451). -/
  released : s.st ≠ .reset → s.pRst = true
  /-- Every transfer the bus has shown is well framed (R82, R84). -/
  framed : ∀ e ∈ s.hist, e.wellFramed = true

/-- SCAN's first `n` levels of `levels` have succeeded (R287): from `u k` the anticollision run of level `k + 1` leads to
`a k` with the reply `part k ++ [bcc k]`, which passes the BCC check, the select run leads to `c k` with the reply `[sak k]`,
and `u (k + 1)` is `c k` with the level recorded (R294). -/
def ScanLevelsRead (p : Config.Params) (levels n : Nat) (u a c : Nat → State) (part : Nat → Bytes)
    (bcc sak : Nat → Byte) : Prop :=
  ∀ k < n,
    ((u k).atLine .anticoll).runExec (anticollDesc p (k + 1)) = (a k, .ok) ∧
    (a k).rxSlice = part k ++ [bcc k] ∧ (part k).length = 4 ∧ bccOk (part k ++ [bcc k]) = true ∧
    ((a k).atLine .select).runExec (selectDesc p (k + 1) (part k) (bcc k)) = (c k, .ok) ∧
    (c k).rxSlice = [sak k] ∧
    u (k + 1) = { c k with ident := { (c k).ident with
      bcc := (c k).ident.bcc.set k (bcc k)
      sak := (c k).ident.sak.set k (sak k)
      uid := (c k).ident.uid ++ if k + 1 = levels then part k else (part k).drop 1 } }

/-- Two states that may differ only in the registers R451 leaves unspecified: `pc`, the descriptor, identity and working
registers, and what the model keeps of the last read and the last run. -/
structure SameButUnspecified (s t : State) : Prop where
  st : s.st = t.st
  sess : s.sess = t.sess
  host : s.host = t.host
  pRst : s.pRst = t.pRst
  offers : s.offers = t.offers
  env : s.env = t.env
  params : s.params = t.params
  hist : s.hist = t.hist

end Sys2Proof.Machine
end

