-- ==== Sys2Proof/Certificates/Slice0/Obligations.lean ====
section
/-! DEFINITION. The statements for the provers. They hold for every chip map and every card table, which a state's `params`
holds; `DefaultParametersAreTheSpecs` says which values the machine at hand has (log entries 1 to 3). The transfers, the
executor run and the multiplexer operations a statement names have statements of their own, down to the bytes. A run inside
a command starts at a line of the command's rule, `s.atLine l`, which is `s` but for the label of `pc` (log entry 19); that
a finished command leaves `pc` at its last line and the multiplexer's last read forgotten (`State.answered`) is the model's
(log entries 7 and 14). -/

open Sys2Proof Sys2Proof.Machine

/-! ### Reset -/

/-- R451: after the power-up sequence every register that the rule gives a value holds it. -/
def Obligations.ResetHoldsTheStatedValues : Prop :=
  State.reset.st = .idle ∧ State.reset.sess.active = false ∧ State.reset.sess.carrier = 0 ∧
    State.reset.work.keyA = List.replicate 16 (List.replicate 6 0) ∧
    State.reset.work.keyB = List.replicate 16 (List.replicate 6 0) ∧
    State.reset.host.cmd = [] ∧ State.reset.host.res = [] ∧ State.reset.host.resValid = false ∧
    State.reset.pRst = true

/-- R450: the machine begins in RESET, and the step in RESET pulses the reset line, closes the session, zeroes the keys,
empties the host port and ends in IDLE, with no host frame, no result frame and no bus transfer. -/
def Obligations.PowerUpRunsTheResetSequence : Prop :=
  State.powerUp.st = .reset ∧
  ∀ s : State, s.st = .reset →
    step s = .next { s with
      st := .idle
      sess := ⟨false, 0⟩
      work := { s.work with
        keyA := List.replicate 16 (List.replicate 6 0)
        keyB := List.replicate 16 (List.replicate 6 0) }
      host := ⟨[], [], false⟩
      pRst := true
      hist := s.hist ++ [.pin false, .wait 300, .pin true, .wait 300] }

/-- The invariant of the engine between commands holds at reset. Its clauses about the descriptor, identity and working
registers, the keys apart, hold of the values the model chose where R451 gives none (log entry 9, a design choice). -/
def Obligations.ResetSatisfiesTheInvariant : Prop := Inv State.reset

/-- R50, R52, R150, R160, R289, R332, R335: the chip map and the card table of the machine at hand are the default values the
spec adopts from general knowledge (log entries 1 to 3: presumed), and the fields are the bits the map names. -/
def Obligations.DefaultParametersAreTheSpecs : Prop :=
  (State.reset.params.chip = Config.chipDefault ∧ State.reset.params.card = Config.cardDefault) ∧
  (∀ c : Config.Chip, c = Config.chipDefault →
    [c.command, c.comIEn, c.comIrq, c.divIrq, c.error, c.status2, c.fifoData, c.fifoLevel, c.waterLevel, c.control,
      c.bitFraming, c.coll] = [0x01, 0x02, 0x04, 0x05, 0x06, 0x08, 0x09, 0x0A, 0x0B, 0x0C, 0x0D, 0x0E] ∧
    [c.txMode, c.rxMode, c.txControl, c.txAuto, c.rxThreshold, c.gsn, c.cwGsp, c.modGsp, c.tMode, c.tPrescaler,
      c.tReloadH, c.tReloadL] = [0x12, 0x13, 0x14, 0x15, 0x18, 0x27, 0x28, 0x29, 0x2A, 0x2B, 0x2C, 0x2D] ∧
    [c.irqTimer, c.irqErr, c.irqLoAlert, c.irqHiAlert, c.irqIdle, c.irqRx, c.irqTx, c.irqSet1] =
      [0x01, 0x02, 0x04, 0x08, 0x10, 0x20, 0x40, 0x80] ∧
    [c.armValue, c.flushBuffer, c.irqClearAll, c.txCrcEn, c.rxCrcEn, c.startSend, c.collErr, c.crypto1On, c.tx1RfEn,
      c.tx2RfEn] = [0x10, 0x80, 0x7F, 0x80, 0x80, 0x80, 0x08, 0x08, 0x01, 0x02] ∧
    (c.cmdIdle = 0x0 ∧ c.cmdTransceive = 0xC ∧ c.cmdAuthent = 0xE) ∧
    (∀ v : Byte, c.rxLastBits.get v = (v &&& 0x07).toNat ∧ c.fifoCount.get v = (v &&& 0x7F).toNat ∧
      c.collPos.get v = (v &&& 0x1F).toNat) ∧
    (∀ n : BitVec 4, c.commandField.put n.toNat = n.setWidth 8 ∧ c.prescalerHi.put n.toNat = n.setWidth 8) ∧
    ∀ rx tx : BitVec 3, bitFraming c rx tx = (rx.setWidth 8 <<< 4) ||| tx.setWidth 8) ∧
  (∀ c : Config.Card, c = Config.cardDefault →
    [c.wupa, c.sel1, c.sel2, c.sel3, c.hlta0, c.hlta1, c.authA, c.authB, c.mfRead, c.mfWrite] =
      [0x52, 0x93, 0x95, 0x97, 0x50, 0x00, 0x60, 0x61, 0x30, 0xA0] ∧
    c.accessBits = [0xFF, 0x07, 0x80, 0x69] ∧ c.authUidOffset = 0 ∧
    ∀ sak : Byte, sakClass c sak =
      if sak = 0x08 ∨ sak = 0x09 ∨ sak = 0x18 then 0x01 else if sak = 0x00 then 0x02 else 0x00)

/-- The invariant of the engine between commands is kept by every step. -/
def Obligations.EveryStepKeepsTheInvariant : Prop :=
  ∀ s t : State, Inv s → step s = .next t → Inv t

/-! ### Encoding, acceptance, rejection -/

/-- Decoding the frame of a well-formed instruction gives the instruction back, whatever the chip map and, for host and bus
frames, the card table; a card frame is told from the others by its first byte, so there the card's command bytes must
differ, as the default ones do. The register frames at the FIFO-data address are the FIFO frames of one byte (R142), and
are the only frames two instructions share. -/
def Obligations.DecodeUndoesEncode : Prop :=
  (∀ (p : Config.Params) (i : Instr), i.wellFormed = true → (i.port = .card → p.card.distinct = true) →
    i ≠ .busRegRead p.chip.fifoData.byte → (∀ v, i ≠ .busRegWrite p.chip.fifoData.byte v) →
    decodeOffer p ⟨i.port, encode p i⟩ = .ok i) ∧
  (∀ p : Config.Params, encode p (.busRegRead p.chip.fifoData.byte) = encode p (.busFifoRead 1) ∧
    ∀ v, encode p (.busRegWrite p.chip.fifoData.byte v) = encode p (.busFifoWrite [v])) ∧
  Config.cardDefault.distinct = true

/-- No bit of a host frame is dropped: a frame that decodes is the encoding of what it decodes to, and has 1 to 255
bytes (R120). -/
def Obligations.HostFramesReencode : Prop :=
  ∀ (p : Config.Params) (f : Bytes) (i : Instr), decodeHost f = .ok i → encode p i = f ∧ 1 ≤ f.length ∧ f.length ≤ 255

/-- Words written out from R125 to R128 and R175 (host), R140 to R143 (bus) and R160 (card) decode to the instructions
they stand for. The bus and card bytes are those of the default map and table (log entries 1 and 2). -/
def Obligations.WrittenOutFramesDecode : Prop :=
  decodeHost [0x02, 0x0B, 0x20] = .ok (.regWrite 0x0B 0x20) ∧
  decodeHost [0x10, 0xC8, 0x00] = .ok (.setTimeout 200) ∧
  decodeHost [0x32, 0x01, 0xDE, 0xAD, 0xBE, 0xEF, 0x22] = .ok (.select 1 [0xDE, 0xAD, 0xBE, 0xEF] 0x22) ∧
  decodeHost [0x11, 0x00, 0x07, 0x01, 0x02, 0x02, 0x01, 0x00, 0x52] =
    .ok (.execute ⟨.transceive, false, false, 7, 0, 2, 2, 1, [0x52]⟩) ∧
  decodeHost [0x40, 0x00, 0x01, 0xFF, 0xFF, 0xFF, 0xFF, 0xFF, 0xFF, 0xDE, 0xAD, 0xBE, 0xEF] =
    .ok (.auth 0 1 [0xFF, 0xFF, 0xFF, 0xFF, 0xFF, 0xFF] [0xDE, 0xAD, 0xBE, 0xEF]) ∧
  decodeBus Config.chipDefault [0x88, 0x00] = .ok (.busRegRead 0x04) ∧
  decodeBus Config.chipDefault [0x16, 0x20] = .ok (.busRegWrite 0x0B 0x20) ∧
  decodeBus Config.chipDefault [0x92, 0x92, 0x00] = .ok (.busFifoRead 2) ∧
  decodeBus Config.chipDefault [0x12, 0x52] = .ok (.busFifoWrite [0x52]) ∧
  decodeCard Config.cardDefault [0x52] = .ok .cardWupa ∧
  decodeCard Config.cardDefault [0x95, 0x70, 0xAA, 0xBB, 0xCC, 0xDD, 0x00] = .ok (.cardSelectL2 [0xAA, 0xBB, 0xCC, 0xDD] 0x00)

/-- R124, R36: a frame that is not the frame of a well-formed host instruction (its opcode is unassigned, its length is not
the opcode's, an operand is out of range, or a reserved bit is set) is answered `ERR_PARAM`, with no bus transfer and no
register written but those of the acceptance and the result. If its opcode is AUTH's or READ_CLASSIC's, the bytes of
`H_CMD` where that command has keys are zeroed, and the key registers: R124 allows no register write and R36 wants the
keys gone before every `finish`, and the model reads R124 as speaking of chip registers (log entry 23). -/
def Obligations.InvalidHostFrameIsErrParam : Prop :=
  ∀ (s : State) (f : Bytes) (rest : List Offer) (op : Byte), s.st = .idle → s.offers = ⟨.host, f⟩ :: rest →
    1 ≤ f.length → f.length ≤ 255 → f.getD 0 0 = op →
    (∀ i : Instr, i.port = .host → i.wellFormed = true → encode s.params i ≠ f) →
    step s = .next { s with
      offers := rest
      pc := ⟨op, .finish⟩
      rOut := []
      work := if op = 0x40 ∨ op = 0x43 then { s.work with
          keyA := List.replicate 16 (List.replicate 6 0)
          keyB := List.replicate 16 (List.replicate 6 0) }
        else s.work
      host := ⟨f.mapIdx fun k b =>
          if (op = 0x40 ∧ 3 ≤ k ∧ k ≤ 8) ∨ (op = 0x43 ∧ 12 ≤ k ∧ k ≤ 203) then 0 else b,
        [0x02, 0x00, 0x00], true⟩
      hist := s.hist ++ [.command f, .result [0x02, 0x00, 0x00]] }

/-- R122, R452: the oldest offered frame that decodes to `i` is taken, and the step is `exec i`. In IDLE a host frame is
copied to `H_CMD`, `H_RES_VALID` cleared, the engine BUSY at the command's first step. In FATAL that is done for
HARD_RESET alone. A bus or card frame goes to its unit as it is (the model's choice, log entry 6). With no frame
offered the engine waits. -/
def Obligations.StepRunsTheDecodedFrame : Prop :=
  ∀ (s : State) (o : Offer) (rest : List Offer) (i : Instr), decodeOffer s.params o = .ok i → s.offers = o :: rest →
    (o.port = .host → s.st = .idle ∨ (s.st = .fatal ∧ i = .hardReset) →
      step s = exec i { s with
        offers := rest
        st := .busy
        pc := ⟨o.frame.getD 0 0, .first⟩
        host := ⟨o.frame, s.host.res, false⟩
        hist := s.hist ++ [.command o.frame] }) ∧
    (o.port = .host → s.st = .fatal → i ≠ .hardReset →
      step s = exec i { s with offers := rest, hist := s.hist ++ [.command o.frame] }) ∧
    (o.port ≠ .host → s.st = .idle ∨ s.st = .fatal → step s = exec i { s with offers := rest }) ∧
    (s.st = .idle ∨ s.st = .fatal → step { s with offers := [] } = .next { s with offers := [] })

/-! ### The bus and the register access multiplexer -/

/-- R82: a transfer returns as many bytes as it sends. Bytes the environment holds are returned in order, and nothing but
the environment and the record of the bus changes. -/
def Obligations.TransferIsFullDuplex : Prop :=
  ∀ (out : Bytes) (s : State),
    (s.xfer out).1.length = out.length ∧
    (s.xfer out).2 = { s with
      env := (s.xfer out).2.env
      hist := s.hist ++ [.xfer out (s.xfer out).1] } ∧
    ∀ inp rest : Bytes, s.env.busIn = inp ++ rest → inp.length = out.length →
      (s.xfer out).1 = inp ∧ (s.xfer out).2.env = { s.env with busIn := rest }

/-- R180: `RegRead` sends `[((a << 1) | 0x80) & 0xFF, 0x00]` and returns the second byte; REG_READ answers it. An address
above 63 is `ERR_PARAM`. -/
def Obligations.RegReadReturnsTheSecondByte : Prop :=
  ∀ (a : Byte) (s : State), s.st ≠ .fatal →
    encode s.params (.regRead a) = [0x01, a] ∧
    (a.toNat ≤ 63 →
      exec (.regRead a) s =
        .next (State.answered 0x00 [(s.xfer [(a <<< 1) ||| 0x80, 0x00]).1.getD 1 0]
          { (s.xfer [(a <<< 1) ||| 0x80, 0x00]).2 with
            rOut := [(s.xfer [(a <<< 1) ||| 0x80, 0x00]).1.getD 1 0] })) ∧
    (63 < a.toNat → exec (.regRead a) s = .next (s.answered 0x02 []))

/-- R181: `RegWrite` sends `[(a << 1) & 0x7E, v]`. An address above 63 is `ERR_PARAM`. -/
def Obligations.RegWriteSendsAddressAndValue : Prop :=
  ∀ (a v : Byte) (s : State), s.st ≠ .fatal →
    encode s.params (.regWrite a v) = [0x02, a, v] ∧
    (a.toNat ≤ 63 →
      exec (.regWrite a v) s = .next ((s.xfer [(a <<< 1) &&& 0x7E, v]).2.answered 0x00 [])) ∧
    (63 < a.toNat → exec (.regWrite a v) s = .next (s.answered 0x02 []))

/-- R182: `RegModify` is a register read, then, in every case, a register write of `v | m` or `v & (0xFF ^ m)`. An
address above 63 or a `set` above 1 is `ERR_PARAM`. -/
def Obligations.RegModifyIsReadThenWrite : Prop :=
  ∀ (a m b : Byte) (s : State), s.st ≠ .fatal →
    encode s.params (.regModify a m b) = [0x03, a, m, b] ∧
    (a.toNat ≤ 63 → b = 1 →
      exec (.regModify a m b) s = .next (((s.regRead a).2.regWrite a ((s.regRead a).1 ||| m)).answered 0x00 [])) ∧
    (a.toNat ≤ 63 → b = 0 →
      exec (.regModify a m b) s =
        .next (((s.regRead a).2.regWrite a ((s.regRead a).1 &&& (0xFF ^^^ m))).answered 0x00 [])) ∧
    (63 < a.toNat ∨ 1 < b.toNat → exec (.regModify a m b) s = .next (s.answered 0x02 []))

/-- R183: `FifoRead(n)` sends the FIFO read address `n` times and a dummy byte, and returns bytes 1 to n; for `n = 0` it
makes no transfer. -/
def Obligations.FifoReadPopsNBytes : Prop :=
  ∀ (n : Byte) (s : State), s.st ≠ .fatal →
    encode s.params (.fifoRead n) = [0x04, n] ∧
    (n.toNat ≠ 0 →
      exec (.fifoRead n) s =
        .next (State.answered 0x00
          ((s.xfer (List.replicate n.toNat ((s.params.chip.fifoData.byte <<< 1) ||| 0x80) ++ [0x00])).1.drop 1)
          { (s.xfer (List.replicate n.toNat ((s.params.chip.fifoData.byte <<< 1) ||| 0x80) ++ [0x00])).2 with
            rOut := (s.xfer (List.replicate n.toNat ((s.params.chip.fifoData.byte <<< 1) ||| 0x80) ++ [0x00])).1.drop 1 })) ∧
    (n.toNat = 0 → exec (.fifoRead n) s = .next (State.answered 0x00 [] { s with rOut := [] }))

/-- R184: `FifoWrite(s)` sends the FIFO write address once and then the bytes; an empty string makes no transfer. A frame
whose length is not `2 + n` is no frame of any instruction, and so is `ERR_PARAM` (`InvalidHostFrameIsErrParam`). -/
def Obligations.FifoWritePushesTheBytes : Prop :=
  ∀ (b : Bytes) (s : State), s.st ≠ .fatal → b.length ≤ 253 →
    encode s.params (.fifoWrite b) = 0x05 :: BitVec.ofNat 8 b.length :: b ∧
    (b ≠ [] →
      exec (.fifoWrite b) s = .next ((s.xfer (((s.params.chip.fifoData.byte <<< 1) &&& 0x7E) :: b)).2.answered 0x00 [])) ∧
    (b = [] → exec (.fifoWrite b) s = .next (s.answered 0x00 [])) ∧
    ∀ n : Byte, b.length ≠ n.toNat → decodeHost (0x05 :: n :: b) = .error .wrongLength

/-- R140 to R143: each bus frame is one transfer of its bytes; what a read returns is `in[1]`, or `in[1 .. n+1)`; a FIFO
frame of no bytes is no transfer. That the opcode table's bus rows run on their own, without a result frame, is the
model's choice (log entry 6). -/
def Obligations.BusFramesAreOneTransfer : Prop :=
  ∀ (a v : Byte) (n : Nat) (b : Bytes) (s : State), s.st ≠ .fatal →
    exec (.busRegRead a) s = .next { (s.xfer [(a <<< 1) ||| 0x80, 0x00]).2 with
      rOut := [(s.xfer [(a <<< 1) ||| 0x80, 0x00]).1.getD 1 0] } ∧
    exec (.busRegWrite a v) s = .next (s.xfer [(a <<< 1) &&& 0x7E, v]).2 ∧
    exec (.busFifoRead (n + 1)) s = .next
      { (s.xfer (List.replicate (n + 1) ((s.params.chip.fifoData.byte <<< 1) ||| 0x80) ++ [0x00])).2 with
        rOut := (s.xfer (List.replicate (n + 1) ((s.params.chip.fifoData.byte <<< 1) ||| 0x80) ++ [0x00])).1.drop 1 } ∧
    exec (.busFifoRead 0) s = .next { s with rOut := [] } ∧
    (b ≠ [] → exec (.busFifoWrite b) s = .next (s.xfer (((s.params.chip.fifoData.byte <<< 1) &&& 0x7E) :: b)).2) ∧
    exec (.busFifoWrite []) s = .next s

/-! ### Timing controller -/

/-- R200: with `N = max(t, 1) · 13560 - 1`, SET_TIMEOUT programs the first prescaler `p` whose reload `N / (2p + 1)` fits
16 bits; where none does it programs `0xFFF` and `0xFFFF`. The four writes are in the rule's order. -/
def Obligations.SetTimeoutProgramsTheFirstPrescaler : Prop :=
  ∀ (t : BitVec 16) (s : State) (p r : Nat), s.st ≠ .fatal →
    (p ≤ 0xFFF ∧ r = (max t.toNat 1 * 13560 - 1) / (p * 2 + 1) ∧ r ≤ 0xFFFF ∧
        (∀ p' < p, 0xFFFF < (max t.toNat 1 * 13560 - 1) / (p' * 2 + 1))) ∨
      (p = 0xFFF ∧ r = 0xFFFF ∧ ∀ p' ≤ 0xFFF, 0xFFFF < (max t.toNat 1 * 13560 - 1) / (p' * 2 + 1)) →
    encode s.params (.setTimeout t) = [0x10, BitVec.ofNat 8 t.toNat, BitVec.ofNat 8 (t.toNat / 256)] ∧
    exec (.setTimeout t) s =
      .next (((((s.regWrite s.params.chip.tMode.byte (0x80 ||| s.params.chip.prescalerHi.put (p / 256))).regWrite
        s.params.chip.tPrescaler.byte (BitVec.ofNat 8 p)).regWrite
        s.params.chip.tReloadH.byte (BitVec.ofNat 8 (r / 256))).regWrite
        s.params.chip.tReloadL.byte (BitVec.ofNat 8 r)).answered 0x00 [])

/-- R201: the search has a closed form. With `q = N / 65536` the prescaler is `⌈q / 2⌉` when that is at most `0xFFF`. -/
def Obligations.PrescalerHasAClosedForm : Prop :=
  ∀ t : Nat, ((max t 1 * 13560 - 1) / 65536 + 1) / 2 ≤ 0xFFF →
    timerPair t = (((max t 1 * 13560 - 1) / 65536 + 1) / 2,
      (max t 1 * 13560 - 1) / (((max t 1 * 13560 - 1) / 65536 + 1) / 2 * 2 + 1))

/-- R202: for every request in 1..39587 the programmed pair gives it back within one timer tick, never above it; in every
case both fields fit their registers. -/
def Obligations.TimeoutRoundTrips : Prop :=
  (∀ t : Nat, 1 ≤ t → t ≤ 39587 →
    (timerPair t).2 * (2 * (timerPair t).1 + 1) + 1 ≤ t * 13560 ∧
    t * 13560 - ((timerPair t).2 * (2 * (timerPair t).1 + 1) + 1) < 2 * (timerPair t).1 + 1) ∧
  ∀ t : Nat, (timerPair t).1 ≤ 0xFFF ∧ (timerPair t).2 ≤ 0xFFFF

/-- R203: 39587 is the largest request for which a prescaler fits, there with the pair `0xFFF, 65535`; every larger one
saturates, and is then programmed shorter than requested, by a tick or more. The executor keeps the unsaturated request. -/
def Obligations.TimeoutSaturatesAbove39587 : Prop :=
  (∀ t : Nat, 1 ≤ t → ((∃ p ≤ 0xFFF, (t * 13560 - 1) / (p * 2 + 1) ≤ 0xFFFF) ↔ t ≤ 39587)) ∧
  timerPair 39587 = (0xFFF, 65535) ∧ (∀ t : Nat, 39588 ≤ t → timerPair t = (0xFFF, 0xFFFF) ∧
    0xFFFF * (2 * 0xFFF + 1) + 1 + (2 * 0xFFF + 1) ≤ t * 13560) ∧
  ∀ (d : Descriptor) (s : State), (s.execLoad d).d.timeout = d.timeout

/-! ### Command executor -/

/-- R207: LOAD writes the descriptor registers fresh. Only `D_IRQ` and `D_T0` keep their values, and nothing but the
descriptor registers and the label of `pc` (the model's, log entry 19) changes. -/
def Obligations.LoadWritesTheDescriptorFresh : Prop :=
  ∀ (d : Descriptor) (s : State),
    s.execLoad d = { s with
      pc := ⟨s.pc.op, ⟨s.pc.step.line, .load⟩⟩
      d :=
        { family := d.family
          cmd := if d.family = .authenticate then s.params.chip.cmdAuthent else s.params.chip.cmdTransceive
          crcTx := d.crcTx
          crcRx := d.crcRx
          txBits := d.txBits
          txLen := BitVec.ofNat 8 d.tx.length
          txPend := d.tx
          rxBits := d.rxBits
          rxLen := d.rxLen
          rxCap := d.rxCap.setWidth 11
          rxBuf := []
          rxCnt := 0
          rxBitsAct := 0
          collPos := 0
          err := 0
          sendDone := false
          timeout := d.timeout
          irq := s.d.irq
          t0 := s.d.t0 } }

/-- R208 to R211: PRE-RUN makes exactly these 13 transfers, in this order; the two CRC registers are written back with the
enable set or cleared in the byte that was read, and the timer is programmed last. -/
def Obligations.PreRunMakesThirteenTransfers : Prop :=
  ∀ (c : Config.Chip) (s : State) (b : Bytes), s.params.chip = c → b = (s.env.drawBytes 26).1 →
    ∃ evs : List Event, s.execPreRun.hist = s.hist ++ evs ∧ (∀ e ∈ evs, e.isXfer = true) ∧
      evs.map Event.sent =
        [regWriteFrame c.fifoLevel.byte c.flushBuffer, regWriteFrame c.comIrq.byte c.irqClearAll,
          regWriteFrame c.divIrq.byte c.irqClearAll, regWriteFrame c.comIEn.byte c.armValue,
          regWriteFrame c.waterLevel.byte 32,
          regReadFrame c.txMode.byte,
          regWriteFrame c.txMode.byte
            (if s.d.crcTx then b.getD 11 0 ||| c.txCrcEn else b.getD 11 0 &&& (0xFF ^^^ c.txCrcEn)),
          regReadFrame c.rxMode.byte,
          regWriteFrame c.rxMode.byte
            (if s.d.crcRx then b.getD 15 0 ||| c.rxCrcEn else b.getD 15 0 &&& (0xFF ^^^ c.rxCrcEn)),
          regWriteFrame c.tMode.byte (0x80 ||| c.prescalerHi.put ((timerPair s.d.timeout.toNat).1 / 256)),
          regWriteFrame c.tPrescaler.byte (BitVec.ofNat 8 (timerPair s.d.timeout.toNat).1),
          regWriteFrame c.tReloadH.byte (BitVec.ofNat 8 ((timerPair s.d.timeout.toNat).2 / 256)),
          regWriteFrame c.tReloadL.byte (BitVec.ofNat 8 (timerPair s.d.timeout.toNat).2)] ∧
      s.execPreRun.d = s.d ∧ s.execPreRun.env = (s.env.drawBytes 26).2

/-- R212, R213: the authenticate family pushes the whole send buffer, then writes the command and the transmit bit count;
the transceive family writes the command and both bit counts, and pushes nothing. No other bit is set in either byte, so
`StartSend` stays 0. -/
def Obligations.PrimeByFamily : Prop :=
  ∀ (c : Config.Chip) (s : State), s.params.chip = c →
    (s.d.family = .authenticate → ∃ evs : List Event,
      s.execPrime.hist = s.hist ++ evs ∧ (∀ e ∈ evs, e.isXfer = true) ∧
      evs.map Event.sent =
        (if s.d.txPend = [] then [] else [writeByte c.fifoData.byte :: s.d.txPend]) ++
          [regWriteFrame c.command.byte (c.commandField.put s.d.cmd.toNat),
            regWriteFrame c.bitFraming.byte (c.txBitsField.put s.d.txBits.toNat)] ∧
      s.execPrime.d = { s.d with txPend := [] }) ∧
    (s.d.family = .transceive → ∃ evs : List Event,
      s.execPrime.hist = s.hist ++ evs ∧ (∀ e ∈ evs, e.isXfer = true) ∧
      evs.map Event.sent =
        [regWriteFrame c.command.byte (c.commandField.put s.d.cmd.toNat),
          regWriteFrame c.bitFraming.byte (c.rxBitsField.put s.d.rxBits.toNat ||| c.txBitsField.put s.d.txBits.toNat)] ∧
      s.execPrime.d = s.d)

/-- R217, R221, R223, R224: the timer flag ends the run with `ERR_TIMER`; the idle flag ends it with `OK` in the
authenticate family only; the transmission flag marks the send finished and the run goes on. A flag that is acted on is
cleared by a single-bit write of `REG_COMIRQ`, and one that is not acted on is not written. The label the write leaves in
`pc` is the model's (log entry 19). -/
def Obligations.TimerIdleAndTxBranches : Prop :=
  ∀ (c : Config.Chip) (s : State), s.params.chip = c →
    (s.d.irq &&& c.irqTimer ≠ 0 → s.branchTimer = .stop (s.clearFlag c.irqTimer) .timer) ∧
    (s.d.irq &&& c.irqTimer = 0 → s.branchTimer = .goOn s) ∧
    (s.d.irq &&& c.irqIdle ≠ 0 → s.d.family = .authenticate → s.branchIdle = .stop (s.clearFlag c.irqIdle) .ok) ∧
    (s.d.irq &&& c.irqIdle = 0 ∨ s.d.family = .transceive → s.branchIdle = .goOn s) ∧
    (s.d.irq &&& c.irqTx ≠ 0 →
      s.branchTx = .goOn (State.clearFlag c.irqTx { s with d := { s.d with sendDone := true } })) ∧
    (s.d.irq &&& c.irqTx = 0 → s.branchTx = .goOn s) ∧
    ∀ m : Byte, s.clearFlag m = { s.regWrite c.comIrq.byte m with pc := ⟨s.pc.op, ⟨s.pc.step.line, .clear⟩⟩ }

/-- R218: on a protocol error the error register is read into `D_ERR`; with the collision bit set the collision position
is read and the status is `ERR_COLLISION`, otherwise it is `ERR_COMM`; the flag is cleared. -/
def Obligations.ErrorBranchReadsTheErrorRegister : Prop :=
  ∀ (c : Config.Chip) (s : State), s.params.chip = c →
    (s.d.irq &&& c.irqErr = 0 → s.branchErr = .goOn s) ∧
    ∀ (e : Byte) (s1 : State),
      s.regRead c.error.byte = (e, s1) → s.d.irq &&& c.irqErr ≠ 0 →
      (e &&& c.collErr = 0 →
        s.branchErr = .stop (State.clearFlag c.irqErr { s1 with d := { s1.d with err := e } }) .comm) ∧
      ∀ (v : Byte) (s2 : State),
        State.regRead c.coll.byte { s1 with d := { s1.d with err := e } } = (v, s2) → e &&& c.collErr ≠ 0 →
        s.branchErr =
          .stop (State.clearFlag c.irqErr
            { s2 with d := { s2.d with collPos := BitVec.ofNat 5 (c.collPos.get v) } }) .collision

/-- R219: on the low watermark the first 32 pending bytes are pushed and taken off the pending buffer, and `StartSend` is
set; with none pending nothing is pushed; the flag is cleared in both cases. -/
def Obligations.LowWatermarkFeedsOneChunk : Prop :=
  ∀ (c : Config.Chip) (s : State), s.params.chip = c →
    (s.d.irq &&& c.irqLoAlert = 0 → s.branchLoAlert = .goOn s) ∧
    (s.d.irq &&& c.irqLoAlert ≠ 0 → s.d.txPend = [] → s.branchLoAlert = .goOn (s.clearFlag c.irqLoAlert)) ∧
    ∀ s1 : State, (s.xfer (writeByte c.fifoData.byte :: s.d.txPend.take 32)).2 = s1 →
      s.d.irq &&& c.irqLoAlert ≠ 0 → s.d.txPend ≠ [] →
      s.branchLoAlert =
        .goOn ((State.regModify c.bitFraming.byte c.startSend true
          { s1 with d := { s1.d with txPend := s.d.txPend.drop 32 } }).clearFlag c.irqLoAlert)

/-- R220, R228: on the high watermark, once the send is finished, 32 bytes are popped; if they would not fit the run ends
in FATAL with nothing more on the bus, otherwise they are appended and counted and the flag cleared. Before the send
is finished nothing is read and the flag is not written. What FATAL leaves in `pc` and `rOut` is the model's (log entries
7 and 19). -/
def Obligations.HighWatermarkDrainsAfterTheSend : Prop :=
  ∀ (c : Config.Chip) (s : State), s.params.chip = c →
    (s.d.irq &&& c.irqHiAlert = 0 ∨ s.d.sendDone = false → s.branchHiAlert = .goOn s) ∧
    ∀ (b : Bytes) (s1 : State), s.fifoRead 32 = (b, s1) → s.d.irq &&& c.irqHiAlert ≠ 0 → s.d.sendDone = true →
      (s.d.rxCap.toNat < s.d.rxCnt.toNat + 32 →
        s.branchHiAlert =
          .stop { s1 with
            st := .fatal
            pc := ⟨s.pc.op, .finish⟩
            rOut := []
            host := ⟨s.host.cmd, [0xFF, 0x00, 0x00], true⟩
            hist := s1.hist ++ [.result [0xFF, 0x00, 0x00]] } .fatal) ∧
      (s.d.rxCnt.toNat + 32 ≤ s.d.rxCap.toNat →
        s.branchHiAlert =
          .goOn (State.clearFlag c.irqHiAlert
            { s1 with d := { s1.d with rxBuf := s1.d.rxBuf ++ b, rxCnt := s1.d.rxCnt + 32 } }))

/-- R222, R228: on a completed receive, in the transceive family, the last-bit count and the FIFO level are read and the
remainder popped; if it would not fit the run ends in FATAL; otherwise the bytes are appended and counted, the flag is
cleared, and the count is compared with the expectation unless that is 0. What FATAL leaves in `pc` and `rOut` is the
model's (log entries 7 and 19). -/
def Obligations.ReceiveDrainsAndChecksTheLength : Prop :=
  ∀ (c : Config.Chip) (s : State), s.params.chip = c →
    (s.d.irq &&& c.irqRx = 0 ∨ s.d.family = .authenticate → s.branchRx = .goOn s) ∧
    ∀ (v l : Byte) (n : Nat) (b : Bytes) (s1 s2 s3 : State),
      s.regRead c.control.byte = (v, s1) →
      State.regRead c.fifoLevel.byte
        { s1 with d := { s1.d with rxBitsAct := BitVec.ofNat 3 (c.rxLastBits.get v) } } = (l, s2) →
      c.fifoCount.get l = n → s2.fifoRead n = (b, s3) →
      s.d.irq &&& c.irqRx ≠ 0 → s.d.family = .transceive →
      (s.d.rxCap.toNat < s.d.rxCnt.toNat + n →
        s.branchRx =
          .stop { s3 with
            st := .fatal
            pc := ⟨s.pc.op, .finish⟩
            rOut := []
            host := ⟨s.host.cmd, [0xFF, 0x00, 0x00], true⟩
            hist := s3.hist ++ [.result [0xFF, 0x00, 0x00]] } .fatal) ∧
      (s.d.rxCnt.toNat + n ≤ s.d.rxCap.toNat →
        s.branchRx =
          .stop (State.clearFlag c.irqRx
            { s3 with d := { s3.d with
                rxBuf := s3.d.rxBuf ++ b
                rxCnt := s3.d.rxCnt + BitVec.ofNat 11 n } })
            (if s.d.rxLen ≠ 0 ∧ s.d.rxCnt.toNat + n ≠ s.d.rxLen.toNat then .length else .ok))

/-- R216, R416, R417: one iteration reads the flags once and acts on that snapshot `v` in the fixed order; the consequences
for simultaneous flags, (a) to (f). -/
def Obligations.SimultaneousFlagsActInOrder : Prop :=
  ∀ (c : Config.Chip) (s q : State) (v : Byte) (s1 : State), s.params.chip = c →
    (s.atPhase .snapshot).regRead c.comIrq.byte = (v, s1) → q = { s1 with d := { s1.d with irq := v } } →
    (v &&& c.irqTimer ≠ 0 → s.iteration = .stop ((q.atPhase .timer).clearFlag c.irqTimer) .timer) ∧
    (v &&& c.irqTimer = 0 → v &&& c.irqErr ≠ 0 →
      ∃ (u : State) (st : Status), s.iteration = .stop u st ∧ (st = .comm ∨ st = .collision) ∧
        u.d.rxBuf = s.d.rxBuf ∧ u.d.rxCnt = s.d.rxCnt) ∧
    (v &&& c.irqTimer = 0 → v &&& c.irqErr = 0 →
      (v &&& c.irqLoAlert ≠ 0 → v &&& c.irqRx ≠ 0 → s.d.family = .transceive →
        v &&& c.irqHiAlert = 0 ∨ s.d.sendDone = false →
        s.iteration = (((q.atPhase .loAlert).feed.clearFlag c.irqLoAlert).atPhase .rx).branchRx ∧
        ∃ (u : State) (st : Status), s.iteration = .stop u st) ∧
      (v &&& c.irqLoAlert = 0 → v &&& c.irqRx ≠ 0 → s.d.family = .transceive → s.d.sendDone = false →
        s.iteration = (q.atPhase .rx).branchRx ∧
        ∃ (u : State) (st : Status), s.iteration = .stop u st ∧ u.d.sendDone = false) ∧
      (v &&& c.irqLoAlert = 0 → v &&& c.irqHiAlert ≠ 0 → v &&& c.irqIdle = 0 → v &&& c.irqRx = 0 →
        v &&& c.irqTx ≠ 0 → s.d.sendDone = false →
        s.iteration = .goOn (State.clearFlag c.irqTx { q with d := { q.d with sendDone := true } })) ∧
      (v &&& c.irqLoAlert = 0 → v &&& c.irqHiAlert = 0 → v &&& c.irqRx = 0 → v &&& c.irqTx = 0 →
        s.d.family = .transceive → s.iteration = .goOn (q.atPhase .tx)) ∧
      (v &&& c.irqLoAlert = 0 → v &&& c.irqHiAlert = 0 → v &&& c.irqIdle = 0 → v &&& c.irqTx = 0 →
        s.d.family = .authenticate → s.iteration = .goOn (q.atPhase .tx)))

/-- R226: EXIT clears `StartSend` in the bit-framing byte that was read and writes the idle command. The label it leaves in
`pc` is the model's (log entry 19). -/
def Obligations.ExitClearsStartSend : Prop :=
  ∀ (c : Config.Chip) (s s1 : State) (v : Byte), s.params.chip = c →
    s.regRead c.bitFraming.byte = (v, s1) →
    s.execExit =
      { (s1.regWrite c.bitFraming.byte (v &&& (0xFF ^^^ c.startSend))).regWrite c.command.byte
          (c.commandField.put c.cmdIdle.toNat) with
        pc := ⟨s.pc.op, ⟨s.pc.step.line, .exitCommand⟩⟩ }

/-- R214, R215, R225, R226, R230: a chip that never raises a flag. When every snapshot of the run reads 0x00, the run makes
one snapshot for each deadline draw that is false, then EXIT's three transfers (the bit-framing read, whose byte `v` is
written back with `StartSend` cleared, and the idle command), and returns `ERR_TIMER` with no data. -/
def Obligations.SilentChipTimesOut : Prop :=
  ∀ (c : Config.Chip) (d : Descriptor) (s u : State) (n : Nat) (b rest : Bytes), s.params.chip = c →
    (((s.execLoad d).execPreRun).execPrime).enterLoop = (n, u) →
    u.env.busIn = b ++ rest → b.length = 2 * n → (∀ k < n, b.getD (2 * k + 1) 0 = 0x00) →
    (s.runExec d).2 = .timer ∧ (s.runExec d).1.rxSlice = [] ∧
    ∃ (evs : List Event) (x v : Byte) (y z : Bytes),
      (s.runExec d).1.hist = u.hist ++ evs ++
        [.xfer (regReadFrame c.bitFraming.byte) [x, v],
          .xfer (regWriteFrame c.bitFraming.byte (v &&& (0xFF ^^^ c.startSend))) y,
          .xfer (regWriteFrame c.command.byte (c.commandField.put c.cmdIdle.toNat)) z] ∧
      evs.map Event.sent = List.replicate n (regReadFrame c.comIrq.byte)

/-- R31: the label of `pc` that LOOP (R214), the attempts of a Classic step (R330), the cascade loop of SCAN (R287) and the
windows of READ_ULTRALIGHT (R352) are entered with plays no part in what they do, of LOOP the label inside the same line
of the command's rule. LOOP and the attempts, where they are used up, stand at their head. The labels are the model's
(log entry 19). -/
def Obligations.LoopEntryLabelPlaysNoPart : Prop :=
  ∀ (s t : State) (l : StepLabel), t = { s with pc := ⟨s.pc.op, l⟩ } →
    (l.line = s.pc.step.line → ∀ n, State.execLoop n t = State.execLoop n s) ∧
    (State.execLoop 0 s).1.pc = ⟨s.pc.op, ⟨s.pc.step.line, .loop⟩⟩ ∧
    (∀ head f x n, State.attempts head f x n t = State.attempts head f x n s ∧
      (State.attempts head f x 0 s).1.pc = ⟨s.pc.op, ⟨head, .none⟩⟩) ∧
    (∀ n level, t.cascadeLoop (n + 1) level = s.cascadeLoop (n + 1) level) ∧
    ∀ n, State.windowLoop n t = State.windowLoop n s

/-- R206, R226, R228: what a run changes. A run that does not end in FATAL changes the descriptor registers, the label of
`pc`, the environment, the last read and the returned status, and extends the record by transfers only, of which EXIT's
three are the last; a FATAL run makes no EXIT transfer, enters FATAL and answers the host `[FF 00 00]`, and that result is
the last event. The returned status is one of six, and `OK` in the transceive family means the expected number of bytes
came. -/
def Obligations.ExecutorRunFrame : Prop :=
  ∀ (c : Config.Chip) (d : Descriptor) (s t : State) (st : Status), s.params.chip = c → s.runExec d = (t, st) →
    (t.sess = s.sess ∧ t.ident = s.ident ∧ t.work = s.work ∧ t.pRst = s.pRst ∧ t.offers = s.offers ∧
      t.params = s.params ∧ t.pc.op = s.pc.op) ∧
    (st = .ok ∨ st = .timer ∨ st = .comm ∨ st = .collision ∨ st = .length ∨ st = .fatal) ∧
    (st = .ok → d.family = .transceive → d.rxLen ≠ 0 → t.rxSlice.length = d.rxLen.toNat) ∧
    t.rxSlice.length ≤ d.rxCap.toNat ∧
    (st ≠ .fatal → t.st = s.st ∧ t.host = s.host ∧
      ∃ (evs : List Event) (x v : Byte) (y z : Bytes),
        t.hist = s.hist ++ evs ++
          [.xfer (regReadFrame c.bitFraming.byte) [x, v],
            .xfer (regWriteFrame c.bitFraming.byte (v &&& (0xFF ^^^ c.startSend))) y,
            .xfer (regWriteFrame c.command.byte (c.commandField.put c.cmdIdle.toNat)) z] ∧
        ∀ e ∈ evs, e.isXfer = true ∧ e.wellFramed = true) ∧
    (st = .fatal → t.st = .fatal ∧ t.host = ⟨s.host.cmd, [0xFF, 0x00, 0x00], true⟩ ∧
      ∃ (evs : List Event) (n : Nat) (inp : Bytes),
        t.hist = s.hist ++ evs ++ [.xfer (fifoReadFrame c (n + 1)) inp, .result [0xFF, 0x00, 0x00]] ∧
        ∀ e ∈ evs, e.isXfer = true ∧ e.wellFramed = true)

/-- 95_test_vectors.md section 0.4, from R206 to R227: the standard transceive run, with the default chip map. Any transceive
descriptor with 1 to 32 send bytes, answered by the flag bytes 04, 44, 24 and a reply of the expected length, ends `OK` after 32 transfers and
returns that reply, whatever every other byte from the bus was. -/
def Obligations.StandardTransceiveRunSucceeds : Prop :=
  ∀ (d : Descriptor) (s : State) (n : Nat) (ns : List Nat)
    (f0 f1 f2 f3 f4 f5 f6 reply rest : Bytes) (x1 x2 x3 x4 x5 x6 x7 x8 bf ctl lvl bf2 : Byte),
    s.params.chip = Config.chipDefault → d.family = .transceive → d.tx ≠ [] → d.tx.length ≤ 32 →
    f0.length = 30 → f1.length = d.tx.length + 1 → f2.length = 4 → f3.length = 4 → f4.length = 2 → f5.length = 2 →
    f6.length = 4 → reply ≠ [] → lvl.toNat = reply.length → reply.length ≤ 127 →
    d.rxLen = 0 ∨ d.rxLen.toNat = reply.length → reply.length ≤ d.rxCap.toNat →
    s.env.deadlines = (n + 3) :: ns →
    s.env.busIn = f0 ++ [x1, 0x04] ++ f1 ++ [x2, bf] ++ f2 ++ [x3, 0x44] ++ f3 ++ [x4, 0x24] ++ f4 ++ [x5, ctl] ++
      [x6, lvl] ++ (x7 :: reply) ++ f5 ++ [x8, bf2] ++ f6 ++ rest →
    (s.runExec d).2 = .ok ∧ (s.runExec d).1.rxSlice = reply ∧ (s.runExec d).1.d.rxBitsAct = ctl.setWidth 3 ∧
    (s.runExec d).1.env.busIn = rest ∧
    ∃ evs : List Event, (s.runExec d).1.hist = s.hist ++ evs ∧ evs.length = 32

/-- R205, R229: EXECUTE runs its descriptor once and answers the run's status with the descriptor outputs and the bytes
received, on every status but FATAL; a FATAL run ends it as it is; an operand out of range is `ERR_PARAM`. -/
def Obligations.ExecuteAnswersTheRun : Prop :=
  ∀ (d : Descriptor) (s t : State) (st : Status), s.st ≠ .fatal → (s.atLine .exec).runExec d = (t, st) →
    (d.tx.length ≤ 247 → d.rxLen.toNat ≤ d.rxCap.toNat → st ≠ .fatal →
      exec (.execute d) s =
        .next (t.answered st.code ([t.d.rxBitsAct.setWidth 8, t.d.collPos.setWidth 8, t.d.err] ++ t.rxSlice))) ∧
    (d.tx.length ≤ 247 → d.rxLen.toNat ≤ d.rxCap.toNat → st = .fatal → exec (.execute d) s = .next t) ∧
    (247 < d.tx.length ∨ d.rxCap.toNat < d.rxLen.toNat → exec (.execute d) s = .next (s.answered 0x02 []))

/-! ### Reset pin, session, init, carrier -/

/-- R261: HARD_RESET, in every state of the engine, FATAL too: the pin goes low and high with its waits, the session is
closed, the keys are zeroed, and the engine answers `OK` in IDLE, with no bus transfer. What it leaves in `pc` and `rOut`
is the model's (log entries 7 and 19). -/
def Obligations.HardResetLeavesFatal : Prop :=
  ∀ s : State, encode s.params .hardReset = [0x20] ∧
    (s.host.cmd = [0x20] →
    exec .hardReset s = .next { s with
      st := .idle
      pc := ⟨s.pc.op, .finish⟩
      rOut := []
      sess := ⟨false, 0⟩
      work := { s.work with
        keyA := List.replicate 16 (List.replicate 6 0)
        keyB := List.replicate 16 (List.replicate 6 0) }
      host := ⟨[0x20], [0x00, 0x00, 0x00], true⟩
      pRst := true
      hist := s.hist ++ [.pin false, .wait 300, .pin true, .wait 300, .result [0x00, 0x00, 0x00]] })

/-- R265: INIT writes the OPEN list of registers in order, then clears `MFCrypto1On`. -/
def Obligations.InitWritesTheListInOrder : Prop :=
  ∀ s : State, s.st ≠ .fatal →
    encode s.params .init = [0x23] ∧
    exec .init s =
      .next ((State.regModify s.params.chip.status2.byte s.params.chip.crypto1On false
        (s.params.initWrites.foldl (fun u w => u.regWrite w.1.byte w.2) s)).answered 0x00 [])

/-- R266: CARRIER modifies the two carrier bits from the mode's two bits and records the mode; a mode above 3 is
`ERR_PARAM`. -/
def Obligations.CarrierSetsBothWaves : Prop :=
  ∀ (m : Byte) (s u : State), s.st ≠ .fatal →
    (s.regModify s.params.chip.txControl.byte s.params.chip.tx1RfEn (m.getLsbD 0)).regModify
      s.params.chip.txControl.byte s.params.chip.tx2RfEn (m.getLsbD 1) = u →
    encode s.params (.carrier m) = [0x24, m] ∧
    (m.toNat ≤ 3 →
      exec (.carrier m) s =
        .next (State.answered 0x00 [] { u with sess := ⟨s.sess.active, m.setWidth 2⟩ })) ∧
    (3 < m.toNat → exec (.carrier m) s = .next (s.answered 0x02 []))

/-- R263, R264: START_SESSION is INIT's body, then carrier mode 3, then `S_ACTIVE` 1; END_SESSION is carrier mode 0, then
`S_ACTIVE` 0. -/
def Obligations.SessionStartAndEnd : Prop :=
  ∀ (c : Config.Chip) (s u : State), s.st ≠ .fatal → s.params.chip = c →
    encode s.params .startSession = [0x21] ∧ encode s.params .endSession = [0x22] ∧
    (State.regModify c.status2.byte c.crypto1On false
        (s.params.initWrites.foldl (fun u w => u.regWrite w.1.byte w.2) s) = u →
      exec .startSession s =
        .next (State.answered 0x00 []
          { (u.regModify c.txControl.byte c.tx1RfEn true).regModify c.txControl.byte c.tx2RfEn true with
            sess := ⟨true, 3⟩ })) ∧
    exec .endSession s =
      .next (State.answered 0x00 []
        { (s.regModify c.txControl.byte c.tx1RfEn false).regModify c.txControl.byte c.tx2RfEn false with
          sess := ⟨false, 0⟩ })

/-- R34, R260: only HARD_RESET, START_SESSION, END_SESSION and CARRIER change the session registers, and HARD_RESET alone
drives the reset line. -/
def Obligations.OnlySessionInstructionsChangeTheSession : Prop :=
  ∀ (i : Instr) (s t : State), exec i s = .next t →
    (i ≠ .hardReset → i ≠ .startSession → i ≠ .endSession → (∀ m, i ≠ .carrier m) → t.sess = s.sess) ∧
    (i ≠ .hardReset → t.pRst = s.pRst)

/-! ### ISO14443-A activation -/

/-- R280: WAKEUP runs the WUPA frame, answers the 2 bytes of ATQA, and answers `ERR_WAKEUP` on every other status of the
run but FATAL, which ends it. -/
def Obligations.WakeupAnswersTheAtqa : Prop :=
  ∀ (s t : State) (st : Status), s.st ≠ .fatal →
    (s.atLine .wakeup).runExec ⟨.transceive, false, false, 7, 0, 2, 2, s.params.tWupa, [s.params.card.wupa]⟩ =
      (t, st) →
    encode s.params .wakeup = [0x30] ∧
    (st = .ok → exec .wakeup s = .next (t.answered 0x00 t.rxSlice) ∧ t.rxSlice.length = 2) ∧
    (st ≠ .ok → st ≠ .fatal → exec .wakeup s = .next (t.answered 0x08 [])) ∧
    (st = .fatal → exec .wakeup s = .next t)

/-- R282, R283, R285: ANTICOLL runs the level's anticollision frame and answers the 5 bytes when their exclusive or is 0;
otherwise, and on every other status of the run but FATAL, it answers `ERR_COLLISION`. A level outside 1..3 is
`ERR_PARAM`. -/
def Obligations.AnticollChecksTheBcc : Prop :=
  ∀ (l sel : Byte) (s t : State) (st : Status), s.st ≠ .fatal →
    encode s.params (.anticoll l) = [0x31, l] ∧
    ((l = 1 ∧ sel = s.params.card.sel1) ∨ (l = 2 ∧ sel = s.params.card.sel2) ∨ (l = 3 ∧ sel = s.params.card.sel3) →
      (s.atLine .anticoll).runExec ⟨.transceive, false, false, 0, 0, 5, 5, s.params.tAnticoll, [sel, 0x20]⟩ = (t, st) →
      (∀ r0 r1 r2 r3 r4 : Byte, st = .ok → t.rxSlice = [r0, r1, r2, r3, r4] →
        (r4 = r0 ^^^ r1 ^^^ r2 ^^^ r3 → exec (.anticoll l) s = .next (t.answered 0x00 [r0, r1, r2, r3, r4])) ∧
        (r4 ≠ r0 ^^^ r1 ^^^ r2 ^^^ r3 → exec (.anticoll l) s = .next (t.answered 0x09 []))) ∧
      (st = .ok → t.rxSlice.length = 5) ∧
      (st ≠ .ok → st ≠ .fatal → exec (.anticoll l) s = .next (t.answered 0x09 [])) ∧
      (st = .fatal → exec (.anticoll l) s = .next t)) ∧
    (l.toNat < 1 ∨ 3 < l.toNat → exec (.anticoll l) s = .next (s.answered 0x02 []))

/-- R284, R285: SELECT runs the level's select frame with the part and BCC as given and answers the SAK; on every other
status of the run but FATAL it answers `ERR_SELECT`. A level outside 1..3 is `ERR_PARAM`. -/
def Obligations.SelectAnswersTheSak : Prop :=
  ∀ (l sel p0 p1 p2 p3 bcc : Byte) (s t : State) (st : Status), s.st ≠ .fatal →
    encode s.params (.select l [p0, p1, p2, p3] bcc) = [0x32, l, p0, p1, p2, p3, bcc] ∧
    ((l = 1 ∧ sel = s.params.card.sel1) ∨ (l = 2 ∧ sel = s.params.card.sel2) ∨ (l = 3 ∧ sel = s.params.card.sel3) →
      (s.atLine .select).runExec
        ⟨.transceive, true, true, 0, 0, 1, 1, s.params.tSelect, [sel, 0x70, p0, p1, p2, p3, bcc]⟩ = (t, st) →
      (st = .ok → exec (.select l [p0, p1, p2, p3] bcc) s = .next (t.answered 0x00 t.rxSlice) ∧
        t.rxSlice.length = 1) ∧
      (st ≠ .ok → st ≠ .fatal → exec (.select l [p0, p1, p2, p3] bcc) s = .next (t.answered 0x0A [])) ∧
      (st = .fatal → exec (.select l [p0, p1, p2, p3] bcc) s = .next t)) ∧
    (l.toNat < 1 ∨ 3 < l.toNat → exec (.select l [p0, p1, p2, p3] bcc) s = .next (s.answered 0x02 []))

/-- R286: HALT is the inversion: a run that times out is success, every other status but FATAL is `ERR_HALT`. -/
def Obligations.HaltSucceedsOnSilence : Prop :=
  ∀ (s t : State) (st : Status), s.st ≠ .fatal →
    (s.atLine .halt).runExec
      ⟨.transceive, true, false, 0, 0, 0, 255, s.params.tHalt, [s.params.card.hlta0, s.params.card.hlta1]⟩ = (t, st) →
    encode s.params .halt = [0x33] ∧
    (st = .timer → exec .halt s = .next (t.answered 0x00 [])) ∧
    (st ≠ .timer → st ≠ .fatal → exec .halt s = .next (t.answered 0x0C [])) ∧
    (st = .fatal → exec .halt s = .next t)

/-- R287, R288, R289, R294, R129: a SCAN whose stages all succeed. The ATQA's bits 7:6 give the number of levels; `a k` and
`c k` are the states after the anticollision and the select run of level `k`, `u k` the state with the levels below `k`
recorded (`ScanLevelsRead`); the answer is the 21-byte identity record. Where the parameter asks for a halt (R290), its
run must time out. The type byte is the table's entry for the last SAK; the default table is R289's, which the spec takes
from general knowledge (log entry 3). -/
def Obligations.ScanAnswersTheIdentity : Prop :=
  (∀ (s w v : State) (vst : Status) (levels : Nat) (u a c : Nat → State) (part : Nat → Bytes) (bcc sak : Nat → Byte)
      (type : Byte),
    s.st ≠ .fatal → s.ident.bcc.length = 3 → s.ident.sak.length = 3 →
    (State.atLine .wakeup { s with ident := { s.ident with uid := [] } }).runExec
      ⟨.transceive, false, false, 7, 0, 2, 2, s.params.tWupa, [s.params.card.wupa]⟩ = (w, .ok) →
    ((w.rxSlice.getD 0 0) >>> 6).toNat + 1 = levels → levels ≤ 3 →
    u 0 = { w with ident := { w.ident with atqa := w.rxSlice, levels := BitVec.ofNat 2 levels } } →
    ScanLevelsRead s.params levels levels u a c part bcc sak →
    (if s.params.scanIncludesHalt then ((u levels).atLine .halt).runExec (hltaDesc s.params) = (v, vst) ∧ vst = .timer
      else v = u levels) →
    (∃ pre post, s.params.card.sakTable = pre ++ (sak (levels - 1), type) :: post ∧
        ∀ r ∈ pre, r.1 ≠ sak (levels - 1)) ∨
      ((∀ r ∈ s.params.card.sakTable, r.1 ≠ sak (levels - 1)) ∧ type = s.params.card.sakOther) →
    exec .scan s =
      .next (State.answered 0x00
        ([type, w.rxSlice.getD 0 0, w.rxSlice.getD 1 0, BitVec.ofNat 8 levels, BitVec.ofNat 8 (3 * levels + 1)] ++
          ((List.range levels).flatMap fun k => if k + 1 = levels then part k else (part k).drop 1) ++
          List.replicate (9 - 3 * levels) 0 ++
          (List.range levels).map bcc ++ List.replicate (3 - levels) 0 ++
          (List.range levels).map sak ++ List.replicate (3 - levels) 0)
        { v with ident := { v.ident with type := type } })) ∧
  ∀ sak : Byte, sakClass Config.cardDefault sak =
    if sak = 0x08 ∨ sak = 0x09 ∨ sak = 0x18 then 0x01 else if sak = 0x00 then 0x02 else 0x00

/-- R287, R288, R290, R418: SCAN ends at its first failing stage with that stage's status and an empty payload: the
wake-up; the reserved ATQA pattern `11`, with no anticollision transfer; at any level `n + 1`, after `n` levels that
succeeded, the anticollision run, its BCC, or the select run; and, where SCAN includes a halt, a halt run that does not
time out. A FATAL run ends it as it is. -/
def Obligations.ScanStopsAtTheFirstFailure : Prop :=
  ∀ (s w : State) (wst : Status), s.st ≠ .fatal →
    (State.atLine .wakeup { s with ident := { s.ident with uid := [] } }).runExec (wupaDesc s.params) = (w, wst) →
    (wst ≠ .ok → wst ≠ .fatal → exec .scan s = .next (w.answered 0x08 [])) ∧
    (wst = .fatal → exec .scan s = .next w) ∧
    (wst = .ok → (w.rxSlice.getD 0 0) >>> 6 = 3 →
      exec .scan s = .next (State.answered 0x0B [] { w with ident := { w.ident with atqa := w.rxSlice } })) ∧
    ∀ (levels n : Nat) (u a c : Nat → State) (part : Nat → Bytes) (bcc sak : Nat → Byte) (x y : State)
        (xst yst : Status),
      wst = .ok → ((w.rxSlice.getD 0 0) >>> 6).toNat + 1 = levels → levels ≤ 3 →
      u 0 = { w with ident := { w.ident with atqa := w.rxSlice, levels := BitVec.ofNat 2 levels } } →
      ScanLevelsRead s.params levels n u a c part bcc sak →
      (n < levels → ((u n).atLine .anticoll).runExec (anticollDesc s.params (n + 1)) = (x, xst) →
        (xst ≠ .fatal → xst ≠ .ok ∨ bccOk x.rxSlice = false → exec .scan s = .next (x.answered 0x09 [])) ∧
        (xst = .fatal → exec .scan s = .next x) ∧
        (xst = .ok → bccOk x.rxSlice = true →
          (x.atLine .select).runExec (selectDesc s.params (n + 1) (x.rxSlice.take 4) (x.rxSlice.getD 4 0)) = (y, yst) →
          (yst ≠ .ok → yst ≠ .fatal → exec .scan s = .next (y.answered 0x0A [])) ∧
          (yst = .fatal → exec .scan s = .next y))) ∧
      (n = levels → s.params.scanIncludesHalt = true →
        ((u levels).atLine .halt).runExec (hltaDesc s.params) = (x, xst) →
        (xst ≠ .timer → xst ≠ .fatal → exec .scan s = .next (x.answered 0x0C [])) ∧
        (xst = .fatal → exec .scan s = .next x))

/-! ### MIFARE Classic -/

/-- R320, R321, R334, R36: AUTH runs the authenticate frame; with the run `OK` the status bit decides; the keys are zeroed
before the answer; every other status of the run but FATAL is `ERR_AUTH`. An operand out of range is `ERR_PARAM`, before
which the keys are zeroed too: R36 and R334 want it, R124 allows a rejected frame no register write, and the model reads
that as a chip register's (log entry 23). -/
def Obligations.AuthIsDecidedByTheStatusBit : Prop :=
  ∀ (k sec : Byte) (key uid4 : Bytes) (s t v : State) (st : Status) (b : Byte), s.st ≠ .fatal →
    key.length = 6 → uid4.length = 4 →
    encode s.params (.auth k sec key uid4) = [0x40, k, sec] ++ key ++ uid4 ∧
    (k.toNat ≤ 1 → sec.toNat ≤ 63 →
      (s.atLine .auth).runExec ⟨.authenticate, false, false, 0, 0, 0, 0, s.params.tAuth,
        [if k = 0 then s.params.card.authA else s.params.card.authB, 4 * sec] ++ key ++ uid4⟩ = (t, st) →
      (st = .ok → t.rxSlice = [] ∧ (t.regRead s.params.chip.status2.byte = (b, v) →
        (b &&& s.params.chip.crypto1On ≠ 0 →
          exec (.auth k sec key uid4) s = .next ((v.zeroKeys 3 9).answered 0x00 [])) ∧
        (b &&& s.params.chip.crypto1On = 0 →
          exec (.auth k sec key uid4) s = .next ((v.zeroKeys 3 9).answered 0x07 [])))) ∧
      (st ≠ .ok → st ≠ .fatal → exec (.auth k sec key uid4) s = .next ((t.zeroKeys 3 9).answered 0x07 [])) ∧
      (st = .fatal → exec (.auth k sec key uid4) s = .next t)) ∧
    (1 < k.toNat ∨ 63 < sec.toNat → exec (.auth k sec key uid4) s = .next ((s.zeroKeys 3 9).answered 0x02 []))

/-- R323, R350, R351: READ_BLOCK and READ_PAGE run the same READ frame, answer its 16 bytes, and answer `ERR_READ` on every
other status of the run but FATAL. -/
def Obligations.ReadBlockAndReadPageAnswerSixteenBytes : Prop :=
  ∀ (b : Byte) (s t : State) (st : Status), s.st ≠ .fatal →
    (s.atLine .read).runExec ⟨.transceive, true, true, 0, 0, 16, 16, s.params.tRead, [s.params.card.mfRead, b]⟩ =
      (t, st) →
    encode s.params (.readBlock b) = [0x41, b] ∧ encode s.params (.readPage b) = [0x50, b] ∧
    (st = .ok → exec (.readBlock b) s = .next (t.answered 0x00 t.rxSlice) ∧
      exec (.readPage b) s = .next (t.answered 0x00 t.rxSlice) ∧ t.rxSlice.length = 16) ∧
    (st ≠ .ok → st ≠ .fatal → exec (.readBlock b) s = .next (t.answered 0x0D []) ∧
      exec (.readPage b) s = .next (t.answered 0x0D [])) ∧
    (st = .fatal → exec (.readBlock b) s = .next t ∧ exec (.readPage b) s = .next t)

/-- R325, R326: WRITE_BLOCK sends the command frame and, on the acknowledge nibble 0xA, the data frame; only a second
acknowledge is success; a phase that fails is `ERR_WRITE`, and after a failed first phase nothing more is sent. -/
def Obligations.WriteBlockNeedsBothAcknowledges : Prop :=
  ∀ (blk : Byte) (data : Bytes) (s t u : State) (st1 st2 : Status), s.st ≠ .fatal → data.length = 16 →
    (s.atLine .writeCommand).runExec
      ⟨.transceive, true, false, 0, 0, 1, 1, s.params.tWrite, [s.params.card.mfWrite, blk]⟩ = (t, st1) →
    (t.atLine .writeData).runExec ⟨.transceive, true, false, 0, 0, 1, 1, s.params.tWrite, data⟩ = (u, st2) →
    encode s.params (.writeBlock blk data) = [0x42, blk] ++ data ∧
    (st1 ≠ .fatal → st1 ≠ .ok ∨ t.rxSlice.getD 0 0 &&& 0x0F ≠ 0x0A →
      exec (.writeBlock blk data) s = .next (t.answered 0x0E [])) ∧
    (st1 = .fatal → exec (.writeBlock blk data) s = .next t) ∧
    (st1 = .ok → t.rxSlice.getD 0 0 &&& 0x0F = 0x0A →
      (st2 = .ok → u.rxSlice.getD 0 0 &&& 0x0F = 0x0A →
        exec (.writeBlock blk data) s = .next (u.answered 0x00 [])) ∧
      (st2 ≠ .fatal → st2 ≠ .ok ∨ u.rxSlice.getD 0 0 &&& 0x0F ≠ 0x0A →
        exec (.writeBlock blk data) s = .next (u.answered 0x0E [])) ∧
      (st2 = .fatal → exec (.writeBlock blk data) s = .next u))

/-- R331, R332, R333: the authenticate step of a sector makes at most 3 attempts, each with key A and four UID bytes (the
first four, where the UID offset has its default 0; fewer than four where the offset passes the UID's end, which is the
model's choice, log entry 24), one directly after the other; the first success ends them, and FATAL
ends them; after three failures the step fails with `ERR_AUTH`. `W_ATTEMPT` counts from 1. -/
def Obligations.SectorAuthMakesAtMostThreeAttempts : Prop :=
  ∀ (sec : Nat) (s s1 s2 s3 : State) (st1 st2 st3 : Status) (key uid4 : Bytes),
    key = s.work.keyA.getD sec [] → uid4 = (s.work.uid.drop s.params.card.authUidOffset).take 4 →
    State.authBody false (BitVec.ofNat 8 sec) key uid4 { s with work := { s.work with attempt := 1 } } = (s1, st1) →
    State.authBody false (BitVec.ofNat 8 sec) key uid4 { s1 with work := { s.work with attempt := 2 } } = (s2, st2) →
    State.authBody false (BitVec.ofNat 8 sec) key uid4 { s2 with work := { s.work with attempt := 3 } } = (s3, st3) →
    (st1 = .ok ∨ st1 = .fatal → s.sectorAuth sec = (s1, st1)) ∧
    (st1 = .auth → st2 = .ok ∨ st2 = .fatal → s.sectorAuth sec = (s2, st2)) ∧
    (st1 = .auth → st2 = .auth → st3 = .ok ∨ st3 = .fatal → s.sectorAuth sec = (s3, st3)) ∧
    (st1 = .auth → st2 = .auth → st3 = .auth → s.sectorAuth sec = (s3.atLine .authAttempt, .auth)) ∧
    (st1 = .ok ∨ st1 = .auth ∨ st1 = .fatal)

/-- R330, R331, R335: what reading a sector does, exactly. It authenticates; then it reads the blocks `4·sec`, `4·sec + 1`
and `4·sec + 2`, each with at most 3 attempts of its own (`v b j` is the state after attempt `j` of block `b`, `m b` the
attempt that succeeds), and appends the reply of each; then it appends the trailer made of key A, the access bits and key
B, with no run for the trailer block. A failed authenticate, a third failed attempt of a block, or a FATAL run ends it
there. -/
def Obligations.ReadSectorAddsSixtyFourBytes : Prop :=
  ∀ (sec : Nat) (s a : State) (ast : Status) (n : Nat) (m : Nat → Nat) (v : Nat → Nat → State),
    State.sectorAuth sec { s with work := { s.work with sector := BitVec.ofNat 5 sec } } = (a, ast) →
    (ast ≠ .ok → s.readSector sec = (a, ast)) ∧
    (ast = .ok → n ≤ 3 →
      v 0 0 = { a with work := { a.work with block := 0 } } →
      (∀ b < n, 1 ≤ m b ∧ m b ≤ 3 ∧
        (∀ j < m b, State.readStage (BitVec.ofNat 8 (4 * sec + b))
            { v b j with work := { (v b j).work with attempt := BitVec.ofNat 2 (j + 1) } } =
          (v b (j + 1), if j + 1 = m b then .ok else .read)) ∧
        v (b + 1) 0 = { v b (m b) with work := { (v b (m b)).work with
          image := (v b (m b)).work.image ++ (v b (m b)).rxSlice
          block := BitVec.ofNat 2 (b + 1) } }) →
      (n = 3 →
        s.readSector sec =
          (State.atLine .trailer { v 2 (m 2) with work := { (v 2 (m 2)).work with
            image := s.work.image ++ (v 0 (m 0)).rxSlice ++ (v 1 (m 1)).rxSlice ++ (v 2 (m 2)).rxSlice ++
              s.work.keyA.getD sec [] ++ s.params.card.accessBits ++ s.work.keyB.getD sec [] } }, .ok) ∧
        (∀ b < 3, (v b (m b)).rxSlice.length = 16) ∧
        (sec < 16 → keyBankShaped s.work.keyA = true → keyBankShaped s.work.keyB = true →
          (s.readSector sec).1.work.image.length = s.work.image.length + 64)) ∧
      (n < 3 → ∀ (k : Nat) (w : State) (wst : Status), k < 3 →
        (∀ j < k, State.readStage (BitVec.ofNat 8 (4 * sec + n))
            { v n j with work := { (v n j).work with attempt := BitVec.ofNat 2 (j + 1) } } = (v n (j + 1), .read)) →
        State.readStage (BitVec.ofNat 8 (4 * sec + n))
            { v n k with work := { (v n k).work with attempt := BitVec.ofNat 2 (k + 1) } } = (w, wst) →
        (wst = .fatal → s.readSector sec = (w, .fatal)) ∧
        (k = 2 → wst = .read → s.readSector sec = (w.atLine .readAttempt, .read))))

/-- R330, R334, R36: READ_CLASSIC reads the sectors in order (`u k` is the state before sector `k`); when all 16 are read it
answers the 1024-byte image, when one fails it answers that failure with an empty payload; the keys are zeroed first, but
in FATAL. A UID length outside 4, 7 and 10 is `ERR_PARAM`, before which the keys are zeroed too: R36 and R334 want it, R124
allows a rejected frame no register write, and the model reads that as a chip register's (log entry 23). -/
def Obligations.ReadClassicReadsTheSectorsInOrder : Prop :=
  ∀ (ul : Byte) (uid ka kb : Bytes) (s v : State) (st : Status) (n : Nat) (u : Nat → State), s.st ≠ .fatal →
    uid.length = 10 → ka.length = 96 → kb.length = 96 →
    (ul = 4 ∨ ul = 7 ∨ ul = 10 →
      u 0 = { s with work := { s.work with
        uid := uid.take ul.toNat
        keyA := (List.range 16).map fun k => (ka.drop (6 * k)).take 6
        keyB := (List.range 16).map fun k => (kb.drop (6 * k)).take 6
        image := [] } } →
      n ≤ 16 → (∀ k < n, (u k).readSector k = (u (k + 1), .ok)) →
      (n = 16 → exec (.readClassic ul uid ka kb) s =
          .next (((u 16).zeroKeys 12 204).answered 0x00 (u 16).work.image) ∧
        (u 16).work.image.length = 1024) ∧
      (n < 16 → (u n).readSector n = (v, st) → st ≠ .ok →
        (st ≠ .fatal → exec (.readClassic ul uid ka kb) s =
            .next ((v.zeroKeys 12 204).answered st.code []) ∧ (st = .auth ∨ st = .read)) ∧
        (st = .fatal → exec (.readClassic ul uid ka kb) s = .next v))) ∧
    (ul ≠ 4 → ul ≠ 7 → ul ≠ 10 → exec (.readClassic ul uid ka kb) s = .next ((s.zeroKeys 12 204).answered 0x02 []))

/-- R334, R36: no key outlives AUTH or READ_CLASSIC, but in FATAL, whatever its status, `ERR_PARAM` too (log entry 23): every
key register is zero after it, and the key bytes of `H_CMD` are zero (3..8 of AUTH's frame, 12..203 of READ_CLASSIC's). -/
def Obligations.KeysDoNotOutliveTheirCommand : Prop :=
  ∀ (i : Instr) (s t : State), s.st ≠ .fatal → decodeHost s.host.cmd = .ok i →
    exec i s = .next t → t.st ≠ .fatal →
    (∀ k sec key uid4, i = .auth k sec key uid4 →
      t.host.cmd = [0x40, k, sec] ++ List.replicate 6 0 ++ uid4 ∧
      t.work.keyA = List.replicate 16 (List.replicate 6 0) ∧ t.work.keyB = List.replicate 16 (List.replicate 6 0)) ∧
    (∀ ul uid ka kb, i = .readClassic ul uid ka kb →
      t.host.cmd = [0x43, ul] ++ uid ++ List.replicate 192 0 ∧
      t.work.keyA = List.replicate 16 (List.replicate 6 0) ∧ t.work.keyB = List.replicate 16 (List.replicate 6 0))

/-! ### MIFARE Ultralight/NTAG -/

/-- R352, R353: READ_ULTRALIGHT reads windows at pages 0, 4, 8, … (`u k` is the state before window `k`). All 34 read: 540
bytes. A window that fails ends it: at page 44 with success and 176 bytes, at any other page with `ERR_READ`. -/
def Obligations.ReadUltralightStopsAtABoundary : Prop :=
  ∀ (s v : State) (st : Status) (n : Nat) (u w : Nat → State), s.st ≠ .fatal →
    u 0 = { s with work := { s.work with image := [], page := 0 } } → n ≤ 34 →
    (∀ k < n,
      ((u k).atLine .read).runExec ⟨.transceive, true, true, 0, 0, 16, 16, s.params.tRead,
        [s.params.card.mfRead, BitVec.ofNat 8 (4 * k)]⟩ = (w k, .ok) ∧
      u (k + 1) = { w k with work := { (w k).work with
        image := (w k).work.image ++ (w k).rxSlice
        page := BitVec.ofNat 8 (4 * (k + 1)) } }) →
    encode s.params .readUltralight = [0x51] ∧
    (n = 34 → exec .readUltralight s = .next ((u 34).answered 0x00 ((u 34).work.image.take 540)) ∧
      (u 34).work.image.length = 544) ∧
    (n < 34 →
      ((u n).atLine .read).runExec ⟨.transceive, true, true, 0, 0, 16, 16, s.params.tRead,
        [s.params.card.mfRead, BitVec.ofNat 8 (4 * n)]⟩ = (v, st) → st ≠ .ok →
      (n = 11 → st ≠ .fatal → exec .readUltralight s = .next (v.answered 0x00 v.work.image) ∧
        v.work.image.length = 176) ∧
      (n ≠ 11 → st ≠ .fatal → exec .readUltralight s = .next (v.answered 0x0D [])) ∧
      (st = .fatal → exec .readUltralight s = .next v))

/-! ### Card frames -/

/-- R160: every row of the card-frame table, its send bytes, bit count, family, CRC enables, lengths and timeout. That the
opcode table's card rows run on their own, one executor run each without a result frame, is the model's choice (log
entry 6). -/
def Obligations.CardFramesRunTheirDescriptors : Prop :=
  ∀ (c : Config.Card) (s : State) (p0 p1 p2 p3 k sec a : Byte) (key uid4 data : Bytes), s.params.card = c →
    s.st ≠ .fatal →
    exec .cardWupa s =
      .next (s.runExec ⟨.transceive, false, false, 7, 0, 2, 2, s.params.tWupa, [c.wupa]⟩).1 ∧
    exec .cardAnticollL1 s =
      .next (s.runExec ⟨.transceive, false, false, 0, 0, 5, 5, s.params.tAnticoll, [c.sel1, 0x20]⟩).1 ∧
    exec .cardAnticollL2 s =
      .next (s.runExec ⟨.transceive, false, false, 0, 0, 5, 5, s.params.tAnticoll, [c.sel2, 0x20]⟩).1 ∧
    exec .cardAnticollL3 s =
      .next (s.runExec ⟨.transceive, false, false, 0, 0, 5, 5, s.params.tAnticoll, [c.sel3, 0x20]⟩).1 ∧
    exec (.cardSelectL1 [p0, p1, p2, p3] k) s =
      .next (s.runExec ⟨.transceive, true, true, 0, 0, 1, 1, s.params.tSelect, [c.sel1, 0x70, p0, p1, p2, p3, k]⟩).1 ∧
    exec (.cardSelectL2 [p0, p1, p2, p3] k) s =
      .next (s.runExec ⟨.transceive, true, true, 0, 0, 1, 1, s.params.tSelect, [c.sel2, 0x70, p0, p1, p2, p3, k]⟩).1 ∧
    exec (.cardSelectL3 [p0, p1, p2, p3] k) s =
      .next (s.runExec ⟨.transceive, true, true, 0, 0, 1, 1, s.params.tSelect, [c.sel3, 0x70, p0, p1, p2, p3, k]⟩).1 ∧
    exec .cardHlta s =
      .next (s.runExec ⟨.transceive, true, false, 0, 0, 0, 255, s.params.tHalt, [c.hlta0, c.hlta1]⟩).1 ∧
    exec (.cardAuthA sec key uid4) s =
      .next (s.runExec ⟨.authenticate, false, false, 0, 0, 0, 0, s.params.tAuth, [c.authA, 4 * sec] ++ key ++ uid4⟩).1 ∧
    exec (.cardAuthB sec key uid4) s =
      .next (s.runExec ⟨.authenticate, false, false, 0, 0, 0, 0, s.params.tAuth, [c.authB, 4 * sec] ++ key ++ uid4⟩).1 ∧
    exec (.cardRead a) s =
      .next (s.runExec ⟨.transceive, true, true, 0, 0, 16, 16, s.params.tRead, [c.mfRead, a]⟩).1 ∧
    exec (.cardWrite a) s =
      .next (s.runExec ⟨.transceive, true, false, 0, 0, 1, 1, s.params.tWrite, [c.mfWrite, a]⟩).1 ∧
    writeDataDesc s.params data = ⟨.transceive, true, false, 0, 0, 1, 1, s.params.tWrite, data⟩

/-! ### Rules over the whole machine -/

/-- R404, R122, R470: FATAL is sticky. Every host command but HARD_RESET is answered `[FF 00 00]` with no other effect, so
is a host frame that is the frame of no well-formed instruction, and a bus or card frame has no effect at all; only
HARD_RESET leaves it (`HardResetLeavesFatal`). -/
def Obligations.FatalIsSticky : Prop :=
  ∀ (i : Instr) (s : State), s.st = .fatal →
    (i.port = .host → i ≠ .hardReset →
      exec i s = .next { s with
        host := ⟨s.host.cmd, [0xFF, 0x00, 0x00], true⟩
        hist := s.hist ++ [.result [0xFF, 0x00, 0x00]] }) ∧
    (i.port ≠ .host → exec i s = .next s) ∧
    ∀ (f : Bytes) (rest : List Offer), s.offers = ⟨.host, f⟩ :: rest → 1 ≤ f.length → f.length ≤ 255 →
      (∀ j : Instr, j.port = .host → j.wellFormed = true → encode s.params j ≠ f) →
      step s = .next { s with
        offers := rest
        host := ⟨s.host.cmd, [0xFF, 0x00, 0x00], true⟩
        hist := s.hist ++ [.command f, .result [0xFF, 0x00, 0x00]] }

/-- R93, R121: every host command, in every state, ends with its result. The result frame is the last event, the only result
among the command's events, and what `H_RES` holds, ready; the engine is IDLE or FATAL. The transfers before it are well
framed. -/
def Obligations.HostCommandEndsWithItsResult : Prop :=
  ∀ (i : Instr) (s : State), i.port = .host → ∃ t : State, exec i s = .next t ∧
    t.host.resValid = true ∧ (t.st = .idle ∨ t.st = .fatal) ∧ 3 ≤ t.host.res.length ∧
    t.host.res.length = 3 + (t.host.res.getD 1 0).toNat + 256 * (t.host.res.getD 2 0).toNat ∧
    t.host.res.length ≤ 1027 ∧
    ∃ evs : List Event, t.hist = s.hist ++ evs ++ [.result t.host.res] ∧
      ∀ e ∈ evs, e.isResult = false ∧ e.wellFramed = true

/-- R121, R401, R170: on a status other than `OK` the payload is empty, but for EXECUTE; the status is one of R400's codes
and never `ERR_GENERIC` or `ERR_CHIP`. -/
def Obligations.NothingPartialIsReturned : Prop :=
  ∀ (i : Instr) (s t : State), i.port = .host → exec i s = .next t →
    (t.host.res.getD 0 0 ∈
      ([0x00, 0x02, 0x04, 0x05, 0x06, 0x07, 0x08, 0x09, 0x0A, 0x0B, 0x0C, 0x0D, 0x0E, 0xFF] : Bytes)) ∧
    ((∀ d, i ≠ .execute d) → t.host.res.getD 0 0 ≠ 0x00 → t.host.res = [t.host.res.getD 0 0, 0x00, 0x00])

/-- R451, R405: no unspecified register is read before it is written. Two states between commands that differ only in
`pc`, the descriptor, identity and working registers, and what the model keeps of the last read and run, take steps to
states that differ only there, so their ports show the same. -/
def Obligations.UnspecifiedRegistersAreNeverRead : Prop :=
  ∀ s t s' : State, Inv s → Inv t → SameButUnspecified s t → step s = .next s' →
    ∃ t' : State, step t = .next t' ∧ SameButUnspecified s' t'
end

