-- ==== Sys2Proof/Laws/State.lean ====
section
/-! SUPPORT. One lemma per field of State per update, so that no proof unfolds a record update. -/

namespace Sys2Proof.Machine.State

variable (s : State)

@[simp] theorem setSt_st (v : EngineState) : (s.setSt v).st = v := rfl
@[simp] theorem setSt_pc (v : EngineState) : (s.setSt v).pc = s.pc := rfl
@[simp] theorem setSt_d (v : EngineState) : (s.setSt v).d = s.d := rfl
@[simp] theorem setSt_sess (v : EngineState) : (s.setSt v).sess = s.sess := rfl
@[simp] theorem setSt_ident (v : EngineState) : (s.setSt v).ident = s.ident := rfl
@[simp] theorem setSt_work (v : EngineState) : (s.setSt v).work = s.work := rfl
@[simp] theorem setSt_host (v : EngineState) : (s.setSt v).host = s.host := rfl
@[simp] theorem setSt_pRst (v : EngineState) : (s.setSt v).pRst = s.pRst := rfl
@[simp] theorem setSt_rOut (v : EngineState) : (s.setSt v).rOut = s.rOut := rfl
@[simp] theorem setSt_xStatus (v : EngineState) : (s.setSt v).xStatus = s.xStatus := rfl
@[simp] theorem setSt_offers (v : EngineState) : (s.setSt v).offers = s.offers := rfl
@[simp] theorem setSt_env (v : EngineState) : (s.setSt v).env = s.env := rfl
@[simp] theorem setSt_params (v : EngineState) : (s.setSt v).params = s.params := rfl
@[simp] theorem setSt_hist (v : EngineState) : (s.setSt v).hist = s.hist := rfl

@[simp] theorem setPc_st (v : Pc) : (s.setPc v).st = s.st := rfl
@[simp] theorem setPc_pc (v : Pc) : (s.setPc v).pc = v := rfl
@[simp] theorem setPc_d (v : Pc) : (s.setPc v).d = s.d := rfl
@[simp] theorem setPc_sess (v : Pc) : (s.setPc v).sess = s.sess := rfl
@[simp] theorem setPc_ident (v : Pc) : (s.setPc v).ident = s.ident := rfl
@[simp] theorem setPc_work (v : Pc) : (s.setPc v).work = s.work := rfl
@[simp] theorem setPc_host (v : Pc) : (s.setPc v).host = s.host := rfl
@[simp] theorem setPc_pRst (v : Pc) : (s.setPc v).pRst = s.pRst := rfl
@[simp] theorem setPc_rOut (v : Pc) : (s.setPc v).rOut = s.rOut := rfl
@[simp] theorem setPc_xStatus (v : Pc) : (s.setPc v).xStatus = s.xStatus := rfl
@[simp] theorem setPc_offers (v : Pc) : (s.setPc v).offers = s.offers := rfl
@[simp] theorem setPc_env (v : Pc) : (s.setPc v).env = s.env := rfl
@[simp] theorem setPc_params (v : Pc) : (s.setPc v).params = s.params := rfl
@[simp] theorem setPc_hist (v : Pc) : (s.setPc v).hist = s.hist := rfl

@[simp] theorem setD_st (v : Desc) : (s.setD v).st = s.st := rfl
@[simp] theorem setD_pc (v : Desc) : (s.setD v).pc = s.pc := rfl
@[simp] theorem setD_d (v : Desc) : (s.setD v).d = v := rfl
@[simp] theorem setD_sess (v : Desc) : (s.setD v).sess = s.sess := rfl
@[simp] theorem setD_ident (v : Desc) : (s.setD v).ident = s.ident := rfl
@[simp] theorem setD_work (v : Desc) : (s.setD v).work = s.work := rfl
@[simp] theorem setD_host (v : Desc) : (s.setD v).host = s.host := rfl
@[simp] theorem setD_pRst (v : Desc) : (s.setD v).pRst = s.pRst := rfl
@[simp] theorem setD_rOut (v : Desc) : (s.setD v).rOut = s.rOut := rfl
@[simp] theorem setD_xStatus (v : Desc) : (s.setD v).xStatus = s.xStatus := rfl
@[simp] theorem setD_offers (v : Desc) : (s.setD v).offers = s.offers := rfl
@[simp] theorem setD_env (v : Desc) : (s.setD v).env = s.env := rfl
@[simp] theorem setD_params (v : Desc) : (s.setD v).params = s.params := rfl
@[simp] theorem setD_hist (v : Desc) : (s.setD v).hist = s.hist := rfl

@[simp] theorem setSess_st (v : Session) : (s.setSess v).st = s.st := rfl
@[simp] theorem setSess_pc (v : Session) : (s.setSess v).pc = s.pc := rfl
@[simp] theorem setSess_d (v : Session) : (s.setSess v).d = s.d := rfl
@[simp] theorem setSess_sess (v : Session) : (s.setSess v).sess = v := rfl
@[simp] theorem setSess_ident (v : Session) : (s.setSess v).ident = s.ident := rfl
@[simp] theorem setSess_work (v : Session) : (s.setSess v).work = s.work := rfl
@[simp] theorem setSess_host (v : Session) : (s.setSess v).host = s.host := rfl
@[simp] theorem setSess_pRst (v : Session) : (s.setSess v).pRst = s.pRst := rfl
@[simp] theorem setSess_rOut (v : Session) : (s.setSess v).rOut = s.rOut := rfl
@[simp] theorem setSess_xStatus (v : Session) : (s.setSess v).xStatus = s.xStatus := rfl
@[simp] theorem setSess_offers (v : Session) : (s.setSess v).offers = s.offers := rfl
@[simp] theorem setSess_env (v : Session) : (s.setSess v).env = s.env := rfl
@[simp] theorem setSess_params (v : Session) : (s.setSess v).params = s.params := rfl
@[simp] theorem setSess_hist (v : Session) : (s.setSess v).hist = s.hist := rfl

@[simp] theorem setIdent_st (v : Ident) : (s.setIdent v).st = s.st := rfl
@[simp] theorem setIdent_pc (v : Ident) : (s.setIdent v).pc = s.pc := rfl
@[simp] theorem setIdent_d (v : Ident) : (s.setIdent v).d = s.d := rfl
@[simp] theorem setIdent_sess (v : Ident) : (s.setIdent v).sess = s.sess := rfl
@[simp] theorem setIdent_ident (v : Ident) : (s.setIdent v).ident = v := rfl
@[simp] theorem setIdent_work (v : Ident) : (s.setIdent v).work = s.work := rfl
@[simp] theorem setIdent_host (v : Ident) : (s.setIdent v).host = s.host := rfl
@[simp] theorem setIdent_pRst (v : Ident) : (s.setIdent v).pRst = s.pRst := rfl
@[simp] theorem setIdent_rOut (v : Ident) : (s.setIdent v).rOut = s.rOut := rfl
@[simp] theorem setIdent_xStatus (v : Ident) : (s.setIdent v).xStatus = s.xStatus := rfl
@[simp] theorem setIdent_offers (v : Ident) : (s.setIdent v).offers = s.offers := rfl
@[simp] theorem setIdent_env (v : Ident) : (s.setIdent v).env = s.env := rfl
@[simp] theorem setIdent_params (v : Ident) : (s.setIdent v).params = s.params := rfl
@[simp] theorem setIdent_hist (v : Ident) : (s.setIdent v).hist = s.hist := rfl

@[simp] theorem setWork_st (v : Work) : (s.setWork v).st = s.st := rfl
@[simp] theorem setWork_pc (v : Work) : (s.setWork v).pc = s.pc := rfl
@[simp] theorem setWork_d (v : Work) : (s.setWork v).d = s.d := rfl
@[simp] theorem setWork_sess (v : Work) : (s.setWork v).sess = s.sess := rfl
@[simp] theorem setWork_ident (v : Work) : (s.setWork v).ident = s.ident := rfl
@[simp] theorem setWork_work (v : Work) : (s.setWork v).work = v := rfl
@[simp] theorem setWork_host (v : Work) : (s.setWork v).host = s.host := rfl
@[simp] theorem setWork_pRst (v : Work) : (s.setWork v).pRst = s.pRst := rfl
@[simp] theorem setWork_rOut (v : Work) : (s.setWork v).rOut = s.rOut := rfl
@[simp] theorem setWork_xStatus (v : Work) : (s.setWork v).xStatus = s.xStatus := rfl
@[simp] theorem setWork_offers (v : Work) : (s.setWork v).offers = s.offers := rfl
@[simp] theorem setWork_env (v : Work) : (s.setWork v).env = s.env := rfl
@[simp] theorem setWork_params (v : Work) : (s.setWork v).params = s.params := rfl
@[simp] theorem setWork_hist (v : Work) : (s.setWork v).hist = s.hist := rfl

@[simp] theorem setHost_st (v : HostPort) : (s.setHost v).st = s.st := rfl
@[simp] theorem setHost_pc (v : HostPort) : (s.setHost v).pc = s.pc := rfl
@[simp] theorem setHost_d (v : HostPort) : (s.setHost v).d = s.d := rfl
@[simp] theorem setHost_sess (v : HostPort) : (s.setHost v).sess = s.sess := rfl
@[simp] theorem setHost_ident (v : HostPort) : (s.setHost v).ident = s.ident := rfl
@[simp] theorem setHost_work (v : HostPort) : (s.setHost v).work = s.work := rfl
@[simp] theorem setHost_host (v : HostPort) : (s.setHost v).host = v := rfl
@[simp] theorem setHost_pRst (v : HostPort) : (s.setHost v).pRst = s.pRst := rfl
@[simp] theorem setHost_rOut (v : HostPort) : (s.setHost v).rOut = s.rOut := rfl
@[simp] theorem setHost_xStatus (v : HostPort) : (s.setHost v).xStatus = s.xStatus := rfl
@[simp] theorem setHost_offers (v : HostPort) : (s.setHost v).offers = s.offers := rfl
@[simp] theorem setHost_env (v : HostPort) : (s.setHost v).env = s.env := rfl
@[simp] theorem setHost_params (v : HostPort) : (s.setHost v).params = s.params := rfl
@[simp] theorem setHost_hist (v : HostPort) : (s.setHost v).hist = s.hist := rfl

@[simp] theorem setPRst_st (v : Bool) : (s.setPRst v).st = s.st := rfl
@[simp] theorem setPRst_pc (v : Bool) : (s.setPRst v).pc = s.pc := rfl
@[simp] theorem setPRst_d (v : Bool) : (s.setPRst v).d = s.d := rfl
@[simp] theorem setPRst_sess (v : Bool) : (s.setPRst v).sess = s.sess := rfl
@[simp] theorem setPRst_ident (v : Bool) : (s.setPRst v).ident = s.ident := rfl
@[simp] theorem setPRst_work (v : Bool) : (s.setPRst v).work = s.work := rfl
@[simp] theorem setPRst_host (v : Bool) : (s.setPRst v).host = s.host := rfl
@[simp] theorem setPRst_pRst (v : Bool) : (s.setPRst v).pRst = v := rfl
@[simp] theorem setPRst_rOut (v : Bool) : (s.setPRst v).rOut = s.rOut := rfl
@[simp] theorem setPRst_xStatus (v : Bool) : (s.setPRst v).xStatus = s.xStatus := rfl
@[simp] theorem setPRst_offers (v : Bool) : (s.setPRst v).offers = s.offers := rfl
@[simp] theorem setPRst_env (v : Bool) : (s.setPRst v).env = s.env := rfl
@[simp] theorem setPRst_params (v : Bool) : (s.setPRst v).params = s.params := rfl
@[simp] theorem setPRst_hist (v : Bool) : (s.setPRst v).hist = s.hist := rfl

@[simp] theorem setROut_st (v : Bytes) : (s.setROut v).st = s.st := rfl
@[simp] theorem setROut_pc (v : Bytes) : (s.setROut v).pc = s.pc := rfl
@[simp] theorem setROut_d (v : Bytes) : (s.setROut v).d = s.d := rfl
@[simp] theorem setROut_sess (v : Bytes) : (s.setROut v).sess = s.sess := rfl
@[simp] theorem setROut_ident (v : Bytes) : (s.setROut v).ident = s.ident := rfl
@[simp] theorem setROut_work (v : Bytes) : (s.setROut v).work = s.work := rfl
@[simp] theorem setROut_host (v : Bytes) : (s.setROut v).host = s.host := rfl
@[simp] theorem setROut_pRst (v : Bytes) : (s.setROut v).pRst = s.pRst := rfl
@[simp] theorem setROut_rOut (v : Bytes) : (s.setROut v).rOut = v := rfl
@[simp] theorem setROut_xStatus (v : Bytes) : (s.setROut v).xStatus = s.xStatus := rfl
@[simp] theorem setROut_offers (v : Bytes) : (s.setROut v).offers = s.offers := rfl
@[simp] theorem setROut_env (v : Bytes) : (s.setROut v).env = s.env := rfl
@[simp] theorem setROut_params (v : Bytes) : (s.setROut v).params = s.params := rfl
@[simp] theorem setROut_hist (v : Bytes) : (s.setROut v).hist = s.hist := rfl

@[simp] theorem setXStatus_st (v : Status) : (s.setXStatus v).st = s.st := rfl
@[simp] theorem setXStatus_pc (v : Status) : (s.setXStatus v).pc = s.pc := rfl
@[simp] theorem setXStatus_d (v : Status) : (s.setXStatus v).d = s.d := rfl
@[simp] theorem setXStatus_sess (v : Status) : (s.setXStatus v).sess = s.sess := rfl
@[simp] theorem setXStatus_ident (v : Status) : (s.setXStatus v).ident = s.ident := rfl
@[simp] theorem setXStatus_work (v : Status) : (s.setXStatus v).work = s.work := rfl
@[simp] theorem setXStatus_host (v : Status) : (s.setXStatus v).host = s.host := rfl
@[simp] theorem setXStatus_pRst (v : Status) : (s.setXStatus v).pRst = s.pRst := rfl
@[simp] theorem setXStatus_rOut (v : Status) : (s.setXStatus v).rOut = s.rOut := rfl
@[simp] theorem setXStatus_xStatus (v : Status) : (s.setXStatus v).xStatus = v := rfl
@[simp] theorem setXStatus_offers (v : Status) : (s.setXStatus v).offers = s.offers := rfl
@[simp] theorem setXStatus_env (v : Status) : (s.setXStatus v).env = s.env := rfl
@[simp] theorem setXStatus_params (v : Status) : (s.setXStatus v).params = s.params := rfl
@[simp] theorem setXStatus_hist (v : Status) : (s.setXStatus v).hist = s.hist := rfl

@[simp] theorem setOffers_st (v : List Offer) : (s.setOffers v).st = s.st := rfl
@[simp] theorem setOffers_pc (v : List Offer) : (s.setOffers v).pc = s.pc := rfl
@[simp] theorem setOffers_d (v : List Offer) : (s.setOffers v).d = s.d := rfl
@[simp] theorem setOffers_sess (v : List Offer) : (s.setOffers v).sess = s.sess := rfl
@[simp] theorem setOffers_ident (v : List Offer) : (s.setOffers v).ident = s.ident := rfl
@[simp] theorem setOffers_work (v : List Offer) : (s.setOffers v).work = s.work := rfl
@[simp] theorem setOffers_host (v : List Offer) : (s.setOffers v).host = s.host := rfl
@[simp] theorem setOffers_pRst (v : List Offer) : (s.setOffers v).pRst = s.pRst := rfl
@[simp] theorem setOffers_rOut (v : List Offer) : (s.setOffers v).rOut = s.rOut := rfl
@[simp] theorem setOffers_xStatus (v : List Offer) : (s.setOffers v).xStatus = s.xStatus := rfl
@[simp] theorem setOffers_offers (v : List Offer) : (s.setOffers v).offers = v := rfl
@[simp] theorem setOffers_env (v : List Offer) : (s.setOffers v).env = s.env := rfl
@[simp] theorem setOffers_params (v : List Offer) : (s.setOffers v).params = s.params := rfl
@[simp] theorem setOffers_hist (v : List Offer) : (s.setOffers v).hist = s.hist := rfl

@[simp] theorem setEnv_st (v : Env) : (s.setEnv v).st = s.st := rfl
@[simp] theorem setEnv_pc (v : Env) : (s.setEnv v).pc = s.pc := rfl
@[simp] theorem setEnv_d (v : Env) : (s.setEnv v).d = s.d := rfl
@[simp] theorem setEnv_sess (v : Env) : (s.setEnv v).sess = s.sess := rfl
@[simp] theorem setEnv_ident (v : Env) : (s.setEnv v).ident = s.ident := rfl
@[simp] theorem setEnv_work (v : Env) : (s.setEnv v).work = s.work := rfl
@[simp] theorem setEnv_host (v : Env) : (s.setEnv v).host = s.host := rfl
@[simp] theorem setEnv_pRst (v : Env) : (s.setEnv v).pRst = s.pRst := rfl
@[simp] theorem setEnv_rOut (v : Env) : (s.setEnv v).rOut = s.rOut := rfl
@[simp] theorem setEnv_xStatus (v : Env) : (s.setEnv v).xStatus = s.xStatus := rfl
@[simp] theorem setEnv_offers (v : Env) : (s.setEnv v).offers = s.offers := rfl
@[simp] theorem setEnv_env (v : Env) : (s.setEnv v).env = v := rfl
@[simp] theorem setEnv_params (v : Env) : (s.setEnv v).params = s.params := rfl
@[simp] theorem setEnv_hist (v : Env) : (s.setEnv v).hist = s.hist := rfl

@[simp] theorem log_st (e : Event) : (s.log e).st = s.st := rfl
@[simp] theorem log_pc (e : Event) : (s.log e).pc = s.pc := rfl
@[simp] theorem log_d (e : Event) : (s.log e).d = s.d := rfl
@[simp] theorem log_sess (e : Event) : (s.log e).sess = s.sess := rfl
@[simp] theorem log_ident (e : Event) : (s.log e).ident = s.ident := rfl
@[simp] theorem log_work (e : Event) : (s.log e).work = s.work := rfl
@[simp] theorem log_host (e : Event) : (s.log e).host = s.host := rfl
@[simp] theorem log_pRst (e : Event) : (s.log e).pRst = s.pRst := rfl
@[simp] theorem log_rOut (e : Event) : (s.log e).rOut = s.rOut := rfl
@[simp] theorem log_xStatus (e : Event) : (s.log e).xStatus = s.xStatus := rfl
@[simp] theorem log_offers (e : Event) : (s.log e).offers = s.offers := rfl
@[simp] theorem log_env (e : Event) : (s.log e).env = s.env := rfl
@[simp] theorem log_params (e : Event) : (s.log e).params = s.params := rfl
@[simp] theorem log_hist (e : Event) : (s.log e).hist = s.hist ++ [e] := rfl

/-- Two states are equal when all their fields are. -/
theorem ext_fields {s t : State} (h1 : s.st = t.st) (h2 : s.pc = t.pc) (h3 : s.d = t.d) (h4 : s.sess = t.sess)
    (h5 : s.ident = t.ident) (h6 : s.work = t.work) (h7 : s.host = t.host) (h8 : s.pRst = t.pRst)
    (h9 : s.rOut = t.rOut) (h10 : s.xStatus = t.xStatus) (h11 : s.offers = t.offers) (h12 : s.env = t.env)
    (h13 : s.params = t.params) (h14 : s.hist = t.hist) : s = t := by
  cases s; cases t; simp_all

end Sys2Proof.Machine.State
end

