-- ==== Sys2Proof/Laws/Ops.lean ====
section
/-! SUPPORT. One specification per shared operation of Machine/Ops.lean and Machine/Timer.lean: what the environment's
draws give, what each bus operation leaves alone (simp set), and what it sends and returns. -/

namespace Sys2Proof.Machine

/-! ### Draws -/

@[simp] theorem Env.drawBytes_length (n : Nat) (e : Env) : (Env.drawBytes n e).1.length = n := by
  induction n generalizing e with
  | zero => rfl
  | succ n ih => simp [Env.drawBytes, ih]

/-- A scripted byte is answered as scripted. -/
theorem Env.drawByte_cons (b : Byte) (bs : Bytes) (e : Env) :
    Env.drawByte { e with busIn := b :: bs } = (b, { e with busIn := bs }) := rfl

/-- Scripted bytes are answered in order, and nothing else changes. -/
theorem Env.drawBytes_append (bs rest : Bytes) (e : Env) :
    Env.drawBytes bs.length { e with busIn := bs ++ rest } = (bs, { e with busIn := rest }) := by
  induction bs with
  | nil => rfl
  | cons b bs ih => simp only [List.cons_append, List.length_cons, Env.drawBytes, Env.drawByte_cons, ih]

/-- A draw of bytes leaves the other inputs alone. -/
theorem Env.drawBytes_inputs (n : Nat) (e : Env) :
    (Env.drawBytes n e).2.deadlines = e.deadlines ∧ (Env.drawBytes n e).2.times = e.times := by
  induction n generalizing e with
  | zero => exact ⟨rfl, rfl⟩
  | succ n ih =>
    have hb : e.drawByte.2.deadlines = e.deadlines ∧ e.drawByte.2.times = e.times := by
      unfold Env.drawByte; split <;> exact ⟨rfl, rfl⟩
    exact ⟨(ih _).1.trans hb.1, (ih _).2.trans hb.2⟩

namespace State

variable (s : State)

/-! ### The labels of `pc` -/

@[simp] theorem atLine_st (l : Line) : (s.atLine l).st = s.st := rfl
@[simp] theorem atLine_d (l : Line) : (s.atLine l).d = s.d := rfl
@[simp] theorem atLine_sess (l : Line) : (s.atLine l).sess = s.sess := rfl
@[simp] theorem atLine_ident (l : Line) : (s.atLine l).ident = s.ident := rfl
@[simp] theorem atLine_work (l : Line) : (s.atLine l).work = s.work := rfl
@[simp] theorem atLine_host (l : Line) : (s.atLine l).host = s.host := rfl
@[simp] theorem atLine_pRst (l : Line) : (s.atLine l).pRst = s.pRst := rfl
@[simp] theorem atLine_rOut (l : Line) : (s.atLine l).rOut = s.rOut := rfl
@[simp] theorem atLine_xStatus (l : Line) : (s.atLine l).xStatus = s.xStatus := rfl
@[simp] theorem atLine_offers (l : Line) : (s.atLine l).offers = s.offers := rfl
@[simp] theorem atLine_env (l : Line) : (s.atLine l).env = s.env := rfl
@[simp] theorem atLine_params (l : Line) : (s.atLine l).params = s.params := rfl
@[simp] theorem atLine_hist (l : Line) : (s.atLine l).hist = s.hist := rfl
@[simp] theorem atLine_pc (l : Line) : (s.atLine l).pc = ⟨s.pc.op, ⟨l, .none⟩⟩ := rfl

@[simp] theorem atPhase_st (p : Phase) : (s.atPhase p).st = s.st := rfl
@[simp] theorem atPhase_d (p : Phase) : (s.atPhase p).d = s.d := rfl
@[simp] theorem atPhase_sess (p : Phase) : (s.atPhase p).sess = s.sess := rfl
@[simp] theorem atPhase_ident (p : Phase) : (s.atPhase p).ident = s.ident := rfl
@[simp] theorem atPhase_work (p : Phase) : (s.atPhase p).work = s.work := rfl
@[simp] theorem atPhase_host (p : Phase) : (s.atPhase p).host = s.host := rfl
@[simp] theorem atPhase_pRst (p : Phase) : (s.atPhase p).pRst = s.pRst := rfl
@[simp] theorem atPhase_rOut (p : Phase) : (s.atPhase p).rOut = s.rOut := rfl
@[simp] theorem atPhase_xStatus (p : Phase) : (s.atPhase p).xStatus = s.xStatus := rfl
@[simp] theorem atPhase_offers (p : Phase) : (s.atPhase p).offers = s.offers := rfl
@[simp] theorem atPhase_env (p : Phase) : (s.atPhase p).env = s.env := rfl
@[simp] theorem atPhase_params (p : Phase) : (s.atPhase p).params = s.params := rfl
@[simp] theorem atPhase_hist (p : Phase) : (s.atPhase p).hist = s.hist := rfl
@[simp] theorem atPhase_pc (p : Phase) : (s.atPhase p).pc = ⟨s.pc.op, ⟨s.pc.step.line, p⟩⟩ := rfl

/-- A line label replaces whatever label was there. -/
@[simp] theorem atLine_atLine (l m : Line) : (s.atLine l).atLine m = s.atLine m := rfl
@[simp] theorem atPhase_atLine (p : Phase) (l : Line) : (s.atPhase p).atLine l = s.atLine l := rfl
@[simp] theorem atPhase_atPhase (p q : Phase) : (s.atPhase p).atPhase q = s.atPhase q := rfl

/-! ### What the bus operations leave alone -/

@[simp] theorem xfer_st (out : Bytes) : (s.xfer out).2.st = s.st := rfl
@[simp] theorem xfer_pc (out : Bytes) : (s.xfer out).2.pc = s.pc := rfl
@[simp] theorem xfer_d (out : Bytes) : (s.xfer out).2.d = s.d := rfl
@[simp] theorem xfer_sess (out : Bytes) : (s.xfer out).2.sess = s.sess := rfl
@[simp] theorem xfer_ident (out : Bytes) : (s.xfer out).2.ident = s.ident := rfl
@[simp] theorem xfer_work (out : Bytes) : (s.xfer out).2.work = s.work := rfl
@[simp] theorem xfer_host (out : Bytes) : (s.xfer out).2.host = s.host := rfl
@[simp] theorem xfer_pRst (out : Bytes) : (s.xfer out).2.pRst = s.pRst := rfl
@[simp] theorem xfer_xStatus (out : Bytes) : (s.xfer out).2.xStatus = s.xStatus := rfl
@[simp] theorem xfer_offers (out : Bytes) : (s.xfer out).2.offers = s.offers := rfl
@[simp] theorem xfer_params (out : Bytes) : (s.xfer out).2.params = s.params := rfl
@[simp] theorem xfer_rOut (out : Bytes) : (s.xfer out).2.rOut = s.rOut := rfl

@[simp] theorem regRead_st (a : Byte) : (s.regRead a).2.st = s.st := rfl
@[simp] theorem regRead_pc (a : Byte) : (s.regRead a).2.pc = s.pc := rfl
@[simp] theorem regRead_d (a : Byte) : (s.regRead a).2.d = s.d := rfl
@[simp] theorem regRead_sess (a : Byte) : (s.regRead a).2.sess = s.sess := rfl
@[simp] theorem regRead_ident (a : Byte) : (s.regRead a).2.ident = s.ident := rfl
@[simp] theorem regRead_work (a : Byte) : (s.regRead a).2.work = s.work := rfl
@[simp] theorem regRead_host (a : Byte) : (s.regRead a).2.host = s.host := rfl
@[simp] theorem regRead_pRst (a : Byte) : (s.regRead a).2.pRst = s.pRst := rfl
@[simp] theorem regRead_xStatus (a : Byte) : (s.regRead a).2.xStatus = s.xStatus := rfl
@[simp] theorem regRead_offers (a : Byte) : (s.regRead a).2.offers = s.offers := rfl
@[simp] theorem regRead_params (a : Byte) : (s.regRead a).2.params = s.params := rfl

@[simp] theorem regWrite_st (a v : Byte) : (s.regWrite a v).st = s.st := rfl
@[simp] theorem regWrite_pc (a v : Byte) : (s.regWrite a v).pc = s.pc := rfl
@[simp] theorem regWrite_d (a v : Byte) : (s.regWrite a v).d = s.d := rfl
@[simp] theorem regWrite_sess (a v : Byte) : (s.regWrite a v).sess = s.sess := rfl
@[simp] theorem regWrite_ident (a v : Byte) : (s.regWrite a v).ident = s.ident := rfl
@[simp] theorem regWrite_work (a v : Byte) : (s.regWrite a v).work = s.work := rfl
@[simp] theorem regWrite_host (a v : Byte) : (s.regWrite a v).host = s.host := rfl
@[simp] theorem regWrite_pRst (a v : Byte) : (s.regWrite a v).pRst = s.pRst := rfl
@[simp] theorem regWrite_xStatus (a v : Byte) : (s.regWrite a v).xStatus = s.xStatus := rfl
@[simp] theorem regWrite_offers (a v : Byte) : (s.regWrite a v).offers = s.offers := rfl
@[simp] theorem regWrite_params (a v : Byte) : (s.regWrite a v).params = s.params := rfl
@[simp] theorem regWrite_rOut (a v : Byte) : (s.regWrite a v).rOut = s.rOut := rfl

@[simp] theorem regModify_st (a m : Byte) (b : Bool) : (s.regModify a m b).st = s.st := rfl
@[simp] theorem regModify_pc (a m : Byte) (b : Bool) : 
    (s.regModify a m b).pc = ⟨s.pc.op, ⟨s.pc.step.line, .modifyWrite⟩⟩ := rfl
@[simp] theorem regModify_d (a m : Byte) (b : Bool) : (s.regModify a m b).d = s.d := rfl
@[simp] theorem regModify_sess (a m : Byte) (b : Bool) : (s.regModify a m b).sess = s.sess := rfl
@[simp] theorem regModify_ident (a m : Byte) (b : Bool) : (s.regModify a m b).ident = s.ident := rfl
@[simp] theorem regModify_work (a m : Byte) (b : Bool) : (s.regModify a m b).work = s.work := rfl
@[simp] theorem regModify_host (a m : Byte) (b : Bool) : (s.regModify a m b).host = s.host := rfl
@[simp] theorem regModify_pRst (a m : Byte) (b : Bool) : (s.regModify a m b).pRst = s.pRst := rfl
@[simp] theorem regModify_xStatus (a m : Byte) (b : Bool) : (s.regModify a m b).xStatus = s.xStatus := rfl
@[simp] theorem regModify_offers (a m : Byte) (b : Bool) : (s.regModify a m b).offers = s.offers := rfl
@[simp] theorem regModify_params (a m : Byte) (b : Bool) : (s.regModify a m b).params = s.params := rfl

@[simp] theorem fifoRead_st (n : Nat) : (s.fifoRead n).2.st = s.st := by
  unfold fifoRead; split <;> rfl
@[simp] theorem fifoRead_pc (n : Nat) : (s.fifoRead n).2.pc = s.pc := by
  unfold fifoRead; split <;> rfl
@[simp] theorem fifoRead_d (n : Nat) : (s.fifoRead n).2.d = s.d := by
  unfold fifoRead; split <;> rfl
@[simp] theorem fifoRead_sess (n : Nat) : (s.fifoRead n).2.sess = s.sess := by
  unfold fifoRead; split <;> rfl
@[simp] theorem fifoRead_ident (n : Nat) : (s.fifoRead n).2.ident = s.ident := by
  unfold fifoRead; split <;> rfl
@[simp] theorem fifoRead_work (n : Nat) : (s.fifoRead n).2.work = s.work := by
  unfold fifoRead; split <;> rfl
@[simp] theorem fifoRead_host (n : Nat) : (s.fifoRead n).2.host = s.host := by
  unfold fifoRead; split <;> rfl
@[simp] theorem fifoRead_pRst (n : Nat) : (s.fifoRead n).2.pRst = s.pRst := by
  unfold fifoRead; split <;> rfl
@[simp] theorem fifoRead_xStatus (n : Nat) : (s.fifoRead n).2.xStatus = s.xStatus := by
  unfold fifoRead; split <;> rfl
@[simp] theorem fifoRead_offers (n : Nat) : (s.fifoRead n).2.offers = s.offers := by
  unfold fifoRead; split <;> rfl
@[simp] theorem fifoRead_params (n : Nat) : (s.fifoRead n).2.params = s.params := by
  unfold fifoRead; split <;> rfl

@[simp] theorem fifoWrite_st (b : Bytes) : (s.fifoWrite b).st = s.st := by
  unfold fifoWrite; split <;> rfl
@[simp] theorem fifoWrite_pc (b : Bytes) : (s.fifoWrite b).pc = s.pc := by
  unfold fifoWrite; split <;> rfl
@[simp] theorem fifoWrite_d (b : Bytes) : (s.fifoWrite b).d = s.d := by
  unfold fifoWrite; split <;> rfl
@[simp] theorem fifoWrite_sess (b : Bytes) : (s.fifoWrite b).sess = s.sess := by
  unfold fifoWrite; split <;> rfl
@[simp] theorem fifoWrite_ident (b : Bytes) : (s.fifoWrite b).ident = s.ident := by
  unfold fifoWrite; split <;> rfl
@[simp] theorem fifoWrite_work (b : Bytes) : (s.fifoWrite b).work = s.work := by
  unfold fifoWrite; split <;> rfl
@[simp] theorem fifoWrite_host (b : Bytes) : (s.fifoWrite b).host = s.host := by
  unfold fifoWrite; split <;> rfl
@[simp] theorem fifoWrite_pRst (b : Bytes) : (s.fifoWrite b).pRst = s.pRst := by
  unfold fifoWrite; split <;> rfl
@[simp] theorem fifoWrite_xStatus (b : Bytes) : (s.fifoWrite b).xStatus = s.xStatus := by
  unfold fifoWrite; split <;> rfl
@[simp] theorem fifoWrite_offers (b : Bytes) : (s.fifoWrite b).offers = s.offers := by
  unfold fifoWrite; split <;> rfl
@[simp] theorem fifoWrite_params (b : Bytes) : (s.fifoWrite b).params = s.params := by
  unfold fifoWrite; split <;> rfl
@[simp] theorem fifoWrite_rOut (b : Bytes) : (s.fifoWrite b).rOut = s.rOut := by
  unfold fifoWrite; split <;> rfl

@[simp] theorem setTimeout_st (t : BitVec 16) : (s.setTimeout t).st = s.st := by simp [setTimeout]
@[simp] theorem setTimeout_pc (t : BitVec 16) : 
    (s.setTimeout t).pc = ⟨s.pc.op, ⟨s.pc.step.line, .tReloadL⟩⟩ := by simp [setTimeout]
@[simp] theorem setTimeout_d (t : BitVec 16) : (s.setTimeout t).d = s.d := by simp [setTimeout]
@[simp] theorem setTimeout_sess (t : BitVec 16) : (s.setTimeout t).sess = s.sess := by simp [setTimeout]
@[simp] theorem setTimeout_ident (t : BitVec 16) : (s.setTimeout t).ident = s.ident := by simp [setTimeout]
@[simp] theorem setTimeout_work (t : BitVec 16) : (s.setTimeout t).work = s.work := by simp [setTimeout]
@[simp] theorem setTimeout_host (t : BitVec 16) : (s.setTimeout t).host = s.host := by simp [setTimeout]
@[simp] theorem setTimeout_pRst (t : BitVec 16) : (s.setTimeout t).pRst = s.pRst := by simp [setTimeout]
@[simp] theorem setTimeout_xStatus (t : BitVec 16) : (s.setTimeout t).xStatus = s.xStatus := by simp [setTimeout]
@[simp] theorem setTimeout_offers (t : BitVec 16) : (s.setTimeout t).offers = s.offers := by simp [setTimeout]
@[simp] theorem setTimeout_params (t : BitVec 16) : (s.setTimeout t).params = s.params := by simp [setTimeout]
@[simp] theorem setTimeout_rOut (t : BitVec 16) : (s.setTimeout t).rOut = s.rOut := by simp [setTimeout]

@[simp] theorem regWrites_st (l : List (Config.Addr × Byte)) (s : State) : (s.regWrites l).st = s.st := by
  induction l generalizing s with
  | nil => rfl
  | cons x l ih => exact (ih _).trans (regWrite_st s _ _)
@[simp] theorem regWrites_pc (l : List (Config.Addr × Byte)) (s : State) : (s.regWrites l).pc = s.pc := by
  induction l generalizing s with
  | nil => rfl
  | cons x l ih => exact (ih _).trans (regWrite_pc s _ _)
@[simp] theorem regWrites_d (l : List (Config.Addr × Byte)) (s : State) : (s.regWrites l).d = s.d := by
  induction l generalizing s with
  | nil => rfl
  | cons x l ih => exact (ih _).trans (regWrite_d s _ _)
@[simp] theorem regWrites_sess (l : List (Config.Addr × Byte)) (s : State) : (s.regWrites l).sess = s.sess := by
  induction l generalizing s with
  | nil => rfl
  | cons x l ih => exact (ih _).trans (regWrite_sess s _ _)
@[simp] theorem regWrites_ident (l : List (Config.Addr × Byte)) (s : State) : (s.regWrites l).ident = s.ident := by
  induction l generalizing s with
  | nil => rfl
  | cons x l ih => exact (ih _).trans (regWrite_ident s _ _)
@[simp] theorem regWrites_work (l : List (Config.Addr × Byte)) (s : State) : (s.regWrites l).work = s.work := by
  induction l generalizing s with
  | nil => rfl
  | cons x l ih => exact (ih _).trans (regWrite_work s _ _)
@[simp] theorem regWrites_host (l : List (Config.Addr × Byte)) (s : State) : (s.regWrites l).host = s.host := by
  induction l generalizing s with
  | nil => rfl
  | cons x l ih => exact (ih _).trans (regWrite_host s _ _)
@[simp] theorem regWrites_pRst (l : List (Config.Addr × Byte)) (s : State) : (s.regWrites l).pRst = s.pRst := by
  induction l generalizing s with
  | nil => rfl
  | cons x l ih => exact (ih _).trans (regWrite_pRst s _ _)
@[simp] theorem regWrites_xStatus (l : List (Config.Addr × Byte)) (s : State) : (s.regWrites l).xStatus = s.xStatus := by
  induction l generalizing s with
  | nil => rfl
  | cons x l ih => exact (ih _).trans (regWrite_xStatus s _ _)
@[simp] theorem regWrites_offers (l : List (Config.Addr × Byte)) (s : State) : (s.regWrites l).offers = s.offers := by
  induction l generalizing s with
  | nil => rfl
  | cons x l ih => exact (ih _).trans (regWrite_offers s _ _)
@[simp] theorem regWrites_params (l : List (Config.Addr × Byte)) (s : State) : (s.regWrites l).params = s.params := by
  induction l generalizing s with
  | nil => rfl
  | cons x l ih => exact (ih _).trans (regWrite_params s _ _)

/-! ### What they send and return -/

/-- As many bytes come back as were sent (R82). -/
@[simp] theorem xfer_length (out : Bytes) : (s.xfer out).1.length = out.length := by simp [xfer]

theorem xfer_hist (out : Bytes) : (s.xfer out).2.hist = s.hist ++ [.xfer out (s.xfer out).1] := rfl

theorem regRead_hist (a : Byte) :
    (s.regRead a).2.hist = s.hist ++ [.xfer (regReadFrame a) (s.xfer (regReadFrame a)).1] := rfl

theorem regWrite_hist (a v : Byte) :
    (s.regWrite a v).hist = s.hist ++ [.xfer (regWriteFrame a v) (s.xfer (regWriteFrame a v)).1] := rfl

/-- A FIFO read of `n` bytes returns `n` bytes (R183). -/
@[simp] theorem fifoRead_length (n : Nat) : (s.fifoRead n).1.length = n := by
  unfold fifoRead
  split
  · next h => simp [h]
  · simp [fifoReadFrame]

/-! ### The end of a command -/

@[simp] theorem writeResult_st (st : Status) (data : Bytes) : (s.writeResult st data).st = s.st := rfl
@[simp] theorem writeResult_pc (st : Status) (data : Bytes) : (s.writeResult st data).pc = s.pc := rfl
@[simp] theorem writeResult_d (st : Status) (data : Bytes) : (s.writeResult st data).d = s.d := rfl
@[simp] theorem writeResult_sess (st : Status) (data : Bytes) : (s.writeResult st data).sess = s.sess := rfl
@[simp] theorem writeResult_ident (st : Status) (data : Bytes) : (s.writeResult st data).ident = s.ident := rfl
@[simp] theorem writeResult_work (st : Status) (data : Bytes) : (s.writeResult st data).work = s.work := rfl
@[simp] theorem writeResult_pRst (st : Status) (data : Bytes) : (s.writeResult st data).pRst = s.pRst := rfl
@[simp] theorem writeResult_rOut (st : Status) (data : Bytes) : (s.writeResult st data).rOut = s.rOut := rfl
@[simp] theorem writeResult_xStatus (st : Status) (data : Bytes) : (s.writeResult st data).xStatus = s.xStatus := rfl
@[simp] theorem writeResult_offers (st : Status) (data : Bytes) : (s.writeResult st data).offers = s.offers := rfl
@[simp] theorem writeResult_env (st : Status) (data : Bytes) : (s.writeResult st data).env = s.env := rfl
@[simp] theorem writeResult_params (st : Status) (data : Bytes) : (s.writeResult st data).params = s.params := rfl
@[simp] theorem writeResult_host (st : Status) (data : Bytes) :
    (s.writeResult st data).host = { s.host with res := resultFrame st data, resValid := true } := rfl
@[simp] theorem writeResult_hist (st : Status) (data : Bytes) :
    (s.writeResult st data).hist = s.hist ++ [.result (resultFrame st data)] := rfl

@[simp] theorem finish_pc (st : Status) (data : Bytes) : (s.finish st data).pc = ⟨s.pc.op, .finish⟩ := by
  by_cases h : s.st = .fatal <;> simp [finish, h, StepLabel.finish]
@[simp] theorem finish_d (st : Status) (data : Bytes) : (s.finish st data).d = s.d := by
  by_cases h : s.st = .fatal <;> simp [finish, h]
@[simp] theorem finish_sess (st : Status) (data : Bytes) : (s.finish st data).sess = s.sess := by
  by_cases h : s.st = .fatal <;> simp [finish, h]
@[simp] theorem finish_ident (st : Status) (data : Bytes) : (s.finish st data).ident = s.ident := by
  by_cases h : s.st = .fatal <;> simp [finish, h]
@[simp] theorem finish_work (st : Status) (data : Bytes) : (s.finish st data).work = s.work := by
  by_cases h : s.st = .fatal <;> simp [finish, h]
@[simp] theorem finish_pRst (st : Status) (data : Bytes) : (s.finish st data).pRst = s.pRst := by
  by_cases h : s.st = .fatal <;> simp [finish, h]
@[simp] theorem finish_rOut (st : Status) (data : Bytes) : (s.finish st data).rOut = [] := by
  by_cases h : s.st = .fatal <;> simp [finish, h]
@[simp] theorem finish_xStatus (st : Status) (data : Bytes) : (s.finish st data).xStatus = s.xStatus := by
  by_cases h : s.st = .fatal <;> simp [finish, h]
@[simp] theorem finish_offers (st : Status) (data : Bytes) : (s.finish st data).offers = s.offers := by
  by_cases h : s.st = .fatal <;> simp [finish, h]
@[simp] theorem finish_env (st : Status) (data : Bytes) : (s.finish st data).env = s.env := by
  by_cases h : s.st = .fatal <;> simp [finish, h]
@[simp] theorem finish_params (st : Status) (data : Bytes) : (s.finish st data).params = s.params := by
  by_cases h : s.st = .fatal <;> simp [finish, h]

@[simp] theorem finish_host (st : Status) (data : Bytes) :
    (s.finish st data).host = { s.host with res := resultFrame st data, resValid := true } := by
  by_cases h : s.st = .fatal <;> simp [finish, h]

@[simp] theorem finish_hist (st : Status) (data : Bytes) :
    (s.finish st data).hist = s.hist ++ [.result (resultFrame st data)] := by
  by_cases h : s.st = .fatal <;> simp [finish, h]

@[simp] theorem finish_st (st : Status) (data : Bytes) :
    (s.finish st data).st = if s.st = .fatal then .fatal else .idle := by
  by_cases h : s.st = .fatal <;> simp [finish, h]

@[simp] theorem raiseFatal_pc : s.raiseFatal.pc = ⟨s.pc.op, .finish⟩ := rfl
@[simp] theorem raiseFatal_d : s.raiseFatal.d = s.d := rfl
@[simp] theorem raiseFatal_sess : s.raiseFatal.sess = s.sess := rfl
@[simp] theorem raiseFatal_ident : s.raiseFatal.ident = s.ident := rfl
@[simp] theorem raiseFatal_work : s.raiseFatal.work = s.work := rfl
@[simp] theorem raiseFatal_pRst : s.raiseFatal.pRst = s.pRst := rfl
@[simp] theorem raiseFatal_rOut : s.raiseFatal.rOut = [] := rfl
@[simp] theorem raiseFatal_xStatus : s.raiseFatal.xStatus = s.xStatus := rfl
@[simp] theorem raiseFatal_offers : s.raiseFatal.offers = s.offers := rfl
@[simp] theorem raiseFatal_env : s.raiseFatal.env = s.env := rfl
@[simp] theorem raiseFatal_params : s.raiseFatal.params = s.params := rfl

@[simp] theorem raiseFatal_st : s.raiseFatal.st = .fatal := rfl

@[simp] theorem raiseFatal_host :
    s.raiseFatal.host = { s.host with res := [0xFF, 0, 0], resValid := true } := rfl

@[simp] theorem raiseFatal_hist : s.raiseFatal.hist = s.hist ++ [.result [0xFF, 0, 0]] := rfl

/-- Error entry is the end of the command with an empty payload (R421). -/
theorem fail_eq (st : Status) : s.fail st = s.finish st [] := rfl

@[simp] theorem zeroKeys_st (lo hi : Nat) : (s.zeroKeys lo hi).st = s.st := rfl
@[simp] theorem zeroKeys_pc (lo hi : Nat) : (s.zeroKeys lo hi).pc = s.pc := rfl
@[simp] theorem zeroKeys_d (lo hi : Nat) : (s.zeroKeys lo hi).d = s.d := rfl
@[simp] theorem zeroKeys_sess (lo hi : Nat) : (s.zeroKeys lo hi).sess = s.sess := rfl
@[simp] theorem zeroKeys_ident (lo hi : Nat) : (s.zeroKeys lo hi).ident = s.ident := rfl
@[simp] theorem zeroKeys_pRst (lo hi : Nat) : (s.zeroKeys lo hi).pRst = s.pRst := rfl
@[simp] theorem zeroKeys_rOut (lo hi : Nat) : (s.zeroKeys lo hi).rOut = s.rOut := rfl
@[simp] theorem zeroKeys_xStatus (lo hi : Nat) : (s.zeroKeys lo hi).xStatus = s.xStatus := rfl
@[simp] theorem zeroKeys_offers (lo hi : Nat) : (s.zeroKeys lo hi).offers = s.offers := rfl
@[simp] theorem zeroKeys_env (lo hi : Nat) : (s.zeroKeys lo hi).env = s.env := rfl
@[simp] theorem zeroKeys_params (lo hi : Nat) : (s.zeroKeys lo hi).params = s.params := rfl
@[simp] theorem zeroKeys_hist (lo hi : Nat) : (s.zeroKeys lo hi).hist = s.hist := rfl

@[simp] theorem zeroKeys_work (lo hi : Nat) :
    (s.zeroKeys lo hi).work = { s.work with keyA := zeroKeyBank, keyB := zeroKeyBank } := rfl

@[simp] theorem zeroKeys_host (lo hi : Nat) :
    (s.zeroKeys lo hi).host = { s.host with cmd := zeroRange lo hi s.host.cmd } := rfl

/-! ### The frame of a command -/

theorem commandWith_fatal (clean body : State → State) (ok : Bool) (h : s.st = .fatal) :
    s.commandWith clean ok body = s.writeResult .fatal [] := by simp [commandWith, h]

theorem commandWith_bad (clean body : State → State) (h : s.st ≠ .fatal) :
    s.commandWith clean false body = (clean s).fail .param := by simp [commandWith, h]

theorem commandWith_run (clean body : State → State) (h : s.st ≠ .fatal) :
    s.commandWith clean true body = body s := by simp [commandWith, h]

theorem command_fatal (ok : Bool) (body : State → State) (h : s.st = .fatal) :
    s.command ok body = s.writeResult .fatal [] := s.commandWith_fatal id body ok h

theorem command_param (body : State → State) (h : s.st ≠ .fatal) :
    s.command false body = s.fail .param := s.commandWith_bad id body h

theorem command_run (body : State → State) (h : s.st ≠ .fatal) : s.command true body = body s :=
  s.commandWith_run id body h

theorem internal_run (body : State → State) (h : s.st ≠ .fatal) : s.internal body = body s := by
  simp [internal, h]

theorem internal_fatal (body : State → State) (h : s.st = .fatal) : s.internal body = s := by
  simp [internal, h]

end State

end Sys2Proof.Machine
end

