-- ==== Sys2Proof/Laws/Commands.lean ====
section
/-! SUPPORT. The end of a command and the frame of a command, said once: outside FATAL `finish` is `answered`; a command in
FATAL, one with an operand out of range, and one that runs. -/

namespace Sys2Proof.Machine

namespace State

/-- Outside FATAL `finish` writes the result frame and leaves the engine IDLE (R121). -/
theorem finish_answered (st : Status) (data : Bytes) (s : State) (h : s.st ≠ .fatal) :
    s.finish st data = s.answered st.code data := by
  simp [finish, writeResult, answered, resultFrame, byteOfNat, setHost, log, setSt, setROut, atLine, setPc, StepLabel.finish, h]

/-- Outside FATAL an error ends a command with an empty payload (R421). -/
theorem fail_answered (st : Status) (s : State) (h : s.st ≠ .fatal) : s.fail st = s.answered st.code [] :=
  finish_answered st [] s h

/-- In FATAL a command is answered `[FF 00 00]` and nothing else changes (R404). -/
theorem writeResult_fatal (s : State) :
    s.writeResult .fatal [] = { s with
      host := ⟨s.host.cmd, [0xFF, 0x00, 0x00], true⟩
      hist := s.hist ++ [.result [0xFF, 0x00, 0x00]] } := rfl

@[simp] theorem answered_st (st : Byte) (data : Bytes) (s : State) : (s.answered st data).st = .idle := rfl
@[simp] theorem answered_pc (st : Byte) (data : Bytes) (s : State) : (s.answered st data).pc = ⟨s.pc.op, .finish⟩ := rfl
@[simp] theorem answered_d (st : Byte) (data : Bytes) (s : State) : (s.answered st data).d = s.d := rfl
@[simp] theorem answered_sess (st : Byte) (data : Bytes) (s : State) : (s.answered st data).sess = s.sess := rfl
@[simp] theorem answered_ident (st : Byte) (data : Bytes) (s : State) : (s.answered st data).ident = s.ident := rfl
@[simp] theorem answered_work (st : Byte) (data : Bytes) (s : State) : (s.answered st data).work = s.work := rfl
@[simp] theorem answered_pRst (st : Byte) (data : Bytes) (s : State) : (s.answered st data).pRst = s.pRst := rfl
@[simp] theorem answered_rOut (st : Byte) (data : Bytes) (s : State) : (s.answered st data).rOut = [] := rfl
@[simp] theorem answered_xStatus (st : Byte) (data : Bytes) (s : State) :
    (s.answered st data).xStatus = s.xStatus := rfl
@[simp] theorem answered_offers (st : Byte) (data : Bytes) (s : State) : (s.answered st data).offers = s.offers := rfl
@[simp] theorem answered_env (st : Byte) (data : Bytes) (s : State) : (s.answered st data).env = s.env := rfl
@[simp] theorem answered_params (st : Byte) (data : Bytes) (s : State) : (s.answered st data).params = s.params := rfl

/-- A command whose operands are in range, outside FATAL, runs its body. -/
theorem command_ok {ok : Bool} {body : State → State} {s : State} (h : s.st ≠ .fatal) (hok : ok = true) :
    s.command ok body = body s := by simp [command, commandWith, h, hok]

/-- A command with an operand out of range, outside FATAL, is answered `ERR_PARAM` (R124). -/
theorem command_bad {ok : Bool} {body : State → State} {s : State} (h : s.st ≠ .fatal) (hok : ok = false) :
    s.command ok body = s.answered 0x02 [] := by
  subst hok
  rw [command_param s body h]
  exact fail_answered .param s h

/-- A command that carries keys, its operands in range, outside FATAL, runs its body. -/
theorem commandWith_ok {clean body : State → State} {ok : Bool} {s : State} (h : s.st ≠ .fatal) (hok : ok = true) :
    s.commandWith clean ok body = body s := by simp [commandWith, h, hok]

/-- A command that carries keys, an operand out of range, outside FATAL: cleaned, then answered `ERR_PARAM` (R36). -/
theorem commandWith_param {clean body : State → State} {ok : Bool} {s : State} (h : s.st ≠ .fatal)
    (hc : (clean s).st = s.st) (hok : ok = false) :
    s.commandWith clean ok body = (clean s).answered 0x02 [] := by
  subst hok
  rw [commandWith_bad s clean body h]
  exact fail_answered .param _ (by rw [hc]; exact h)

end State

end Sys2Proof.Machine
end

