-- ==== Sys2Proof/Laws/Frame.lean ====
section
/-! SUPPORT. Frames of the bus operations: a bus operation changes only the label of `pc`, the environment, the multiplexer's last read and the
history, which it extends by well-framed transfers. -/

namespace Sys2Proof.Machine

/-- Every event is a well-framed transfer. -/
def BusEvents (evs : List Event) : Prop := ∀ e ∈ evs, e.isXfer = true ∧ e.wellFramed = true

theorem BusEvents.nil : BusEvents [] := by simp [BusEvents]

theorem BusEvents.append {a b : List Event} (ha : BusEvents a) (hb : BusEvents b) : BusEvents (a ++ b) := by
  intro e he
  rcases List.mem_append.1 he with h | h
  · exact ha e h
  · exact hb e h

/-- `t` is `s` but for the label of `pc`, the environment, the multiplexer's last read, and more transfers in the history. -/
structure BusOnly (s t : State) : Prop where
  st : t.st = s.st
  op : t.pc.op = s.pc.op
  d : t.d = s.d
  sess : t.sess = s.sess
  ident : t.ident = s.ident
  work : t.work = s.work
  host : t.host = s.host
  pRst : t.pRst = s.pRst
  xStatus : t.xStatus = s.xStatus
  offers : t.offers = s.offers
  params : t.params = s.params
  hist : ∃ evs, t.hist = s.hist ++ evs ∧ BusEvents evs

theorem BusOnly.refl (s : State) : BusOnly s s :=
  ⟨rfl, rfl, rfl, rfl, rfl, rfl, rfl, rfl, rfl, rfl, rfl, [], by simp, BusEvents.nil⟩

theorem BusOnly.trans {s t u : State} (h : BusOnly s t) (k : BusOnly t u) : BusOnly s u := by
  obtain ⟨e, he, be⟩ := h.hist
  obtain ⟨f, hf, bf⟩ := k.hist
  exact ⟨k.st.trans h.st, k.op.trans h.op, k.d.trans h.d, k.sess.trans h.sess, k.ident.trans h.ident,
    k.work.trans h.work, k.host.trans h.host, k.pRst.trans h.pRst, k.xStatus.trans h.xStatus,
    k.offers.trans h.offers, k.params.trans h.params, e ++ f, by rw [hf, he, List.append_assoc], be.append bf⟩

/-- Bit 0 of a read frame's first byte is 0 (R84). -/
theorem readByte_bit0 (a : Byte) : (readByte a).getLsbD 0 = false := by simp [readByte]

/-- Bit 0 of a write frame's first byte is 0 (R84). -/
theorem writeByte_bit0 (a : Byte) : (writeByte a).getLsbD 0 = false := by simp [writeByte]

namespace State

/-- One transfer of a string whose first byte is an address byte (R82). -/
theorem xfer_busOnly (b : Byte) (out : Bytes) (hb : b.getLsbD 0 = false) (s : State) :
    BusOnly s (s.xfer (b :: out)).2 := by
  refine ⟨rfl, rfl, rfl, rfl, rfl, rfl, rfl, rfl, rfl, rfl, rfl, _, rfl, ?_⟩
  intro e he
  obtain rfl := List.mem_singleton.1 he
  have hb' : b[0] = false := by simpa using hb
  simp [Event.isXfer, Event.wellFramed, hb']

theorem atLine_busOnly (s : State) (l : Line) : BusOnly s (s.atLine l) :=
  ⟨rfl, rfl, rfl, rfl, rfl, rfl, rfl, rfl, rfl, rfl, rfl, [], by simp, BusEvents.nil⟩

theorem atPhase_busOnly (s : State) (p : Phase) : BusOnly s (s.atPhase p) :=
  ⟨rfl, rfl, rfl, rfl, rfl, rfl, rfl, rfl, rfl, rfl, rfl, [], by simp, BusEvents.nil⟩

theorem setROut_busOnly (s : State) (v : Bytes) : BusOnly s (s.setROut v) :=
  ⟨rfl, rfl, rfl, rfl, rfl, rfl, rfl, rfl, rfl, rfl, rfl, [], by simp, BusEvents.nil⟩

theorem regRead_busOnly (a : Byte) (s : State) : BusOnly s (s.regRead a).2 :=
  (xfer_busOnly _ _ (readByte_bit0 a) s).trans (setROut_busOnly _ _)

theorem regWrite_busOnly (a v : Byte) (s : State) : BusOnly s (s.regWrite a v) :=
  xfer_busOnly _ _ (writeByte_bit0 a) s

theorem regModify_busOnly (a m : Byte) (b : Bool) (s : State) : BusOnly s (s.regModify a m b) :=
  (((atPhase_busOnly s _).trans (regRead_busOnly a _)).trans (atPhase_busOnly _ _)).trans (regWrite_busOnly _ _ _)

/-- A register write at a label of its own. -/
theorem phaseWrite_busOnly (p : Phase) (a v : Byte) (s : State) : BusOnly s ((s.atPhase p).regWrite a v) :=
  (atPhase_busOnly s p).trans (regWrite_busOnly _ _ _)

/-- A register read-modify-write at a label of its own. -/
theorem phaseModify_busOnly (p : Phase) (a m : Byte) (b : Bool) (s : State) :
    BusOnly s ((s.atPhase p).regModify a m b) := (atPhase_busOnly s p).trans (regModify_busOnly _ _ _ _)

theorem fifoRead_busOnly (n : Nat) (s : State) : BusOnly s (s.fifoRead n).2 := by
  unfold fifoRead
  split
  · exact setROut_busOnly s []
  · next h =>
    obtain ⟨m, rfl⟩ := Nat.exists_eq_succ_of_ne_zero h
    refine BusOnly.trans ?_ (setROut_busOnly _ _)
    exact xfer_busOnly _ _ (readByte_bit0 _) s

theorem fifoWrite_busOnly (b : Bytes) (s : State) : BusOnly s (s.fifoWrite b) := by
  unfold fifoWrite
  split
  · exact BusOnly.refl s
  · exact xfer_busOnly _ _ (writeByte_bit0 _) s

theorem setTimeout_busOnly (t : BitVec 16) (s : State) : BusOnly s (s.setTimeout t) :=
  ((((atPhase_busOnly s _).trans (phaseWrite_busOnly _ _ _ _)).trans (phaseWrite_busOnly _ _ _ _)).trans
    (phaseWrite_busOnly _ _ _ _)).trans (phaseWrite_busOnly _ _ _ _)

theorem regWrites_busOnly (l : List (Config.Addr × Byte)) (s : State) : BusOnly s (s.regWrites l) := by
  induction l generalizing s with
  | nil => exact BusOnly.refl s
  | cons x l ih => exact (regWrite_busOnly _ _ _).trans (ih _)

theorem initBody_busOnly (s : State) : BusOnly s s.initBody :=
  (((atLine_busOnly s _).trans (regWrites_busOnly _ _)).trans (atLine_busOnly _ _)).trans (regModify_busOnly _ _ _ _)

end State

end Sys2Proof.Machine
end

