-- ==== Sys2Proof/Laws/Executor.lean ====
section
/-! SUPPORT. What an executor run can do, said once: `runExec_spec`. A run that does not end in FATAL changes only the
descriptor registers, `pc`, the environment, the last read, the returned status and the history; a FATAL run also
enters FATAL and answers the host (R206, R228). -/

namespace Sys2Proof.Machine

/-- The descriptor registers that LOAD sets and nothing changes during the run (R207). -/
structure DescKept (a b : Desc) : Prop where
  family : b.family = a.family
  cmd : b.cmd = a.cmd
  crcTx : b.crcTx = a.crcTx
  crcRx : b.crcRx = a.crcRx
  txBits : b.txBits = a.txBits
  txLen : b.txLen = a.txLen
  rxBits : b.rxBits = a.rxBits
  rxLen : b.rxLen = a.rxLen
  rxCap : b.rxCap = a.rxCap
  timeout : b.timeout = a.timeout

theorem DescKept.refl (a : Desc) : DescKept a a := ⟨rfl, rfl, rfl, rfl, rfl, rfl, rfl, rfl, rfl, rfl⟩

theorem DescKept.trans {a b c : Desc} (h : DescKept a b) (k : DescKept b c) : DescKept a c :=
  ⟨k.family.trans h.family, k.cmd.trans h.cmd, k.crcTx.trans h.crcTx, k.crcRx.trans h.crcRx,
    k.txBits.trans h.txBits, k.txLen.trans h.txLen, k.rxBits.trans h.rxBits, k.rxLen.trans h.rxLen,
    k.rxCap.trans h.rxCap, k.timeout.trans h.timeout⟩

/-- What the engine keeps through an executor run whatever its end. -/
structure Kept (s t : State) : Prop where
  sess : t.sess = s.sess
  ident : t.ident = s.ident
  work : t.work = s.work
  pRst : t.pRst = s.pRst
  offers : t.offers = s.offers
  params : t.params = s.params
  op : t.pc.op = s.pc.op

theorem Kept.refl (s : State) : Kept s s := ⟨rfl, rfl, rfl, rfl, rfl, rfl, rfl⟩

theorem Kept.trans {s t u : State} (h : Kept s t) (k : Kept t u) : Kept s u :=
  ⟨k.sess.trans h.sess, k.ident.trans h.ident, k.work.trans h.work, k.pRst.trans h.pRst,
    k.offers.trans h.offers, k.params.trans h.params, k.op.trans h.op⟩

/-- A stretch of an executor run that has not ended in FATAL. -/
structure RunOnly (s t : State) : Prop extends Kept s t where
  st : t.st = s.st
  host : t.host = s.host
  hist : ∃ evs, t.hist = s.hist ++ evs ∧ BusEvents evs

theorem RunOnly.refl (s : State) : RunOnly s s :=
  ⟨Kept.refl s, rfl, rfl, [], by simp, BusEvents.nil⟩

theorem RunOnly.trans {s t u : State} (h : RunOnly s t) (k : RunOnly t u) : RunOnly s u := by
  obtain ⟨e, he, be⟩ := h.hist
  obtain ⟨f, hf, bf⟩ := k.hist
  exact ⟨h.toKept.trans k.toKept, k.st.trans h.st, k.host.trans h.host, e ++ f,
    by rw [hf, he, List.append_assoc], be.append bf⟩

theorem BusOnly.runOnly {s t : State} (h : BusOnly s t) : RunOnly s t :=
  ⟨⟨h.sess, h.ident, h.work, h.pRst, h.offers, h.params, h.op⟩, h.st, h.host, h.hist⟩

/-- A run that ended in FATAL: the state is FATAL, the host has `[FF 00 00]`, and the last event is that result. -/
structure FatalRun (s t : State) : Prop extends Kept s t where
  st : t.st = .fatal
  host : t.host = { s.host with res := [0xFF, 0, 0], resValid := true }
  hist : ∃ evs, t.hist = s.hist ++ evs ++ [.result [0xFF, 0, 0]] ∧ BusEvents evs

theorem RunOnly.fatal {s t u : State} (h : RunOnly s t) (k : FatalRun t u) : FatalRun s u := by
  obtain ⟨e, he, be⟩ := h.hist
  obtain ⟨f, hf, bf⟩ := k.hist
  exact ⟨h.toKept.trans k.toKept, k.st, by rw [k.host, h.host], e ++ f,
    by rw [hf, he]; simp [List.append_assoc], be.append bf⟩

theorem State.raiseFatal_fatalRun (s : State) : FatalRun s s.raiseFatal :=
  ⟨⟨rfl, rfl, rfl, rfl, rfl, rfl, rfl⟩, rfl, rfl, [], by simp, BusEvents.nil⟩

/-- A stretch of LOOP: the loaded descriptor stays and the receive registers go on agreeing. -/
structure LoopOnly (s t : State) : Prop extends RunOnly s t where
  kept : DescKept s.d t.d
  receive : ReceiveInv s.d → ReceiveInv t.d

theorem LoopOnly.refl (s : State) : LoopOnly s s := ⟨RunOnly.refl s, DescKept.refl _, id⟩

theorem LoopOnly.trans {s t u : State} (h : LoopOnly s t) (k : LoopOnly t u) : LoopOnly s u :=
  ⟨h.toRunOnly.trans k.toRunOnly, h.kept.trans k.kept, k.receive ∘ h.receive⟩

theorem BusOnly.loopOnly {s t : State} (h : BusOnly s t) : LoopOnly s t :=
  ⟨h.runOnly, by rw [h.d]; exact DescKept.refl _, by rw [h.d]; exact id⟩

/-- A write of descriptor registers that keeps the loaded ones and the receive registers' agreement. -/
theorem State.setD_loopOnly {s : State} {v : Desc} (hk : DescKept s.d v) (hr : ReceiveInv s.d → ReceiveInv v) :
    LoopOnly s (s.setD v) :=
  ⟨⟨⟨rfl, rfl, rfl, rfl, rfl, rfl, rfl⟩, rfl, rfl, [], by simp, BusEvents.nil⟩, hk, hr⟩

/-- The statuses an executor run returns (R217 to R222, R228). -/
def executorStatus (st : Status) : Prop :=
  st = .ok ∨ st = .timer ∨ st = .comm ∨ st = .collision ∨ st = .length ∨ st = .fatal

/-- A status OK in the transceive family means the expected number of bytes came, if one was expected (R222). -/
def okMeansLength (st : Status) (d : Desc) : Prop :=
  st = .ok → d.family = .transceive → d.rxLen.toNat ≠ 0 → d.rxCnt.toNat = d.rxLen.toNat

/-- What LOOP, or a part of an iteration, ends with. -/
structure LoopEnd (s t : State) (st : Status) : Prop where
  status : executorStatus st
  okLength : okMeansLength st t.d
  loop : st ≠ .fatal → LoopOnly s t
  fatal : st = .fatal → FatalRun s t
  keptD : DescKept s.d t.d
  receive : ReceiveInv s.d → ReceiveInv t.d

theorem LoopOnly.end {s t u : State} {st : Status} (h : LoopOnly s t) (k : LoopEnd t u st) : LoopEnd s u st :=
  ⟨k.status, k.okLength, fun hn => h.trans (k.loop hn), fun hf => h.toRunOnly.fatal (k.fatal hf),
    h.kept.trans k.keptD, k.receive ∘ h.receive⟩

/-- An end that is not FATAL. -/
theorem LoopOnly.toEnd {s t : State} {st : Status} (h : LoopOnly s t) (hs : executorStatus st) (hn : st ≠ .fatal)
    (hl : okMeansLength st t.d) : LoopEnd s t st :=
  ⟨hs, hl, fun _ => h, fun hf => absurd hf hn, h.kept, h.receive⟩

/-- What a branch leads to. -/
def FlowSpec (s : State) : Flow → Prop
  | .goOn t => LoopOnly s t
  | .stop t st => LoopEnd s t st

theorem FlowSpec.andThen {s : State} {f : Flow} {p : Phase} {g : State → Flow} (hf : FlowSpec s f)
    (hg : ∀ t, FlowSpec t (g t)) : FlowSpec s (f.andThen p g) := by
  cases f with
  | stop t st => exact hf
  | goOn t =>
    have hp : LoopOnly s (t.atPhase p) := LoopOnly.trans hf (State.atPhase_busOnly t p).loopOnly
    have ht := hg (t.atPhase p)
    change FlowSpec s (g (t.atPhase p))
    cases hgt : g (t.atPhase p) with
    | goOn u => rw [hgt] at ht; exact LoopOnly.trans hp ht
    | stop u st => rw [hgt] at ht; exact LoopOnly.end hp ht

namespace State

theorem clearFlag_loopOnly (m : Byte) (s : State) : LoopOnly s (s.clearFlag m) :=
  (phaseWrite_busOnly _ _ _ _).loopOnly

theorem branchTimer_spec (s : State) : FlowSpec s s.branchTimer := by
  unfold branchTimer
  split
  · exact (clearFlag_loopOnly _ s).toEnd (.inr (.inl rfl)) (by decide) (fun h => by cases h)
  · exact LoopOnly.refl s

/-- The error register's branch answers collision or communication error (R218). -/
theorem readError_status (s : State) : s.readError.2 = .collision ∨ s.readError.2 = .comm := by
  unfold readError
  simp only
  split
  · exact .inl rfl
  · exact .inr rfl

theorem readError_loopOnly (s : State) : LoopOnly s s.readError.1 := by
  have h1 : LoopOnly s ((s.regRead s.params.chip.error.byte).2.setD
      { (s.regRead s.params.chip.error.byte).2.d with err := (s.regRead s.params.chip.error.byte).1 }) :=
    (regRead_busOnly _ s).loopOnly.trans
      (setD_loopOnly ⟨rfl, rfl, rfl, rfl, rfl, rfl, rfl, rfl, rfl, rfl⟩ fun h => ⟨h.count, h.fits, h.cap⟩)
  unfold readError
  simp only
  split
  · exact (h1.trans (regRead_busOnly _ _).loopOnly).trans
      (setD_loopOnly ⟨rfl, rfl, rfl, rfl, rfl, rfl, rfl, rfl, rfl, rfl⟩ fun h => ⟨h.count, h.fits, h.cap⟩)
  · exact h1

theorem branchErr_spec (s : State) : FlowSpec s s.branchErr := by
  unfold branchErr
  split
  · refine ((readError_loopOnly s).trans (clearFlag_loopOnly _ _)).toEnd ?_ ?_ ?_
    · rcases readError_status s with h | h <;> simp [h, executorStatus]
    · rcases readError_status s with h | h <;> simp [h]
    · rcases readError_status s with h | h <;> simp [h, okMeansLength]
  · exact LoopOnly.refl s

theorem feed_loopOnly (s : State) : LoopOnly s s.feed := by
  unfold feed
  split
  · exact LoopOnly.refl s
  · refine LoopOnly.trans ?_ (regModify_busOnly _ _ _ _).loopOnly
    refine (fifoWrite_busOnly _ s).loopOnly.trans (setD_loopOnly ?_ ?_)
    · exact ⟨rfl, rfl, rfl, rfl, rfl, rfl, rfl, rfl, rfl, rfl⟩
    · exact fun h => ⟨h.count, h.fits, h.cap⟩

theorem branchLoAlert_spec (s : State) : FlowSpec s s.branchLoAlert := by
  unfold branchLoAlert
  split
  · exact (feed_loopOnly s).trans (clearFlag_loopOnly _ _)
  · exact LoopOnly.refl s

/-- A drain within the capacity keeps the receive registers in agreement (R220, R222). -/
theorem appendRx_loopOnly (b : Bytes) (n : Nat) (s : State) (hb : b.length = n)
    (hn : drainOverflows s.d n = false) : LoopOnly s (s.appendRx b n) := by
  refine setD_loopOnly ⟨rfl, rfl, rfl, rfl, rfl, rfl, rfl, rfl, rfl, rfl⟩ fun h => ?_
  have hle : s.d.rxCnt.toNat + n ≤ s.d.rxCap.toNat := by simpa [drainOverflows] using hn
  have hc := h.cap
  have hmod : (BitVec.ofNat 11 (s.d.rxCnt.toNat + n)).toNat = s.d.rxCnt.toNat + n := by
    rw [BitVec.toNat_ofNat]; exact Nat.mod_eq_of_lt (by omega)
  exact ⟨by simp [hmod, h.count, hb], by simp only [hmod]; exact hle, hc⟩

theorem raiseFatal_end (s : State) : LoopEnd s s.raiseFatal .fatal :=
  ⟨by simp [executorStatus], (fun h => by cases h), fun h => absurd rfl h, fun _ => raiseFatal_fatalRun s,
    DescKept.refl _, id⟩

theorem branchHiAlert_spec (s : State) : FlowSpec s s.branchHiAlert := by
  unfold branchHiAlert
  split
  · simp only
    split
    · exact (fifoRead_busOnly _ s).loopOnly.end (raiseFatal_end _)
    · next h =>
      exact ((fifoRead_busOnly _ s).loopOnly.trans
        (appendRx_loopOnly _ _ _ (fifoRead_length s _) (by simpa using h))).trans (clearFlag_loopOnly _ _)
  · exact LoopOnly.refl s

theorem branchIdle_spec (s : State) : FlowSpec s s.branchIdle := by
  unfold branchIdle
  split
  · next h =>
    refine (clearFlag_loopOnly _ s).toEnd (.inl rfl) (by decide) fun _ hf => ?_
    have hfam : s.d.family = .authenticate := by simpa [guardIdle] using (Bool.and_eq_true_iff.1 h).2
    rw [(clearFlag_loopOnly _ s).kept.family, hfam] at hf
    cases hf
  · exact LoopOnly.refl s

theorem receiveStatus_cases (d : Desc) :
    receiveStatus d = .length ∨
      (receiveStatus d = .ok ∧ (d.rxLen.toNat ≠ 0 → d.rxCnt.toNat = d.rxLen.toNat)) := by
  unfold receiveStatus
  split
  · exact .inl rfl
  · next h => exact .inr ⟨rfl, fun h0 => by by_contra h1; exact h ⟨h0, h1⟩⟩

/-- The drain of the remainder, with the checks after it (R222, R228). -/
theorem drainRemainder_spec (n : Nat) (s : State) : FlowSpec s (s.drainRemainder n) := by
  have h2 : LoopOnly s (s.fifoRead n).2 := (fifoRead_busOnly n s).loopOnly
  unfold drainRemainder
  simp only
  split
  · exact h2.end (raiseFatal_end _)
  · next h =>
    have h3 := (h2.trans (appendRx_loopOnly _ n _ (fifoRead_length s n) (by simpa using h))).trans
      (clearFlag_loopOnly s.params.chip.irqRx _)
    refine h3.toEnd ?_ ?_ ?_
    · rcases receiveStatus_cases
        (((s.fifoRead n).2.appendRx (s.fifoRead n).1 n).clearFlag s.params.chip.irqRx).d with h | ⟨h, -⟩ <;>
        rw [h] <;> simp [executorStatus]
    · rcases receiveStatus_cases
        (((s.fifoRead n).2.appendRx (s.fifoRead n).1 n).clearFlag s.params.chip.irqRx).d with h | ⟨h, -⟩ <;>
        rw [h] <;> simp
    · intro hok _
      rcases receiveStatus_cases
        (((s.fifoRead n).2.appendRx (s.fifoRead n).1 n).clearFlag s.params.chip.irqRx).d with h | ⟨-, h⟩
      · rw [h] at hok; cases hok
      · exact h

theorem readLastBits_loopOnly (s : State) : LoopOnly s s.readLastBits :=
  (regRead_busOnly _ s).loopOnly.trans
    (setD_loopOnly ⟨rfl, rfl, rfl, rfl, rfl, rfl, rfl, rfl, rfl, rfl⟩ fun h => ⟨h.count, h.fits, h.cap⟩)

theorem branchRx_spec (s : State) : FlowSpec s s.branchRx := by
  unfold branchRx
  split
  · have h := drainRemainder_spec (fifoLevelOf s.params.chip
      (s.readLastBits.regRead s.params.chip.fifoLevel.byte).1) (s.readLastBits.regRead s.params.chip.fifoLevel.byte).2
    have h2 := (readLastBits_loopOnly s).trans (regRead_busOnly s.params.chip.fifoLevel.byte _).loopOnly
    revert h
    simp only
    cases State.drainRemainder _ _ with
    | goOn t => exact fun h => h2.trans h
    | stop t st => exact fun h => h2.end h
  · exact LoopOnly.refl s

theorem branchTx_spec (s : State) : FlowSpec s s.branchTx := by
  unfold branchTx
  split
  · refine LoopOnly.trans (setD_loopOnly ?_ ?_) (clearFlag_loopOnly _ _)
    · exact ⟨rfl, rfl, rfl, rfl, rfl, rfl, rfl, rfl, rfl, rfl⟩
    · exact fun h => ⟨h.count, h.fits, h.cap⟩
  · exact LoopOnly.refl s

theorem snapshot_loopOnly (s : State) : LoopOnly s s.snapshot :=
  ((atPhase_busOnly s _).trans (regRead_busOnly _ _)).loopOnly.trans
    (setD_loopOnly ⟨rfl, rfl, rfl, rfl, rfl, rfl, rfl, rfl, rfl, rfl⟩ fun h => ⟨h.count, h.fits, h.cap⟩)

theorem iteration_spec (s : State) : FlowSpec s s.iteration := by
  have h : FlowSpec s.snapshot s.iteration :=
    (((((((FlowSpec.andThen (f := .goOn s.snapshot) (LoopOnly.refl _) branchTimer_spec).andThen branchErr_spec).andThen branchLoAlert_spec).andThen
      branchHiAlert_spec).andThen branchIdle_spec).andThen branchRx_spec).andThen branchTx_spec)
  revert h
  cases s.iteration with
  | goOn t => exact fun h => (snapshot_loopOnly s).trans h
  | stop t st => exact fun h => (snapshot_loopOnly s).end h

theorem execLoop_spec (n : Nat) (s : State) : LoopEnd s (s.execLoop n).1 (s.execLoop n).2 := by
  induction n generalizing s with
  | zero => exact (atPhase_busOnly s _).loopOnly.toEnd (.inr (.inl rfl)) (by simp [execLoop]) (fun h => by cases h)
  | succ n ih =>
    have h := iteration_spec (s.atPhase .loop)
    have h0 := (atPhase_busOnly s .loop).loopOnly
    unfold execLoop
    revert h
    cases (s.atPhase .loop).iteration with
    | goOn t => exact fun h => LoopOnly.end (h0.trans h) (ih t)
    | stop t st => exact fun h => h0.end h

theorem setD_runOnly (v : Desc) (s : State) : RunOnly s (s.setD v) :=
  ⟨⟨rfl, rfl, rfl, rfl, rfl, rfl, rfl⟩, rfl, rfl, [], by simp, BusEvents.nil⟩

theorem setXStatus_runOnly (v : Status) (s : State) : RunOnly s (s.setXStatus v) :=
  ⟨⟨rfl, rfl, rfl, rfl, rfl, rfl, rfl⟩, rfl, rfl, [], by simp, BusEvents.nil⟩

theorem execLoad_runOnly (d : Descriptor) (s : State) : RunOnly s (s.execLoad d) :=
  (atPhase_busOnly s _).runOnly.trans (setD_runOnly _ _)

/-- The receive registers agree after LOAD, whatever they held (R207). -/
theorem execLoad_receive (d : Descriptor) (s : State) : ReceiveInv (s.execLoad d).d := by
  refine ⟨rfl, Nat.zero_le _, ?_⟩
  have := d.rxCap.isLt
  simp only [execLoad, setD_d, BitVec.toNat_setWidth]
  omega

theorem execPreRun_loopOnly (s : State) : LoopOnly s s.execPreRun :=
  (((((((((phaseWrite_busOnly _ _ _ s).trans (phaseWrite_busOnly _ _ _ _)).trans (phaseWrite_busOnly _ _ _ _)).trans
    (phaseWrite_busOnly _ _ _ _)).trans (phaseWrite_busOnly _ _ _ _)).trans (phaseModify_busOnly _ _ _ _ _)).trans
    (phaseModify_busOnly _ _ _ _ _)).trans (atPhase_busOnly _ _)).trans (setTimeout_busOnly _ _)).loopOnly

theorem primeCommand_busOnly (s : State) : BusOnly s s.primeCommand := phaseWrite_busOnly _ _ _ s

theorem primeFraming_busOnly (b : BitVec 3) (s : State) : BusOnly s (s.primeFraming b) := phaseWrite_busOnly _ _ _ s

theorem primeTransceive_loopOnly (s : State) : LoopOnly s s.primeTransceive :=
  ((primeCommand_busOnly s).trans (primeFraming_busOnly _ _)).loopOnly

theorem primeAuthenticate_loopOnly (s : State) : LoopOnly s s.primeAuthenticate := by
  refine LoopOnly.trans ?_ ((primeCommand_busOnly _).trans (primeFraming_busOnly _ _)).loopOnly
  refine ((atPhase_busOnly s _).trans (fifoWrite_busOnly _ _)).loopOnly.trans (setD_loopOnly ?_ ?_)
  · exact ⟨rfl, rfl, rfl, rfl, rfl, rfl, rfl, rfl, rfl, rfl⟩
  · exact fun h => ⟨h.count, h.fits, h.cap⟩

theorem execPrime_loopOnly (s : State) : LoopOnly s s.execPrime := by
  unfold execPrime
  split
  · exact primeAuthenticate_loopOnly _
  · exact primeTransceive_loopOnly _

theorem enterLoop_loopOnly (s : State) : LoopOnly s s.enterLoop.2 :=
  ⟨⟨⟨rfl, rfl, rfl, rfl, rfl, rfl, rfl⟩, rfl, rfl, [], by simp [enterLoop], BusEvents.nil⟩,
    ⟨rfl, rfl, rfl, rfl, rfl, rfl, rfl, rfl, rfl, rfl⟩, fun h => ⟨h.count, h.fits, h.cap⟩⟩

/-- The state in which LOOP starts. -/
def atLoop (d : Descriptor) (s : State) : Nat × State := (((s.execLoad d).execPreRun).execPrime).enterLoop

theorem atLoop_loopOnly (d : Descriptor) (s : State) : LoopOnly (s.execLoad d) (s.atLoop d).2 :=
  ((execPreRun_loopOnly _).trans (execPrime_loopOnly _)).trans (enterLoop_loopOnly _)

theorem execExit_loopOnly (s : State) : LoopOnly s s.execExit :=
  ((phaseModify_busOnly _ _ _ _ s).trans (phaseWrite_busOnly _ _ _ _)).loopOnly

theorem runExec_eq (d : Descriptor) (s : State) :
    s.runExec d =
      let r := execLoop (s.atLoop d).1 (s.atLoop d).2
      if r.2 = .fatal then (r.1.setXStatus .fatal, .fatal)
      else ((r.1.execExit.atPhase .result).setXStatus r.2, r.2) := rfl

/-- Everything an executor run can do (R206). -/
structure RunEnd (d : Descriptor) (s t : State) (st : Status) : Prop where
  status : executorStatus st
  xStatus : t.xStatus = st
  run : st ≠ .fatal → RunOnly s t
  fatal : st = .fatal → FatalRun s t
  receive : ReceiveInv t.d
  /-- The loaded descriptor still stands in its registers. -/
  kept : DescKept (s.execLoad d).d t.d
  /-- A transceive run that expects a number of bytes and ends OK has received that number (R222). -/
  length : st = .ok → d.family = .transceive → d.rxLen.toNat ≠ 0 → t.rxSlice.length = d.rxLen.toNat

theorem rxSlice_length (s : State) (h : ReceiveInv s.d) : s.rxSlice.length = s.d.rxCnt.toNat := by
  simp [rxSlice, h.count]

theorem runExec_spec (d : Descriptor) (s : State) : RunEnd d s (s.runExec d).1 (s.runExec d).2 := by
  have hl := execLoop_spec (s.atLoop d).1 (s.atLoop d).2
  have hr := (atLoop_loopOnly d s).end hl
  have hrec : ReceiveInv (execLoop (s.atLoop d).1 (s.atLoop d).2).1.d := hr.receive (execLoad_receive d s)
  rw [runExec_eq]
  simp only
  split
  · next hf =>
    refine ⟨by simp [executorStatus], rfl, fun h => absurd rfl h, fun _ => ?_, hrec, hr.keptD, fun h => by cases h⟩
    have k := (execLoad_runOnly d s).fatal (hr.fatal hf)
    exact ⟨⟨k.sess, k.ident, k.work, k.pRst, k.offers, k.params, k.op⟩, k.st, k.host, k.hist⟩
  · next hf =>
    have hx := execExit_loopOnly (execLoop (s.atLoop d).1 (s.atLoop d).2).1
    have hrec' := hx.receive hrec
    refine ⟨hr.status, rfl, fun _ => ?_, fun h => absurd h hf, hrec', hr.keptD.trans hx.kept, ?_⟩
    · exact ((((execLoad_runOnly d s).trans (hr.loop hf).toRunOnly).trans hx.toRunOnly).trans
        (atPhase_busOnly _ _).runOnly).trans (setXStatus_runOnly _ _)
    · intro hok hfam hlen
      have := hr.okLength hok (by rw [hr.keptD.family]; exact hfam) (by rw [hr.keptD.rxLen]; exact hlen)
      rw [hr.keptD.rxLen] at this
      refine (rxSlice_length _ hrec').trans ?_
      simpa [execExit, execLoad] using this

/-! ### The cases of a run, for the callers -/

/-- A run that did not end in FATAL. -/
theorem runExec_run (d : Descriptor) (s : State) (h : (s.runExec d).2 ≠ .fatal) : RunOnly s (s.runExec d).1 :=
  (runExec_spec d s).run h

/-- A run that ended in FATAL. -/
theorem runExec_fatal (d : Descriptor) (s : State) (h : (s.runExec d).2 = .fatal) : FatalRun s (s.runExec d).1 :=
  (runExec_spec d s).fatal h

/-- What every run keeps. -/
theorem runExec_kept (d : Descriptor) (s : State) : Kept s (s.runExec d).1 := by
  by_cases h : (s.runExec d).2 = .fatal
  · exact (runExec_fatal d s h).toKept
  · exact (runExec_run d s h).toKept

end State

end Sys2Proof.Machine
end

