-- ==== Sys2Proof/Laws/Stages.lean ====
section
/-! SUPPORT. What the stages of the composite commands can do, said once: a stage that does not end in FATAL is a `Stretch`, one
that does is `Broken` (R228, R418). -/

namespace Sys2Proof.Machine

/-- What a command keeps while it goes on outside FATAL: only the descriptor, identity and working registers, the label
of `pc`, the environment, the last read and status, and the record of the bus change. -/
structure Stretch (s t : State) : Prop where
  st : t.st = s.st
  sess : t.sess = s.sess
  pRst : t.pRst = s.pRst
  offers : t.offers = s.offers
  params : t.params = s.params
  host : t.host = s.host
  hist : ∃ evs, t.hist = s.hist ++ evs ∧ BusEvents evs
  receive : ReceiveInv s.d → ReceiveInv t.d

theorem Stretch.refl (s : State) : Stretch s s :=
  ⟨rfl, rfl, rfl, rfl, rfl, rfl, ⟨[], by simp, BusEvents.nil⟩, id⟩

theorem Stretch.trans {s t u : State} (h : Stretch s t) (k : Stretch t u) : Stretch s u := by
  obtain ⟨e, he, be⟩ := h.hist
  obtain ⟨f, hf, bf⟩ := k.hist
  exact ⟨k.st.trans h.st, k.sess.trans h.sess, k.pRst.trans h.pRst, k.offers.trans h.offers,
    k.params.trans h.params, k.host.trans h.host, ⟨e ++ f, by rw [hf, he, List.append_assoc], be.append bf⟩,
    k.receive ∘ h.receive⟩

theorem BusOnly.stretch {s t : State} (h : BusOnly s t) : Stretch s t :=
  ⟨h.st, h.sess, h.pRst, h.offers, h.params, h.host, h.hist, by rw [h.d]; exact id⟩

theorem State.setIdent_stretch (s : State) (v : Ident) : Stretch s (s.setIdent v) :=
  ⟨rfl, rfl, rfl, rfl, rfl, rfl, ⟨[], by simp, BusEvents.nil⟩, id⟩

theorem State.setWork_stretch (s : State) (v : Work) : Stretch s (s.setWork v) :=
  ⟨rfl, rfl, rfl, rfl, rfl, rfl, ⟨[], by simp, BusEvents.nil⟩, id⟩

/-- A command that ended in FATAL. -/
structure Broken (s t : State) : Prop where
  st : t.st = .fatal
  sess : t.sess = s.sess
  pRst : t.pRst = s.pRst
  offers : t.offers = s.offers
  params : t.params = s.params
  host : t.host = { s.host with res := [0xFF, 0, 0], resValid := true }
  hist : ∃ evs, t.hist = s.hist ++ evs ++ [.result [0xFF, 0, 0]] ∧ BusEvents evs
  receive : ReceiveInv t.d

theorem Stretch.broken {s t u : State} (h : Stretch s t) (k : Broken t u) : Broken s u := by
  obtain ⟨e, he, be⟩ := h.hist
  obtain ⟨f, hf, bf⟩ := k.hist
  exact ⟨k.st, k.sess.trans h.sess, k.pRst.trans h.pRst, k.offers.trans h.offers, k.params.trans h.params,
    by rw [k.host, h.host], ⟨e ++ f, by rw [hf, he]; simp [List.append_assoc], be.append bf⟩, k.receive⟩

/-- The end of a stage. -/
structure StageEnd (s t : State) (st : Status) : Prop where
  goes : st ≠ .fatal → Stretch s t
  breaks : st = .fatal → Broken s t

theorem Stretch.stage {s t u : State} {st : Status} (h : Stretch s t) (k : StageEnd t u st) : StageEnd s u st :=
  ⟨fun hn => h.trans (k.goes hn), fun hf => h.broken (k.breaks hf)⟩

theorem Stretch.toStage {s t : State} {st : Status} (h : Stretch s t) (hn : st ≠ .fatal) : StageEnd s t st :=
  ⟨fun _ => h, fun hf => absurd hf hn⟩

namespace State

/-- An executor run is a stage. -/
theorem runExec_stage (d : Descriptor) (s : State) : StageEnd s (s.runExec d).1 (s.runExec d).2 := by
  have h := runExec_spec d s
  refine ⟨fun hn => ?_, fun hf => ?_⟩
  · have r := h.run hn
    exact ⟨r.st, r.sess, r.pRst, r.offers, r.params, r.host, r.hist, fun _ => h.receive⟩
  · have r := h.fatal hf
    exact ⟨r.st, r.sess, r.pRst, r.offers, r.params, r.host, r.hist, h.receive⟩

/-- A stage's status is FATAL exactly when its run's is. -/
theorem stageStatus_fatal (good : Bool) (err st : Status) (he : err ≠ .fatal) :
    stageStatus good err st = .fatal ↔ st = .fatal := by
  unfold stageStatus
  split
  · next h => simp [h]
  · next h => cases good <;> simp [h, he]

/-- A stage's status is OK exactly when its check holds and its run is not FATAL. -/
theorem stageStatus_ok (good : Bool) (err st : Status) (he : err ≠ .ok) :
    stageStatus good err st = .ok ↔ st ≠ .fatal ∧ good = true := by
  unfold stageStatus
  split
  · next h => simp [h]
  · next h => cases good <;> simp [h, he]

/-- A stage's status is FATAL, OK or the stage's own error. -/
theorem stageStatus_cases (good : Bool) (err st : Status) :
    stageStatus good err st = .fatal ∨ stageStatus good err st = .ok ∨ stageStatus good err st = err := by
  unfold stageStatus
  split
  · exact .inl rfl
  · cases good <;> simp

theorem atLine_stretch (l : Line) (s : State) : Stretch s (s.atLine l) := (atLine_busOnly s l).stretch

/-- A line that writes identity registers, or working registers. -/
theorem lineIdent_stretch (l : Line) (v : Ident) (s : State) : Stretch s ((s.atLine l).setIdent v) :=
  (atLine_stretch l s).trans (setIdent_stretch _ _)
theorem lineWork_stretch (l : Line) (v : Work) (s : State) : Stretch s ((s.atLine l).setWork v) :=
  (atLine_stretch l s).trans (setWork_stretch _ _)

theorem atLine_kept (l : Line) (s : State) : Kept s (s.atLine l) := (atLine_busOnly s l).runOnly.toKept

/-- An executor run at a line of a command's rule keeps what every run keeps. -/
theorem lineRun_kept (l : Line) (d : Descriptor) (s : State) : Kept s ((s.atLine l).runExec d).1 :=
  (atLine_kept l s).trans (runExec_kept d _)

/-- A run at a line of a command's rule, whose status is mapped by a stage, is a stage. -/
theorem lineRun_stageStatus (l : Line) (d : Descriptor) (s : State) (good : Bool) (err : Status) (he : err ≠ .fatal) :
    StageEnd s ((s.atLine l).runExec d).1 (stageStatus good err ((s.atLine l).runExec d).2) := by
  have h := (atLine_stretch l s).stage (runExec_stage d (s.atLine l))
  exact ⟨fun hn => h.goes fun hf => hn ((stageStatus_fatal _ _ _ he).2 hf),
    fun hf => h.breaks ((stageStatus_fatal _ _ _ he).1 hf)⟩

theorem wakeupStage_end (s : State) : StageEnd s s.wakeupStage.1 s.wakeupStage.2 :=
  lineRun_stageStatus _ _ _ _ _ (by decide)

theorem anticollStage_end (l : Nat) (s : State) : StageEnd s (s.anticollStage l).1 (s.anticollStage l).2 :=
  lineRun_stageStatus _ _ _ _ _ (by decide)

theorem selectStage_end (l : Nat) (p : Bytes) (k : Byte) (s : State) :
    StageEnd s (s.selectStage l p k).1 (s.selectStage l p k).2 :=
  lineRun_stageStatus _ _ _ _ _ (by decide)

theorem haltStage_end (s : State) : StageEnd s s.haltStage.1 s.haltStage.2 :=
  lineRun_stageStatus _ _ _ _ _ (by decide)

theorem readStage_end (a : Byte) (s : State) : StageEnd s (s.readStage a).1 (s.readStage a).2 :=
  lineRun_stageStatus _ _ _ _ _ (by decide)

theorem writePhase_end (l : Line) (d : Descriptor) (s : State) :
    StageEnd s (s.writePhase l d).1 (s.writePhase l d).2 :=
  lineRun_stageStatus _ _ _ _ _ (by decide)

/-- A stage's reply has the length its descriptor expects, where it expects one (R222). -/
theorem runExec_reply (d : Descriptor) (s : State) (hf : d.family = .transceive) (hl : d.rxLen.toNat ≠ 0)
    (h : (s.runExec d).2 = .ok) : (s.runExec d).1.rxSlice.length = d.rxLen.toNat :=
  (runExec_spec d s).length h hf hl

theorem ok_of_stageStatus {st err : Status} (he : err ≠ .ok) (b : Bool)
    (h : stageStatus (st == .ok && b) err st = .ok) : st = .ok := by
  have := ((stageStatus_ok _ _ _ he).1 h).2
  simp only [Bool.and_eq_true, beq_iff_eq] at this
  exact this.1

theorem wakeupStage_reply (s : State) (h : s.wakeupStage.2 = .ok) : s.wakeupStage.1.rxSlice.length = 2 :=
  runExec_reply _ _ rfl (by simp [wupaDesc, cardDesc])
    (ok_of_stageStatus (err := .wakeup) (by decide) true (by simpa [wakeupStage] using h))

theorem anticollStage_reply (l : Nat) (s : State) (h : (s.anticollStage l).2 = .ok) :
    (s.anticollStage l).1.rxSlice.length = 5 :=
  runExec_reply _ _ rfl (by simp [anticollDesc, cardDesc]) (ok_of_stageStatus (by decide) _ h)

theorem selectStage_reply (l : Nat) (p : Bytes) (k : Byte) (s : State) (h : (s.selectStage l p k).2 = .ok) :
    (s.selectStage l p k).1.rxSlice.length = 1 :=
  runExec_reply _ _ rfl (by simp [selectDesc, cardDesc])
    (ok_of_stageStatus (err := .select) (by decide) true (by simpa [selectStage] using h))

theorem readStage_reply (a : Byte) (s : State) (h : (s.readStage a).2 = .ok) :
    (s.readStage a).1.rxSlice.length = 16 :=
  runExec_reply _ _ rfl (by simp [mfReadDesc, cardDesc])
    (ok_of_stageStatus (err := .read) (by decide) true (by simpa [readStage] using h))

theorem wakeupStage_kept (s : State) : Kept s s.wakeupStage.1 := lineRun_kept _ _ _
theorem anticollStage_kept (l : Nat) (s : State) : Kept s (s.anticollStage l).1 := lineRun_kept _ _ _
theorem selectStage_kept (l : Nat) (p : Bytes) (k : Byte) (s : State) : Kept s (s.selectStage l p k).1 :=
  lineRun_kept _ _ _
theorem haltStage_kept (s : State) : Kept s s.haltStage.1 := lineRun_kept _ _ _
theorem readStage_kept (a : Byte) (s : State) : Kept s (s.readStage a).1 := lineRun_kept _ _ _
theorem writePhase_kept (l : Line) (d : Descriptor) (s : State) : Kept s (s.writePhase l d).1 := lineRun_kept _ _ _

/-! ### SCAN -/

theorem recordLevel_stretch (level : Nat) (last : Bool) (p : Bytes) (b k : Byte) (s : State) :
    Stretch s (s.recordLevel level last p b k) :=
  (atLine_stretch _ s).trans (setIdent_stretch _ _)

theorem cascadeLevel_end (level : Nat) (last : Bool) (s : State) :
    StageEnd s (s.cascadeLevel level last).1 (s.cascadeLevel level last).2 := by
  have ha := anticollStage_end level s
  unfold cascadeLevel
  simp only
  split
  · next h =>
    have hc := (ha.goes (by rw [h]; decide)).stage (selectStage_end level ((s.anticollStage level).1.rxSlice.take 4)
      ((s.anticollStage level).1.rxSlice.getD 4 0) (s.anticollStage level).1)
    split
    · next h2 =>
      exact ((hc.goes (by rw [h2]; decide)).trans (recordLevel_stretch _ _ _ _ _ _)).toStage (by simp)
    · exact hc
  · exact ha

theorem cascadeLoop_end (n level : Nat) (s : State) :
    StageEnd s (s.cascadeLoop n level).1 (s.cascadeLoop n level).2 := by
  induction n generalizing level s with
  | zero => exact (Stretch.refl s).toStage (by simp [cascadeLoop])
  | succ n ih =>
    have h := (atLine_stretch .cascade s).stage (cascadeLevel_end level (n == 0) (s.atLine .cascade))
    unfold cascadeLoop
    simp only
    split
    · next hok => exact (h.goes (by rw [hok]; decide)).stage (ih _ _)
    · exact h

theorem scanHalt_end (s : State) : StageEnd s s.scanHalt.1 s.scanHalt.2 := by
  unfold scanHalt
  split
  · exact haltStage_end s
  · exact (Stretch.refl s).toStage (by simp)

/-! ### MIFARE Classic -/

theorem authBody_end (b : Bool) (sec : Byte) (key u : Bytes) (s : State) :
    StageEnd s (s.authBody b sec key u).1 (s.authBody b sec key u).2 := by
  have h := (atLine_stretch .auth s).stage (runExec_stage (authDesc s.params b sec key u) (s.atLine .auth))
  unfold authBody
  simp only
  split
  · next hok =>
    refine (((h.goes (by rw [hok]; decide)).trans (atLine_stretch .authStatus _)).trans
      (regRead_busOnly _ _).stretch).toStage ?_
    split <;> simp
  · exact lineRun_stageStatus _ _ _ _ _ (by decide)

theorem authBody_kept (b : Bool) (sec : Byte) (key u : Bytes) (s : State) :
    Kept s (s.authBody b sec key u).1 := by
  have h := lineRun_kept .auth (authDesc s.params b sec key u) s
  unfold authBody
  simp only
  split
  · exact (h.trans (atLine_kept .authStatus _)).trans (regRead_busOnly _ _).runOnly.toKept
  · exact h

theorem countAttempt_stretch (s : State) : Stretch s s.countAttempt := setWork_stretch _ _

theorem attempts_end (l : Line) (f : State → State × Status) (x : Status) (hx : x ≠ .fatal)
    (hf : ∀ s, StageEnd s (f s).1 (f s).2) (n : Nat) (s : State) :
    StageEnd s (attempts l f x n s).1 (attempts l f x n s).2 := by
  induction n generalizing s with
  | zero => exact (atLine_stretch l s).toStage hx
  | succ n ih =>
    have h := ((atLine_stretch l s).trans (countAttempt_stretch _)).stage (hf (s.atLine l).countAttempt)
    unfold attempts
    simp only
    split
    · exact h
    · next hn => exact (h.goes fun hf => hn (.inr hf)).stage (ih _)

/-- The working registers but for `W_ATTEMPT`. -/
structure SameWork (a b : Work) : Prop where
  sector : b.sector = a.sector
  block : b.block = a.block
  page : b.page = a.page
  image : b.image = a.image
  keyA : b.keyA = a.keyA
  keyB : b.keyB = a.keyB
  uid : b.uid = a.uid

theorem SameWork.refl (a : Work) : SameWork a a := ⟨rfl, rfl, rfl, rfl, rfl, rfl, rfl⟩

theorem SameWork.trans {a b c : Work} (h : SameWork a b) (k : SameWork b c) : SameWork a c :=
  ⟨k.sector.trans h.sector, k.block.trans h.block, k.page.trans h.page, k.image.trans h.image,
    k.keyA.trans h.keyA, k.keyB.trans h.keyB, k.uid.trans h.uid⟩

theorem attempts_work (l : Line) (f : State → State × Status) (x : Status) (hf : ∀ s, Kept s (f s).1) (n : Nat) (s : State) :
    SameWork s.work (attempts l f x n s).1.work ∧ (attempts l f x n s).1.ident = s.ident := by
  induction n generalizing s with
  | zero => exact ⟨SameWork.refl _, rfl⟩
  | succ n ih =>
    have h : SameWork s.work (f (s.atLine l).countAttempt).1.work := by
      rw [(hf (s.atLine l).countAttempt).work]; exact ⟨rfl, rfl, rfl, rfl, rfl, rfl, rfl⟩
    have hi : (f (s.atLine l).countAttempt).1.ident = s.ident := by rw [(hf (s.atLine l).countAttempt).ident]; rfl
    unfold attempts
    simp only
    split
    · exact ⟨h, hi⟩
    · exact ⟨h.trans (ih _).1, (ih _).2.trans hi⟩

theorem attempts_status (l : Line) (f : State → State × Status) (x : Status) (n : Nat) (s : State) :
    (attempts l f x n s).2 = .ok ∨ (attempts l f x n s).2 = .fatal ∨ (attempts l f x n s).2 = x := by
  induction n generalizing s with
  | zero => exact .inr (.inr rfl)
  | succ n ih =>
    unfold attempts
    simp only
    split
    · next h => rcases h with h | h <;> simp [h]
    · exact ih _

/-- When the attempts succeed, the state is one that an attempt left. -/
theorem attempts_ok (l : Line) (f : State → State × Status) (x : Status) (hx : x ≠ .ok) (n : Nat) (s : State)
    (h : (attempts l f x n s).2 = .ok) : ∃ u, (f u).2 = .ok ∧ (attempts l f x n s).1 = (f u).1 := by
  induction n generalizing s with
  | zero => exact absurd h hx
  | succ n ih =>
    unfold attempts at h ⊢
    simp only at h ⊢
    split at h
    · next hk =>
      rw [if_pos hk]
      exact ⟨(s.atLine l).countAttempt, h, rfl⟩
    · next hk =>
      rw [if_neg hk]
      exact ih _ h

theorem clearAttempts_stretch (s : State) : Stretch s s.clearAttempts := setWork_stretch _ _

theorem clearAttempts_same (s : State) : SameWork s.work s.clearAttempts.work := ⟨rfl, rfl, rfl, rfl, rfl, rfl, rfl⟩

theorem sectorAuth_end (sec : Nat) (s : State) : StageEnd s (s.sectorAuth sec).1 (s.sectorAuth sec).2 :=
  (clearAttempts_stretch s).stage (attempts_end _ _ _ (by decide) (fun _ => authBody_end _ _ _ _ _) _ _)

theorem sectorAuth_work (sec : Nat) (s : State) :
    SameWork s.work (s.sectorAuth sec).1.work ∧ (s.sectorAuth sec).1.ident = s.ident := by
  have h := attempts_work .authAttempt
    (fun s => s.authBody false (byteOfNat sec) (s.work.keyA.getD sec []) (authUid s.params.card s.work.uid)) .auth (fun s => authBody_kept _ _ _ _ s) Config.maxAttempts s.clearAttempts
  unfold sectorAuth
  generalize attempts _ _ _ _ _ = r at h ⊢
  exact ⟨(clearAttempts_same s).trans h.1, h.2⟩

/-- A data block that is read adds 16 bytes to the image; nothing else of the working registers but the block index and
the attempt count changes. -/
structure BlockEnd (s t : State) (st : Status) : Prop where
  stage : StageEnd s t st
  status : st = .ok ∨ st = .fatal ∨ st = .read
  ident : t.ident = s.ident
  sector : t.work.sector = s.work.sector
  page : t.work.page = s.work.page
  keyA : t.work.keyA = s.work.keyA
  keyB : t.work.keyB = s.work.keyB
  uid : t.work.uid = s.work.uid
  read : st = .ok → ∃ d : Bytes, d.length = 16 ∧ t.work.image = s.work.image ++ d
  failed : st ≠ .ok → t.work.image = s.work.image

theorem blockRead_end (sec b : Nat) (s : State) : BlockEnd s (s.blockRead sec b).1 (s.blockRead sec b).2 := by
  have hs : Stretch s (((s.atLine .block).setWork { s.work with block := BitVec.ofNat 2 b }).clearAttempts) :=
    ((atLine_stretch _ s).trans (setWork_stretch _ _)).trans (clearAttempts_stretch _)
  have he := hs.stage (attempts_end .readAttempt (fun s => s.readStage (byteOfNat (4 * sec + b))) .read (by decide)
    (fun s => readStage_end _ s) Config.maxAttempts (((s.atLine .block).setWork { s.work with block := BitVec.ofNat 2 b }).clearAttempts))
  have hw := attempts_work .readAttempt (fun s => s.readStage (byteOfNat (4 * sec + b))) .read (fun s => readStage_kept _ s)
    Config.maxAttempts (((s.atLine .block).setWork { s.work with block := BitVec.ofNat 2 b }).clearAttempts)
  have hst := attempts_status .readAttempt (fun s => s.readStage (byteOfNat (4 * sec + b))) .read Config.maxAttempts
    (((s.atLine .block).setWork { s.work with block := BitVec.ofNat 2 b }).clearAttempts)
  have hok := attempts_ok .readAttempt (fun s => s.readStage (byteOfNat (4 * sec + b))) .read (by decide) Config.maxAttempts
    (((s.atLine .block).setWork { s.work with block := BitVec.ofNat 2 b }).clearAttempts)
  unfold blockRead
  simp only
  generalize attempts _ _ _ _ _ = r at he hw hst hok ⊢
  have hlen : r.2 = .ok → r.1.rxSlice.length = 16 := fun h => by
    obtain ⟨u, hu, e⟩ := hok h
    rw [e]
    exact readStage_reply _ u hu
  have hi : r.1.work.image = s.work.image := hw.1.image
  split
  · next h =>
    exact ⟨(((he.goes (by rw [h]; decide)).trans (atLine_stretch .append _)).trans (setWork_stretch _ _)).toStage (by simp), .inl rfl,
      hw.2, hw.1.sector, hw.1.page, hw.1.keyA, hw.1.keyB, hw.1.uid, fun _ => ⟨r.1.rxSlice, hlen h, by simp [hi]⟩,
      fun hn => absurd rfl hn⟩
  · next h =>
    exact ⟨he, hst, hw.2, hw.1.sector, hw.1.page, hw.1.keyA, hw.1.keyB, hw.1.uid, fun hk => absurd hk h,
      fun _ => hi⟩

/-- `k` data blocks. -/
structure BlocksEnd (k : Nat) (s t : State) (st : Status) : Prop where
  stage : StageEnd s t st
  status : st = .ok ∨ st = .fatal ∨ st = .read
  ident : t.ident = s.ident
  keyA : t.work.keyA = s.work.keyA
  keyB : t.work.keyB = s.work.keyB
  uid : t.work.uid = s.work.uid
  read : st = .ok → ∃ d : Bytes, d.length = 16 * k ∧ t.work.image = s.work.image ++ d
  bound : t.work.image.length ≤ s.work.image.length + 16 * k

theorem blockLoop_end (sec n b : Nat) (s : State) :
    BlocksEnd n s (blockLoop sec n b s).1 (blockLoop sec n b s).2 := by
  induction n generalizing b s with
  | zero =>
    exact ⟨(Stretch.refl s).toStage (by simp [blockLoop]), .inl rfl, rfl, rfl, rfl, rfl,
      fun _ => ⟨[], rfl, by simp [blockLoop]⟩, by simp [blockLoop]⟩
  | succ n ih =>
    have h := blockRead_end sec b s
    unfold blockLoop
    simp only
    split
    · next hok =>
      have k := ih (b + 1) (s.blockRead sec b).1
      obtain ⟨d, hd, e⟩ := h.read hok
      have hlen : (s.blockRead sec b).1.work.image.length = s.work.image.length + 16 := by rw [e]; simp [hd]
      have hb := k.bound
      refine ⟨(h.stage.goes (by rw [hok]; decide)).stage k.stage, k.status, k.ident.trans h.ident,
        k.keyA.trans h.keyA, k.keyB.trans h.keyB, k.uid.trans h.uid, fun hk => ?_, by omega⟩
      obtain ⟨d', hd', e'⟩ := k.read hk
      exact ⟨d ++ d', by rw [List.length_append, hd, hd']; omega, by rw [e', e, List.append_assoc]⟩
    · next hno =>
      refine ⟨h.stage, h.status, h.ident, h.keyA, h.keyB, h.uid, fun hk => absurd hk hno, ?_⟩
      rw [h.failed hno]; omega

/-- One sector. -/
structure SectorEnd (sec : Nat) (s t : State) (st : Status) : Prop where
  stage : StageEnd s t st
  status : st = .ok ∨ st = .fatal ∨ st = .auth ∨ st = .read
  ident : t.ident = s.ident
  keyA : t.work.keyA = s.work.keyA
  keyB : t.work.keyB = s.work.keyB
  uid : t.work.uid = s.work.uid
  read : st = .ok → ∃ d : Bytes, d.length = 48 ∧
    t.work.image = s.work.image ++ d ++ trailer s.params.card (s.work.keyA.getD sec []) (s.work.keyB.getD sec [])
  bound : st ≠ .ok → t.work.image.length ≤ s.work.image.length + 48

theorem readSector_end (sec : Nat) (s : State) : SectorEnd sec s (s.readSector sec).1 (s.readSector sec).2 := by
  have hs : Stretch s ((s.atLine .sector).setWork { s.work with sector := BitVec.ofNat 5 sec }) :=
    (atLine_stretch _ s).trans (setWork_stretch _ _)
  have ha := hs.stage (sectorAuth_end sec ((s.atLine .sector).setWork { s.work with sector := BitVec.ofNat 5 sec }))
  have hw := sectorAuth_work sec ((s.atLine .sector).setWork { s.work with sector := BitVec.ofNat 5 sec })
  have hst : (((s.atLine .sector).setWork { s.work with sector := BitVec.ofNat 5 sec }).sectorAuth sec).2 = .ok ∨
      (((s.atLine .sector).setWork { s.work with sector := BitVec.ofNat 5 sec }).sectorAuth sec).2 = .fatal ∨
      (((s.atLine .sector).setWork { s.work with sector := BitVec.ofNat 5 sec }).sectorAuth sec).2 = .auth := attempts_status _ _ _ _ _
  unfold readSector
  generalize sectorAuth sec _ = a at ha hw hst ⊢
  have hi : a.1.work.image = s.work.image := hw.1.image
  have hA : a.1.work.keyA = s.work.keyA := hw.1.keyA
  have hB : a.1.work.keyB = s.work.keyB := hw.1.keyB
  simp only
  split
  · next h =>
    have hb := blockLoop_end sec Config.dataBlocks 0 a.1
    have hstage := (ha.goes (by rw [h]; decide)).stage hb.stage
    generalize blockLoop sec _ _ _ = r at hb hstage ⊢
    have c : Config.dataBlocks = 3 := rfl
    split
    · next h2 =>
      obtain ⟨d, hd, e⟩ := hb.read h2
      refine ⟨(((hstage.goes (by rw [h2]; decide)).trans (atLine_stretch .trailer _)).trans (setWork_stretch _ _)).toStage (by simp), .inl rfl,
        hb.ident.trans hw.2, hb.keyA.trans hA, hb.keyB.trans hB, hb.uid.trans hw.1.uid,
        fun _ => ⟨d, by rw [hd, c], ?_⟩, fun hn => absurd rfl hn⟩
      have hp : r.1.params = s.params := (hstage.goes (by rw [h2]; decide)).params
      simp only [appendTrailer, setWork_work]
      rw [e, hb.keyA, hb.keyB, hi, hA, hB, hp]
    · next h2 =>
      refine ⟨hstage, ?_, hb.ident.trans hw.2, hb.keyA.trans hA, hb.keyB.trans hB,
        hb.uid.trans hw.1.uid, fun hk => absurd hk h2, fun _ => ?_⟩
      · rcases hb.status with k | k | k <;> simp [k]
      · have := hb.bound
        rw [hi, c] at this
        exact this
  · next h =>
    refine ⟨ha, ?_, hw.2, hA, hB, hw.1.uid, fun hk => absurd hk h, fun _ => ?_⟩
    · rcases hst with k | k | k <;> simp [k]
    · rw [hi]; exact Nat.le_add_right _ _

/-- The sectors from `sec` on, `n` of them, with keys of the right shape. -/
structure SectorsEnd (n : Nat) (s t : State) (st : Status) : Prop where
  stage : StageEnd s t st
  status : st = .ok ∨ st = .fatal ∨ st = .auth ∨ st = .read
  ident : t.ident = s.ident
  keyA : t.work.keyA = s.work.keyA
  keyB : t.work.keyB = s.work.keyB
  uid : t.work.uid = s.work.uid
  bound : t.work.image.length ≤ s.work.image.length + 64 * n
  whole : st = .ok → t.work.image.length = s.work.image.length + 64 * n

/-- Key `k` of a shaped key bank has 6 bytes. -/
theorem keyBankShaped_getD {b : List Bytes} (h : keyBankShaped b = true) {k : Nat} (hk : k < 16) :
    (b.getD k []).length = 6 := by
  simp only [keyBankShaped, Bool.and_eq_true, beq_iff_eq, List.all_eq_true] at h
  rw [List.getD_eq_getElem _ _ (by omega)]
  exact h.2 _ (List.getElem_mem _)

theorem sectorLoop_end (n sec : Nat) (s : State) (hn : sec + n ≤ 16) (ha : keyBankShaped s.work.keyA = true)
    (hb : keyBankShaped s.work.keyB = true) :
    SectorsEnd n s (sectorLoop n sec s).1 (sectorLoop n sec s).2 := by
  induction n generalizing sec s with
  | zero =>
    exact ⟨(Stretch.refl s).toStage (by simp [sectorLoop]), .inl rfl, rfl, rfl, rfl, rfl, by simp [sectorLoop],
      fun _ => by simp [sectorLoop]⟩
  | succ n ih =>
    have h := readSector_end sec s
    unfold sectorLoop
    simp only
    split
    · next hok =>
      have k := ih (sec + 1) (s.readSector sec).1 (by omega) (by rw [h.keyA]; exact ha) (by rw [h.keyB]; exact hb)
      obtain ⟨d, hd, e⟩ := h.read hok
      have hlen : (s.readSector sec).1.work.image.length = s.work.image.length + 64 := by
        have h1 := keyBankShaped_getD ha (show sec < 16 by omega)
        have h2 := keyBankShaped_getD hb (show sec < 16 by omega)
        rw [e]
        simp only [trailer, List.length_append, hd, h1, h2]
        rfl
      have hbd := k.bound
      refine ⟨(h.stage.goes (by rw [hok]; decide)).stage k.stage, k.status, k.ident.trans h.ident,
        k.keyA.trans h.keyA, k.keyB.trans h.keyB, k.uid.trans h.uid, by omega, fun hk => ?_⟩
      have := k.whole hk
      omega
    · next hno =>
      have := h.bound hno
      exact ⟨h.stage, h.status, h.ident, h.keyA, h.keyB, h.uid, by omega, fun hk => absurd hk hno⟩

end State

end Sys2Proof.Machine
end

