-- ==== Sys2Proof/Laws/Instructions.lean ====
section
/-! SUPPORT. What a host command can do, said once: it ends with one result frame (`CommandEnd`), and keeps the sizes of the
identity and working registers (`KeepsRegs`). One lemma of each per instruction. -/

namespace Sys2Proof.Machine

/-- Events with no result frame, every transfer well framed. -/
def QuietEvents (evs : List Event) : Prop := ∀ e ∈ evs, e.isResult = false ∧ e.wellFramed = true

theorem BusEvents.quiet {evs : List Event} (h : BusEvents evs) : QuietEvents evs := by
  intro e he
  have := h e he
  cases e with
  | xfer o i => exact ⟨rfl, this.2⟩
  | command _ => exact absurd this.1 (by simp [Event.isXfer])
  | result _ => exact absurd this.1 (by simp [Event.isXfer])
  | pin _ => exact absurd this.1 (by simp [Event.isXfer])
  | wait _ => exact absurd this.1 (by simp [Event.isXfer])

theorem QuietEvents.append {a b : List Event} (ha : QuietEvents a) (hb : QuietEvents b) : QuietEvents (a ++ b) := by
  intro e he
  rcases List.mem_append.1 he with h | h
  · exact ha e h
  · exact hb e h

/-- The statuses a result frame carries (R400, R401). -/
def produced (st : Status) : Prop := st ≠ .generic ∧ st ≠ .chip

/-- The result a host command ends with: status and payload. `x` allows a payload beside an error (R229). -/
structure Answer (x : Prop) (s t : State) (st : Status) (data : Bytes) : Prop where
  res : t.host.res = State.resultFrame st data
  valid : t.host.resValid = true
  size : data.length ≤ 1024
  produced : produced st
  empty : st ≠ .ok → ¬x → data = []
  state : (t.st = .idle ∧ st ≠ .fatal) ∨ (t.st = .fatal ∧ st = .fatal ∧ data = [])

/-- The end of a host command. -/
structure CommandEnd (x : Prop) (s t : State) : Prop where
  offers : t.offers = s.offers
  params : t.params = s.params
  receive : ReceiveInv s.d → ReceiveInv t.d
  cmd : t.host.cmd.length = s.host.cmd.length
  ends : ∃ evs st data, QuietEvents evs ∧ t.hist = s.hist ++ evs ++ [.result (State.resultFrame st data)] ∧
    Answer x s t st data

variable {x : Prop}

theorem Stretch.command {s u t : State} (h : Stretch s u) (k : CommandEnd x u t) : CommandEnd x s t := by
  obtain ⟨e, he, be⟩ := h.hist
  obtain ⟨f, st, data, qf, hf, a⟩ := k.ends
  exact ⟨k.offers.trans h.offers, k.params.trans h.params, k.receive ∘ h.receive, by rw [k.cmd, h.host],
    e ++ f, st, data, be.quiet.append qf, by rw [hf, he]; simp [List.append_assoc],
    ⟨a.res, a.valid, a.size, a.produced, a.empty, a.state⟩⟩

theorem Broken.command {s t : State} (h : Broken s t) : CommandEnd x s t := by
  obtain ⟨e, he, be⟩ := h.hist
  exact ⟨h.offers, h.params, fun _ => h.receive, by rw [h.host], e, .fatal, [], be.quiet, he,
    ⟨by rw [h.host]; rfl, by rw [h.host], by simp, ⟨by decide, by decide⟩, fun _ _ => rfl,
      .inr ⟨h.st, rfl, rfl⟩⟩⟩

namespace State

/-- The result of a command outside FATAL. -/
theorem finish_command (st : Status) (data : Bytes) (s : State) (hs : s.st ≠ .fatal) (hf : st ≠ .fatal)
    (hp : produced st) (hl : data.length ≤ 1024) (he : st ≠ .ok → ¬x → data = []) :
    CommandEnd x s (s.finish st data) := by
  rw [finish_answered st data s hs]
  exact ⟨rfl, rfl, id, rfl, [], st, data, by simp [QuietEvents], by simp [answered, resultFrame, byteOfNat],
    ⟨rfl, rfl, hl, hp, he, .inl ⟨rfl, hf⟩⟩⟩

theorem fail_command (st : Status) (s : State) (hs : s.st ≠ .fatal) (hf : st ≠ .fatal) (hp : produced st) :
    CommandEnd x s (s.fail st) :=
  finish_command st [] s hs hf hp (by simp) fun _ _ => rfl

/-- The answer in FATAL. -/
theorem writeResult_fatal_command (s : State) (h : s.st = .fatal) : CommandEnd x s (s.writeResult .fatal []) :=
  ⟨rfl, rfl, id, rfl, [], .fatal, [], by simp [QuietEvents], by simp,
    ⟨rfl, rfl, by simp, ⟨by decide, by decide⟩, fun _ _ => rfl, .inr ⟨h, rfl, rfl⟩⟩⟩

/-- Zeroing a range keeps the length. -/
theorem zeroRange_length (lo hi : Nat) (b : Bytes) (h : lo ≤ hi) : (zeroRange lo hi b).length = b.length := by
  simp only [zeroRange, List.length_append, List.length_take, List.length_replicate, List.length_drop]
  omega

/-- The key zeroing before a result (R334). -/
theorem zeroKeys_command {s t : State} (lo hi : Nat) (h : lo ≤ hi) (k : CommandEnd x (s.zeroKeys lo hi) t) :
    CommandEnd x s t := by
  obtain ⟨f, st, data, qf, hf, a⟩ := k.ends
  refine ⟨k.offers, k.params, k.receive, k.cmd.trans ?_, f, st, data, qf, hf,
    ⟨a.res, a.valid, a.size, a.produced, a.empty, a.state⟩⟩
  rw [zeroKeys_host]
  exact zeroRange_length lo hi _ h

theorem afterStage_command {s : State} {r : State × Status} {k : State → State} (h : StageEnd s r.1 r.2)
    (hs : s.st ≠ .fatal) (hp : produced r.2) (hk : r.2 = .ok → r.1.st ≠ .fatal → CommandEnd x r.1 (k r.1)) :
    CommandEnd x s (afterStage r k) := by
  unfold afterStage
  split
  · next hf => exact (h.breaks hf).command
  · next hf =>
    have g := h.goes hf
    have hst : r.1.st ≠ .fatal := by rw [g.st]; exact hs
    split
    · next ho => exact g.command (hk ho hst)
    · exact g.command (fail_command _ _ hst hf hp)

theorem commandWith_command {clean body : State → State} {ok : Bool} {s : State}
    (hc : s.st ≠ .fatal → CommandEnd x s ((clean s).fail .param))
    (h : s.st ≠ .fatal → ok = true → CommandEnd x s (body s)) : CommandEnd x s (s.commandWith clean ok body) := by
  unfold commandWith
  split
  · next hf => exact writeResult_fatal_command s hf
  · next hf =>
    split
    · next ho => exact h hf ho
    · exact hc hf

theorem param_command (s : State) (hs : s.st ≠ .fatal) : CommandEnd x s (s.fail .param) :=
  fail_command .param s hs (by decide) ⟨by decide, by decide⟩

theorem command_command {ok : Bool} {body : State → State} {s : State}
    (h : s.st ≠ .fatal → ok = true → CommandEnd x s (body s)) : CommandEnd x s (s.command ok body) :=
  commandWith_command (fun hs => param_command s hs) h

/-- A command that carries keys zeroes them before `ERR_PARAM` too (R36). -/
theorem keyCommand_command {lo hi : Nat} (hl : lo ≤ hi) {ok : Bool} {body : State → State} {s : State}
    (h : s.st ≠ .fatal → ok = true → CommandEnd x s (body s)) :
    CommandEnd x s (s.commandWith (zeroKeys lo hi) ok body) :=
  commandWith_command (fun hs => zeroKeys_command lo hi hl (param_command _ hs)) h

theorem produced_stage {good : Bool} {err st : Status} (he : produced err) : produced (stageStatus good err st) := by
  rcases stageStatus_cases good err st with h | h | h <;> rw [h]
  · exact ⟨by decide, by decide⟩
  · exact ⟨by decide, by decide⟩
  · exact he

/-! ### Register access -/

theorem regRead_command (a : Byte) (s : State) (hs : s.st ≠ .fatal) :
    CommandEnd x s (((s.atLine .transfer).regRead a).2.finish .ok [((s.atLine .transfer).regRead a).1]) :=
  ((atLine_busOnly s _).trans (regRead_busOnly a _)).stretch.command
    (finish_command _ _ _ hs (by decide) ⟨by decide, by decide⟩ (by simp) fun h => absurd rfl h)

/-- A command that is bus operations, then `finish(OK, [])`. -/
theorem bus_command {s u : State} (h : BusOnly s u) (hs : s.st ≠ .fatal) : CommandEnd x s (u.finish .ok []) :=
  h.stretch.command (finish_command _ _ _ (by rw [h.st]; exact hs) (by decide) ⟨by decide, by decide⟩ (by simp)
    fun _ _ => rfl)

/-- The same, from a line of the command's rule. -/
theorem lineBus_command {l : Line} {s u : State} (h : BusOnly (s.atLine l) u) (hs : s.st ≠ .fatal) :
    CommandEnd x s (u.finish .ok []) := bus_command ((atLine_busOnly s l).trans h) hs

theorem fifoRead_command (n : Byte) (s : State) (hs : s.st ≠ .fatal) :
    CommandEnd x s (((s.atLine .transfer).fifoRead n.toNat).2.finish .ok ((s.atLine .transfer).fifoRead n.toNat).1) := by
  have := n.isLt
  exact ((atLine_busOnly s _).trans (fifoRead_busOnly n.toNat _)).stretch.command
    (finish_command _ _ _ (by simpa using hs) (by decide) ⟨by decide, by decide⟩
      (by rw [fifoRead_length]; omega) fun h => absurd rfl h)

/-! ### Executor -/

theorem execute_command (d : Descriptor) (s : State) (hs : s.st ≠ .fatal) :
    CommandEnd True s (withExec d (fun s st => s.finish st s.executePayload) s) := by
  have h := runExec_stage d s
  have hsp := runExec_spec d s
  unfold withExec
  simp only
  generalize s.runExec d = r at h hsp ⊢
  split
  · next hf => exact (h.breaks hf).command
  · next hf =>
    have g := h.goes hf
    refine g.command (finish_command _ _ _ (by rw [g.st]; exact hs) hf ?_ ?_ fun _ hn => absurd trivial hn)
    · rcases hsp.status with k | k | k | k | k | k <;> rw [k] <;> exact ⟨by decide, by decide⟩
    · simp only [executePayload, List.length_append, List.length_cons, List.length_nil]
      rw [rxSlice_length _ hsp.receive]
      have h1 := hsp.receive.fits
      have h2 := hsp.receive.cap
      omega

/-! ### Session -/

/-- The session registers are written. -/
theorem setSess_finish_command (s : State) (v : Session) (hs : s.st ≠ .fatal) :
    CommandEnd x s ((s.setSess v).finish .ok []) := by
  have h := finish_command (x := x) .ok [] (s.setSess v) hs (by decide) ⟨by decide, by decide⟩ (by simp) fun _ _ => rfl
  obtain ⟨f, st, data, qf, hf, a⟩ := h.ends
  exact ⟨h.offers, h.params, h.receive, h.cmd, f, st, data, qf, hf,
    ⟨a.res, a.valid, a.size, a.produced, a.empty, a.state⟩⟩

theorem carrierBody_eq (m : BitVec 2) (s : State) : ∃ u, BusOnly s u ∧
    s.carrierBody m = u.setSess { s.sess with carrier := m } :=
  ⟨_, ((((atLine_busOnly s .carrierWave1).trans (regModify_busOnly _ _ _ _)).trans (atLine_busOnly _ .carrierWave2)).trans
    (regModify_busOnly _ _ _ _)).trans (atLine_busOnly _ .carrierMode), rfl⟩

theorem carrier_command (m : BitVec 2) (s : State) (hs : s.st ≠ .fatal) :
    CommandEnd x s ((s.carrierBody m).finish .ok []) := by
  obtain ⟨u, hu, e⟩ := carrierBody_eq m s
  rw [e]
  exact hu.stretch.command (setSess_finish_command _ _ (by rw [hu.st]; exact hs))

theorem session_command (m : BitVec 2) (v : Bool) (s : State) (hs : s.st ≠ .fatal) :
    CommandEnd x s (((s.carrierBody m).setActive v).finish .ok []) := by
  obtain ⟨u, hu, e⟩ := carrierBody_eq m s
  rw [e]
  exact (hu.trans (atLine_busOnly u .active)).stretch.command
    (setSess_finish_command _ _ (by rw [atLine_st, hu.st]; exact hs))

/-- Everything HARD_RESET does before `finish` (R261): the label of `pc`, the session, the keys, the reset line, the state. -/
theorem hardResetBody_eq (s : State) : s.hardResetBody = { s with
    st := .idle
    pc := ⟨s.pc.op, ⟨.toIdle, .none⟩⟩
    sess := ⟨false, 0⟩
    work := { s.work with keyA := zeroKeyBank, keyB := zeroKeyBank }
    host := { s.host with cmd := zeroRange 0 0 s.host.cmd }
    pRst := true
    hist := s.hist ++ [.pin false, .wait Config.resetLowMs, .pin true, .wait Config.resetWaitMs] } := by
  apply State.ext_fields <;> simp [hardResetBody, closeSession, pin, wait]

theorem hardReset_command (s : State) : CommandEnd x s (s.hardResetBody.finish .ok []) := by
  obtain ⟨u, hu⟩ : ∃ u, u = s.hardResetBody := ⟨_, rfl⟩
  have e := hu.trans (hardResetBody_eq s)
  have hst : u.st = .idle := by rw [e]
  rw [← hu]
  obtain ⟨h1, h2, h3, h4, f, st, data, qf, hf, a⟩ := finish_command (x := x) .ok [] u (by rw [hst]; decide) (by decide)
    ⟨by decide, by decide⟩ (by simp) fun _ _ => rfl
  subst e
  exact ⟨h1, h2, h3, h4.trans (zeroRange_length 0 0 _ (Nat.le_refl 0)),
    [.pin false, .wait Config.resetLowMs, .pin true, .wait Config.resetWaitMs] ++ f, st, data,
    QuietEvents.append (by simp [QuietEvents, Event.isResult, Event.wellFramed]) qf,
    by rw [hf]; simp [List.append_assoc], ⟨a.res, a.valid, a.size, a.produced, a.empty, a.state⟩⟩

/-! ### Activation -/

theorem wakeup_command (s : State) (hs : s.st ≠ .fatal) :
    CommandEnd x s (afterStage s.wakeupStage fun s => s.finish .ok s.rxSlice) :=
  afterStage_command (wakeupStage_end s) hs (produced_stage ⟨by decide, by decide⟩) fun h hst =>
    finish_command _ _ _ hst (by decide) ⟨by decide, by decide⟩ (by rw [wakeupStage_reply s h]; omega)
      fun h => absurd rfl h

theorem anticoll_command (l : Nat) (s : State) (hs : s.st ≠ .fatal) :
    CommandEnd x s (afterStage (s.anticollStage l) fun s => s.finish .ok s.rxSlice) :=
  afterStage_command (anticollStage_end l s) hs (produced_stage ⟨by decide, by decide⟩) fun h hst =>
    finish_command _ _ _ hst (by decide) ⟨by decide, by decide⟩ (by rw [anticollStage_reply l s h]; omega)
      fun h => absurd rfl h

theorem select_command (l : Nat) (p : Bytes) (k : Byte) (s : State) (hs : s.st ≠ .fatal) :
    CommandEnd x s (afterStage (s.selectStage l p k) fun s => s.finish .ok s.rxSlice) :=
  afterStage_command (selectStage_end l p k s) hs (produced_stage ⟨by decide, by decide⟩) fun h hst =>
    finish_command _ _ _ hst (by decide) ⟨by decide, by decide⟩ (by rw [selectStage_reply l p k s h]; omega)
      fun h => absurd rfl h

theorem halt_command (s : State) (hs : s.st ≠ .fatal) :
    CommandEnd x s (afterStage s.haltStage fun s => s.finish .ok []) :=
  afterStage_command (haltStage_end s) hs (produced_stage ⟨by decide, by decide⟩) fun _ hst =>
    finish_command _ _ _ hst (by decide) ⟨by decide, by decide⟩ (by simp) fun _ _ => rfl

theorem read_command (a : Byte) (s : State) (hs : s.st ≠ .fatal) :
    CommandEnd x s (afterStage (s.readStage a) fun s => s.finish .ok s.rxSlice) :=
  afterStage_command (readStage_end a s) hs (produced_stage ⟨by decide, by decide⟩) fun h hst =>
    finish_command _ _ _ hst (by decide) ⟨by decide, by decide⟩ (by rw [readStage_reply a s h]; omega)
      fun h => absurd rfl h

theorem writePhase_produced (l : Line) (d : Descriptor) (s : State) : produced (s.writePhase l d).2 :=
  produced_stage ⟨by decide, by decide⟩

theorem write_command (b : Byte) (data : Bytes) (s : State) (hs : s.st ≠ .fatal) :
    CommandEnd x s (s.writeBlockBody b data) := by
  unfold writeBlockBody
  refine afterStage_command (writePhase_end _ _ s) hs (writePhase_produced _ _ _) fun _ h1 => ?_
  refine afterStage_command (writePhase_end _ _ _) h1 (writePhase_produced _ _ _) fun _ h2 => ?_
  exact finish_command _ _ _ h2 (by decide) ⟨by decide, by decide⟩ (by simp) fun _ _ => rfl

theorem anticollStage_produced (l : Nat) (s : State) : produced (s.anticollStage l).2 :=
  produced_stage ⟨by decide, by decide⟩

theorem selectStage_produced (l : Nat) (p : Bytes) (k : Byte) (s : State) : produced (s.selectStage l p k).2 :=
  produced_stage ⟨by decide, by decide⟩

theorem cascadeLevel_produced (level : Nat) (last : Bool) (s : State) : produced (s.cascadeLevel level last).2 := by
  unfold cascadeLevel
  simp only
  split
  · split
    · exact ⟨by simp, by simp⟩
    · exact selectStage_produced _ _ _ _
  · exact anticollStage_produced _ _

theorem cascadeLoop_produced (n level : Nat) (s : State) : produced (s.cascadeLoop n level).2 := by
  induction n generalizing level s with
  | zero => exact ⟨by simp [cascadeLoop], by simp [cascadeLoop]⟩
  | succ n ih =>
    unfold cascadeLoop
    simp only
    split
    · exact ih _ _
    · exact cascadeLevel_produced _ _ _

theorem scanHalt_produced (s : State) : produced s.scanHalt.2 := by
  unfold scanHalt
  split
  · exact produced_stage ⟨by decide, by decide⟩
  · exact ⟨by simp, by simp⟩

/-- The UID registers hold at most 10 bytes, and then the identity record is 21 bytes (R129). -/
theorem identityRecord_length (ty : Byte) (atqa : Bytes) (levels : Nat) (uid bcc sak : Bytes) (h : uid.length ≤ 10) :
    (identityRecord ty atqa levels uid bcc sak).length = 21 := by
  simp only [identityRecord, padUid, perLevel, List.length_append, List.length_cons, List.length_nil,
    List.length_replicate, List.length_map, List.length_range]
  omega

theorem cascadeLevels_le {b : Byte} {n : Nat} (h : cascadeLevels b = some n) : 1 ≤ n ∧ n ≤ 3 := by
  unfold cascadeLevels at h
  split at h <;> first | (cases h; decide) | cases h

theorem uidBytesOfPart_length (last : Bool) (part : Bytes) (h : part.length = 4) :
    (uidBytesOfPart last part).length = if last then 4 else 3 := by
  cases last <;> simp [uidBytesOfPart, h]

/-- The identity registers through one level: the UID grows by 3 bytes, or 4 at the last level (R294). -/
theorem cascadeLevel_ident (level : Nat) (last : Bool) (s : State) :
    (s.cascadeLevel level last).1.ident.atqa = s.ident.atqa ∧
    (s.cascadeLevel level last).1.ident.bcc.length = s.ident.bcc.length ∧
    (s.cascadeLevel level last).1.ident.sak.length = s.ident.sak.length ∧
    (s.cascadeLevel level last).1.ident.uid.length =
      s.ident.uid.length + (if (s.cascadeLevel level last).2 = .ok then (if last then 4 else 3) else 0) := by
  have ha := (anticollStage_kept level s).ident
  unfold cascadeLevel
  simp only
  split
  · next h =>
    have hc := (selectStage_kept level ((s.anticollStage level).1.rxSlice.take 4)
      ((s.anticollStage level).1.rxSlice.getD 4 0) (s.anticollStage level).1).ident
    have hp : ((s.anticollStage level).1.rxSlice.take 4).length = 4 := by
      rw [List.length_take, anticollStage_reply level s h]; rfl
    generalize (s.anticollStage level).1.rxSlice.take 4 = part at hc hp ⊢
    split
    · simp only [recordLevel, setIdent_ident, List.length_set, List.length_append, if_true]
      rw [hc, ha, uidBytesOfPart_length _ _ hp]
      exact ⟨rfl, rfl, rfl, rfl⟩
    · next h2 => rw [hc, ha]; exact ⟨rfl, rfl, rfl, rfl⟩
  · next h => rw [ha]; exact ⟨rfl, rfl, rfl, rfl⟩

theorem cascadeLevel_work (level : Nat) (last : Bool) (s : State) : (s.cascadeLevel level last).1.work = s.work := by
  have ha := (anticollStage_kept level s).work
  unfold cascadeLevel
  simp only
  split
  · have hc := (selectStage_kept level ((s.anticollStage level).1.rxSlice.take 4)
      ((s.anticollStage level).1.rxSlice.getD 4 0) (s.anticollStage level).1).work
    split
    · simp only [recordLevel, setIdent_work, atLine_work]
      exact hc.trans ha
    · exact hc.trans ha
  · exact ha

theorem cascadeLoop_ident (n level : Nat) (s : State) :
    (s.cascadeLoop n level).1.ident.atqa = s.ident.atqa ∧
    (s.cascadeLoop n level).1.ident.bcc.length = s.ident.bcc.length ∧
    (s.cascadeLoop n level).1.ident.sak.length = s.ident.sak.length ∧
    (s.cascadeLoop n level).1.ident.uid.length ≤ s.ident.uid.length + (3 * n + 1) ∧
    (s.cascadeLoop n level).1.work = s.work := by
  induction n generalizing level s with
  | zero => exact ⟨rfl, rfl, rfl, by simp [cascadeLoop], rfl⟩
  | succ n ih =>
    obtain ⟨h1, h2, h3, h4⟩ := cascadeLevel_ident level (n == 0) (s.atLine .cascade)
    have hw := cascadeLevel_work level (n == 0) (s.atLine .cascade)
    simp only [atLine_ident, atLine_work] at h1 h2 h3 h4 hw
    unfold cascadeLoop
    simp only
    split
    · next hok =>
      obtain ⟨k1, k2, k3, k4, k5⟩ := ih (level + 1) ((s.atLine .cascade).cascadeLevel level (n == 0)).1
      rw [if_pos hok] at h4
      refine ⟨k1.trans h1, k2.trans h2, k3.trans h3, ?_, k5.trans hw⟩
      cases n with
      | zero => simp [cascadeLoop] at h4 ⊢; omega
      | succ m =>
        have hb : (m + 1 == 0) = false := rfl
        rw [hb] at h4 k4 ⊢
        simp only [Bool.false_eq_true, if_false] at h4
        omega
    · next hno =>
      rw [if_neg hno] at h4
      exact ⟨h1, h2, h3, by omega, hw⟩

theorem scanHalt_kept (s : State) : Kept s s.scanHalt.1 := by
  unfold scanHalt
  split
  · exact haltStage_kept s
  · exact Kept.refl s

theorem scanFinish_command (levels : Nat) (s : State) (hs : s.st ≠ .fatal) (hu : s.ident.uid.length ≤ 10) :
    CommandEnd x s (s.scanFinish levels) :=
  (lineIdent_stretch .type _ s).command (finish_command _ _ _ hs (by decide) ⟨by decide, by decide⟩
    ((identityRecord_length _ _ _ _ _ _ hu).le.trans (by decide)) fun h => absurd rfl h)

theorem scanCascade_command (s : State) (hs : s.st ≠ .fatal) (hu : s.ident.uid = []) :
    CommandEnd x s s.scanCascade := by
  unfold scanCascade
  split
  · exact fail_command _ _ hs (by decide) ⟨by decide, by decide⟩
  · next levels hl =>
    refine (lineIdent_stretch .cascadeLevels { s.ident with levels := BitVec.ofNat 2 levels } s).command ?_
    refine afterStage_command (cascadeLoop_end _ _ _) hs (cascadeLoop_produced _ _ _) fun _ h1 => ?_
    refine afterStage_command (scanHalt_end _) h1 (scanHalt_produced _) fun _ h2 => scanFinish_command _ _ h2 ?_
    rw [(scanHalt_kept _).ident]
    refine ((cascadeLoop_ident _ _ _).2.2.2.1).trans ?_
    have h3 := (cascadeLevels_le hl).2
    simp only [setIdent_ident, hu, List.length_nil]
    omega

theorem scan_command (s : State) (hs : s.st ≠ .fatal) : CommandEnd x s s.scanBody := by
  have h0 := lineIdent_stretch .clearUid { s.ident with uid := [] } s
  have hu0 : ((s.atLine .clearUid).setIdent { s.ident with uid := [] }).ident.uid = [] := rfl
  unfold scanBody
  generalize (s.atLine .clearUid).setIdent { s.ident with uid := [] } = u at h0 hu0 ⊢
  refine h0.command ?_
  have he := wakeupStage_end u
  have hi : u.wakeupStage.1.ident.uid = [] := by rw [(wakeupStage_kept u).ident]; exact hu0
  have hp : produced u.wakeupStage.2 := produced_stage ⟨by decide, by decide⟩
  generalize u.wakeupStage = r at he hi hp ⊢
  refine afterStage_command he (by rw [h0.st]; exact hs) hp fun _ h1 => ?_
  exact (lineIdent_stretch .atqa _ r.1).command (scanCascade_command _ h1 hi)

/-! ### MIFARE -/

theorem authBody_produced (b : Bool) (sec : Byte) (key u : Bytes) (s : State) :
    produced (s.authBody b sec key u).2 := by
  unfold authBody
  simp only
  split
  · simp only
    split <;> exact ⟨by decide, by decide⟩
  · exact produced_stage ⟨by decide, by decide⟩

theorem zeroAuthKeys_eq (s : State) : s.zeroAuthKeys = s.zeroKeys 3 9 := rfl
theorem zeroClassicKeys_eq (s : State) : s.zeroClassicKeys = s.zeroKeys 12 204 := rfl

theorem auth_command (k sec : Byte) (key u : Bytes) (s : State) (hs : s.st ≠ .fatal) :
    CommandEnd x s (s.authInstr k sec key u) := by
  have h := authBody_end (k == 1) sec key u s
  have hp := authBody_produced (k == 1) sec key u s
  unfold authInstr
  simp only
  generalize s.authBody (k == 1) sec key u = r at h hp ⊢
  split
  · next hf => exact (h.breaks hf).command
  · next hf =>
    have g := h.goes hf
    have hst : r.1.st ≠ .fatal := by rw [g.st]; exact hs
    split
    · rw [zeroAuthKeys_eq]
      exact g.command (zeroKeys_command 3 9 (by decide)
        (finish_command _ _ _ (by simpa using hst) (by decide) ⟨by decide, by decide⟩ (by simp) fun _ _ => rfl))
    · rw [zeroAuthKeys_eq]
      exact g.command (zeroKeys_command 3 9 (by decide) (fail_command _ _ (by simpa using hst) hf hp))

/-- The keys of a 96-byte field are 16 keys of 6 bytes (R127). -/
theorem keysOfField_shaped (f : Bytes) (h : f.length = 96) : keyBankShaped (keysOfField f) = true := by
  simp only [keyBankShaped, keysOfField, Bool.and_eq_true, beq_iff_eq, List.all_eq_true, List.length_map,
    List.length_range]
  refine ⟨rfl, fun b hb => ?_⟩
  obtain ⟨k, hk, rfl⟩ := List.mem_map.1 hb
  have hk' : k < 16 := List.mem_range.1 hk
  simp only [keyOfField, List.length_take, List.length_drop, h, Config.keySize]
  omega

theorem loadClassic_stretch (ul : Byte) (u a b : Bytes) (s : State) : Stretch s (s.loadClassic ul u a b) :=
  lineWork_stretch _ _ _

theorem classicLoop_end (ul : Byte) (u a b : Bytes) (s : State) (ha : a.length = 96) (hb : b.length = 96) :
    SectorsEnd 16 (s.loadClassic ul u a b) (sectorLoop Config.sectors 0 (s.loadClassic ul u a b)).1
      (sectorLoop Config.sectors 0 (s.loadClassic ul u a b)).2 :=
  sectorLoop_end 16 0 _ (by omega) (keysOfField_shaped a ha) (keysOfField_shaped b hb)

theorem classic_command (ul : Byte) (u a b : Bytes) (s : State) (hs : s.st ≠ .fatal) (ha : a.length = 96)
    (hb : b.length = 96) : CommandEnd x s (s.readClassicBody ul u a b) := by
  have h := classicLoop_end ul u a b s ha hb
  have hst := (loadClassic_stretch ul u a b s).stage h.stage
  unfold readClassicBody
  simp only
  generalize sectorLoop Config.sectors 0 (s.loadClassic ul u a b) = r at h hst ⊢
  split
  · next hf => exact (hst.breaks hf).command
  · next hf =>
    have g := hst.goes hf
    have hr : r.1.st ≠ .fatal := by rw [g.st]; exact hs
    split
    · rw [zeroClassicKeys_eq]
      refine g.command (zeroKeys_command 12 204 (by decide)
        (finish_command _ _ _ (by simpa using hr) (by decide) ⟨by decide, by decide⟩ ?_ fun h => absurd rfl h))
      have := h.bound
      simpa [loadClassic] using this
    · rw [zeroClassicKeys_eq]
      refine g.command (zeroKeys_command 12 204 (by decide) (fail_command _ _ (by simpa using hr) hf ?_))
      rcases h.status with k | k | k | k <;> rw [k] <;> exact ⟨by decide, by decide⟩

theorem clippedImage_length (n : Nat) (s : State) : (s.clippedImage n).length ≤ 540 := by
  have c : Config.ulMaxPages = 135 := rfl
  simp only [clippedImage, List.length_take, c]
  omega

theorem windowFailed_command (s : State) (hs : s.st ≠ .fatal) : CommandEnd x s s.windowFailed := by
  refine (atLine_stretch .boundary s).command ?_
  unfold windowFailed
  simp only
  split
  · exact finish_command _ _ _ hs (by decide) ⟨by decide, by decide⟩
      ((clippedImage_length _ _).trans (by omega)) fun h => absurd rfl h
  · exact fail_command _ _ hs (by decide) ⟨by decide, by decide⟩

theorem windowLoop_command (n : Nat) (s : State) (hs : s.st ≠ .fatal) : CommandEnd x s (windowLoop n s) := by
  have hfin : ∀ s : State, s.st ≠ .fatal → CommandEnd x s (s.finish .ok (s.clippedImage Config.ulMaxPages)) :=
    fun s hs => finish_command _ _ _ hs (by decide) ⟨by decide, by decide⟩
      ((clippedImage_length _ _).trans (by omega)) fun h => absurd rfl h
  induction n generalizing s with
  | zero => exact hfin s hs
  | succ n ih =>
    unfold windowLoop
    split
    · have h := (atLine_stretch .window s).stage (readStage_end s.work.page (s.atLine .window))
      simp only
      split
      · next hf => exact (h.breaks hf).command
      · next hf =>
        have g := h.goes hf
        have hst : ((s.atLine .window).readStage s.work.page).1.st ≠ .fatal := by rw [g.st]; exact hs
        split
        · exact (g.trans (lineWork_stretch .next _ _)).command (ih _ hst)
        · exact g.command (windowFailed_command _ hst)
    · exact hfin s hs

theorem ultralight_command (s : State) (hs : s.st ≠ .fatal) : CommandEnd x s s.readUltralightBody :=
  (lineWork_stretch .clearImage _ s).command (windowLoop_command _ _ hs)

end State

/-! ### Every host command -/

/-- Every host command ends with one result. -/
theorem exec_command (i : Instr) (hp : i.port = .host) (s t : State) (h : exec i s = .next t) :
    CommandEnd (∃ d, i = .execute d) s t := by
  have e : t = (match exec i s with | .next t => t | _ => t) := by rw [h]
  cases i with
  | regRead a => cases h; exact State.command_command fun hs _ => State.regRead_command _ _ hs
  | regWrite a v => cases h; exact State.command_command fun hs _ => State.lineBus_command (State.regWrite_busOnly _ _ _) hs
  | regModify a m b =>
    cases h; exact State.command_command fun hs _ => State.lineBus_command (State.regModify_busOnly _ _ _ _) hs
  | fifoRead n => cases h; exact State.command_command fun hs _ => State.fifoRead_command _ _ hs
  | fifoWrite b => cases h; exact State.command_command fun hs _ => State.lineBus_command (State.fifoWrite_busOnly _ _) hs
  | setTimeout t => cases h; exact State.command_command fun hs _ => State.lineBus_command (State.setTimeout_busOnly _ _) hs
  | execute d =>
    cases h
    have k := State.command_command (s := s) (ok := executeOk d) (body := fun s =>
        (s.atLine .exec).withExec d fun s st => s.finish st s.executePayload) fun hs _ =>
      (State.atLine_stretch .exec s).command (State.execute_command d (s.atLine .exec) hs)
    obtain ⟨f, st, data, qf, hf, a⟩ := k.ends
    exact ⟨k.offers, k.params, k.receive, k.cmd, f, st, data, qf, hf,
      ⟨a.res, a.valid, a.size, a.produced, fun _ hn => absurd ⟨d, rfl⟩ hn, a.state⟩⟩
  | hardReset => cases h; exact State.hardReset_command s
  | startSession =>
    cases h
    exact State.command_command fun hs _ => (State.initBody_busOnly s).stretch.command
      (State.session_command _ _ _ (by rw [(State.initBody_busOnly s).st]; exact hs))
  | endSession => cases h; exact State.command_command fun hs _ => State.session_command _ _ _ hs
  | init => cases h; exact State.command_command fun hs _ => State.bus_command (State.initBody_busOnly s) hs
  | carrier m => cases h; exact State.command_command fun hs _ => State.carrier_command _ _ hs
  | wakeup => cases h; exact State.command_command fun hs _ => State.wakeup_command _ hs
  | anticoll l => cases h; exact State.command_command fun hs _ => State.anticoll_command _ _ hs
  | select l p k => cases h; exact State.command_command fun hs _ => State.select_command _ _ _ _ hs
  | halt => cases h; exact State.command_command fun hs _ => State.halt_command _ hs
  | scan => cases h; exact State.command_command fun hs _ => State.scan_command _ hs
  | auth k sec key u =>
    cases h; exact State.keyCommand_command (by decide) fun hs _ => State.auth_command _ _ _ _ _ hs
  | readBlock b => cases h; exact State.command_command fun hs _ => State.read_command _ _ hs
  | writeBlock b d => cases h; exact State.command_command fun hs _ => State.write_command _ _ _ hs
  | readClassic ul u a b =>
    cases h
    refine State.keyCommand_command (by decide) fun hs ho => State.classic_command _ _ _ _ _ hs ?_ ?_
    all_goals
      simp only [classicOk, Bool.and_eq_true, beq_iff_eq] at ho
      omega
  | readPage b => cases h; exact State.command_command fun hs _ => State.read_command _ _ hs
  | readUltralight => cases h; exact State.command_command fun hs _ => State.ultralight_command _ hs
  | busRegRead _ => cases hp
  | busRegWrite _ _ => cases hp
  | busFifoRead _ => cases hp
  | busFifoWrite _ => cases hp
  | cardWupa => cases hp
  | cardAnticollL1 => cases hp
  | cardSelectL1 _ _ => cases hp
  | cardAnticollL2 => cases hp
  | cardSelectL2 _ _ => cases hp
  | cardAnticollL3 => cases hp
  | cardSelectL3 _ _ => cases hp
  | cardHlta => cases hp
  | cardAuthA _ _ _ => cases hp
  | cardAuthB _ _ _ => cases hp
  | cardRead _ => cases hp
  | cardWrite _ => cases hp

end Sys2Proof.Machine
end

