-- ==== Sys2Proof/Laws/PerInstr.lean ====
section
/-! SUPPORT. Per instruction: the length of a well-formed instruction's frame (R127, R140 to R143, R160). -/

namespace Sys2Proof.Laws

open Machine

/-- The frame length the spec's tables give an instruction (R127 column *frame length*; R140 to R143; R160). -/
def frameLength : Instr → Nat
  | .regRead _ => 2
  | .regWrite _ _ => 3
  | .regModify _ _ _ => 4
  | .fifoRead _ => 2
  | .fifoWrite d => 2 + d.length
  | .setTimeout _ => 3
  | .execute d => 8 + d.tx.length
  | .hardReset => 1
  | .startSession => 1
  | .endSession => 1
  | .init => 1
  | .carrier _ => 2
  | .wakeup => 1
  | .anticoll _ => 2
  | .select _ _ _ => 7
  | .halt => 1
  | .scan => 1
  | .auth _ _ _ _ => 13
  | .readBlock _ => 2
  | .writeBlock _ _ => 18
  | .readClassic _ _ _ _ => 204
  | .readPage _ => 2
  | .readUltralight => 1
  | .busRegRead _ => 2
  | .busRegWrite _ _ => 2
  | .busFifoRead n => n + 1
  | .busFifoWrite d => 1 + d.length
  | .cardWupa => 1
  | .cardAnticollL1 => 2
  | .cardSelectL1 _ _ => 7
  | .cardAnticollL2 => 2
  | .cardSelectL2 _ _ => 7
  | .cardAnticollL3 => 2
  | .cardSelectL3 _ _ => 7
  | .cardHlta => 2
  | .cardAuthA _ _ _ => 12
  | .cardAuthB _ _ _ => 12
  | .cardRead _ => 2
  | .cardWrite _ => 2

namespace EncodedShape

/-- A well-formed instruction's frame has the length of the spec's tables, whatever the chip map and the card bytes. -/
def Statement (i : Instr) : Prop := ∀ p, i.wellFormed = true → (encode p i).length = frameLength i

theorem regRead (a) : Statement (.regRead a) := fun _ _ => rfl
theorem regWrite (a b) : Statement (.regWrite a b) := fun _ _ => rfl
theorem regModify (a b c) : Statement (.regModify a b c) := fun _ _ => rfl
theorem fifoRead (a) : Statement (.fifoRead a) := fun _ _ => rfl
theorem fifoWrite (a) : Statement (.fifoWrite a) := by
  intro _ _
  simp [encode, frameLength]
  omega
theorem setTimeout (a) : Statement (.setTimeout a) := fun _ _ => rfl
theorem execute (a) : Statement (.execute a) := by
  intro _ _
  simp [encode, frameLength]
  omega
theorem hardReset : Statement .hardReset := fun _ _ => rfl
theorem startSession : Statement .startSession := fun _ _ => rfl
theorem endSession : Statement .endSession := fun _ _ => rfl
theorem init : Statement .init := fun _ _ => rfl
theorem carrier (a) : Statement (.carrier a) := fun _ _ => rfl
theorem wakeup : Statement .wakeup := fun _ _ => rfl
theorem anticoll (a) : Statement (.anticoll a) := fun _ _ => rfl
theorem select (a b c) : Statement (.select a b c) := by
  intro _ h
  simp [encode, frameLength, Instr.wellFormed, partOk] at h ⊢
  omega
theorem halt : Statement .halt := fun _ _ => rfl
theorem scan : Statement .scan := fun _ _ => rfl
theorem auth (a b c d) : Statement (.auth a b c d) := by
  intro _ h
  simp [encode, frameLength, Instr.wellFormed, authOk, keyOk, uid4Ok] at h ⊢
  omega
theorem readBlock (a) : Statement (.readBlock a) := fun _ _ => rfl
theorem writeBlock (a b) : Statement (.writeBlock a b) := by
  intro _ h
  simp [encode, frameLength, Instr.wellFormed, blockDataOk] at h ⊢
  omega
theorem readClassic (a b c d) : Statement (.readClassic a b c d) := by
  intro _ h
  simp [encode, frameLength, Instr.wellFormed, classicOk] at h ⊢
  omega
theorem readPage (a) : Statement (.readPage a) := fun _ _ => rfl
theorem readUltralight : Statement .readUltralight := fun _ _ => rfl
theorem busRegRead (a) : Statement (.busRegRead a) := fun _ _ => rfl
theorem busRegWrite (a b) : Statement (.busRegWrite a b) := fun _ _ => rfl
theorem busFifoRead (a) : Statement (.busFifoRead a) := by
  intro _ _
  simp [encode, frameLength, fifoReadFrame]
theorem busFifoWrite (a) : Statement (.busFifoWrite a) := by
  intro _ _
  simp [encode, frameLength, fifoWriteFrame]
  omega
theorem cardWupa : Statement .cardWupa := fun _ _ => rfl
theorem cardAnticollL1 : Statement .cardAnticollL1 := fun _ _ => rfl
theorem cardSelectL1 (a b) : Statement (.cardSelectL1 a b) := by
  intro _ h
  simp [encode, frameLength, selectBytes, Instr.wellFormed, partOk] at h ⊢
  omega
theorem cardAnticollL2 : Statement .cardAnticollL2 := fun _ _ => rfl
theorem cardSelectL2 (a b) : Statement (.cardSelectL2 a b) := by
  intro _ h
  simp [encode, frameLength, selectBytes, Instr.wellFormed, partOk] at h ⊢
  omega
theorem cardAnticollL3 : Statement .cardAnticollL3 := fun _ _ => rfl
theorem cardSelectL3 (a b) : Statement (.cardSelectL3 a b) := by
  intro _ h
  simp [encode, frameLength, selectBytes, Instr.wellFormed, partOk] at h ⊢
  omega
theorem cardHlta : Statement .cardHlta := fun _ _ => rfl
theorem cardAuthA (a b c) : Statement (.cardAuthA a b c) := by
  intro _ h
  simp [encode, frameLength, authBytes, Instr.wellFormed, keyOk, uid4Ok] at h ⊢
  omega
theorem cardAuthB (a b c) : Statement (.cardAuthB a b c) := by
  intro _ h
  simp [encode, frameLength, authBytes, Instr.wellFormed, keyOk, uid4Ok] at h ⊢
  omega
theorem cardRead (a) : Statement (.cardRead a) := fun _ _ => rfl
theorem cardWrite (a) : Statement (.cardWrite a) := fun _ _ => rfl

end EncodedShape

end Sys2Proof.Laws
end

