-- ==== Sys2Proof/Laws/Registers.lean ====
section
/-! SUPPORT. What the instructions keep of the identity and working registers, said once (`RegsKept`), and the facts of a whole
step the invariant is made of. -/

namespace Sys2Proof.Machine

/-- Every key register is zero (R334). -/
def KeysZero (w : Work) : Prop := w.keyA = zeroKeyBank ∧ w.keyB = zeroKeyBank

theorem zeroKeyBank_shaped : keyBankShaped zeroKeyBank = true := by decide

/-- The sizes of the identity and working registers, the zeroed keys, and the released reset line are kept. -/
structure RegsKept (s t : State) : Prop where
  ident : IdentInv s.ident → IdentInv t.ident
  work : WorkInv s.work → WorkInv t.work
  keys : KeysZero s.work → KeysZero t.work
  pRst : s.pRst = true → t.pRst = true

theorem RegsKept.refl (s : State) : RegsKept s s := ⟨id, id, id, id⟩

theorem RegsKept.trans {s t u : State} (h : RegsKept s t) (k : RegsKept t u) : RegsKept s u :=
  ⟨k.ident ∘ h.ident, k.work ∘ h.work, k.keys ∘ h.keys, k.pRst ∘ h.pRst⟩

theorem RegsKept.of_eq {s t : State} (hi : t.ident = s.ident) (hw : t.work = s.work) (hp : t.pRst = s.pRst) :
    RegsKept s t := ⟨by rw [hi]; exact id, by rw [hw]; exact id, by rw [hw]; exact id, by rw [hp]; exact id⟩

theorem Kept.regs {s t : State} (h : Kept s t) : RegsKept s t := .of_eq h.ident h.work h.pRst

theorem BusOnly.regs {s t : State} (h : BusOnly s t) : RegsKept s t := .of_eq h.ident h.work h.pRst

namespace State

theorem finish_regs (st : Status) (data : Bytes) (s : State) : RegsKept s (s.finish st data) := by
  unfold finish
  simp only
  split <;> exact .of_eq rfl rfl rfl

theorem fail_regs (st : Status) (s : State) : RegsKept s (s.fail st) := finish_regs st [] s

theorem afterStage_regs {s : State} {r : State × Status} {k : State → State} (h : RegsKept s r.1)
    (hk : r.2 = .ok → RegsKept r.1 (k r.1)) : RegsKept s (afterStage r k) := by
  unfold afterStage
  split
  · exact h
  · split
    · next ho => exact h.trans (hk ho)
    · exact h.trans (fail_regs _ _)

theorem commandWith_regs {clean body : State → State} {ok : Bool} {s : State} (hc : RegsKept s (clean s))
    (h : ok = true → RegsKept s (body s)) : RegsKept s (s.commandWith clean ok body) := by
  unfold commandWith
  split
  · exact .of_eq rfl rfl rfl
  · split
    · next ho => exact h ho
    · exact hc.trans (fail_regs _ _)

theorem command_regs {ok : Bool} {body : State → State} {s : State} (h : ok = true → RegsKept s (body s)) :
    RegsKept s (s.command ok body) := commandWith_regs (RegsKept.refl s) h

theorem atLine_regs (l : Line) (s : State) : RegsKept s (s.atLine l) := (atLine_busOnly s l).regs

theorem internal_regs {body : State → State} {s : State} (h : RegsKept s (body s)) :
    RegsKept s (s.internal body) := by
  unfold internal
  split
  · exact RegsKept.refl s
  · exact h

theorem setSess_regs (s : State) (v : Session) : RegsKept s (s.setSess v) := .of_eq rfl rfl rfl

theorem zeroKeys_regs (lo hi : Nat) (s : State) : RegsKept s (s.zeroKeys lo hi) :=
  ⟨id, fun h => ⟨h.image, h.uid, zeroKeyBank_shaped, zeroKeyBank_shaped⟩, fun _ => ⟨rfl, rfl⟩, id⟩

theorem carrierBody_regs (m : BitVec 2) (s : State) : RegsKept s (s.carrierBody m) :=
  RegsKept.trans (((((atLine_busOnly s .carrierWave1).trans (regModify_busOnly _ _ _ _)).trans
    (atLine_busOnly _ .carrierWave2)).trans (regModify_busOnly _ _ _ _)).trans (atLine_busOnly _ .carrierMode)).regs
    (setSess_regs _ _)

theorem setActive_regs (v : Bool) (s : State) : RegsKept s (s.setActive v) :=
  (atLine_regs .active s).trans (setSess_regs _ _)

theorem hardReset_regs (s : State) : RegsKept s (s.hardResetBody.finish .ok []) := by
  have h : RegsKept s s.hardResetBody := by
    rw [hardResetBody_eq]
    exact ⟨id, fun h => ⟨h.image, h.uid, zeroKeyBank_shaped, zeroKeyBank_shaped⟩, fun _ => ⟨rfl, rfl⟩, fun _ => rfl⟩
  exact h.trans (finish_regs _ _ _)

/-! ### SCAN -/

theorem cascade_regs (n : Nat) (hn : n ≤ 3) (s : State) (hu : s.ident.uid = []) :
    RegsKept s (s.cascadeLoop n 1).1 := by
  obtain ⟨h1, h2, h3, h4, h5⟩ := cascadeLoop_ident n 1 s
  have hp : (s.cascadeLoop n 1).1.pRst = s.pRst := by
    have h := cascadeLoop_end n 1 s
    by_cases hf : (s.cascadeLoop n 1).2 = .fatal
    · exact (h.breaks hf).pRst
    · exact (h.goes hf).pRst
  refine ⟨fun h => ⟨by rw [h1]; exact h.atqa, ?_, h2.trans h.bcc, h3.trans h.sak⟩, by rw [h5]; exact id,
    by rw [h5]; exact id, by rw [hp]; exact id⟩
  rw [hu] at h4
  simp only [List.length_nil] at h4
  omega

theorem scanFinish_regs (levels : Nat) (s : State) : RegsKept s (s.scanFinish levels) := by
  have h : RegsKept s ((s.atLine .type).setIdent
      { s.ident with type := sakClass s.params.card (s.ident.sak.getD (levels - 1) 0) }) :=
    ⟨fun h => ⟨h.atqa, h.uid, h.bcc, h.sak⟩, id, id, id⟩
  exact h.trans (finish_regs _ _ _)

theorem scanCascade_regs (s : State) (hu : s.ident.uid = []) : RegsKept s s.scanCascade := by
  unfold scanCascade
  split
  · exact fail_regs _ _
  · next levels hl =>
    have h0 : RegsKept s ((s.atLine .cascadeLevels).setIdent { s.ident with levels := BitVec.ofNat 2 levels }) :=
      ⟨fun h => ⟨h.atqa, h.uid, h.bcc, h.sak⟩, id, id, id⟩
    refine h0.trans (afterStage_regs (cascade_regs _ (cascadeLevels_le hl).2 _ hu) fun _ => ?_)
    exact afterStage_regs (scanHalt_kept _).regs fun _ => scanFinish_regs _ _

theorem scan_regs (s : State) : RegsKept s s.scanBody := by
  have h0 : RegsKept s ((s.atLine .clearUid).setIdent { s.ident with uid := [] }) :=
    ⟨fun h => ⟨h.atqa, by simp, h.bcc, h.sak⟩, id, id, id⟩
  have hu0 : ((s.atLine .clearUid).setIdent { s.ident with uid := [] }).ident.uid = [] := rfl
  unfold scanBody
  generalize (s.atLine .clearUid).setIdent { s.ident with uid := [] } = v at h0 hu0 ⊢
  have hk := wakeupStage_kept v
  have hr := wakeupStage_reply v
  generalize v.wakeupStage = r at hk hr ⊢
  refine h0.trans (afterStage_regs hk.regs fun ho => ?_)
  have h1 : RegsKept r.1 ((r.1.atLine .atqa).setIdent { r.1.ident with atqa := r.1.rxSlice }) :=
    ⟨fun h => ⟨hr ho, h.uid, h.bcc, h.sak⟩, id, id, id⟩
  exact h1.trans (scanCascade_regs _ (by simp only [setIdent_ident]; rw [hk.ident]; exact hu0))

/-! ### MIFARE -/

theorem auth_regs (k sec : Byte) (key u : Bytes) (s : State) : RegsKept s (s.authInstr k sec key u) := by
  have h := (authBody_kept (k == 1) sec key u s).regs
  unfold authInstr
  simp only
  generalize s.authBody (k == 1) sec key u = r at h ⊢
  split
  · exact h
  · split
    · exact ((h.trans (atLine_regs .zeroKeys _)).trans (zeroKeys_regs 3 9 _)).trans (finish_regs _ _ _)
    · exact ((h.trans (atLine_regs .zeroKeys _)).trans (zeroKeys_regs 3 9 _)).trans (fail_regs _ _)

/-- READ_CLASSIC ends with the keys zeroed, but in FATAL. -/
theorem classic_regs (ul : Byte) (u a b : Bytes) (s : State) (hu : u.length = 10) (ha : a.length = 96)
    (hb : b.length = 96) :
    (IdentInv s.ident → IdentInv (s.readClassicBody ul u a b).ident) ∧ WorkInv (s.readClassicBody ul u a b).work ∧
    ((s.readClassicBody ul u a b).st ≠ .fatal → KeysZero (s.readClassicBody ul u a b).work) ∧
    (s.readClassicBody ul u a b).pRst = s.pRst := by
  have h := classicLoop_end ul u a b s ha hb
  have hw : WorkInv (sectorLoop Config.sectors 0 (s.loadClassic ul u a b)).1.work := by
    refine ⟨?_, ?_, ?_, ?_⟩
    · have := h.bound
      simpa [loadClassic] using this
    · rw [h.uid]
      simp only [loadClassic, setWork_work, List.length_take]
      omega
    · rw [h.keyA]; exact keysOfField_shaped a ha
    · rw [h.keyB]; exact keysOfField_shaped b hb
  have hi : (sectorLoop Config.sectors 0 (s.loadClassic ul u a b)).1.ident = s.ident := h.ident
  have hp : (sectorLoop Config.sectors 0 (s.loadClassic ul u a b)).1.pRst = s.pRst := by
    by_cases hf : (sectorLoop Config.sectors 0 (s.loadClassic ul u a b)).2 = .fatal
    · exact (h.stage.breaks hf).pRst
    · exact (h.stage.goes hf).pRst
  have hst : (sectorLoop Config.sectors 0 (s.loadClassic ul u a b)).2 = .fatal →
      (sectorLoop Config.sectors 0 (s.loadClassic ul u a b)).1.st = .fatal := fun hf => (h.stage.breaks hf).st
  unfold readClassicBody
  simp only
  generalize sectorLoop Config.sectors 0 (s.loadClassic ul u a b) = r at hw hi hp hst ⊢
  split
  · next hf => exact ⟨by rw [hi]; exact id, hw, fun hn => absurd (hst hf) hn, hp⟩
  · have key : ∀ t : State, RegsKept (r.1.atLine .zeroKeys).zeroClassicKeys t → t.pRst = r.1.pRst →
        (IdentInv s.ident → IdentInv t.ident) ∧ WorkInv t.work ∧ (t.st ≠ .fatal → KeysZero t.work) ∧
        t.pRst = s.pRst := fun t k kp =>
      ⟨fun hI => k.ident (by rw [← hi] at hI; exact hI), k.work ((zeroKeys_regs 12 204 _).work hw),
        fun _ => k.keys ⟨rfl, rfl⟩, kp.trans hp⟩
    split
    · exact key _ (finish_regs _ _ _) (finish_pRst _ _ _)
    · exact key _ (fail_regs _ _) (finish_pRst _ _ _)

theorem windowRead_regs (s : State) (n : Nat) (hr : s.rxSlice.length = 16) (hp : s.work.page.toNat = 4 * n)
    (hl : s.work.image.length ≤ 16 * n) (hn : n < 34) :
    RegsKept s s.windowRead ∧ s.windowRead.work.page.toNat = 4 * (n + 1) ∧
      s.windowRead.work.image.length ≤ 16 * (n + 1) := by
  have h : s.windowRead.work.image.length ≤ 16 * (n + 1) := by
    simp only [windowRead, setWork_work, List.length_append, hr]; omega
  refine ⟨⟨id, fun k => ⟨by omega, k.uid, k.keyA, k.keyB⟩, id, id⟩, ?_, h⟩
  simp only [windowRead, setWork_work, BitVec.toNat_add, hp]
  simp
  omega

theorem windowFailed_regs (s : State) : RegsKept s s.windowFailed := by
  refine (atLine_regs .boundary s).trans ?_
  unfold windowFailed
  simp only
  split
  · exact finish_regs _ _ _
  · exact fail_regs _ _

theorem windowLoop_regs (f : Nat) (s : State) (n : Nat) (hp : s.work.page.toNat = 4 * n)
    (hl : s.work.image.length ≤ 16 * n) : RegsKept s (windowLoop f s) := by
  induction f generalizing s n with
  | zero => exact finish_regs _ _ _
  | succ f ih =>
    unfold windowLoop
    split
    · next hlt =>
      have c : Config.ulMaxPages = 135 := rfl
      have hk := (atLine_kept .window s).trans (readStage_kept s.work.page (s.atLine .window))
      simp only
      split
      · exact hk.regs
      · split
        · next ho =>
          have hr := readStage_reply _ (s.atLine .window) ho
          obtain ⟨h1, h2, h3⟩ := windowRead_regs ((s.atLine .window).readStage s.work.page).1 n hr (by rw [hk.work]; exact hp)
            (by rw [hk.work]; exact hl) (by omega)
          exact (hk.regs.trans h1).trans (ih _ (n + 1) h2 h3)
        · exact hk.regs.trans (windowFailed_regs _)
    · exact finish_regs _ _ _

theorem ultralight_regs (s : State) : RegsKept s s.readUltralightBody := by
  refine RegsKept.trans (t := (s.atLine .clearImage).setWork { s.work with image := [], page := 0 })
    ⟨id, fun h => ⟨by simp, h.uid, h.keyA, h.keyB⟩, id, id⟩ (windowLoop_regs _ _ 0 rfl (by simp))

theorem write_regs (b : Byte) (data : Bytes) (s : State) : RegsKept s (s.writeBlockBody b data) := by
  unfold writeBlockBody
  exact afterStage_regs (writePhase_kept _ _ _).regs fun _ =>
    afterStage_regs (writePhase_kept _ _ _).regs fun _ => finish_regs _ _ _

theorem execute_regs (d : Descriptor) (s : State) :
    RegsKept s (withExec d (fun s st => s.finish st s.executePayload) s) := by
  have h := (runExec_kept d s).regs
  unfold withExec
  simp only
  split
  · exact h
  · exact h.trans (finish_regs _ _ _)

end State

/-- What every instruction keeps; READ_CLASSIC ends with the keys zeroed unless in FATAL. -/
theorem exec_regs (i : Instr) (s t : State) (h : exec i s = .next t) :
    (IdentInv s.ident → IdentInv t.ident) ∧ (WorkInv s.work → WorkInv t.work) ∧
    (KeysZero s.work → t.st ≠ .fatal → KeysZero t.work) ∧ (s.pRst = true → t.pRst = true) := by
  have key : RegsKept s t → (IdentInv s.ident → IdentInv t.ident) ∧ (WorkInv s.work → WorkInv t.work) ∧
    (KeysZero s.work → t.st ≠ .fatal → KeysZero t.work) ∧ (s.pRst = true → t.pRst = true) :=
    fun k => ⟨k.ident, k.work, fun h _ => k.keys h, k.pRst⟩
  cases i with
  | regRead a =>
    cases h
    exact key (State.command_regs fun _ => ((State.atLine_regs .transfer _).trans (State.regRead_busOnly _ _).regs).trans (State.finish_regs _ _ _))
  | regWrite a v =>
    cases h
    exact key (State.command_regs fun _ => ((State.atLine_regs .transfer _).trans (State.regWrite_busOnly _ _ _).regs).trans (State.finish_regs _ _ _))
  | regModify a m b =>
    cases h
    exact key (State.command_regs fun _ => ((State.atLine_regs .modify _).trans (State.regModify_busOnly _ _ _ _).regs).trans (State.finish_regs _ _ _))
  | fifoRead n =>
    cases h
    exact key (State.command_regs fun _ => ((State.atLine_regs .transfer _).trans (State.fifoRead_busOnly _ _).regs).trans (State.finish_regs _ _ _))
  | fifoWrite b =>
    cases h
    exact key (State.command_regs fun _ => ((State.atLine_regs .transfer _).trans (State.fifoWrite_busOnly _ _).regs).trans (State.finish_regs _ _ _))
  | setTimeout t =>
    cases h
    exact key (State.command_regs fun _ => ((State.atLine_regs .timer _).trans (State.setTimeout_busOnly _ _).regs).trans (State.finish_regs _ _ _))
  | execute d => cases h; exact key (State.command_regs fun _ => (State.atLine_regs .exec s).trans (State.execute_regs d _))
  | hardReset => cases h; exact key (State.hardReset_regs s)
  | startSession =>
    cases h
    exact key (State.command_regs fun _ => (((State.initBody_busOnly _).regs.trans (State.carrierBody_regs _ _)).trans
      (State.setActive_regs _ _)).trans (State.finish_regs _ _ _))
  | endSession =>
    cases h
    exact key (State.command_regs fun _ => ((State.carrierBody_regs _ _).trans (State.setActive_regs _ _)).trans
      (State.finish_regs _ _ _))
  | init =>
    cases h
    exact key (State.command_regs fun _ => (State.initBody_busOnly _).regs.trans (State.finish_regs _ _ _))
  | carrier m =>
    cases h
    exact key (State.command_regs fun _ => (State.carrierBody_regs _ _).trans (State.finish_regs _ _ _))
  | wakeup =>
    cases h
    exact key (State.command_regs fun _ => State.afterStage_regs (State.wakeupStage_kept _).regs fun _ =>
      State.finish_regs _ _ _)
  | anticoll l =>
    cases h
    exact key (State.command_regs fun _ => State.afterStage_regs (State.anticollStage_kept _ _).regs fun _ =>
      State.finish_regs _ _ _)
  | select l p k =>
    cases h
    exact key (State.command_regs fun _ => State.afterStage_regs (State.selectStage_kept _ _ _ _).regs fun _ =>
      State.finish_regs _ _ _)
  | halt =>
    cases h
    exact key (State.command_regs fun _ => State.afterStage_regs (State.haltStage_kept _).regs fun _ =>
      State.finish_regs _ _ _)
  | scan => cases h; exact key (State.command_regs fun _ => State.scan_regs _)
  | auth k sec ky u =>
    cases h; exact key (State.commandWith_regs (State.zeroKeys_regs 3 9 _) fun _ => State.auth_regs _ _ _ _ _)
  | readBlock b =>
    cases h
    exact key (State.command_regs fun _ => State.afterStage_regs (State.readStage_kept _ _).regs fun _ =>
      State.finish_regs _ _ _)
  | writeBlock b d => cases h; exact key (State.command_regs fun _ => State.write_regs _ _ _)
  | readClassic ul u a b =>
    have e : t = s.commandWith State.zeroClassicKeys (classicOk ul u a b) (State.readClassicBody ul u a b) := by cases h; rfl
    rw [e]
    unfold State.commandWith
    split
    · exact ⟨id, id, fun h _ => h, id⟩
    · split
      · next ho =>
        simp only [classicOk, Bool.and_eq_true, beq_iff_eq] at ho
        obtain ⟨h1, h2, h3, h4⟩ := State.classic_regs ul u a b s (by omega) (by omega) (by omega)
        exact ⟨h1, fun _ => h2, fun _ => h3, fun h => h4.trans h⟩
      · have k : RegsKept s (s.zeroClassicKeys.fail .param) := (State.zeroKeys_regs 12 204 s).trans (State.fail_regs _ _)
        exact ⟨k.ident, k.work, fun h _ => k.keys h, k.pRst⟩
  | readPage b =>
    cases h
    exact key (State.command_regs fun _ => State.afterStage_regs (State.readStage_kept _ _).regs fun _ =>
      State.finish_regs _ _ _)
  | readUltralight => cases h; exact key (State.command_regs fun _ => State.ultralight_regs _)
  | busRegRead a => cases h; exact key (State.internal_regs (State.regRead_busOnly _ _).regs)
  | busRegWrite a v => cases h; exact key (State.internal_regs (State.regWrite_busOnly _ _ _).regs)
  | busFifoRead n => cases h; exact key (State.internal_regs (State.fifoRead_busOnly _ _).regs)
  | busFifoWrite b => cases h; exact key (State.internal_regs (State.fifoWrite_busOnly _ _).regs)
  | cardWupa => cases h; exact key (State.internal_regs (State.runExec_kept _ _).regs)
  | cardAnticollL1 => cases h; exact key (State.internal_regs (State.runExec_kept _ _).regs)
  | cardSelectL1 p k => cases h; exact key (State.internal_regs (State.runExec_kept _ _).regs)
  | cardAnticollL2 => cases h; exact key (State.internal_regs (State.runExec_kept _ _).regs)
  | cardSelectL2 p k => cases h; exact key (State.internal_regs (State.runExec_kept _ _).regs)
  | cardAnticollL3 => cases h; exact key (State.internal_regs (State.runExec_kept _ _).regs)
  | cardSelectL3 p k => cases h; exact key (State.internal_regs (State.runExec_kept _ _).regs)
  | cardHlta => cases h; exact key (State.internal_regs (State.runExec_kept _ _).regs)
  | cardAuthA k sec u => cases h; exact key (State.internal_regs (State.runExec_kept _ _).regs)
  | cardAuthB k sec u => cases h; exact key (State.internal_regs (State.runExec_kept _ _).regs)
  | cardRead a => cases h; exact key (State.internal_regs (State.runExec_kept _ _).regs)
  | cardWrite a => cases h; exact key (State.internal_regs (State.runExec_kept _ _).regs)

end Sys2Proof.Machine
end

