-- ==== Sys2Proof/Tests/Slice0.lean ====
section
/-! SUPPORT. The model's own tests. Expected values come from 95_test_vectors.md (ids V-...) or are written out from the
encodings of 30_encoding.md. After them, one witness per obligation that has hypotheses. -/

namespace Sys2Proof.Tests

open Sys2Proof Sys2Proof.Machine

/-! ### WellFormed: for each check an ill-formed term that it refuses -/

theorem test_illFormed_refused :
    (Instr.regRead 64).wellFormed = false ∧ (Instr.regWrite 64 0).wellFormed = false ∧
    (Instr.regModify 64 0 0).wellFormed = false ∧ (Instr.regModify 0 0 2).wellFormed = false ∧
    (Instr.fifoWrite (List.replicate 254 0)).wellFormed = false ∧
    (Instr.execute ⟨.transceive, false, false, 0, 0, 0, 0, 1, List.replicate 248 0⟩).wellFormed = false ∧
    (Instr.execute ⟨.transceive, false, false, 0, 0, 2, 1, 1, []⟩).wellFormed = false ∧
    (Instr.carrier 4).wellFormed = false ∧ (Instr.anticoll 0).wellFormed = false ∧
    (Instr.anticoll 4).wellFormed = false ∧ (Instr.select 1 [0, 0, 0] 0).wellFormed = false := by decide +kernel

theorem test_illFormed_refused_mifare :
    (Instr.auth 2 0 [0, 0, 0, 0, 0, 0] [0, 0, 0, 0]).wellFormed = false ∧
    (Instr.auth 0 64 [0, 0, 0, 0, 0, 0] [0, 0, 0, 0]).wellFormed = false ∧
    (Instr.auth 0 0 [0, 0, 0, 0, 0] [0, 0, 0, 0]).wellFormed = false ∧
    (Instr.auth 0 0 [0, 0, 0, 0, 0, 0] [0, 0, 0]).wellFormed = false ∧
    (Instr.writeBlock 0 (List.replicate 15 0)).wellFormed = false ∧
    (Instr.readClassic 5 (List.replicate 10 0) (List.replicate 96 0) (List.replicate 96 0)).wellFormed = false ∧
    (Instr.readClassic 4 (List.replicate 9 0) (List.replicate 96 0) (List.replicate 96 0)).wellFormed = false ∧
    (Instr.readClassic 4 (List.replicate 10 0) (List.replicate 95 0) (List.replicate 96 0)).wellFormed = false ∧
    (Instr.readClassic 4 (List.replicate 10 0) (List.replicate 96 0) (List.replicate 97 0)).wellFormed = false := by
  decide +kernel

theorem test_illFormed_refused_frames :
    (Instr.busRegRead 64).wellFormed = false ∧ (Instr.busRegWrite 64 0).wellFormed = false ∧
    (Instr.busFifoRead 0).wellFormed = false ∧ (Instr.busFifoRead 256).wellFormed = false ∧
    (Instr.busFifoWrite []).wellFormed = false ∧ (Instr.busFifoWrite (List.replicate 256 0)).wellFormed = false ∧
    (Instr.cardSelectL1 [] 0).wellFormed = false ∧ (Instr.cardSelectL2 [0] 0).wellFormed = false ∧
    (Instr.cardSelectL3 [0, 0] 0).wellFormed = false ∧
    (Instr.cardAuthA 64 [0, 0, 0, 0, 0, 0] [0, 0, 0, 0]).wellFormed = false ∧
    (Instr.cardAuthA 0 [0] [0, 0, 0, 0]).wellFormed = false ∧
    (Instr.cardAuthB 0 [0, 0, 0, 0, 0, 0] [0]).wellFormed = false := by decide +kernel

/-! ### Decode: a word written out from the spec's encoding for every constructor -/

/-- R125, R126: the register access and executor family. -/
theorem test_decode_access :
    decodeHost [0x01, 0x3F] = .ok (.regRead 0x3F) ∧
    decodeHost [0x02, 0x0B, 0x20] = .ok (.regWrite 0x0B 0x20) ∧
    decodeHost [0x03, 0x14, 0x03, 0x01] = .ok (.regModify 0x14 0x03 1) ∧
    decodeHost [0x04, 0x02] = .ok (.fifoRead 2) ∧
    decodeHost [0x05, 0x01, 0x52] = .ok (.fifoWrite [0x52]) ∧
    decodeHost [0x10, 0x88, 0x13] = .ok (.setTimeout 5000) ∧
    decodeHost [0x11, 0x02, 0x43, 0x01, 0x02, 0x05, 0x34, 0x12, 0x52] =
      .ok (.execute ⟨.transceive, true, false, 3, 4, 2, 5, 0x1234, [0x52]⟩) ∧
    decodeHost [0x11, 0x05, 0x00, 0x00, 0x00, 0x00, 0x01, 0x00] =
      .ok (.execute ⟨.authenticate, false, true, 0, 0, 0, 0, 1, []⟩) := by decide

/-- R125, R126: the session and activation families. -/
theorem test_decode_session :
    decodeHost [0x20] = .ok .hardReset ∧ decodeHost [0x21] = .ok .startSession ∧
    decodeHost [0x22] = .ok .endSession ∧ decodeHost [0x23] = .ok .init ∧ decodeHost [0x24, 0x02] = .ok (.carrier 2) ∧
    decodeHost [0x30] = .ok .wakeup ∧ decodeHost [0x31, 0x02] = .ok (.anticoll 2) ∧
    decodeHost [0x32, 0x01, 0xDE, 0xAD, 0xBE, 0xEF, 0x22] = .ok (.select 1 [0xDE, 0xAD, 0xBE, 0xEF] 0x22) ∧
    decodeHost [0x33] = .ok .halt ∧ decodeHost [0x34] = .ok .scan := by decide

/-- R125, R126: the MIFARE families. -/
theorem test_decode_mifare :
    decodeHost [0x40, 0x01, 0x3F, 0xA0, 0xA1, 0xA2, 0xA3, 0xA4, 0xA5, 0xDE, 0xAD, 0xBE, 0xEF] =
      .ok (.auth 1 0x3F [0xA0, 0xA1, 0xA2, 0xA3, 0xA4, 0xA5] [0xDE, 0xAD, 0xBE, 0xEF]) ∧
    decodeHost [0x41, 0x04] = .ok (.readBlock 4) ∧
    decodeHost (0x42 :: 0x04 :: List.replicate 16 0x55) = .ok (.writeBlock 4 (List.replicate 16 0x55)) ∧
    decodeHost ([0x43, 0x04] ++ List.replicate 10 1 ++ List.replicate 96 2 ++ List.replicate 96 3) =
      .ok (.readClassic 4 (List.replicate 10 1) (List.replicate 96 2) (List.replicate 96 3)) ∧
    decodeHost [0x50, 0x07] = .ok (.readPage 7) ∧ decodeHost [0x51] = .ok .readUltralight := by decide +kernel

/-- The decoders of the default chip map and card table. -/
abbrev busInstr : Bytes → Except DecodeError Instr := decodeBus Config.chipDefault
abbrev cardInstr : Bytes → Except DecodeError Instr := decodeCard Config.cardDefault

/-- R140 to R143: bus frames. -/
theorem test_decode_bus :
    busInstr [0x88, 0x00] = .ok (.busRegRead 0x04) ∧ busInstr [0xFE, 0x00] = .ok (.busRegRead 0x3F) ∧
    busInstr [0x16, 0x20] = .ok (.busRegWrite 0x0B 0x20) ∧
    busInstr [0x92, 0x92, 0x00] = .ok (.busFifoRead 2) ∧
    busInstr [0x12, 0x93, 0x20] = .ok (.busFifoWrite [0x93, 0x20]) := by decide

/-- R160: card frames. -/
theorem test_decode_card :
    cardInstr [0x52] = .ok .cardWupa ∧ cardInstr [0x93, 0x20] = .ok .cardAnticollL1 ∧
    cardInstr [0x93, 0x70, 0xDE, 0xAD, 0xBE, 0xEF, 0x22] = .ok (.cardSelectL1 [0xDE, 0xAD, 0xBE, 0xEF] 0x22) ∧
    cardInstr [0x95, 0x20] = .ok .cardAnticollL2 ∧
    cardInstr [0x95, 0x70, 0x56, 0x78, 0x9A, 0xBC, 0x08] = .ok (.cardSelectL2 [0x56, 0x78, 0x9A, 0xBC] 0x08) ∧
    cardInstr [0x97, 0x20] = .ok .cardAnticollL3 ∧
    cardInstr [0x97, 0x70, 0x66, 0x77, 0x88, 0x99, 0x00] = .ok (.cardSelectL3 [0x66, 0x77, 0x88, 0x99] 0x00) ∧
    cardInstr [0x50, 0x00] = .ok .cardHlta ∧
    cardInstr [0x60, 0x04, 1, 2, 3, 4, 5, 6, 7, 8, 9, 10] = .ok (.cardAuthA 1 [1, 2, 3, 4, 5, 6] [7, 8, 9, 10]) ∧
    cardInstr [0x61, 0xFC, 1, 2, 3, 4, 5, 6, 7, 8, 9, 10] = .ok (.cardAuthB 63 [1, 2, 3, 4, 5, 6] [7, 8, 9, 10]) ∧
    cardInstr [0x30, 0x04] = .ok (.cardRead 4) ∧ cardInstr [0xA0, 0x04] = .ok (.cardWrite 4) := by decide

/-- V-FV-1 to V-FV-4, V-FV-7 to V-FV-9, V-FV-11: frames with no instruction, by name. -/
theorem test_decode_rejects :
    decodeHost [] = .error .emptyFrame ∧ decodeHost [0x00] = .error .unassignedOpcode ∧
    decodeHost [0xFF] = .error .unassignedOpcode ∧ decodeHost [0x01] = .error .wrongLength ∧
    decodeHost [0x01, 0x04, 0x00] = .error .wrongLength ∧ decodeHost [0x05, 0x02, 0x52] = .error .wrongLength ∧
    decodeHost [0x11, 0x08, 0, 0, 0, 0, 1, 0] = .error .reservedBit ∧
    decodeHost [0x11, 0x00, 0x08, 0, 0, 0, 1, 0] = .error .reservedBit ∧
    decodeHost [0x11, 0x00, 0x80, 0, 0, 0, 1, 0] = .error .reservedBit ∧
    decodeHost [0x11, 0x00, 0x07, 0x01, 0x02, 0x02, 0x01, 0x00, 0x52, 0x53] = .error .wrongLength ∧
    busInstr [0x89, 0x00] = .error .notABusFrame ∧ cardInstr [0x60, 0x05, 1, 2, 3, 4, 5, 6, 7, 8, 9, 10] = .error .notACardFrame := by
  decide

/-- The opcode table's numbering: the first byte is the least significant. -/
theorem test_decodeTableWord :
    decodeTableWord 16 0x3F01 = some (.regRead 0x3F) ∧ decodeTableWord 8 0x34 = some .scan ∧
    decodeTableWord 16 0x0088 = some (.busRegRead 4) ∧ decodeTableWord 16 0x2095 = some .cardAnticollL2 ∧
    decodeTableWord 8 0x40 = some (.auth 0 0 [0, 0, 0, 0, 0, 0] [0, 0, 0, 0]) := by decide +kernel

/-! ### Fixtures: the chip of 95_test_vectors.md section 0, as the bytes the bus returns -/

/-- The parameters of section 7: every timeout 1, `SCAN_INCLUDES_HALT` false, `INIT_WRITES` empty. -/
def params : Config.Params :=
  { tWupa := 1, tAnticoll := 1, tSelect := 1, tHalt := 1, tAuth := 1, tRead := 1, tWrite := 1, scanIncludesHalt := false,
    initWrites := [], chip := Config.chipDefault, card := Config.cardDefault }

def z (n : Nat) : Bytes := List.replicate n 0

/-- `OK(reply)` for a send of `n` bytes (at most 32), with the bit framing register at `bf`. -/
def okRunAt (bf : Byte) (n : Nat) (reply : Bytes) : Bytes :=
  z 30 ++ [0, 0x04] ++ z (n + 1) ++ [0, bf] ++ z 4 ++ [0, 0x44] ++ z 4 ++ [0, 0x24] ++ z 2 ++ z 2 ++
    [0, BitVec.ofNat 8 reply.length] ++ (0 :: reply) ++ z 2 ++ [0, 0x80 ||| bf] ++ z 4

/-- `OK(reply)` for a send of `n` bytes with no bit counts. -/
def okRun (n : Nat) (reply : Bytes) : Bytes := okRunAt 0 n reply

/-- `TO` for a send of `n` bytes. -/
def timeOut (n : Nat) : Bytes :=
  z 30 ++ [0, 0x04] ++ z (n + 1) ++ z 6 ++ [0, 0x44] ++ z 4 ++ [0, 0x00] ++ z 6

/-- `AOK` for the 12 bytes of an authenticate frame; then STATUS2 as read. -/
def authOk (status2 : Byte) : Bytes :=
  z 26 ++ z 13 ++ z 4 ++ [0, 0x04] ++ z 2 ++ [0, 0x50] ++ z 2 ++ z 6 ++ [0, status2]

/-- IDLE, the bus answering `inp`, three snapshots per run before the deadline passes. -/
def idle (inp : Bytes) : State :=
  { State.reset with params := params, env := ⟨inp, List.replicate 9 3, List.replicate 9 0, 0⟩, hist := [] }

/-- IDLE with one host frame offered. -/
def offered (frame inp : Bytes) : State := { idle inp with offers := [⟨.host, frame⟩] }

/-- FATAL with one host frame offered. -/
def fatal (frame : Bytes) : State :=
  { offered frame [] with st := .fatal, host := ⟨[], [0xFF, 0, 0], true⟩ }

/-- The result frame after a step. -/
def res (o : Host.Outcome State Fault Refusal) : Bytes :=
  match o with
  | .next t => t.host.res
  | _ => []

/-- The transfers of a step, as sent. -/
def sent (o : Host.Outcome State Fault Refusal) : List Bytes :=
  match o with
  | .next t => (t.hist.filter Event.isXfer).map Event.sent
  | _ => []

/-- Any other part of the state after a step. -/
def after {α : Type} (d : α) (f : State → α) (o : Host.Outcome State Fault Refusal) : α :=
  match o with
  | .next t => f t
  | _ => d

/-! ### One step each -/

/-- V-RA-1, V-RA-5. -/
theorem test_regRead_regWrite :
    res (step (offered [0x01, 0x04] [0, 0x45])) = [0x00, 0x01, 0x00, 0x45] ∧
    sent (step (offered [0x01, 0x04] [0, 0x45])) = [[0x88, 0x00]] ∧
    sent (step (offered [0x02, 0x3F, 0xFF] [0, 0])) = [[0x7E, 0xFF]] := by decide +kernel

/-- V-RA-6, V-RA-7, V-RA-8. -/
theorem test_regModify :
    sent (step (offered [0x03, 0x14, 0x03, 0x01] [0, 0x80, 0, 0])) = [[0xA8, 0x00], [0x28, 0x83]] ∧
    sent (step (offered [0x03, 0x14, 0x03, 0x00] [0, 0x83, 0, 0])) = [[0xA8, 0x00], [0x28, 0x80]] ∧
    sent (step (offered [0x03, 0x14, 0x00, 0x01] [0, 0x83, 0, 0])) = [[0xA8, 0x00], [0x28, 0x83]] := by
  decide +kernel

/-- V-RA-9, V-RA-10, V-RA-11, V-RA-12. -/
theorem test_fifo :
    res (step (offered [0x04, 0x02] [0, 0x44, 0x00])) = [0x00, 0x02, 0x00, 0x44, 0x00] ∧
    sent (step (offered [0x04, 0x02] [0, 0x44, 0x00])) = [[0x92, 0x92, 0x00]] ∧
    sent (step (offered [0x04, 0x00] [])) = [] ∧ res (step (offered [0x04, 0x00] [])) = [0, 0, 0] ∧
    sent (step (offered [0x05, 0x01, 0x52] [0, 0])) = [[0x12, 0x52]] ∧
    sent (step (offered [0x05, 0x00] [])) = [] := by decide +kernel

/-- V-FV-5, V-FV-6, V-FV-10, V-FV-12, V-FV-13: operands out of range. -/
theorem test_errParam :
    res (step (offered [0x01, 0x40] [])) = [0x02, 0, 0] ∧ res (step (offered [0x03, 0x14, 0x03, 0x02] [])) = [0x02, 0, 0] ∧
    res (step (offered [0x11, 0, 0, 0, 2, 1, 1, 0] [])) = [0x02, 0, 0] ∧ res (step (offered [0x24, 0x04] [])) = [0x02, 0, 0] ∧
    res (step (offered [0x31, 0x00] [])) = [0x02, 0, 0] ∧ res (step (offered [0x31, 0x04] [])) = [0x02, 0, 0] ∧
    res (step (offered [0xFF] [])) = [0x02, 0, 0] := by decide +kernel

/-- R36, R334: a rejected AUTH or READ_CLASSIC frame leaves no key in `H_CMD`; another rejected frame stays as it is. -/
theorem test_errParam_zeroes_keys :
    after [] (fun t => t.host.cmd) (step (offered [0x40, 2, 1, 9, 9, 9, 9, 9, 9, 7, 7, 7, 7] [])) =
      [0x40, 2, 1, 0, 0, 0, 0, 0, 0, 7, 7, 7, 7] ∧
    after [] (fun t => t.host.cmd) (step (offered ([0x43, 5] ++ List.replicate 202 9) [])) =
      [0x43, 5] ++ List.replicate 10 9 ++ List.replicate 192 0 ∧
    after [] (fun t => t.host.cmd) (step (offered [0x42, 9, 9] [])) = [0x42, 9, 9] := by decide +kernel

/-- R31, R97: after a command `pc` names its last line, and nothing of the last read is kept. -/
theorem test_finish :
    after ⟨0, .first⟩ State.pc (step (offered [0x01, 0x04] [0, 0x45])) = ⟨0x01, .finish⟩ ∧
    after [7] State.rOut (step (offered [0x01, 0x04] [0, 0x45])) = [] := by decide +kernel

/-- V-TM-1, V-TM-5, V-TM-7, V-TM-8. -/
theorem test_setTimeout :
    sent (step (offered [0x10, 0x00, 0x00] (z 8))) = [[0x54, 0x80], [0x56, 0x00], [0x58, 0x34], [0x5A, 0xF7]] ∧
    sent (step (offered [0x10, 0x64, 0x00] (z 8))) = [[0x54, 0x80], [0x56, 0x0A], [0x58, 0xFC], [0x5A, 0x3B]] ∧
    sent (step (offered [0x10, 0x88, 0x13] (z 8))) = [[0x54, 0x82], [0x56, 0x05], [0x58, 0xFF], [0x5A, 0xE3]] ∧
    sent (step (offered [0x10, 0xFF, 0xFF] (z 8))) = [[0x54, 0x8F], [0x56, 0xFF], [0x58, 0xFF], [0x5A, 0xFF]] := by
  decide +kernel

/-- V-EX-1: the 32 transfers and the result. -/
theorem test_execute_standard :
    let o := step (offered [0x11, 0x00, 0x07, 0x01, 0x02, 0x02, 0x01, 0x00, 0x52] (okRunAt 0x07 1 [0x44, 0x00]))
    sent o =
      [[0x14, 0x80], [0x08, 0x7F], [0x0A, 0x7F], [0x04, 0x10], [0x16, 0x20], [0xA4, 0x00], [0x24, 0x00], [0xA6, 0x00],
        [0x26, 0x00], [0x54, 0x80], [0x56, 0x00], [0x58, 0x34], [0x5A, 0xF7], [0x02, 0x0C], [0x1A, 0x07], [0x88, 0x00]] ++
      [[0x12, 0x52], [0x9A, 0x00], [0x1A, 0x87], [0x08, 0x04], [0x88, 0x00], [0x08, 0x04], [0x08, 0x40], [0x88, 0x00],
        [0x08, 0x04], [0x98, 0x00], [0x94, 0x00], [0x92, 0x92, 0x00], [0x08, 0x20], [0x9A, 0x00], [0x1A, 0x07],
        [0x02, 0x00]] ∧
    res o = [0x00, 0x05, 0x00, 0x00, 0x00, 0x00, 0x44, 0x00] := by decide +kernel

/-- V-EX-4 and V-EX-7: a collision with its position, and an overflow into FATAL. -/
theorem test_execute_collision_overflow :
    res (step (offered [0x11, 0, 0, 2, 5, 5, 1, 0, 0x93, 0x20]
      (z 30 ++ [0, 0x04] ++ z 3 ++ z 6 ++ [0, 0x40] ++ z 2 ++ [0, 0x02] ++ [0, 0x08] ++ [0, 0x25] ++ z 2 ++ z 6))) =
      [0x09, 0x03, 0x00, 0x00, 0x05, 0x08] ∧
    res (step (offered [0x11, 0x00, 0x07, 0x01, 0x02, 0x02, 0x01, 0x00, 0x52] (okRun 1 [0x44, 0x00, 0x01]))) =
      [0xFF, 0x00, 0x00] ∧
    after .idle State.st (step (offered [0x11, 0x00, 0x07, 0x01, 0x02, 0x02, 0x01, 0x00, 0x52]
      (okRun 1 [0x44, 0x00, 0x01]))) = .fatal := by decide +kernel

/-- P4: in FATAL a command is answered `[FF 00 00]`, and HARD_RESET leaves FATAL. -/
theorem test_fatal_hardReset :
    res (step (fatal [0x01, 0x04])) = [0xFF, 0, 0] ∧ sent (step (fatal [0x01, 0x04])) = [] ∧
    res (step (fatal [0x20])) = [0, 0, 0] ∧ after .fatal State.st (step (fatal [0x20])) = .idle ∧
    after [] State.hist (step (fatal [0x20])) =
      [.command [0x20], .pin false, .wait 300, .pin true, .wait 300, .result [0, 0, 0]] := by decide +kernel

/-- V-SES-1, V-SES-3, V-SES-4. -/
theorem test_session :
    sent (step (offered [0x21] ([0, 0x08] ++ z 2 ++ [0, 0x80] ++ z 2 ++ [0, 0x81] ++ z 2))) =
      [[0x90, 0x00], [0x10, 0x00], [0xA8, 0x00], [0x28, 0x81], [0xA8, 0x00], [0x28, 0x83]] ∧
    after ⟨false, 0⟩ State.sess (step (offered [0x21] (z 12))) = ⟨true, 3⟩ ∧
    sent (step (offered [0x22] ([0, 0x83] ++ z 2 ++ [0, 0x82] ++ z 2))) =
      [[0xA8, 0x00], [0x28, 0x82], [0xA8, 0x00], [0x28, 0x80]] ∧
    sent (step (offered [0x24, 0x01] ([0, 0x80] ++ z 2 ++ [0, 0x81] ++ z 2))) =
      [[0xA8, 0x00], [0x28, 0x81], [0xA8, 0x00], [0x28, 0x81]] := by decide +kernel

/-- V-SES-2. -/
theorem test_init :
    sent (step { offered [0x23] (z 10) with
      params := { params with initWrites := [(0x12, 0x00), (0x13, 0x00), (0x15, 0x40)] } }) =
      [[0x24, 0x00], [0x26, 0x00], [0x2A, 0x40], [0x90, 0x00], [0x10, 0x00]] := by decide +kernel

/-- V-ISO-1, V-ISO-2. -/
theorem test_wakeup :
    res (step (offered [0x30] (okRun 1 [0x44, 0x00]))) = [0x00, 0x02, 0x00, 0x44, 0x00] ∧
    res (step (offered [0x30] (timeOut 1))) = [0x08, 0, 0] ∧ (sent (step (offered [0x30] (timeOut 1)))).length = 27 := by
  decide +kernel

/-- V-ISO-3, V-ISO-4. -/
theorem test_anticoll :
    res (step (offered [0x31, 0x01] (okRun 2 [0xDE, 0xAD, 0xBE, 0xEF, 0x22]))) =
      [0x00, 0x05, 0x00, 0xDE, 0xAD, 0xBE, 0xEF, 0x22] ∧
    res (step (offered [0x31, 0x01] (okRun 2 [0xDE, 0xAD, 0xBE, 0xEF, 0x23]))) = [0x09, 0, 0] := by decide +kernel

/-- V-ISO-8. -/
theorem test_select :
    let o := step (offered [0x32, 0x03, 0x66, 0x77, 0x88, 0x99, 0x00] (okRun 7 [0x20]))
    res o = [0x00, 0x01, 0x00, 0x20] ∧ [0x12, 0x97, 0x70, 0x66, 0x77, 0x88, 0x99, 0x00] ∈ sent o := by
  decide +kernel

/-- V-ISO-9, V-ISO-10. -/
theorem test_halt :
    res (step (offered [0x33] (timeOut 2))) = [0x00, 0, 0] ∧ [0x12, 0x50, 0x00] ∈ sent (step (offered [0x33] (timeOut 2))) ∧
    res (step (offered [0x33] (okRun 2 [0x04]))) = [0x0C, 0, 0] := by decide +kernel

/-- The replies of V-SCAN-1. -/
def scanOne : Bytes := okRun 1 [0x04, 0x00] ++ okRun 2 [0xDE, 0xAD, 0xBE, 0xEF, 0x22] ++ okRun 7 [0x08]

/-- V-SCAN-1, V-SCAN-4. -/
theorem test_scan_one :
    res (step (offered [0x34] scanOne)) =
      [0x00, 0x15, 0x00, 0x01, 0x04, 0x00, 0x01, 0x04, 0xDE, 0xAD, 0xBE, 0xEF, 0, 0, 0, 0, 0, 0, 0x22, 0, 0, 0x08, 0, 0] ∧
    res (step (offered [0x34] (okRun 1 [0xC4, 0x00]))) = [0x0B, 0, 0] := by decide +kernel

/-- V-SCAN-2. -/
theorem test_scan_two :
    res (step (offered [0x34] (okRun 1 [0x44, 0x00] ++ okRun 2 [0x88, 0x04, 0x12, 0x34, 0xAA] ++ okRun 7 [0x04] ++
      okRun 2 [0x56, 0x78, 0x9A, 0xBC, 0x08] ++ okRun 7 [0x00]))) =
      [0x00, 0x15, 0x00, 0x02, 0x44, 0x00, 0x02, 0x07, 0x04, 0x12, 0x34, 0x56, 0x78, 0x9A, 0xBC, 0, 0, 0, 0xAA, 0x08,
        0x00, 0x04, 0x00, 0x00] := by decide +kernel

/-- The frame of V-CL-A1. -/
def authFrame : Bytes := [0x40, 0x00, 0x01, 0xFF, 0xFF, 0xFF, 0xFF, 0xFF, 0xFF, 0xDE, 0xAD, 0xBE, 0xEF]

/-- V-CL-A1, V-CL-A2; the key bytes of `H_CMD` are zeroed (R334). -/
theorem test_auth :
    res (step (offered authFrame (authOk 0x08))) = [0x00, 0, 0] ∧
    (sent (step (offered authFrame (authOk 0x08)))).length = 24 ∧
    [0x12, 0x60, 0x04, 0xFF, 0xFF, 0xFF, 0xFF, 0xFF, 0xFF, 0xDE, 0xAD, 0xBE, 0xEF] ∈
      sent (step (offered authFrame (authOk 0x08))) ∧
    after [] (fun t => t.host.cmd) (step (offered authFrame (authOk 0x08))) =
      [0x40, 0x00, 0x01, 0, 0, 0, 0, 0, 0, 0xDE, 0xAD, 0xBE, 0xEF] ∧
    res (step (offered authFrame (authOk 0x00))) = [0x07, 0, 0] := by decide +kernel

/-- V-CL-R1, V-CL-R2. -/
theorem test_readBlock :
    res (step (offered [0x41, 0x04] (okRun 2 [0, 1, 2, 3, 4, 5, 6, 7, 8, 9, 10, 11, 12, 13, 14, 15]))) =
      [0x00, 0x10, 0x00, 0, 1, 2, 3, 4, 5, 6, 7, 8, 9, 10, 11, 12, 13, 14, 15] ∧
    res (step (offered [0x41, 0x04] (okRun 2 [0x04]))) = [0x0D, 0, 0] := by decide +kernel

/-- V-CL-W2, V-CL-W4. -/
theorem test_writeBlock :
    res (step (offered (0x42 :: 0x04 :: z 16) (okRun 2 [0x04]))) = [0x0E, 0, 0] ∧
    (sent (step (offered (0x42 :: 0x04 :: z 16) (okRun 2 [0x04])))).length = 32 ∧
    res (step (offered (0x42 :: 0x04 :: z 16) (okRun 2 [0xFA] ++ okRun 16 [0x1A]))) = [0x00, 0, 0] ∧
    (sent (step (offered (0x42 :: 0x04 :: z 16) (okRun 2 [0xFA] ++ okRun 16 [0x1A])))).length = 64 := by
  decide +kernel

/-- Key fields of V-CL-3. -/
def keysA : Bytes := (List.range 16).flatMap fun k => List.replicate 6 (BitVec.ofNat 8 (0xA0 + k))
def keysB : Bytes := (List.range 16).flatMap fun k => List.replicate 6 (BitVec.ofNat 8 (0xB0 + k))

def classicFrame : Bytes := [0x43, 0x04, 0xDE, 0xAD, 0xBE, 0xEF, 0, 0, 0, 0, 0, 0] ++ keysA ++ keysB

/-- V-CL-6: block 1 fails three times. -/
theorem test_readClassic_fails :
    let o := step (offered classicFrame (authOk 0x08 ++ okRun 2 (List.replicate 16 0) ++ timeOut 2 ++ timeOut 2 ++ timeOut 2))
    res o = [0x0D, 0, 0] ∧ after [] (fun t => t.work.keyA) o = zeroKeyBank ∧
    [0x12, 0x60, 0x00, 0xA0, 0xA0, 0xA0, 0xA0, 0xA0, 0xA0, 0xDE, 0xAD, 0xBE, 0xEF] ∈ sent o := by decide +kernel

/-- The replies of a sector whose data blocks read `4s`, `4s + 1`, `4s + 2` (V-CL-3). -/
def sectorRun (s : Nat) : Bytes :=
  authOk 0x08 ++ (List.range 3).flatMap fun b => okRun 2 (List.replicate 16 (BitVec.ofNat 8 (4 * s + b)))

/-- V-CL-3's block 3: the trailer of sector 0 ends the first sector's 64 bytes. -/
theorem test_readSector :
    let r := ((idle (sectorRun 0)).loadClassic 4 [0xDE, 0xAD, 0xBE, 0xEF, 0, 0, 0, 0, 0, 0] keysA keysB).readSector 0
    r.2 = .ok ∧ r.1.work.image = List.replicate 16 0 ++ List.replicate 16 1 ++ List.replicate 16 2 ++
      [0xA0, 0xA0, 0xA0, 0xA0, 0xA0, 0xA0, 0xFF, 0x07, 0x80, 0x69, 0xB0, 0xB0, 0xB0, 0xB0, 0xB0, 0xB0] := by
  decide +kernel

/-- V-UL-1, V-UL-6. -/
theorem test_readPage_readUltralight :
    res (step (offered [0x50, 0x00] (okRun 2 [0, 1, 2, 3, 4, 5, 6, 7, 8, 9, 10, 11, 12, 13, 14, 15]))) =
      [0x00, 0x10, 0x00, 0, 1, 2, 3, 4, 5, 6, 7, 8, 9, 10, 11, 12, 13, 14, 15] ∧
    res (step (offered [0x51] (okRun 2 [0x00]))) = [0x0D, 0, 0] := by decide +kernel

/-- V-UL-3: a 44-page card truncates at the boundary. -/
theorem test_readUltralight_boundary :
    let o := step { offered [0x51] ((List.range 11).flatMap (fun _ => okRun 2 (List.replicate 16 7)) ++ okRun 2 [0]) with
      env := ⟨(List.range 11).flatMap (fun _ => okRun 2 (List.replicate 16 7)) ++ okRun 2 [0], List.replicate 12 3,
        List.replicate 12 0, 0⟩ }
    (res o).take 3 = [0x00, 0xB0, 0x00] ∧ (res o).length = 179 := by decide +kernel

/-- Bus frames: one transfer each, no result frame. -/
theorem test_busFrames :
    sent (exec (.busRegRead 0x04) (idle [0, 0x45])) = [[0x88, 0x00]] ∧
    after [] State.rOut (exec (.busRegRead 0x04) (idle [0, 0x45])) = [0x45] ∧
    sent (exec (.busRegWrite 0x0B 0x20) (idle (z 2))) = [[0x16, 0x20]] ∧
    after [] State.rOut (exec (.busFifoRead 2) (idle [0, 0x44, 0x00])) = [0x44, 0x00] ∧
    sent (exec (.busFifoWrite [0x52]) (idle (z 2))) = [[0x12, 0x52]] := by decide +kernel

/-- Card frames: one run each, its bytes pushed into the FIFO as R160 gives them. -/
theorem test_cardFrames :
    after [] State.rxSlice (exec .cardWupa (idle (okRun 1 [0x44, 0x00]))) = [0x44, 0x00] ∧
    [0x12, 0x95, 0x20] ∈ sent (exec .cardAnticollL2 (idle (okRun 2 [0x56, 0x78, 0x9A, 0xBC, 0x08]))) ∧
    after .ok State.xStatus (exec .cardHlta (idle (timeOut 2))) = .timer ∧
    [0x12, 0x61, 0xFC, 1, 2, 3, 4, 5, 6, 7, 8, 9, 10] ∈
      sent (exec (.cardAuthB 63 [1, 2, 3, 4, 5, 6] [7, 8, 9, 10]) (idle (authOk 0))) ∧
    [0x12, 0xA0, 0x04] ∈ sent (exec (.cardWrite 4) (idle (okRun 2 [0x0A]))) := by decide +kernel

/-- A table word is fetched and run as the first instruction after reset. -/
theorem test_withFetchWord :
    after [] State.hist (step (State.reset.withFetchWord 8 0x20)) =
      State.reset.hist ++ [.command [0x20], .pin false, .wait 300, .pin true, .wait 300, .result [0, 0, 0]] := by
  decide +kernel

/-! ### Witnesses: for each obligation with hypotheses, a state and operands that meet them -/

theorem runs {d : Descriptor} {s : State} {st : Status} (h : (s.runExec d).2 = st) : ∃ t, s.runExec d = (t, st) :=
  ⟨_, Prod.ext rfl h⟩

theorem offered_inv : Inv (offered [0x20] []) where
  notBusy := by decide
  receive := ⟨rfl, by decide, by decide⟩
  ident := ⟨rfl, by decide, rfl, rfl⟩
  work := ⟨by decide, by decide, by decide, by decide⟩
  host := ⟨by decide, by decide, by decide⟩
  keys := fun _ => ⟨rfl, rfl⟩
  fatal := fun h => by cases h
  released := fun _ => rfl
  framed := fun _ h => by cases h

theorem witness_PowerUpRunsTheResetSequence : State.powerUp.st = .reset := rfl

theorem witness_DefaultParametersAreTheSpecs :
    (∃ c : Config.Chip, c = Config.chipDefault) ∧ ∃ c : Config.Card, c = Config.cardDefault := ⟨⟨_, rfl⟩, _, rfl⟩

theorem witness_EveryStepKeepsTheInvariant : ∃ s t : State, Inv s ∧ step s = .next t :=
  ⟨offered [0x20] [], _, offered_inv, rfl⟩

theorem witness_DecodeUndoesEncode :
    (Instr.regModify 63 0xFF 1).wellFormed = true ∧ (Instr.fifoWrite (List.replicate 253 7)).wellFormed = true ∧
    (Instr.execute ⟨.authenticate, true, true, 7, 7, 255, 255, 0xFFFF, List.replicate 247 7⟩).wellFormed = true ∧
    (Instr.busFifoRead 255).wellFormed = true ∧ (Instr.busFifoWrite (List.replicate 255 7)).wellFormed = true ∧
    Config.cardDefault.distinct = true ∧ (Instr.cardAuthB 63 [1, 2, 3, 4, 5, 6] [7, 8, 9, 10]).port = .card ∧
    (Instr.busRegRead 63).wellFormed = true ∧ Instr.busRegRead 63 ≠ .busRegRead params.chip.fifoData.byte ∧
    (Instr.cardAuthB 63 [1, 2, 3, 4, 5, 6] [7, 8, 9, 10]).wellFormed = true := by decide +kernel

theorem witness_HostFramesReencode :
    decodeHost [0x20] = .ok .hardReset ∧
    decodeHost (0x05 :: 0xFD :: List.replicate 253 7) = .ok (.fifoWrite (List.replicate 253 7)) := by decide +kernel

/-- An operand out of range, a rejected AUTH frame and a rejected READ_CLASSIC frame of 255 bytes. -/
theorem witness_InvalidHostFrameIsErrParam :
    ((offered [0x01, 0x40] []).st = .idle ∧ (offered [0x01, 0x40] []).offers = ⟨.host, [0x01, 0x40]⟩ :: [] ∧
      ∀ i : Instr, i.port = .host → i.wellFormed = true → encode params i ≠ [0x01, 0x40]) ∧
    ((offered [0x40] []).st = .idle ∧ (offered [0x40] []).offers = ⟨.host, [0x40]⟩ :: [] ∧
      ∀ i : Instr, i.port = .host → i.wellFormed = true → encode params i ≠ [0x40]) ∧
    ((offered (0x43 :: z 254) []).st = .idle ∧ (offered (0x43 :: z 254) []).offers = ⟨.host, 0x43 :: z 254⟩ :: [] ∧
      (0x43 :: z 254).length = 255 ∧
      ∀ i : Instr, i.port = .host → i.wellFormed = true → encode params i ≠ 0x43 :: z 254) := by
  refine ⟨⟨rfl, rfl, fun i hp hw he => ?_⟩, ⟨rfl, rfl, fun i hp hw he => ?_⟩,
    ⟨rfl, rfl, by decide +kernel, fun i hp hw he => ?_⟩⟩
  · cases i with
    | regRead a =>
      simp only [encode, List.cons.injEq, and_true] at he
      rw [he.2] at hw
      exact absurd hw (by decide)
    | _ => first | (simp [Instr.port] at hp; done) | simp [encode, HostOp.code] at he
  · cases i <;> first | (simp [Instr.port] at hp; done) | simp [encode, HostOp.code] at he
  · cases i with
    | readClassic ul uid ka kb =>
      simp only [Instr.wellFormed, classicOk, Bool.and_eq_true, beq_iff_eq] at hw
      have h := congrArg List.length he
      simp only [encode, z, List.length_cons, List.length_append, List.length_replicate, hw.1.1.2, hw.1.2, hw.2] at h
      omega
    | _ => first | (simp [Instr.port] at hp; done) | simp [encode, HostOp.code] at he

theorem witness_StepRunsTheDecodedFrame :
    decodeOffer params ⟨.host, [0x34]⟩ = .ok .scan ∧ (offered [0x34] []).offers = [⟨.host, [0x34]⟩] ∧
    (offered [0x34] []).st = .idle ∧ (fatal [0x34]).st = .fatal ∧ decodeOffer params ⟨.host, [0x20]⟩ = .ok .hardReset ∧
    (fatal [0x20]).offers = [⟨.host, [0x20]⟩] ∧ decodeOffer params ⟨.bus, [0x88, 0x00]⟩ = .ok (.busRegRead 4) := by decide

theorem witness_TransferIsFullDuplex : (idle [1, 2, 3]).env.busIn = [1, 2] ++ [3] := rfl

/-- The operands at both sides of each bound, in a state outside FATAL. -/
theorem witness_RegReadReturnsTheSecondByte :
    (idle []).st ≠ .fatal ∧ (63 : Byte).toNat ≤ 63 ∧ 63 < (64 : Byte).toNat := by decide
theorem witness_RegWriteSendsAddressAndValue :
    (idle []).st ≠ .fatal ∧ (63 : Byte).toNat ≤ 63 ∧ 63 < (64 : Byte).toNat := by decide
theorem witness_RegModifyIsReadThenWrite :
    (idle []).st ≠ .fatal ∧ (63 : Byte).toNat ≤ 63 ∧ 63 < (64 : Byte).toNat ∧ 1 < (2 : Byte).toNat := by decide
theorem witness_FifoReadPopsNBytes :
    (idle []).st ≠ .fatal ∧ (255 : Byte).toNat ≠ 0 ∧ (0 : Byte).toNat = 0 := by decide
theorem witness_FifoWritePushesTheBytes :
    (idle []).st ≠ .fatal ∧ (z 253).length ≤ 253 ∧ z 253 ≠ [] ∧ ([] : Bytes).length ≤ 253 ∧
    (z 253).length ≠ (254 : Byte).toNat := by decide +kernel
theorem witness_BusFramesAreOneTransfer : (idle []).st ≠ .fatal ∧ ([7] : Bytes) ≠ [] := by decide

theorem witness_SetTimeoutProgramsTheFirstPrescaler :
    (0 ≤ 0xFFF ∧ 13559 = (max 0 1 * 13560 - 1) / (0 * 2 + 1) ∧ 13559 ≤ 0xFFFF ∧
      ∀ p' < 0, 0xFFFF < (max 0 1 * 13560 - 1) / (p' * 2 + 1)) ∧
    (10 ≤ 0xFFF ∧ 64571 = (max 100 1 * 13560 - 1) / (10 * 2 + 1) ∧ 64571 ≤ 0xFFFF ∧
      ∀ p' < 10, 0xFFFF < (max 100 1 * 13560 - 1) / (p' * 2 + 1)) ∧
    (∀ p' ≤ 0xFFF, 0xFFFF < (max (0xFFFF : BitVec 16).toNat 1 * 13560 - 1) / (p' * 2 + 1)) := by
  refine ⟨by decide, by decide, fun p' h => ?_⟩
  have h1 : (max (0xFFFF : BitVec 16).toNat 1 * 13560 - 1) / 8191 ≤
      (max (0xFFFF : BitVec 16).toNat 1 * 13560 - 1) / (p' * 2 + 1) := Nat.div_le_div_left (by omega) (by omega)
  exact lt_of_lt_of_le (by decide) h1

theorem witness_PrescalerHasAClosedForm :
    ((max 39587 1 * 13560 - 1) / 65536 + 1) / 2 ≤ 0xFFF ∧ ((max 0 1 * 13560 - 1) / 65536 + 1) / 2 ≤ 0xFFF := by decide

theorem witness_TimeoutRoundTrips : 1 ≤ 1 ∧ 1 ≤ 39587 ∧ 39587 ≤ 39587 := by decide
theorem witness_TimeoutSaturatesAbove39587 : 1 ≤ 39587 ∧ 39588 ≤ 39588 := by decide

/-- A state inside LOOP: a snapshot, the family, the send-finished flag, and a receive capacity. -/
def inLoop (irq : Byte) (fam : Family) (done : Bool) (cap : BitVec 11) (inp : Bytes) : State :=
  { idle inp with d := { Desc.initial with irq := irq, family := fam, sendDone := done, rxCap := cap, txPend := z 33 } }

theorem witness_PreRunMakesThirteenTransfers :
    (idle (z 26)).params.chip = Config.chipDefault ∧ z 26 = ((idle (z 26)).env.drawBytes 26).1 := by decide +kernel

theorem witness_PrimeByFamily :
    (inLoop 0 .authenticate false 0 []).params.chip = Config.chipDefault ∧
    (inLoop 0 .authenticate false 0 []).d.family = .authenticate ∧ (inLoop 0 .transceive false 0 []).d.family = .transceive := by
  decide

theorem witness_TimerIdleAndTxBranches :
    (inLoop 0x51 .authenticate false 0 []).params.chip = Config.chipDefault ∧
    (inLoop 0x51 .authenticate false 0 []).d.irq &&& 0x01 ≠ 0 ∧ (inLoop 0x51 .authenticate false 0 []).d.irq &&& 0x10 ≠ 0 ∧
    (inLoop 0x51 .authenticate false 0 []).d.irq &&& 0x40 ≠ 0 ∧ (inLoop 0x2E .transceive false 0 []).d.irq &&& 0x01 = 0 ∧
    (inLoop 0x2E .transceive false 0 []).d.irq &&& 0x40 = 0 := by decide

theorem witness_ErrorBranchReadsTheErrorRegister :
    (inLoop 0x02 .transceive false 0 [0, 0x08]).params.chip = Config.chipDefault ∧
    (inLoop 0x02 .transceive false 0 [0, 0x08]).d.irq &&& 0x02 ≠ 0 ∧
    ((inLoop 0x02 .transceive false 0 [0, 0x08]).regRead params.chip.error.byte).1 &&& params.chip.collErr ≠ 0 ∧
    ((inLoop 0x02 .transceive false 0 [0, 0xF7]).regRead params.chip.error.byte).1 &&& params.chip.collErr = 0 ∧
    (inLoop 0xFD .transceive false 0 []).d.irq &&& 0x02 = 0 := by decide

theorem witness_LowWatermarkFeedsOneChunk :
    (inLoop 0x04 .transceive false 0 []).params.chip = Config.chipDefault ∧
    (inLoop 0x04 .transceive false 0 []).d.irq &&& 0x04 ≠ 0 ∧ (inLoop 0x04 .transceive false 0 []).d.txPend ≠ [] ∧
    (inLoop 0xFB .transceive false 0 []).d.irq &&& 0x04 = 0 := by decide

theorem witness_HighWatermarkDrainsAfterTheSend :
    (inLoop 0x08 .transceive true 31 []).params.chip = Config.chipDefault ∧
    (inLoop 0x08 .transceive true 31 []).d.irq &&& 0x08 ≠ 0 ∧ (inLoop 0x08 .transceive true 31 []).d.sendDone = true ∧
    (inLoop 0x08 .transceive true 31 []).d.rxCap.toNat < (inLoop 0x08 .transceive true 31 []).d.rxCnt.toNat + 32 ∧
    (inLoop 0x08 .transceive true 32 []).d.rxCnt.toNat + 32 ≤ (inLoop 0x08 .transceive true 32 []).d.rxCap.toNat := by
  decide

theorem witness_ReceiveDrainsAndChecksTheLength :
    (inLoop 0x20 .transceive true 2 []).params.chip = Config.chipDefault ∧
    (inLoop 0x20 .transceive true 2 []).d.irq &&& 0x20 ≠ 0 ∧ (inLoop 0x20 .transceive true 2 []).d.family = .transceive ∧
    (inLoop 0x20 .transceive true 2 []).d.rxCap.toNat < Config.chipDefault.fifoCount.get 0x83 ∧
    Config.chipDefault.fifoCount.get 0x82 ≤ (inLoop 0x20 .transceive true 2 []).d.rxCap.toNat ∧
    (inLoop 0xDF .transceive true 2 []).d.irq &&& 0x20 = 0 := by decide

/-- One snapshot value for each clause. -/
theorem witness_SimultaneousFlagsActInOrder :
    (inLoop 0 .transceive false 0 []).params.chip = Config.chipDefault ∧
    ((0x03 : Byte) &&& 0x01 ≠ 0) ∧ ((0x22 : Byte) &&& 0x01 = 0 ∧ (0x22 : Byte) &&& 0x02 ≠ 0) ∧
    ((0x24 : Byte) &&& 0x03 = 0 ∧ (0x24 : Byte) &&& 0x04 ≠ 0 ∧ (0x24 : Byte) &&& 0x20 ≠ 0 ∧ (0x24 : Byte) &&& 0x08 = 0) ∧
    ((0x60 : Byte) &&& 0x07 = 0 ∧ (0x60 : Byte) &&& 0x20 ≠ 0) ∧
    ((0x48 : Byte) &&& 0x37 = 0 ∧ (0x48 : Byte) &&& 0x08 ≠ 0 ∧ (0x48 : Byte) &&& 0x40 ≠ 0) ∧
    (0x10 : Byte) &&& 0x7F = 0x10 ∧ (0x20 : Byte) &&& 0x7F = 0x20 := by decide

/-- V-EX-2's descriptor. -/
def standard : Descriptor := ⟨.transceive, false, false, 7, 0, 2, 2, 1, [0x52]⟩

theorem witness_ExitClearsStartSend :
    (idle [0, 0x87]).params.chip = Config.chipDefault ∧ ((idle [0, 0x87]).regRead 0x0D).1 = 0x87 := by decide

theorem witness_SilentChipTimesOut :
    (idle (z 40)).params.chip = Config.chipDefault ∧
    let l := ((((idle (z 40)).execLoad standard).execPreRun).execPrime).enterLoop
    l.1 = 3 ∧ l.2.env.busIn = z 6 ++ z 4 ∧ (z 6).length = 2 * 3 ∧ ∀ k < 3, (z 6).getD (2 * k + 1) 0 = 0x00 := by
  decide +kernel

/-- A state at the head of LOOP with one snapshot to come, and the same state at another label of the same line. -/
theorem witness_LoopEntryLabelPlaysNoPart :
    ∃ (s t : State) (l : StepLabel), t = { s with pc := ⟨s.pc.op, l⟩ } ∧ l.line = s.pc.step.line ∧ t ≠ s :=
  ⟨idle [0, 0x40], { idle [0, 0x40] with pc := ⟨0, ⟨.first, .clear⟩⟩ }, ⟨.first, .clear⟩, rfl, rfl, by decide +kernel⟩

theorem witness_ExecutorRunFrame :
    (idle []).params.chip = Config.chipDefault ∧
    (∃ t, (idle (okRun 1 [0x44, 0x00])).runExec standard = (t, .ok)) ∧
    (∃ t, (idle (okRun 1 [0x44, 0x00, 0x01])).runExec standard = (t, .fatal)) :=
  ⟨rfl, runs (by decide +kernel), runs (by decide +kernel)⟩

theorem witness_StandardTransceiveRunSucceeds :
    (idle (okRun 1 [0x44, 0x00])).params.chip = Config.chipDefault ∧
    standard.family = .transceive ∧ standard.tx ≠ [] ∧ standard.tx.length ≤ 32 ∧
    (z 30).length = 30 ∧ (z 2).length = standard.tx.length + 1 ∧ (z 4).length = 4 ∧ (z 2).length = 2 ∧
    ([0x44, 0x00] : Bytes) ≠ [] ∧ (0x02 : Byte).toNat = ([0x44, 0x00] : Bytes).length ∧
    standard.rxLen.toNat = ([0x44, 0x00] : Bytes).length ∧ ([0x44, 0x00] : Bytes).length ≤ standard.rxCap.toNat ∧
    (idle (okRun 1 [0x44, 0x00])).env.deadlines = (0 + 3) :: List.replicate 8 3 ∧
    (idle (okRun 1 [0x44, 0x00])).env.busIn =
      z 30 ++ [0, 0x04] ++ z 2 ++ [0, 0] ++ z 4 ++ [0, 0x44] ++ z 4 ++ [0, 0x24] ++ z 2 ++ [0, 0] ++
        [0, 0x02] ++ (0 :: [0x44, 0x00]) ++ z 2 ++ [0, 0x80] ++ z 4 ++ [] := by decide +kernel

theorem witness_ExecuteAnswersTheRun :
    (idle []).st ≠ .fatal ∧ standard.tx.length ≤ 247 ∧ standard.rxLen.toNat ≤ standard.rxCap.toNat ∧
    (∃ t, ((idle (timeOut 1)).atLine .exec).runExec standard = (t, .timer)) ∧
    (∃ t, ((idle (okRun 1 [1, 2, 3])).atLine .exec).runExec standard = (t, .fatal)) ∧ 247 < (z 248).length ∧
    (1 : Byte).toNat < (2 : Byte).toNat :=
  ⟨by decide, by decide, by decide, runs (by decide +kernel), runs (by decide +kernel), by decide +kernel, by decide⟩

theorem witness_HardResetLeavesFatal : ∃ s : State, s.host.cmd = [0x20] ∧ s.st = .fatal :=
  ⟨{ fatal [] with host := ⟨[0x20], [], false⟩ }, rfl, rfl⟩

theorem witness_InitWritesTheListInOrder : (idle []).st ≠ .fatal := by decide
theorem witness_CarrierSetsBothWaves : (idle []).st ≠ .fatal ∧ (3 : Byte).toNat ≤ 3 ∧ 3 < (4 : Byte).toNat := by decide
theorem witness_SessionStartAndEnd : (idle []).st ≠ .fatal ∧ (idle []).params.chip = Config.chipDefault := ⟨nofun, rfl⟩

theorem witness_OnlySessionInstructionsChangeTheSession :
    ∃ t, exec .scan (idle scanOne) = .next t ∧ Instr.scan ≠ .hardReset ∧ Instr.scan ≠ .startSession ∧
      Instr.scan ≠ .endSession ∧ ∀ m, Instr.scan ≠ .carrier m := ⟨_, rfl, nofun, nofun, nofun, nofun⟩

theorem witness_WakeupAnswersTheAtqa :
    (idle []).st ≠ .fatal ∧
    (((idle (okRun 1 [0x44, 0x00])).atLine .wakeup).runExec (wupaDesc params)).2 = .ok ∧
    (((idle (timeOut 1)).atLine .wakeup).runExec (wupaDesc params)).2 = .timer ∧
    (((idle (okRun 1 [1, 2, 3])).atLine .wakeup).runExec (wupaDesc params)).2 = .fatal ∧
    wupaDesc params = ⟨.transceive, false, false, 7, 0, 2, 2, params.tWupa, [params.card.wupa]⟩ := by decide +kernel

theorem witness_AnticollChecksTheBcc :
    (((idle (okRun 2 [0xDE, 0xAD, 0xBE, 0xEF, 0x22])).atLine .anticoll).runExec (anticollDesc params 3)).2 = .ok ∧
    (((idle (okRun 2 [0xDE, 0xAD, 0xBE, 0xEF, 0x22])).atLine .anticoll).runExec (anticollDesc params 3)).1.rxSlice =
      [0xDE, 0xAD, 0xBE, 0xEF, 0x22] ∧ (0x22 : Byte) = 0xDE ^^^ 0xAD ^^^ 0xBE ^^^ 0xEF ∧
    anticollDesc params 3 = ⟨.transceive, false, false, 0, 0, 5, 5, params.tAnticoll, [params.card.sel3, 0x20]⟩ ∧
    (((idle (timeOut 2)).atLine .anticoll).runExec (anticollDesc params 1)).2 = .timer ∧
    (((idle (okRun 2 (z 6))).atLine .anticoll).runExec (anticollDesc params 1)).2 = .fatal ∧
    (0 : Byte).toNat < 1 ∧ 3 < (4 : Byte).toNat := by decide +kernel

theorem witness_SelectAnswersTheSak :
    (((idle (okRun 7 [0x20])).atLine .select).runExec (selectDesc params 3 [0x66, 0x77, 0x88, 0x99] 0x00)).2 = .ok ∧
    selectDesc params 3 [0x66, 0x77, 0x88, 0x99] 0x00 =
      ⟨.transceive, true, true, 0, 0, 1, 1, params.tSelect, [params.card.sel3, 0x70, 0x66, 0x77, 0x88, 0x99, 0x00]⟩ ∧
    (((idle (timeOut 7)).atLine .select).runExec (selectDesc params 1 (z 4) 0)).2 = .timer ∧
    (((idle (okRun 7 (z 2))).atLine .select).runExec (selectDesc params 1 (z 4) 0)).2 = .fatal ∧ (0 : Byte).toNat < 1 ∧
    3 < (4 : Byte).toNat := by decide +kernel

theorem witness_HaltSucceedsOnSilence :
    (((idle (timeOut 2)).atLine .halt).runExec (hltaDesc params)).2 = .timer ∧
    (((idle (okRun 2 [0x04])).atLine .halt).runExec (hltaDesc params)).2 = .ok ∧
    hltaDesc params = ⟨.transceive, true, false, 0, 0, 0, 255, params.tHalt, [params.card.hlta0, params.card.hlta1]⟩ := by
  decide +kernel

/-- A SCAN's states: after the wake-up, and per level after the anticollision, the select and the recording. -/
def scanW (s : State) : State × Status :=
  (State.atLine .wakeup { s with ident := { s.ident with uid := [] } }).runExec (wupaDesc s.params)

/-- Level `k + 1` from the state `u` before it: anticollision, then select. -/
def levelA (u : State) (k : Nat) : State × Status := (u.atLine .anticoll).runExec (anticollDesc params (k + 1))
def levelPart (u : State) (k : Nat) : Bytes := (levelA u k).1.rxSlice.take 4
def levelBcc (u : State) (k : Nat) : Byte := (levelA u k).1.rxSlice.getD 4 0
def levelC (u : State) (k : Nat) : State × Status :=
  ((levelA u k).1.atLine .select).runExec (selectDesc params (k + 1) (levelPart u k) (levelBcc u k))
def levelSak (u : State) (k : Nat) : Byte := (levelC u k).1.rxSlice.getD 0 0

/-- The state after level `k + 1` with the level recorded. -/
def levelU (levels : Nat) (u : State) (k : Nat) : State :=
  { (levelC u k).1 with ident := { (levelC u k).1.ident with
    bcc := (levelC u k).1.ident.bcc.set k (levelBcc u k)
    sak := (levelC u k).1.ident.sak.set k (levelSak u k)
    uid := (levelC u k).1.ident.uid ++ if k + 1 = levels then levelPart u k else (levelPart u k).drop 1 } }

def scanU (s : State) (levels : Nat) : Nat → State
  | 0 => { (scanW s).1 with ident := { (scanW s).1.ident with
      atqa := (scanW s).1.rxSlice, levels := BitVec.ofNat 2 levels } }
  | k + 1 => levelU levels (scanU s levels k) k

/-- A level succeeds from the state `u` before it. -/
def levelOk (u : State) (k : Nat) : Bool :=
  (levelA u k).2 == .ok && bccOk (levelA u k).1.rxSlice && (levelC u k).2 == .ok &&
    (levelA u k).1.rxSlice.length == 5 && (levelC u k).1.rxSlice.length == 1

theorem five_bytes : ∀ l : Bytes, l.length = 5 → l = l.take 4 ++ [l.getD 4 0]
  | [_, _, _, _, _], _ => rfl

theorem one_byte : ∀ l : Bytes, l.length = 1 → l = [l.getD 0 0]
  | [_], _ => rfl

/-- `n` levels that succeed are what `ScanLevelsRead` asks for. -/
theorem levels_read {s : State} {levels n : Nat} (h : ∀ k < n, levelOk (scanU s levels k) k = true) :
    ScanLevelsRead params levels n (scanU s levels) (fun k => (levelA (scanU s levels k) k).1)
      (fun k => (levelC (scanU s levels k) k).1) (fun k => levelPart (scanU s levels k) k)
      (fun k => levelBcc (scanU s levels k) k) (fun k => levelSak (scanU s levels k) k) := by
  intro k hk
  have hk := h k hk
  simp only [levelOk, Bool.and_eq_true, beq_iff_eq] at hk
  obtain ⟨⟨⟨⟨h1, h2⟩, h3⟩, h4⟩, h5⟩ := hk
  have e := five_bytes _ h4
  refine ⟨Prod.ext rfl h1, e, ?_, (congrArg bccOk e).symm.trans h2, ?_, ?_, ?_⟩
  · simp [levelPart, h4]
  · exact Prod.ext (by simp only [levelC]) h3
  · exact (one_byte _ h5).trans (by simp only [levelSak])
  · beta_reduce
    rw [scanU, levelU]

/-- The hypotheses of the SCAN statements at a start state, a level count, and the number of levels that succeed (which
`levels_read` turns into `ScanLevelsRead`). -/
def scanMeets (s : State) (levels n : Nat) : Prop :=
  s.st ≠ .fatal ∧ s.ident.bcc.length = 3 ∧ s.ident.sak.length = 3 ∧ (scanW s).2 = .ok ∧
  (((scanW s).1.rxSlice.getD 0 0) >>> 6).toNat + 1 = levels ∧ levels ≤ 3 ∧
  ∀ k < n, levelOk (scanU s levels k) k = true

/-- The environment asks for a halt at the end of SCAN. -/
def halting (inp : Bytes) : State := { idle inp with params := { params with scanIncludesHalt := true } }

/-- The halt run at the end of a SCAN of `levels` levels. -/
def scanV (s : State) (levels : Nat) : State × Status :=
  ((scanU s levels levels).atLine .halt).runExec (hltaDesc s.params)

/-- One level without the halt (V-SCAN-1), with a listed SAK; one level with a halt that times out (V-SCAN-8). -/
theorem witness_ScanAnswersTheIdentity :
    scanMeets (idle scanOne) 1 1 ∧ (idle scanOne).params.scanIncludesHalt = false ∧
    Config.cardDefault.sakTable = [] ++ (levelSak (scanU (idle scanOne) 1 0) 0, 0x01) :: [(0x09, 0x01), (0x18, 0x01), (0x00, 0x02)] ∧
    scanMeets (halting (scanOne ++ timeOut 2)) 1 1 ∧ (scanV (halting (scanOne ++ timeOut 2)) 1).2 = .timer := by
  unfold scanMeets
  decide +kernel

/-- The replies of V-SCAN-3: three levels. -/
def scanThree : Bytes :=
  okRun 1 [0x84, 0x00] ++ okRun 2 [0x88, 0x04, 0x11, 0x22, 0xBF] ++ okRun 7 [0x24] ++
    okRun 2 [0x88, 0x33, 0x44, 0x55, 0xAA] ++ okRun 7 [0x24] ++ okRun 2 [0x66, 0x77, 0x88, 0x99, 0x00] ++ okRun 7 [0x20]

theorem witness_ScanAnswersTheIdentity_three : scanMeets (idle scanThree) 3 3 := by
  unfold scanMeets
  decide +kernel

/-- A SAK that no row of the default table lists. -/
theorem witness_ScanAnswersTheIdentity_unlisted :
    levelSak (scanU (idle scanThree) 3 2) 2 = 0x20 ∧ ∀ r ∈ Config.cardDefault.sakTable, r.1 ≠ 0x20 :=
  ⟨by decide +kernel, by simp [Config.cardDefault]⟩

/-- The wake-up's outcomes. -/
theorem witness_ScanStopsAtTheFirstFailure :
    (scanW (idle (timeOut 1))).2 = .timer ∧ (scanW (idle (okRun 1 (z 3)))).2 = .fatal ∧
    (scanW (idle (okRun 1 [0xC4, 0x00]))).2 = .ok ∧
    ((scanW (idle (okRun 1 [0xC4, 0x00]))).1.rxSlice.getD 0 0) >>> 6 = 3 := by decide +kernel

/-- The replies of a SCAN whose ATQA asks for two levels, with the first level answered. -/
def scanTwo (rest : Bytes) : State :=
  idle (okRun 1 [0x44, 0x00] ++ okRun 2 [0x88, 0x04, 0x12, 0x34, 0xAA] ++ okRun 7 [0x04] ++ rest)

/-- The first of one level: it stays silent, it overflows, its BCC is wrong, its select stays silent. -/
theorem witness_ScanStopsAtTheFirstFailure_first :
    scanMeets (idle (okRun 1 [4, 0] ++ timeOut 2)) 1 0 ∧
    (levelA (scanU (idle (okRun 1 [4, 0] ++ timeOut 2)) 1 0) 0).2 = .timer ∧
    (levelA (scanU (idle (okRun 1 [4, 0] ++ okRun 2 (z 6))) 1 0) 0).2 = .fatal ∧
    bccOk (levelA (scanU (idle (okRun 1 [4, 0] ++ okRun 2 [1, 0, 0, 0, 0])) 1 0) 0).1.rxSlice = false ∧
    (levelC (scanU (idle (okRun 1 [4, 0] ++ okRun 2 (z 5) ++ timeOut 7)) 1 0) 0).2 = .timer := by
  unfold scanMeets
  decide +kernel

/-- The second of two levels, after the first (V-SCAN-5): its select stays silent, or overflows. -/
theorem witness_ScanStopsAtTheFirstFailure_second :
    scanMeets (scanTwo (okRun 2 [0x56, 0x78, 0x9A, 0xBC, 0x08] ++ timeOut 7)) 2 1 ∧
    (levelC (scanU (scanTwo (okRun 2 [0x56, 0x78, 0x9A, 0xBC, 0x08] ++ timeOut 7)) 2 1) 1).2 = .timer ∧
    (levelC (scanU (scanTwo (okRun 2 [0x56, 0x78, 0x9A, 0xBC, 0x08] ++ okRun 7 (z 2))) 2 1) 1).2 = .fatal := by
  unfold scanMeets
  decide +kernel

/-- A reply of 256 bytes to a 2-byte send: eight high watermarks. -/
def flood : Bytes :=
  z 30 ++ [0, 0x04] ++ z 3 ++ z 6 ++ [0, 0x40] ++ z 2 ++ (List.range 8).flatMap fun _ => [0, 0x08] ++ z 33 ++ z 2

/-- The halt (V-SCAN-9): the card answers it, or answers more than 255 bytes. -/
theorem witness_ScanStopsAtTheFirstFailure_halt :
    scanMeets (halting (scanOne ++ okRun 2 [0x04])) 1 1 ∧ (halting []).params.scanIncludesHalt = true ∧
    (scanV (halting (scanOne ++ okRun 2 [0x04])) 1).2 = .ok ∧
    (scanV { halting [] with env := ⟨scanOne ++ flood, [3, 3, 3, 12], List.replicate 9 0, 0⟩ } 1).2 = .fatal := by
  unfold scanMeets
  decide +kernel

theorem witness_AuthIsDecidedByTheStatusBit :
    (((idle (authOk 0x08)).atLine .auth).runExec (authDesc params true 63 (z 6) (z 4))).2 = .ok ∧
    authDesc params true 63 (z 6) (z 4) = ⟨.authenticate, false, false, 0, 0, 0, 0, params.tAuth,
      [if (1 : Byte) = 0 then params.card.authA else params.card.authB, 4 * 63] ++ z 6 ++ z 4⟩ ∧
    ((((idle (authOk 0x08)).atLine .auth).runExec (authDesc params true 63 (z 6) (z 4))).1.regRead params.chip.status2.byte).1 &&&
      params.chip.crypto1On ≠ 0 ∧
    ((((idle (authOk 0xF7)).atLine .auth).runExec (authDesc params true 63 (z 6) (z 4))).1.regRead params.chip.status2.byte).1 &&&
      params.chip.crypto1On = 0 ∧
    (((idle (z 80)).atLine .auth).runExec (authDesc params false 0 (z 6) (z 4))).2 = .timer ∧
    (((idle (z 43 ++ [0, 0x40] ++ z 2 ++ [0, 0x08] ++ z 40)).atLine .auth).runExec (authDesc params false 0 (z 6) (z 4))).2 = .fatal ∧
    1 < (2 : Byte).toNat ∧ 63 < (64 : Byte).toNat := by decide +kernel

theorem witness_ReadBlockAndReadPageAnswerSixteenBytes :
    (((idle (okRun 2 (z 16))).atLine .read).runExec (mfReadDesc params 4)).2 = .ok ∧
    (((idle (okRun 2 [0x04])).atLine .read).runExec (mfReadDesc params 4)).2 = .length ∧
    (((idle (okRun 2 (z 17))).atLine .read).runExec (mfReadDesc params 4)).2 = .fatal := by decide +kernel

theorem witness_WriteBlockNeedsBothAcknowledges :
    (z 16).length = 16 ∧ (((idle (okRun 2 [0xFA])).atLine .writeCommand).runExec (mfWriteDesc params 4)).2 = .ok ∧
    (((idle (okRun 2 [0xFA])).atLine .writeCommand).runExec (mfWriteDesc params 4)).1.rxSlice.getD 0 0 &&& 0x0F = 0x0A ∧
    (((idle (okRun 2 [0x04])).atLine .writeCommand).runExec (mfWriteDesc params 4)).1.rxSlice.getD 0 0 &&& 0x0F ≠ 0x0A ∧
    (((idle (okRun 2 (z 2))).atLine .writeCommand).runExec (mfWriteDesc params 4)).2 = .fatal ∧
    (((idle (okRun 16 [0x1A])).atLine .writeData).runExec (writeDataDesc params (z 16))).2 = .ok ∧
    (((idle (okRun 16 [0x1A])).atLine .writeData).runExec (writeDataDesc params (z 16))).1.rxSlice.getD 0 0 &&& 0x0F = 0x0A ∧
    (((idle (timeOut 16)).atLine .writeData).runExec (writeDataDesc params (z 16))).2 = .timer := by decide +kernel

/-- The working registers loaded with a UID of zeros and the keys of V-CL-3. -/
def loaded (inp : Bytes) : State := (idle inp).loadClassic 4 (z 10) keysA keysB

/-- The state and status after `n` authenticate attempts, each counted. -/
def authAttempts (s : State) : Nat → State × Status
  | 0 => (s, .ok)
  | n + 1 =>
    let u := (authAttempts s n).1
    State.authBody false 0 (List.replicate 6 0xA0) (z 4)
      { u with work := { u.work with attempt := BitVec.ofNat 2 (n + 1) } }

/-- The attempts' outcomes: the first is a success or FATAL; the second; the third; all three fail. -/
theorem witness_SectorAuthMakesAtMostThreeAttempts :
    (loaded []).work.keyA.getD 0 [] = List.replicate 6 0xA0 ∧
    ((loaded []).work.uid.drop (loaded []).params.card.authUidOffset).take 4 = z 4 ∧
    (authAttempts (loaded (authOk 0x08)) 1).2 = .ok ∧
    (authAttempts (loaded (z 43 ++ [0, 0x40] ++ z 2 ++ [0, 0x08] ++ z 40)) 1).2 = .fatal ∧
    ((List.range 2).map fun k => (authAttempts (loaded (authOk 0 ++ authOk 0x08)) (k + 1)).2) = [.auth, .ok] ∧
    ((List.range 3).map fun k => (authAttempts (loaded (authOk 0 ++ authOk 0 ++ authOk 0x08)) (k + 1)).2) =
      [.auth, .auth, .ok] ∧
    ((List.range 3).map fun k => (authAttempts (loaded (authOk 0 ++ authOk 0 ++ authOk 0)) (k + 1)).2) =
      [.auth, .auth, .auth] := by decide +kernel

/-- Sector 0's states: after its authenticate step, and after attempt `j` of block `b` from the state `u` before it. -/
def sectorA (s : State) : State × Status := State.sectorAuth 0 { s with work := { s.work with sector := 0 } }

def blockAttempts (b : Nat) (u : State) : Nat → State × Status
  | 0 => (u, .ok)
  | j + 1 =>
    let v := (blockAttempts b u j).1
    State.readStage (BitVec.ofNat 8 (4 * 0 + b)) { v with work := { v.work with attempt := BitVec.ofNat 2 (j + 1) } }

/-- Before block `b`, where block `k` succeeds at attempt `m k`. -/
def sectorV (s : State) (m : Nat → Nat) : Nat → State
  | 0 => { (sectorA s).1 with work := { (sectorA s).1.work with block := 0 } }
  | b + 1 =>
    let v := (blockAttempts b (sectorV s m b) (m b)).1
    { v with work := { v.work with image := v.work.image ++ v.rxSlice, block := BitVec.ofNat 2 (b + 1) } }

/-- The statuses of block `b`'s first `n` attempts. -/
def blockStatuses (s : State) (m : Nat → Nat) (b n : Nat) : List Status :=
  (List.range n).map fun j => (blockAttempts b (sectorV s m b) (j + 1)).2

/-- Block 1 of sector 0 fails twice, then reads. -/
def retried : State :=
  loaded (authOk 0x08 ++ okRun 2 (z 16) ++ timeOut 2 ++ timeOut 2 ++ okRun 2 (z 16) ++ okRun 2 (z 16))

/-- All three blocks, the middle one at its third attempt. -/
theorem witness_ReadSectorAddsSixtyFourBytes :
    (sectorA retried).2 = .ok ∧ blockStatuses retried (fun b => if b = 1 then 3 else 1) 0 1 = [.ok] ∧
    blockStatuses retried (fun b => if b = 1 then 3 else 1) 1 3 = [.read, .read, .ok] ∧
    blockStatuses retried (fun b => if b = 1 then 3 else 1) 2 1 = [.ok] ∧
    keyBankShaped retried.work.keyA = true ∧ keyBankShaped retried.work.keyB = true := by decide +kernel

/-- The ends: no authenticate; the first block in FATAL; the second block's third failure. -/
theorem witness_ReadSectorAddsSixtyFourBytes_ends :
    (sectorA (loaded (authOk 0 ++ authOk 0 ++ authOk 0))).2 = .auth ∧
    (sectorA (loaded (authOk 0x08 ++ okRun 2 (z 17)))).2 = .ok ∧
    blockStatuses (loaded (authOk 0x08 ++ okRun 2 (z 17))) (fun _ => 1) 0 1 = [.fatal] ∧
    (let s := loaded (authOk 0x08 ++ okRun 2 (z 16) ++ timeOut 2 ++ timeOut 2 ++ timeOut 2)
     (sectorA s).2 = .ok ∧ blockStatuses s (fun _ => 1) 0 1 = [.ok] ∧
       blockStatuses s (fun _ => 1) 1 3 = [.read, .read, .read]) := by decide +kernel

/-- READ_CLASSIC's states: before sector `k`. -/
def classicU (s : State) : Nat → State
  | 0 => s.loadClassic 4 [0xDE, 0xAD, 0xBE, 0xEF, 0, 0, 0, 0, 0, 0] keysA keysB
  | k + 1 => ((classicU s k).readSector k).1

/-- All 16 sectors; one sector and then a failure; FATAL in the first. -/
theorem witness_ReadClassicReadsTheSectorsInOrder :
    keysA.length = 96 ∧ keysB.length = 96 ∧
    (∀ k < 16, ((classicU { idle [] with
      env := ⟨(List.range 16).flatMap sectorRun, List.replicate 64 3, List.replicate 64 0, 0⟩ } k).readSector k).2 = .ok) ∧
    ((classicU (idle (sectorRun 0 ++ authOk 0 ++ authOk 0 ++ authOk 0)) 0).readSector 0).2 = .ok ∧
    ((classicU (idle (sectorRun 0 ++ authOk 0 ++ authOk 0 ++ authOk 0)) 1).readSector 1).2 = .auth ∧
    ((classicU (idle (z 43 ++ [0, 0x40] ++ z 2 ++ [0, 0x08] ++ z 40)) 0).readSector 0).2 = .fatal := by
  decide +kernel

/-- `H_CMD` holding a command's frame. -/
def accepted (frame inp : Bytes) : State := { idle inp with host := ⟨frame, [], false⟩ }

/-- AUTH that succeeds, AUTH and READ_CLASSIC with an operand out of range, and READ_CLASSIC ending in an error. -/
theorem witness_KeysDoNotOutliveTheirCommand :
    (decodeHost ([0x40, 0, 1] ++ z 10) = .ok (.auth 0 1 (z 6) (z 4)) ∧
      after .fatal State.st (exec (.auth 0 1 (z 6) (z 4)) (accepted ([0x40, 0, 1] ++ z 10) (authOk 0x08))) = .idle) ∧
    (decodeHost ([0x40, 2, 1] ++ z 10) = .ok (.auth 2 1 (z 6) (z 4)) ∧
      after .fatal State.st (exec (.auth 2 1 (z 6) (z 4)) (accepted ([0x40, 2, 1] ++ z 10) [])) = .idle) ∧
    (decodeHost ([0x43, 4] ++ z 10 ++ keysA ++ keysB) = .ok (.readClassic 4 (z 10) keysA keysB) ∧
      after .fatal State.st (exec (.readClassic 4 (z 10) keysA keysB)
        (accepted ([0x43, 4] ++ z 10 ++ keysA ++ keysB) (authOk 0 ++ authOk 0 ++ authOk 0))) = .idle) ∧
    (decodeHost ([0x43, 5] ++ z 10 ++ keysA ++ keysB) = .ok (.readClassic 5 (z 10) keysA keysB) ∧
      after .fatal State.st (exec (.readClassic 5 (z 10) keysA keysB)
        (accepted ([0x43, 5] ++ z 10 ++ keysA ++ keysB) [])) = .idle) := by decide +kernel

/-- READ_ULTRALIGHT's states: before window `k`. -/
def windowU (s : State) : Nat → State
  | 0 => { s with work := { s.work with image := [], page := 0 } }
  | k + 1 =>
    let w := (((windowU s k).atLine .read).runExec (mfReadDesc s.params (BitVec.ofNat 8 (4 * k)))).1
    { w with work := { w.work with image := w.work.image ++ w.rxSlice, page := BitVec.ofNat 8 (4 * (k + 1)) } }

/-- `n` windows that are read, then a 1-byte reply. -/
def ulCard (n : Nat) : State :=
  { idle [] with env := ⟨(List.range n).flatMap (fun _ => okRun 2 (List.replicate 16 7)) ++ okRun 2 [0],
      List.replicate 35 3, List.replicate 35 0, 0⟩ }

theorem witness_ReadUltralightStopsAtABoundary :
    (∀ k < 34, (((windowU (ulCard 34) k).atLine .read).runExec (mfReadDesc params (BitVec.ofNat 8 (4 * k)))).2 = .ok) ∧
    (((windowU (ulCard 11) 11).atLine .read).runExec (mfReadDesc params 44)).2 = .length ∧
    (((windowU (ulCard 0) 0).atLine .read).runExec (mfReadDesc params 0)).2 = .length ∧
    (((windowU (idle (okRun 2 (z 17))) 0).atLine .read).runExec (mfReadDesc params 0)).2 = .fatal := by decide +kernel

theorem witness_CardFramesRunTheirDescriptors :
    (idle []).st ≠ .fatal ∧ (idle []).params.card = Config.cardDefault := ⟨nofun, rfl⟩
theorem witness_FatalIsSticky :
    (fatal [0x00]).st = .fatal ∧ Instr.scan.port = .host ∧ Instr.cardWupa.port ≠ .host ∧
    (fatal [0x00]).offers = ⟨.host, [0x00]⟩ :: [] ∧
    ∀ i : Instr, i.port = .host → i.wellFormed = true → encode params i ≠ [0x00] := by
  refine ⟨rfl, rfl, nofun, rfl, fun i hp hw he => ?_⟩
  cases i <;> first | (simp [Instr.port] at hp; done) | simp [encode, HostOp.code] at he
theorem witness_HostCommandEndsWithItsResult : Instr.scan.port = .host ∧ Instr.hardReset.port = .host := by decide
theorem witness_NothingPartialIsReturned :
    ∃ t, exec .halt (idle (timeOut 2)) = .next t ∧ Instr.halt.port = .host := ⟨_, rfl, rfl⟩

theorem witness_UnspecifiedRegistersAreNeverRead :
    Inv (offered [0x20] []) ∧ Inv { offered [0x20] [] with xStatus := .comm, rOut := [7] } ∧
    SameButUnspecified (offered [0x20] []) { offered [0x20] [] with xStatus := .comm, rOut := [7] } ∧
    ∃ t, step (offered [0x20] []) = .next t :=
  ⟨offered_inv, ⟨offered_inv.1, offered_inv.2, offered_inv.3, offered_inv.4, offered_inv.5, offered_inv.6, offered_inv.7,
    offered_inv.8, offered_inv.9⟩, ⟨rfl, rfl, rfl, rfl, rfl, rfl, rfl, rfl⟩, _, rfl⟩

end Sys2Proof.Tests
end

section
/-! The register access instructions of the host (R180 to R184): a command's line label plays no part in what the multiplexer
sends, returns or leaves, nor in the result frame, so each instruction is the operation of its name, answered. -/

namespace Sys2Proof.Machine

/-! ### Operand ranges -/

theorem addrOk_of_le {a : Byte} (h : a.toNat ≤ 63) : addrOk a = true := decide_eq_true h

theorem addrOk_of_lt {a : Byte} (h : 63 < a.toNat) : addrOk a = false := decide_eq_false (Nat.not_le.mpr h)

theorem setOk_of_lt {b : Byte} (h : 1 < b.toNat) : setOk b = false := decide_eq_false (Nat.not_le.mpr h)

theorem fifoDataOk_of_le {b : Bytes} (h : b.length ≤ 253) : fifoDataOk b = true := decide_eq_true h

namespace State

variable (s : State)

/-! ### The multiplexer under a line label -/

theorem fifoRead_atLine (l : Line) (n : Nat) :
    (s.atLine l).fifoRead n = ((s.fifoRead n).1, (s.fifoRead n).2.atLine l) := by
  unfold fifoRead
  split <;> rfl

theorem fifoWrite_atLine (l : Line) (b : Bytes) : (s.atLine l).fifoWrite b = (s.fifoWrite b).atLine l := by
  unfold fifoWrite
  split <;> rfl

/-- The labels REG_MODIFY leaves are overwritten by `finish` (R121). -/
theorem regModify_answered (l : Line) (a m : Byte) (set : Bool) (st : Byte) (data : Bytes) :
    ((s.atLine l).regModify a m set).answered st data =
      ((s.regRead a).2.regWrite a (modified (s.regRead a).1 m set)).answered st data := rfl

/-! ### The FIFO operations, with and without bytes -/

theorem fifoRead_zero : s.fifoRead 0 = ([], s.setROut []) := rfl

/-- All but the first returned byte are FIFO bytes: as many come back as were sent (R82, R183). -/
theorem fifoRead_of_ne_zero {n : Nat} (hn : n ≠ 0) :
    s.fifoRead n =
      ((s.xfer (fifoReadFrame s.params.chip n)).1.drop 1,
        (s.xfer (fifoReadFrame s.params.chip n)).2.setROut ((s.xfer (fifoReadFrame s.params.chip n)).1.drop 1)) := by
  have hlen : ((s.xfer (fifoReadFrame s.params.chip n)).1.drop 1).length ≤ n := by simp [fifoReadFrame]
  simp only [fifoRead, if_neg hn, List.take_of_length_le hlen]

theorem fifoWrite_nil : s.fifoWrite [] = s := rfl

theorem fifoWrite_of_ne_nil {b : Bytes} (hb : b ≠ []) :
    s.fifoWrite b = (s.xfer (fifoWriteFrame s.params.chip b)).2 := if_neg hb

/-! ### A host command that reaches its `finish` -/

/-- Outside FATAL a command whose operands are in range, and whose body ends in `finish .ok`, is that body's last state
answered `OK`. -/
theorem command_finish {ok : Bool} {data : State → Bytes} {body : State → State} (hs : s.st ≠ .fatal) (hok : ok = true)
    (hb : (body s).st = s.st) :
    s.command ok (fun s => (body s).finish .ok (data s)) = (body s).answered 0x00 (data s) :=
  (command_ok hs hok).trans (finish_answered .ok _ _ (hb ▸ hs))

end State

/-! ### What each instruction does, its operands in range -/

section
variable {s : State} (hs : s.st ≠ .fatal)
include hs

theorem exec_regRead {a : Byte} (ha : addrOk a = true) :
    exec (.regRead a) s = .next ((s.regRead a).2.answered 0x00 [(s.regRead a).1]) :=
  congrArg Host.Outcome.next (s.command_finish (body := fun s => ((s.atLine .transfer).regRead a).2) hs ha rfl)

theorem exec_regWrite {a : Byte} (v : Byte) (ha : addrOk a = true) :
    exec (.regWrite a v) s = .next ((s.regWrite a v).answered 0x00 []) :=
  congrArg Host.Outcome.next (s.command_finish (body := fun s => (s.atLine .transfer).regWrite a v) hs ha rfl)

theorem exec_regModify {a b : Byte} (m : Byte) (ha : addrOk a = true) (hb : setOk b = true) :
    exec (.regModify a m b) s =
      .next (((s.regRead a).2.regWrite a (State.modified (s.regRead a).1 m (b == 1))).answered 0x00 []) := by
  have hok : (addrOk a && setOk b) = true := by rw [ha, hb]; rfl
  exact congrArg Host.Outcome.next
    ((s.command_finish (body := fun s => (s.atLine .modify).regModify a m (b == 1)) hs hok rfl).trans
      (s.regModify_answered ..))

theorem exec_fifoRead (n : Byte) :
    exec (.fifoRead n) s = .next ((s.fifoRead n.toNat).2.answered 0x00 (s.fifoRead n.toNat).1) := by
  have h := s.command_finish (body := fun s => ((s.atLine .transfer).fifoRead n.toNat).2)
    (data := fun s => ((s.atLine .transfer).fifoRead n.toNat).1) hs rfl (State.fifoRead_st ..)
  rw [State.fifoRead_atLine] at h
  exact congrArg Host.Outcome.next h

theorem exec_fifoWrite {b : Bytes} (hb : fifoDataOk b = true) :
    exec (.fifoWrite b) s = .next ((s.fifoWrite b).answered 0x00 []) := by
  have h := s.command_finish (body := fun s => (s.atLine .transfer).fifoWrite b) (data := fun _ => []) hs hb
    (State.fifoWrite_st ..)
  rw [State.fifoWrite_atLine] at h
  exact congrArg Host.Outcome.next h

end

end Sys2Proof.Machine

namespace Sys2Proof

/-! ### Host frames of a wrong length -/

/-- A frame that fits the port but has not the length of its opcode is no frame (R124b). -/
theorem decodeHost_wrongLength {b0 : Byte} {ops : Bytes} {o : HostOp} (hmax : (b0 :: ops).length ≤ 255)
    (ho : hostOpOf b0 = some o)
    (hl : (b0 :: ops).length ≠ hostFrameLength o ((b0 :: ops).getD 1 0) ((b0 :: ops).getD 3 0)) :
    decodeHost (b0 :: ops) = .error .wrongLength := by
  simp only [decodeHost, if_neg (Nat.not_lt.mpr hmax), ho, if_neg hl]

theorem hostOpOf_code (o : HostOp) : hostOpOf o.code = some o := by cases o <;> rfl

/-- Byte 1 of a FIFO_WRITE frame is the number of bytes that follow it (R127). -/
theorem decodeHost_fifoWrite_wrongLength {n : Byte} {b : Bytes} (hb : b.length ≤ 253) (hn : b.length ≠ n.toNat) :
    decodeHost (HostOp.fifoWrite.code :: n :: b) = .error .wrongLength := by
  refine decodeHost_wrongLength (by simp only [List.length_cons]; omega) (hostOpOf_code .fifoWrite) ?_
  simp only [List.length_cons, hostFrameLength, List.getD_cons_succ, List.getD_cons_zero]
  omega

end Sys2Proof

/-! ### The statements -/

namespace Sys2Proof.Proofs

open Machine

/-- Settles O11: the value answered is the second byte of the one transfer. -/
theorem regReadReturnsTheSecondByte : Obligations.RegReadReturnsTheSecondByte := fun _ _ hs =>
  ⟨rfl, fun ha => exec_regRead hs (addrOk_of_le ha),
    fun ha => congrArg Host.Outcome.next (State.command_bad hs (addrOk_of_lt ha))⟩

/-- Settles O12: the operation of the multiplexer is the one transfer. -/
theorem regWriteSendsAddressAndValue : Obligations.RegWriteSendsAddressAndValue := fun _ v _ hs =>
  ⟨rfl, fun ha => exec_regWrite hs v (addrOk_of_le ha),
    fun ha => congrArg Host.Outcome.next (State.command_bad hs (addrOk_of_lt ha))⟩

/-- Settles O13: the labels of the two transfers do not outlive the command, and `set` chooses the value written. -/
theorem regModifyIsReadThenWrite : Obligations.RegModifyIsReadThenWrite := by
  intro a m b s hs
  refine ⟨rfl, ?set, ?clear, ?param⟩
  case set =>
    rintro ha rfl
    exact exec_regModify hs m (addrOk_of_le ha) rfl
  case clear =>
    rintro ha rfl
    exact exec_regModify hs m (addrOk_of_le ha) rfl
  case param =>
    intro h
    have hok : (addrOk a && setOk b) = false :=
      Bool.and_eq_false_iff.mpr (h.imp addrOk_of_lt setOk_of_lt)
    exact congrArg Host.Outcome.next (State.command_bad hs hok)

/-- Settles O14: by the number of bytes, since none is no transfer. -/
theorem fifoReadPopsNBytes : Obligations.FifoReadPopsNBytes := by
  intro n s hs
  refine ⟨rfl, fun hn => ?bytes, fun hn => ?none⟩
  case bytes =>
    rw [exec_fifoRead hs, s.fifoRead_of_ne_zero hn]
    rfl
  case none =>
    rw [exec_fifoRead hs, hn, s.fifoRead_zero]
    rfl

/-- Settles O15: by whether there are bytes, since none is no transfer; the decoder compares byte 1 with their number. -/
theorem fifoWritePushesTheBytes : Obligations.FifoWritePushesTheBytes := by
  intro b s hs hb
  have hrun := exec_fifoWrite hs (fifoDataOk_of_le hb)
  refine ⟨rfl, fun hne => ?bytes, fun hnil => ?none, fun n hn => decodeHost_fifoWrite_wrongLength hb hn⟩
  case bytes =>
    rw [hrun, s.fifoWrite_of_ne_nil hne]
    rfl
  case none =>
    rw [hrun, hnil, s.fifoWrite_nil]

end Sys2Proof.Proofs
end

section
/-! The timing controller (R200 to R203): what the search of R200 finds, up to which request it finds anything, and SET_TIMEOUT as
four register writes. -/

namespace Sys2Proof.Machine

/-! ### The search for a prescaler (R200) -/

/-- The search returns the first prescaler that fits, if it lies among those searched. -/
theorem searchPrescaler_first {fuel p q N : Nat} (hpq : p ≤ q) (hq : q < p + fuel)
    (hfit : N / (q * 2 + 1) ≤ Config.reloadMax) (hbelow : ∀ k < q, Config.reloadMax < N / (k * 2 + 1)) :
    searchPrescaler fuel p N = some (q, N / (q * 2 + 1)) := by
  induction fuel generalizing p with
  | zero => omega
  | succ fuel ih =>
    rw [searchPrescaler]
    rcases Nat.eq_or_lt_of_le hpq with rfl | hlt
    · exact if_pos hfit
    · rw [if_neg (Nat.not_le.mpr (hbelow p hlt))]
      exact ih hlt (by omega)

/-- The search finds nothing where no prescaler fits. -/
theorem searchPrescaler_none {fuel p N : Nat} (hnone : ∀ k < p + fuel, Config.reloadMax < N / (k * 2 + 1)) :
    searchPrescaler fuel p N = none := by
  induction fuel generalizing p with
  | zero => rfl
  | succ fuel ih =>
    rw [searchPrescaler, if_neg (Nat.not_le.mpr (hnone p (by omega)))]
    exact ih fun k hk => hnone k (by omega)

/-! ### The timer pair of a request (R200, R203) -/

/-- A request is programmed with the first prescaler that fits. -/
theorem timerPair_first {t p : Nat} (hp : p ≤ Config.prescalerMax)
    (hfit : timerTicks t / (p * 2 + 1) ≤ Config.reloadMax)
    (hbelow : ∀ k < p, Config.reloadMax < timerTicks t / (k * 2 + 1)) :
    timerPair t = (p, timerTicks t / (p * 2 + 1)) := by
  rw [timerPair, searchPrescaler_first (Nat.zero_le p) (by omega) hfit hbelow]

/-- Where no prescaler fits, both fields saturate. -/
theorem timerPair_saturated {t : Nat}
    (hnone : ∀ p ≤ Config.prescalerMax, Config.reloadMax < timerTicks t / (p * 2 + 1)) :
    timerPair t = (Config.prescalerMax, Config.reloadMax) := by
  rw [timerPair, searchPrescaler_none fun k hk => hnone k (by omega)]

/-- The timer pair is a prescaler with a reload that fits, or both fields saturate because there is none. -/
theorem timerPair_cases (t : Nat) :
    (∃ p ≤ Config.prescalerMax, timerTicks t / (p * 2 + 1) ≤ Config.reloadMax ∧
        timerPair t = (p, timerTicks t / (p * 2 + 1))) ∨
      ((∀ p ≤ Config.prescalerMax, Config.reloadMax < timerTicks t / (p * 2 + 1)) ∧
        timerPair t = (Config.prescalerMax, Config.reloadMax)) := by
  by_cases hex : ∃ p, p ≤ Config.prescalerMax ∧ timerTicks t / (p * 2 + 1) ≤ Config.reloadMax
  · obtain ⟨hp, hfit⟩ := Nat.find_spec hex
    refine .inl ⟨Nat.find hex, hp, hfit, timerPair_first hp hfit fun k hk => ?_⟩
    exact Nat.lt_of_not_le fun h => Nat.find_min hex hk ⟨by omega, h⟩
  · have hnone : ∀ p ≤ Config.prescalerMax, Config.reloadMax < timerTicks t / (p * 2 + 1) :=
      fun p hp => Nat.lt_of_not_le fun h => hex ⟨p, hp, h⟩
    exact .inr ⟨hnone, timerPair_saturated hnone⟩

/-! ### The largest request that fits (R203) -/

theorem timerTicks_of_pos {t : Nat} (ht : 1 ≤ t) : timerTicks t = t * 13560 - 1 := by
  rw [timerTicks, Nat.max_eq_left ht, Config.timerFactor]

/-- A reload fits 16 bits exactly below `65536` ticks of the prescaled clock. -/
theorem reload_fits_iff {N p : Nat} : N / (p * 2 + 1) ≤ Config.reloadMax ↔ N < 65536 * (p * 2 + 1) :=
  Nat.lt_succ_iff.symm.trans (Nat.div_lt_iff_lt_mul (Nat.succ_pos _))

/-- Some prescaler fits exactly where the largest one does. -/
theorem exists_prescaler_iff {N : Nat} :
    (∃ p ≤ Config.prescalerMax, N / (p * 2 + 1) ≤ Config.reloadMax) ↔ N < 65536 * (Config.prescalerMax * 2 + 1) := by
  constructor
  · rintro ⟨p, hp, hfit⟩
    have hlt := reload_fits_iff.mp hfit
    omega
  · exact fun h => ⟨_, Nat.le_refl _, reload_fits_iff.mpr h⟩

/-- Some prescaler fits for the requests up to 39587. -/
theorem exists_prescaler_timerTicks_iff {t : Nat} :
    (∃ p ≤ Config.prescalerMax, timerTicks t / (p * 2 + 1) ≤ Config.reloadMax) ↔ t ≤ 39587 := by
  rw [exists_prescaler_iff, timerTicks, Config.timerFactor, Config.prescalerMax]
  omega

theorem timerPair_of_gt {t : Nat} (ht : 39587 < t) : timerPair t = (Config.prescalerMax, Config.reloadMax) :=
  timerPair_saturated fun p hp => Nat.lt_of_not_le fun hfit =>
    Nat.not_le.mpr ht (exists_prescaler_timerTicks_iff.mp ⟨p, hp, hfit⟩)

/-- At 39587 only the largest prescaler fits, and fills the reload register. -/
theorem timerPair_39587 : timerPair 39587 = (0xFFF, 65535) := by
  have hticks : timerTicks 39587 = 536799719 := rfl
  have hbelow : ∀ k < 0xFFF, Config.reloadMax < timerTicks 39587 / (k * 2 + 1) := by
    intro k hk
    refine Nat.lt_of_not_le fun hfit => ?_
    have hlt := reload_fits_iff.mp hfit
    omega
  have hfit : timerTicks 39587 / (0xFFF * 2 + 1) ≤ Config.reloadMax := by
    rw [hticks]
    decide
  rw [timerPair_first (p := 0xFFF) (Nat.le_refl _) hfit hbelow, hticks]

/-- With a reload that fits, the ticks the pair counts miss the request by less than one tick of the prescaled clock. -/
theorem timerPair_within_a_tick {t : Nat} (ht : 1 ≤ t) (hmax : t ≤ 39587) :
    (timerPair t).2 * (2 * (timerPair t).1 + 1) + 1 ≤ t * 13560 ∧
      t * 13560 - ((timerPair t).2 * (2 * (timerPair t).1 + 1) + 1) < 2 * (timerPair t).1 + 1 := by
  rcases timerPair_cases t with ⟨p, -, -, hpair⟩ | ⟨hnone, -⟩
  case inl =>
    rw [hpair, timerTicks_of_pos ht, Nat.mul_comm 2 p]
    have hdiv := Nat.div_add_mod' (t * 13560 - 1) (p * 2 + 1)
    have hmod : (t * 13560 - 1) % (p * 2 + 1) < p * 2 + 1 := Nat.mod_lt _ (Nat.succ_pos _)
    dsimp only
    omega
  case inr =>
    obtain ⟨p, hp, hfit⟩ := exists_prescaler_timerTicks_iff.mpr hmax
    exact absurd hfit (Nat.not_le.mpr (hnone p hp))

/-- Both fields fit their registers. -/
theorem timerPair_fits (t : Nat) :
    (timerPair t).1 ≤ Config.prescalerMax ∧ (timerPair t).2 ≤ Config.reloadMax := by
  rcases timerPair_cases t with ⟨p, hp, hfit, hpair⟩ | ⟨-, hpair⟩ <;> rw [hpair]
  · exact ⟨hp, hfit⟩
  · exact ⟨Nat.le_refl _, Nat.le_refl _⟩

/-! ### SET_TIMEOUT (R200) -/

theorem loByte_eq (t : BitVec 16) : loByte t = BitVec.ofNat 8 t.toNat := rfl

theorem hiByte_eq (t : BitVec 16) : hiByte t = BitVec.ofNat 8 (t.toNat / 256) :=
  congrArg (BitVec.ofNat 8) (Nat.shiftRight_eq_div_pow t.toNat 8)

/-- The labels of the four timer writes are overwritten by `finish` (R121). -/
theorem State.setTimeout_answered {t : BitVec 16} {p r : Nat} (hpair : timerPair t.toNat = (p, r)) (s : State) (l : Line)
    (st : Byte) (data : Bytes) :
    ((s.atLine l).setTimeout t).answered st data =
      ((((s.regWrite s.params.chip.tMode.byte (Config.tmodeTauto ||| s.params.chip.prescalerHi.put (p / 256))).regWrite
        s.params.chip.tPrescaler.byte (byteOfNat p)).regWrite
        s.params.chip.tReloadH.byte (byteOfNat (r / 256))).regWrite
        s.params.chip.tReloadL.byte (byteOfNat r)).answered st data := by
  unfold State.setTimeout
  rw [hpair]
  rfl

theorem exec_setTimeout {t : BitVec 16} {s : State} (hs : s.st ≠ .fatal) :
    exec (.setTimeout t) s = .next (((s.atLine .timer).setTimeout t).answered 0x00 []) :=
  congrArg Host.Outcome.next
    (s.command_finish (body := fun s => (s.atLine .timer).setTimeout t) (data := fun _ => []) hs rfl
      (State.setTimeout_st ..))

end Sys2Proof.Machine

/-! ### The statements on the timing controller -/

namespace Sys2Proof.Proofs

open Machine

/-- Settles O17: the hypothesis is the outcome of the search, so it names the pair that is programmed. -/
theorem setTimeoutProgramsTheFirstPrescaler : Obligations.SetTimeoutProgramsTheFirstPrescaler := by
  intro t s p r hs hsearch
  have hpair : timerPair t.toNat = (p, r) := by
    rcases hsearch with ⟨hp, rfl, hfit, hbelow⟩ | ⟨rfl, rfl, hnone⟩
    · exact timerPair_first hp hfit hbelow
    · exact timerPair_saturated hnone
  refine ⟨?frame, ?run⟩
  case frame =>
    change [HostOp.setTimeout.code, loByte t, hiByte t] = _
    rw [loByte_eq, hiByte_eq]
    rfl
  case run =>
    rw [exec_setTimeout hs, State.setTimeout_answered hpair]
    rfl

/-- Settles O19: up to 39587 the pair is a quotient and its divisor, and what it misses is the remainder. -/
theorem timeoutRoundTrips : Obligations.TimeoutRoundTrips :=
  ⟨fun _ => timerPair_within_a_tick, timerPair_fits⟩

/-- Settles O20: a prescaler fits exactly where the largest one does, and that is up to 39587. -/
theorem timeoutSaturatesAbove39587 : Obligations.TimeoutSaturatesAbove39587 := by
  refine ⟨fun t ht => ?boundary, timerPair_39587, fun t ht => ⟨timerPair_of_gt ht, by omega⟩, fun _ _ => rfl⟩
  case boundary =>
    have h := exists_prescaler_timerTicks_iff (t := t)
    rwa [timerTicks_of_pos ht] at h

end Sys2Proof.Proofs
end

section
/-! The command executor (R205 to R228): LOAD; what PRE-RUN and PRIME send; the branches of LOOP, each by its flag; EXECUTE. -/

namespace Sys2Proof.Machine

/-! ### Draws of several strings -/

/-- Bytes drawn in two portions are the bytes drawn at once. -/
theorem Env.drawBytes_add (m n : Nat) (e : Env) :
    Env.drawBytes (m + n) e =
      ((Env.drawBytes m e).1 ++ (Env.drawBytes n (Env.drawBytes m e).2).1, (Env.drawBytes n (Env.drawBytes m e).2).2) := by
  induction m generalizing e with
  | zero => simp only [Nat.zero_add, Env.drawBytes, List.nil_append]
  | succ m ih => simp only [Nat.succ_add, Env.drawBytes, ih, List.cons_append]

/-- A byte of a later portion, among the bytes drawn at once. -/
theorem Env.drawBytes_getD {m n i k : Nat} (e : Env) (hi : i < n) (hk : m + n ≤ k) :
    (Env.drawBytes n (Env.drawBytes m e).2).1.getD i 0 = (Env.drawBytes k e).1.getD (m + i) 0 := by
  obtain ⟨r, rfl⟩ := Nat.exists_eq_add_of_le hk
  rw [Env.drawBytes_add (m + n) r, Env.drawBytes_add m n]
  dsimp only
  rw [List.getD_append _ _ _ _ (by simp only [List.length_append, Env.drawBytes_length]; omega),
    List.getD_append_right _ _ _ _ (by rw [Env.drawBytes_length]; omega), Env.drawBytes_length, Nat.add_sub_cancel_left]

/-! ### The transfers of a stretch -/

/-- From `s` to `t` the history grows by transfers alone, which send the strings `outs`, and as many bytes are drawn from
the environment as were sent (R82). -/
structure Sends (outs : List Bytes) (s t : State) : Prop where
  hist : ∃ evs : List Event, t.hist = s.hist ++ evs ∧ (∀ e ∈ evs, e.isXfer = true) ∧ evs.map Event.sent = outs
  env : t.env = (Env.drawBytes outs.flatten.length s.env).2

namespace Sends

/-- Only the history and the environment of the two states count. -/
theorem of_eq {outs : List Bytes} {s s' t t' : State} (h : Sends outs s t) (hs : s'.hist = s.hist) (es : s'.env = s.env)
    (ht : t'.hist = t.hist) (et : t'.env = t.env) : Sends outs s' t' :=
  ⟨by rw [hs, ht]; exact h.hist, by rw [es, et]; exact h.env⟩

theorem refl (s : State) : Sends [] s s := ⟨⟨[], by simp, by simp, rfl⟩, rfl⟩

theorem trans {a b : List Bytes} {s t u : State} (h : Sends a s t) (k : Sends b t u) : Sends (a ++ b) s u := by
  obtain ⟨e, he, xe, se⟩ := h.hist
  obtain ⟨f, hf, xf, sf⟩ := k.hist
  refine ⟨⟨e ++ f, by rw [hf, he, List.append_assoc], fun x hx => ?_, by rw [List.map_append, se, sf]⟩, ?_⟩
  · exact (List.mem_append.mp hx).elim (xe x) (xf x)
  · rw [k.env, h.env, List.flatten_append, List.length_append, Env.drawBytes_add]

theorem xfer (out : Bytes) (s : State) : Sends [out] s (s.xfer out).2 := by
  refine ⟨⟨[.xfer out (s.xfer out).1], rfl, by simp [Event.isXfer], rfl⟩, ?_⟩
  rw [List.flatten_singleton]
  rfl

theorem regRead (a : Byte) (s : State) : Sends [regReadFrame a] s (s.regRead a).2 :=
  (xfer (regReadFrame a) s).of_eq rfl rfl rfl rfl

theorem regWrite (a v : Byte) (s : State) : Sends [regWriteFrame a v] s (s.regWrite a v) := xfer (regWriteFrame a v) s

/-- The label a stretch begins with plays no part. -/
theorem of_atPhase {outs : List Bytes} {p : Phase} {s t : State} (h : Sends outs (s.atPhase p) t) : Sends outs s t :=
  h.of_eq rfl rfl rfl rfl

/-- A register write at a label of its own. -/
theorem phaseWrite (p : Phase) (a v : Byte) (s : State) : Sends [regWriteFrame a v] s ((s.atPhase p).regWrite a v) :=
  (regWrite a v _).of_atPhase

/-- A read-modify-write at a label of its own writes back the byte it has read (R182). -/
theorem phaseModify (p : Phase) (a m : Byte) (set : Bool) (s : State) :
    Sends [regReadFrame a, regWriteFrame a (State.modified (s.regRead a).1 m set)] s ((s.atPhase p).regModify a m set) :=
  ((regRead a s).trans (regWrite a (State.modified (s.regRead a).1 m set) _)).of_eq rfl rfl rfl rfl

/-- The byte a register read returns after the transfers `outs` (R140). -/
theorem regRead_value {outs : List Bytes} {s t : State} (h : Sends outs s t) (a : Byte) {k : Nat}
    (hk : outs.flatten.length + 2 ≤ k) :
    (t.regRead a).1 = (Env.drawBytes k s.env).1.getD (outs.flatten.length + 1) 0 := by
  rw [← Env.drawBytes_getD s.env (by decide : 1 < 2) hk, ← h.env]
  rfl

/-- The four timer writes (R200). -/
theorem setTimeout (t : BitVec 16) (s : State) :
    Sends [regWriteFrame s.params.chip.tMode.byte
        (Config.tmodeTauto ||| s.params.chip.prescalerHi.put ((timerPair t.toNat).1 / 256)),
      regWriteFrame s.params.chip.tPrescaler.byte (byteOfNat (timerPair t.toNat).1),
      regWriteFrame s.params.chip.tReloadH.byte (byteOfNat ((timerPair t.toNat).2 / 256)),
      regWriteFrame s.params.chip.tReloadL.byte (byteOfNat (timerPair t.toNat).2)] s (s.setTimeout t) := by
  generalize hpair : timerPair t.toNat = pr
  unfold State.setTimeout
  rw [hpair]
  exact (((phaseWrite .tMode _ _ _).trans (phaseWrite .tPrescaler _ _ _)).trans (phaseWrite .tReloadH _ _ _)).trans
    (phaseWrite .tReloadL _ _ _) |>.of_atPhase

/-- A FIFO write is one transfer, or none for an empty string (R184). -/
theorem fifoWrite (b : Bytes) (s : State) :
    Sends (if b = [] then [] else [fifoWriteFrame s.params.chip b]) s (s.fifoWrite b) := by
  by_cases hb : b = []
  · rw [if_pos hb, hb, s.fifoWrite_nil]
    exact refl s
  · rw [if_neg hb, s.fifoWrite_of_ne_nil hb]
    exact xfer _ s

end Sends

namespace State

/-! ### LOAD and PRE-RUN (R207 to R211) -/

theorem chipCommand_eq (c : Config.Chip) (f : Family) :
    chipCommand c f = if f = .authenticate then c.cmdAuthent else c.cmdTransceive := by cases f <;> rfl

/-- The five writes of PRE-RUN before its CRC registers: FIFO flush, both flag clears, arm, water level (R208 to R211). -/
def preRunWrites (s : State) : State :=
  let c := s.params.chip
  let s1 := (s.atPhase .flush).regWrite c.fifoLevel.byte c.flushBuffer
  let s2 := (s1.atPhase .clearCom).regWrite c.comIrq.byte c.irqClearAll
  let s3 := (s2.atPhase .clearDiv).regWrite c.divIrq.byte c.irqClearAll
  let s4 := (s3.atPhase .arm).regWrite c.comIEn.byte c.armValue
  (s4.atPhase .waterLevel).regWrite c.waterLevel.byte Config.waterLevel

/-- PRE-RUN up to the first of its CRC registers (R211). -/
def preRunTxCrc (s : State) : State :=
  (s.preRunWrites.atPhase .txCrc).regModify s.params.chip.txMode.byte s.params.chip.txCrcEn s.d.crcTx

/-- PRE-RUN up to the second of its CRC registers (R211). -/
def preRunRxCrc (s : State) : State :=
  (s.preRunTxCrc.atPhase .rxCrc).regModify s.params.chip.rxMode.byte s.params.chip.rxCrcEn s.d.crcRx

theorem execPreRun_eq (s : State) : s.execPreRun = (s.preRunRxCrc.atPhase .timeout).setTimeout s.d.timeout := rfl

theorem preRunWrites_sends (s : State) :
    Sends [regWriteFrame s.params.chip.fifoLevel.byte s.params.chip.flushBuffer,
      regWriteFrame s.params.chip.comIrq.byte s.params.chip.irqClearAll,
      regWriteFrame s.params.chip.divIrq.byte s.params.chip.irqClearAll,
      regWriteFrame s.params.chip.comIEn.byte s.params.chip.armValue,
      regWriteFrame s.params.chip.waterLevel.byte Config.waterLevel] s s.preRunWrites :=
  ((((Sends.phaseWrite _ _ _ s).trans (Sends.phaseWrite _ _ _ _)).trans (Sends.phaseWrite _ _ _ _)).trans
    (Sends.phaseWrite _ _ _ _)).trans (Sends.phaseWrite _ _ _ _)

/-- The two bytes read stand after 10 and after 14 bytes. -/
theorem preRunRxCrc_sends (s : State) :
    Sends [regWriteFrame s.params.chip.fifoLevel.byte s.params.chip.flushBuffer,
      regWriteFrame s.params.chip.comIrq.byte s.params.chip.irqClearAll,
      regWriteFrame s.params.chip.divIrq.byte s.params.chip.irqClearAll,
      regWriteFrame s.params.chip.comIEn.byte s.params.chip.armValue,
      regWriteFrame s.params.chip.waterLevel.byte Config.waterLevel,
      regReadFrame s.params.chip.txMode.byte,
      regWriteFrame s.params.chip.txMode.byte
        (modified ((Env.drawBytes 26 s.env).1.getD 11 0) s.params.chip.txCrcEn s.d.crcTx),
      regReadFrame s.params.chip.rxMode.byte,
      regWriteFrame s.params.chip.rxMode.byte
        (modified ((Env.drawBytes 26 s.env).1.getD 15 0) s.params.chip.rxCrcEn s.d.crcRx)] s s.preRunRxCrc := by
  have hWrites := s.preRunWrites_sends
  have hTx : Sends _ s s.preRunTxCrc := hWrites.trans (.phaseModify ..)
  have hTxByte : (s.preRunWrites.regRead s.params.chip.txMode.byte).1 = (Env.drawBytes 26 s.env).1.getD 11 0 :=
    hWrites.regRead_value _ (by show 10 + 2 ≤ 26; decide)
  have hRxByte : (s.preRunTxCrc.regRead s.params.chip.rxMode.byte).1 = (Env.drawBytes 26 s.env).1.getD 15 0 :=
    hTx.regRead_value _ (by show 14 + 2 ≤ 26; decide)
  rw [← hTxByte, ← hRxByte]
  exact hTx.trans (.phaseModify ..)

theorem execPreRun_d (s : State) : s.execPreRun.d = s.d := by
  simp only [execPreRun_eq, preRunRxCrc, preRunTxCrc, preRunWrites, setTimeout_d, atPhase_d, regModify_d, regWrite_d]

/-! ### PRIME (R212, R213) -/

/-- The command write and the bit-framing write that end PRIME in both families. -/
theorem prime_sends {c : Config.Chip} {d : Desc} {s : State} (rxBits : BitVec 3) (hchip : s.params.chip = c)
    (hcmd : s.d.cmd = d.cmd) (htx : s.d.txBits = d.txBits) :
    Sends [regWriteFrame c.command.byte (c.commandField.put d.cmd.toNat),
      regWriteFrame c.bitFraming.byte (bitFraming c rxBits d.txBits)] s (s.primeCommand.primeFraming rxBits) := by
  rw [← hchip, ← hcmd, ← htx]
  exact (Sends.phaseWrite _ _ _ s).trans (Sends.phaseWrite _ _ _ _)

theorem field_put_zero (f : Config.Field) : f.put 0 = 0 := by simp [Config.Field.put]

/-- Without a receive bit count the byte written holds the transmit bit count alone (R212). -/
theorem bitFraming_zero (c : Config.Chip) (txBits : BitVec 3) : bitFraming c 0 txBits = c.txBitsField.put txBits.toNat := by
  simp [bitFraming, field_put_zero]

theorem execPrime_transceive {s : State} (h : s.d.family = .transceive) : s.execPrime = s.primeTransceive := by
  rw [execPrime, h]

theorem execPrime_authenticate {s : State} (h : s.d.family = .authenticate) : s.execPrime = s.primeAuthenticate := by
  rw [execPrime, h]

/-- In the authenticate family the pending bytes are pushed first (R212). -/
theorem primeAuthenticate_sends (s : State) :
    Sends ((if s.d.txPend = [] then [] else [fifoWriteFrame s.params.chip s.d.txPend]) ++
      [regWriteFrame s.params.chip.command.byte (s.params.chip.commandField.put s.d.cmd.toNat),
        regWriteFrame s.params.chip.bitFraming.byte (s.params.chip.txBitsField.put s.d.txBits.toNat)])
      s s.primeAuthenticate := by
  have hpush := Sends.fifoWrite s.d.txPend (s.atPhase .push)
  have hprime := prime_sends (c := s.params.chip) (d := s.d) (s := ((s.atPhase .push).fifoWrite s.d.txPend).setD
    { ((s.atPhase .push).fifoWrite s.d.txPend).d with txPend := [] }) 0 (by simp) (by simp) (by simp)
  rw [bitFraming_zero] at hprime
  exact (hpush.trans (hprime.of_eq rfl rfl rfl rfl)).of_eq rfl rfl rfl rfl

theorem primeAuthenticate_d (s : State) : s.primeAuthenticate.d = { s.d with txPend := [] } := by
  have hd := fifoWrite_d (s.atPhase .push) s.d.txPend
  exact congrArg (fun d : Desc => { d with txPend := [] }) hd

end State

/-! ### The flags of a snapshot and the guards over them (R217 to R223) -/

theorem flagSet_iff {irq m : Byte} : flagSet irq m = true ↔ irq &&& m ≠ 0 := bne_iff_ne

theorem guardHiAlert_iff {c : Config.Chip} {d : Desc} :
    guardHiAlert c d = true ↔ d.irq &&& c.irqHiAlert ≠ 0 ∧ d.sendDone = true := by
  rw [guardHiAlert, Bool.and_eq_true, flagSet_iff]

theorem guardIdle_iff {c : Config.Chip} {d : Desc} :
    guardIdle c d = true ↔ d.irq &&& c.irqIdle ≠ 0 ∧ d.family = .authenticate := by
  rw [guardIdle, Bool.and_eq_true, flagSet_iff, beq_iff_eq]

theorem guardRx_iff {c : Config.Chip} {d : Desc} :
    guardRx c d = true ↔ d.irq &&& c.irqRx ≠ 0 ∧ d.family = .transceive := by
  rw [guardRx, Bool.and_eq_true, flagSet_iff, beq_iff_eq]

theorem collisionSet_iff {c : Config.Chip} {e : Byte} : collisionSet c e = true ↔ e &&& c.collErr ≠ 0 := bne_iff_ne

theorem drainOverflows_iff {d : Desc} {n : Nat} : drainOverflows d n = true ↔ d.rxCap.toNat < d.rxCnt.toNat + n :=
  decide_eq_true_iff

namespace State

variable {s : State}

/-! ### The timer, idle and transmission branches (R217, R221, R223) -/

theorem branchTimer_skip (h : s.d.irq &&& s.params.chip.irqTimer = 0) : s.branchTimer = .goOn s :=
  if_neg fun hg => flagSet_iff.mp hg h

theorem branchTimer_act (h : s.d.irq &&& s.params.chip.irqTimer ≠ 0) :
    s.branchTimer = .stop (s.clearFlag s.params.chip.irqTimer) .timer :=
  if_pos (flagSet_iff.mpr h)

theorem branchIdle_skip (h : s.d.irq &&& s.params.chip.irqIdle = 0 ∨ s.d.family = .transceive) : s.branchIdle = .goOn s := by
  refine if_neg fun hg => ?_
  obtain ⟨hset, hfam⟩ := guardIdle_iff.mp hg
  exact h.elim hset (by simp [hfam])

theorem branchIdle_act (h : s.d.irq &&& s.params.chip.irqIdle ≠ 0) (hfam : s.d.family = .authenticate) :
    s.branchIdle = .stop (s.clearFlag s.params.chip.irqIdle) .ok :=
  if_pos (guardIdle_iff.mpr ⟨h, hfam⟩)

theorem branchTx_skip (h : s.d.irq &&& s.params.chip.irqTx = 0) : s.branchTx = .goOn s :=
  if_neg fun hg => flagSet_iff.mp hg h

theorem branchTx_act (h : s.d.irq &&& s.params.chip.irqTx ≠ 0) :
    s.branchTx = .goOn ((s.setD { s.d with sendDone := true }).clearFlag s.params.chip.irqTx) :=
  if_pos (flagSet_iff.mpr h)

/-! ### The error branch (R218) -/

theorem readError_comm {e : Byte} {s1 : State} (hr : s.regRead s.params.chip.error.byte = (e, s1))
    (he : e &&& s.params.chip.collErr = 0) : s.readError = (s1.setD { s1.d with err := e }, .comm) := by
  rw [readError, hr]
  exact if_neg fun hc => collisionSet_iff.mp hc he

theorem readError_collision {e v : Byte} {s1 s2 : State} (hr : s.regRead s.params.chip.error.byte = (e, s1))
    (he : e &&& s.params.chip.collErr ≠ 0)
    (hv : (s1.setD { s1.d with err := e }).regRead s.params.chip.coll.byte = (v, s2)) :
    s.readError = (s2.setD { s2.d with collPos := collPosOf s.params.chip v }, .collision) := by
  rw [readError, hr]
  dsimp only
  rw [if_pos (collisionSet_iff.mpr he), hv]

theorem branchErr_skip (h : s.d.irq &&& s.params.chip.irqErr = 0) : s.branchErr = .goOn s :=
  if_neg fun hg => flagSet_iff.mp hg h

theorem branchErr_act {t : State} {st : Status} (h : s.d.irq &&& s.params.chip.irqErr ≠ 0) (hr : s.readError = (t, st)) :
    s.branchErr = .stop (t.clearFlag s.params.chip.irqErr) st := by
  have hact : s.branchErr = .stop (s.readError.1.clearFlag s.params.chip.irqErr) s.readError.2 := if_pos (flagSet_iff.mpr h)
  rw [hact, hr]

/-! ### The low watermark (R219) -/

theorem feed_nil (h : s.d.txPend = []) : s.feed = s := if_pos h

theorem feed_of_ne_nil {s1 : State} (h : s.d.txPend ≠ [])
    (hx : (s.xfer (fifoWriteFrame s.params.chip (s.d.txPend.take Config.chunk))).2 = s1) :
    s.feed = (s1.setD { s1.d with txPend := s.d.txPend.drop Config.chunk }).regModify
      s.params.chip.bitFraming.byte s.params.chip.startSend true := by
  have hchunk : s.d.txPend.take Config.chunk ≠ [] := fun hnil => h ((List.take_eq_nil_iff.mp hnil).resolve_left (by decide))
  rw [feed, if_neg h, s.fifoWrite_of_ne_nil hchunk, hx]

theorem branchLoAlert_skip (h : s.d.irq &&& s.params.chip.irqLoAlert = 0) : s.branchLoAlert = .goOn s :=
  if_neg fun hg => flagSet_iff.mp hg h

theorem branchLoAlert_act (h : s.d.irq &&& s.params.chip.irqLoAlert ≠ 0) :
    s.branchLoAlert = .goOn (s.feed.clearFlag s.params.chip.irqLoAlert) :=
  if_pos (flagSet_iff.mpr h)

/-! ### Drains (R220, R222, R228) -/

/-- A drain that would not fit ends in FATAL from where the bytes were read. -/
theorem raiseFatal_fifoRead {n : Nat} {b : Bytes} {t : State} (hr : s.fifoRead n = (b, t)) :
    t.raiseFatal = { t with
      st := .fatal
      pc := ⟨s.pc.op, .finish⟩
      rOut := []
      host := ⟨s.host.cmd, [0xFF, 0x00, 0x00], true⟩
      hist := t.hist ++ [.result [0xFF, 0x00, 0x00]] } := by
  obtain ⟨-, rfl⟩ := Prod.ext_iff.mp hr
  rw [← fifoRead_pc s n, ← fifoRead_host s n]
  rfl

theorem d_of_fifoRead {n : Nat} {b : Bytes} {t : State} (hr : s.fifoRead n = (b, t)) : t.d = s.d := by
  obtain ⟨-, rfl⟩ := Prod.ext_iff.mp hr
  exact fifoRead_d s n

theorem appendRx_eq (b : Bytes) (n : Nat) (s : State) :
    s.appendRx b n =
      s.setD { s.d with rxBuf := s.d.rxBuf ++ b, rxCnt := s.d.rxCnt + BitVec.ofNat 11 n } := by
  rw [appendRx, BitVec.ofNat_add, BitVec.ofNat_toNat, BitVec.setWidth_eq]

/-- Within the capacity the received count does not wrap, and is compared with a non-zero expectation (R222). -/
theorem receiveStatus_appendRx (b : Bytes) {n : Nat} (hle : s.d.rxCnt.toNat + n ≤ s.d.rxCap.toNat) :
    receiveStatus (s.appendRx b n).d =
      if s.d.rxLen ≠ 0 ∧ s.d.rxCnt.toNat + n ≠ s.d.rxLen.toNat then .length else .ok := by
  have hcap := s.d.rxCap.isLt
  have hcnt : (s.appendRx b n).d.rxCnt.toNat = s.d.rxCnt.toNat + n := Nat.mod_eq_of_lt (by omega)
  have hlen : (s.appendRx b n).d.rxLen = s.d.rxLen := rfl
  have hzero : s.d.rxLen.toNat ≠ 0 ↔ s.d.rxLen ≠ 0 := not_congr (BitVec.toNat_inj (y := 0))
  simp only [receiveStatus, hcnt, hlen, hzero]

theorem branchHiAlert_skip (h : s.d.irq &&& s.params.chip.irqHiAlert = 0 ∨ s.d.sendDone = false) :
    s.branchHiAlert = .goOn s := by
  refine if_neg fun hg => ?_
  obtain ⟨hset, hdone⟩ := guardHiAlert_iff.mp hg
  exact h.elim hset (by simp [hdone])

section
variable {b : Bytes} {t : State} (hset : s.d.irq &&& s.params.chip.irqHiAlert ≠ 0) (hdone : s.d.sendDone = true)
  (hr : s.fifoRead Config.chunk = (b, t))
include hset hdone hr

theorem branchHiAlert_overflow (ho : s.d.rxCap.toNat < s.d.rxCnt.toNat + Config.chunk) :
    s.branchHiAlert = .stop t.raiseFatal .fatal := by
  rw [← d_of_fifoRead hr] at ho
  rw [branchHiAlert, if_pos (guardHiAlert_iff.mpr ⟨hset, hdone⟩), hr]
  exact if_pos (drainOverflows_iff.mpr ho)

theorem branchHiAlert_fits (hle : s.d.rxCnt.toNat + Config.chunk ≤ s.d.rxCap.toNat) :
    s.branchHiAlert = .goOn ((t.appendRx b Config.chunk).clearFlag s.params.chip.irqHiAlert) := by
  rw [← d_of_fifoRead hr] at hle
  rw [branchHiAlert, if_pos (guardHiAlert_iff.mpr ⟨hset, hdone⟩), hr]
  exact if_neg fun ho => Nat.not_le.mpr (drainOverflows_iff.mp ho) hle

end

/-! ### The completed receive (R222, R228) -/

section
variable {n : Nat} {b : Bytes} {t : State} (hr : s.fifoRead n = (b, t))
include hr

theorem drainRemainder_overflow (ho : s.d.rxCap.toNat < s.d.rxCnt.toNat + n) :
    s.drainRemainder n = .stop t.raiseFatal .fatal := by
  rw [← d_of_fifoRead hr] at ho
  rw [drainRemainder, hr]
  exact if_pos (drainOverflows_iff.mpr ho)

theorem drainRemainder_fits (hle : s.d.rxCnt.toNat + n ≤ s.d.rxCap.toNat) :
    s.drainRemainder n = .stop ((t.appendRx b n).clearFlag s.params.chip.irqRx)
      (if s.d.rxLen ≠ 0 ∧ s.d.rxCnt.toNat + n ≠ s.d.rxLen.toNat then .length else .ok) := by
  rw [← d_of_fifoRead hr] at hle ⊢
  rw [drainRemainder, hr, ← receiveStatus_appendRx b hle]
  exact if_neg fun ho => Nat.not_le.mpr (drainOverflows_iff.mp ho) hle

end

theorem branchRx_skip (h : s.d.irq &&& s.params.chip.irqRx = 0 ∨ s.d.family = .authenticate) : s.branchRx = .goOn s := by
  refine if_neg fun hg => ?_
  obtain ⟨hset, hfam⟩ := guardRx_iff.mp hg
  exact h.elim hset (by simp [hfam])

theorem readLastBits_eq {v : Byte} {s1 : State} (hv : s.regRead s.params.chip.control.byte = (v, s1)) :
    s.readLastBits = s1.setD { s1.d with rxBitsAct := rxLastBitsOf s.params.chip v } := by
  rw [readLastBits, hv]

theorem branchRx_act {v l : Byte} {s1 s2 : State} (hset : s.d.irq &&& s.params.chip.irqRx ≠ 0)
    (hfam : s.d.family = .transceive) (hv : s.regRead s.params.chip.control.byte = (v, s1))
    (hl : (s1.setD { s1.d with rxBitsAct := rxLastBitsOf s.params.chip v }).regRead s.params.chip.fifoLevel.byte = (l, s2)) :
    s.branchRx = s2.drainRemainder (fifoLevelOf s.params.chip l) := by
  rw [branchRx, if_pos (guardRx_iff.mpr ⟨hset, hfam⟩), readLastBits_eq hv, hl]

/-! ### EXECUTE (R205, R229) -/

theorem withExec_fatal {d : Descriptor} {k : State → Status → State} {t : State} (h : s.runExec d = (t, .fatal)) :
    s.withExec d k = t := by
  rw [withExec, h]
  rfl

theorem withExec_run {d : Descriptor} {k : State → Status → State} {t : State} {st : Status} (h : s.runExec d = (t, st))
    (hst : st ≠ .fatal) : s.withExec d k = k t st := by
  rw [withExec, h]
  exact if_neg hst

end State

theorem executeOk_iff {d : Descriptor} : executeOk d = true ↔ d.tx.length ≤ 247 ∧ d.rxLen.toNat ≤ d.rxCap.toNat := by
  simp [executeOk]

theorem exec_execute {d : Descriptor} {s : State} (hs : s.st ≠ .fatal) (hok : executeOk d = true) :
    exec (.execute d) s = .next ((s.atLine .exec).withExec d fun s st => s.finish st s.executePayload) :=
  congrArg Host.Outcome.next (State.command_ok hs hok)

end Sys2Proof.Machine

/-! ### The statements on the executor -/

namespace Sys2Proof.Proofs

open Machine

/-- Settles O21: the command code is the family's. -/
theorem loadWritesTheDescriptorFresh : Obligations.LoadWritesTheDescriptorFresh := by
  intro d s
  rw [← State.chipCommand_eq]
  rfl

/-- Settles O22: the writes, the CRC registers with the bytes that were read, then the timer. -/
theorem preRunMakesThirteenTransfers : Obligations.PreRunMakesThirteenTransfers := by
  rintro _ s _ rfl rfl
  have hTimer := Sends.setTimeout s.d.timeout (s.preRunRxCrc.atPhase .timeout)
  have hAll := s.preRunRxCrc_sends.trans hTimer.of_atPhase
  obtain ⟨evs, hhist, hxfer, hsent⟩ := hAll.hist
  exact ⟨evs, hhist, hxfer, hsent, s.execPreRun_d, hAll.env⟩

/-- Settles O23: by family; without a receive bit count the framing byte holds the transmit bit count alone. -/
theorem primeByFamily : Obligations.PrimeByFamily := by
  rintro _ s rfl
  refine ⟨fun hfam => ?authenticate, fun hfam => ?transceive⟩
  case authenticate =>
    rw [State.execPrime_authenticate hfam]
    obtain ⟨evs, hhist, hxfer, hsent⟩ := s.primeAuthenticate_sends.hist
    exact ⟨evs, hhist, hxfer, hsent, s.primeAuthenticate_d⟩
  case transceive =>
    rw [State.execPrime_transceive hfam]
    obtain ⟨evs, hhist, hxfer, hsent⟩ := (State.prime_sends (d := s.d) s.d.rxBits rfl rfl rfl).hist
    exact ⟨evs, hhist, hxfer, hsent, rfl⟩

/-- Settles O24: each branch by its flag, and the idle branch by the family too. -/
theorem timerIdleAndTxBranches : Obligations.TimerIdleAndTxBranches := by
  rintro _ s rfl
  exact ⟨State.branchTimer_act, State.branchTimer_skip, State.branchIdle_act, State.branchIdle_skip, State.branchTx_act,
    State.branchTx_skip, fun _ => rfl⟩

/-- Settles O25: the collision bit of the error byte chooses whether the position is read. -/
theorem errorBranchReadsTheErrorRegister : Obligations.ErrorBranchReadsTheErrorRegister := by
  rintro _ s rfl
  refine ⟨State.branchErr_skip, fun e s1 hr hset => ⟨fun he => ?comm, fun v s2 hv he => ?collision⟩⟩
  case comm => exact State.branchErr_act hset (State.readError_comm hr he)
  case collision => exact State.branchErr_act hset (State.readError_collision hr he hv)

/-- Settles O26: by whether bytes are pending. -/
theorem lowWatermarkFeedsOneChunk : Obligations.LowWatermarkFeedsOneChunk := by
  rintro _ s rfl
  refine ⟨State.branchLoAlert_skip, fun hset hnil => ?none, fun s1 hx hset hne => ?chunk⟩
  case none => rw [State.branchLoAlert_act hset, State.feed_nil hnil]
  case chunk =>
    rw [State.branchLoAlert_act hset, State.feed_of_ne_nil hne hx]
    rfl

/-- Settles O27: by the guard, then by the capacity. -/
theorem highWatermarkDrainsAfterTheSend : Obligations.HighWatermarkDrainsAfterTheSend := by
  rintro _ s rfl
  refine ⟨State.branchHiAlert_skip, fun b s1 hr hset hdone => ⟨fun ho => ?overflow, fun hle => ?fits⟩⟩
  case overflow => rw [State.branchHiAlert_overflow hset hdone hr ho, State.raiseFatal_fifoRead hr]
  case fits =>
    rw [State.branchHiAlert_fits hset hdone hr hle, State.appendRx_eq]
    rfl

/-- Settles O28: by the guard, then by the capacity; the two reads before the drain change `D_RX_BITS_ACT` alone among the
descriptor registers. -/
theorem receiveDrainsAndChecksTheLength : Obligations.ReceiveDrainsAndChecksTheLength := by
  rintro _ s rfl
  refine ⟨State.branchRx_skip, fun v l n b s1 s2 s3 hv hl hn hr hset hfam => ?_⟩
  have hact : s.branchRx = s2.drainRemainder n := hn ▸ State.branchRx_act hset hfam hv hl
  obtain ⟨-, rfl⟩ := Prod.ext_iff.mp hv
  obtain ⟨-, rfl⟩ := Prod.ext_iff.mp hl
  refine ⟨fun ho => ?overflow, fun hle => ?fits⟩
  case overflow =>
    rw [hact, State.drainRemainder_overflow hr ho, State.raiseFatal_fifoRead hr]
    rfl
  case fits =>
    rw [hact, State.drainRemainder_fits hr hle, State.appendRx_eq]
    rfl

/-- Settles O34: by the operands' ranges, then by the run's status; a run that is not FATAL leaves the engine's state. -/
theorem executeAnswersTheRun : Obligations.ExecuteAnswersTheRun := by
  intro d s t st hs hrun
  refine ⟨fun htx hrx hst => ?answered, fun htx hrx hst => ?fatal, fun hbad => ?param⟩
  case answered =>
    have hkept := State.runExec_run d (s.atLine .exec) (by rwa [hrun])
    rw [hrun] at hkept
    have ht : t.st ≠ .fatal := by
      rw [hkept.st]
      exact hs
    rw [exec_execute hs (executeOk_iff.mpr ⟨htx, hrx⟩), State.withExec_run hrun hst, State.finish_answered st _ t ht]
    rfl
  case fatal =>
    subst hst
    rw [exec_execute hs (executeOk_iff.mpr ⟨htx, hrx⟩), State.withExec_fatal hrun]
  case param =>
    have hok : executeOk d = false := by
      refine Bool.eq_false_iff.mpr fun h => ?_
      have := executeOk_iff.mp h
      omega
    exact congrArg Host.Outcome.next (State.command_bad hs hok)

end Sys2Proof.Proofs
end

section
/-! Reset pin, session, init and carrier control (R261 to R266): the line labels of a body play no part in what it
sends, returns or leaves, nor in the result frame, so each instruction is the register operations of its rule, answered. -/

namespace Sys2Proof.Machine

namespace State

variable (s : State)

/-! ### Labels that are overwritten -/

theorem answered_atLine (l : Line) (st : Byte) (data : Bytes) :
    (s.atLine l).answered st data = s.answered st data := rfl

theorem carrierBody_atLine (l : Line) (mode : BitVec 2) : (s.atLine l).carrierBody mode = s.carrierBody mode := rfl

/-- States that agree but for the label of `pc` are answered alike, since `finish` writes the label (R121). -/
theorem answered_of_atLine {s t : State} {l : Line} (h : s.atLine l = t.atLine l) (st : Byte) (data : Bytes) :
    s.answered st data = t.answered st data := by
  rw [← answered_atLine s l, h, answered_atLine]

theorem regWrites_atLine (l : Line) (ws : List (Config.Addr × Byte)) :
    (s.atLine l).regWrites ws = (s.regWrites ws).atLine l := by
  induction ws generalizing s with
  | nil => rfl
  | cons w ws ih => exact ih (s.regWrite w.1.byte w.2)

theorem setPc_setPc (p q : Pc) : (s.setPc p).setPc q = s.setPc q := rfl

theorem regRead_setPc (p : Pc) (a : Byte) : (s.setPc p).regRead a = ((s.regRead a).1, (s.regRead a).2.setPc p) := rfl

theorem regWrite_setPc (p : Pc) (a v : Byte) : (s.setPc p).regWrite a v = (s.regWrite a v).setPc p := rfl

/-- The line a read-modify-write is made at is lost at the next line. -/
theorem regModify_atLine (l k : Line) (a m : Byte) (set : Bool) :
    ((s.atLine l).regModify a m set).atLine k = (s.regModify a m set).atLine k := by
  simp only [regModify, atLine, atPhase, regRead_setPc, regWrite_setPc, setPc_setPc, setPc_pc]

theorem regWrites_eq_foldl (ws : List (Config.Addr × Byte)) :
    s.regWrites ws = ws.foldl (fun u w => u.regWrite w.1.byte w.2) s := by
  induction ws generalizing s with
  | nil => rfl
  | cons w ws ih => exact ih (s.regWrite w.1.byte w.2)

/-! ### The bodies keep the engine's state -/

theorem initBody_st : s.initBody.st = s.st := s.initBody_busOnly.st

theorem carrierBody_st (mode : BitVec 2) : (s.carrierBody mode).st = s.st := by simp [carrierBody]

theorem setActive_st (v : Bool) : (s.setActive v).st = s.st := rfl

/-! ### The bodies, but for their labels -/

/-- INIT's body is the writes of the OPEN list in order, then `MFCrypto1On` cleared (R265). -/
theorem initBody_atLine (l : Line) :
    s.initBody.atLine l =
      ((s.params.initWrites.foldl (fun u w => u.regWrite w.1.byte w.2) s).regModify s.params.chip.status2.byte
        s.params.chip.crypto1On false).atLine l := by
  rw [initBody, regModify_atLine, regWrites_atLine, regModify_atLine, regWrites_eq_foldl]

/-- The carrier body is one read-modify-write per wave and the mode recorded (R266). -/
theorem carrierBody_eq_atLine {c : Config.Chip} {s : State} (hc : s.params.chip = c) (mode : BitVec 2) :
    s.carrierBody mode =
      (((s.regModify c.txControl.byte c.tx1RfEn (mode.getLsbD 0)).regModify c.txControl.byte c.tx2RfEn
        (mode.getLsbD 1)).setSess ⟨s.sess.active, mode⟩).atLine .carrierMode := by
  subst hc
  simp only [carrierBody, regModify_atLine, atLine_sess, regModify_sess]
  rfl

/-- The carrier body writes a label first, so the label before it is lost. -/
theorem carrierBody_of_atLine {s t : State} {l : Line} (h : s.atLine l = t.atLine l) (mode : BitVec 2) :
    s.carrierBody mode = t.carrierBody mode := by
  rw [← carrierBody_atLine s l, h, carrierBody_atLine]

end State

/-! ### What each instruction does, its operands in range -/

/-- HARD_RESET reaches its `finish` in IDLE, whatever state it started in (R261). -/
theorem exec_hardReset (s : State) : exec .hardReset s = .next (s.hardResetBody.answered 0x00 []) := by
  have hidle : s.hardResetBody.st ≠ .fatal := by
    rw [State.hardResetBody_eq]
    exact nofun
  exact congrArg Host.Outcome.next (State.finish_answered .ok [] _ hidle)

section
variable {s : State} (hs : s.st ≠ .fatal)
include hs

theorem exec_init : exec .init s = .next (s.initBody.answered 0x00 []) :=
  congrArg Host.Outcome.next
    (s.command_finish (body := State.initBody) (data := fun _ => []) hs rfl s.initBody_st)

theorem exec_carrier {m : Byte} (hm : modeOk m = true) :
    exec (.carrier m) s = .next ((s.carrierBody (m.setWidth 2)).answered 0x00 []) :=
  congrArg Host.Outcome.next
    (s.command_finish (body := State.carrierBody (m.setWidth 2)) (data := fun _ => []) hs hm (s.carrierBody_st _))

theorem exec_startSession :
    exec .startSession s = .next (((s.initBody.carrierBody 3).setActive true).answered 0x00 []) :=
  congrArg Host.Outcome.next
    (s.command_finish (body := fun s => (s.initBody.carrierBody 3).setActive true) (data := fun _ => []) hs rfl
      ((State.setActive_st ..).trans ((State.carrierBody_st ..).trans s.initBody_st)))

theorem exec_endSession : exec .endSession s = .next (((s.carrierBody 0).setActive false).answered 0x00 []) :=
  congrArg Host.Outcome.next
    (s.command_finish (body := fun s => (s.carrierBody 0).setActive false) (data := fun _ => []) hs rfl
      ((State.setActive_st ..).trans (s.carrierBody_st 0)))

end

end Sys2Proof.Machine

/-! ### The statements on the session -/

namespace Sys2Proof.Proofs

open Machine

/-- Settles O35: the body ends in IDLE from every state, and the frame of HARD_RESET carries no key to zero. -/
theorem hardResetLeavesFatal : Obligations.HardResetLeavesFatal := by
  refine fun s => ⟨rfl, fun hcmd => ?_⟩
  rw [exec_hardReset, State.hardResetBody_eq, hcmd]
  simp only [State.answered, List.append_assoc]
  rfl

/-- Settles O36: INIT is its body, and the labels of its lines do not outlive the command. -/
theorem initWritesTheListInOrder : Obligations.InitWritesTheListInOrder := fun s hs =>
  ⟨rfl, (exec_init hs).trans
    (congrArg Host.Outcome.next (State.answered_of_atLine (s.initBody_atLine .finish) 0x00 []))⟩

/-- Settles O37: the mode's two bits are the two low bits of the operand. -/
theorem carrierSetsBothWaves : Obligations.CarrierSetsBothWaves := by
  rintro m s _ hs rfl
  refine ⟨rfl, fun hm => ?mode, fun hm => ?param⟩
  case mode =>
    have h0 : (m.setWidth 2).getLsbD 0 = m.getLsbD 0 := BitVec.getLsbD_setWidth 2 m 0
    have h1 : (m.setWidth 2).getLsbD 1 = m.getLsbD 1 := BitVec.getLsbD_setWidth 2 m 1
    rw [exec_carrier hs (decide_eq_true hm), State.carrierBody_eq_atLine rfl, h0, h1]
    rfl
  case param => exact congrArg Host.Outcome.next (State.command_bad hs (decide_eq_false (Nat.not_le.mpr hm)))

/-- Settles O38: both run the carrier body and write `S_ACTIVE`; START_SESSION runs INIT's body before, which keeps the chip
map the carrier body reads. -/
theorem sessionStartAndEnd : Obligations.SessionStartAndEnd := by
  rintro _ s u hs rfl
  refine ⟨rfl, rfl, fun hinit => ?start, ?finish⟩
  case start =>
    have hchip : u.params.chip = s.params.chip := by
      rw [← hinit, ← State.regWrites_eq_foldl, State.regModify_params, State.regWrites_params]
    rw [exec_startSession hs, State.carrierBody_of_atLine (s.initBody_atLine .carrierWave1), hinit,
      State.carrierBody_eq_atLine hchip]
    rfl
  case finish =>
    rw [exec_endSession hs, State.carrierBody_eq_atLine rfl]
    rfl

end Sys2Proof.Proofs
end

section
/-! The activation commands that are one executor run (R280 to R286): WAKEUP, ANTICOLL, SELECT and HALT. Each is its stage,
then `finish`; what a stage makes of its run's status is said once, for all four. -/

namespace Sys2Proof.Machine

/-! ### Operands and checks -/

theorem levelOk_iff {l : Byte} : levelOk l = true ↔ 1 ≤ l.toNat ∧ l.toNat ≤ 3 := by simp [levelOk]

theorem levelOk_of_outside {l : Byte} (h : l.toNat < 1 ∨ 3 < l.toNat) : levelOk l = false :=
  Bool.eq_false_iff.mpr fun hok => by
    have := levelOk_iff.mp hok
    omega

/-- The three levels are the levels in range, and the card map's `SEL` bytes are theirs (R160, R285). -/
theorem level_of_sel {c : Config.Card} {l sel : Byte}
    (h : (l = 1 ∧ sel = c.sel1) ∨ (l = 2 ∧ sel = c.sel2) ∨ (l = 3 ∧ sel = c.sel3)) :
    levelOk l = true ∧ selByte c l.toNat = sel := by
  obtain ⟨rfl, rfl⟩ | ⟨rfl, rfl⟩ | ⟨rfl, rfl⟩ := h <;> exact ⟨rfl, rfl⟩

/-- The five bytes of an anticollision reply xor to 0 when the fifth is the xor of the other four (R283). -/
theorem bccOk_iff {r0 r1 r2 r3 r4 : Byte} : bccOk [r0, r1, r2, r3, r4] = true ↔ r4 = r0 ^^^ r1 ^^^ r2 ^^^ r3 := by
  have hxor : xorBytes [r0, r1, r2, r3, r4] = r0 ^^^ r1 ^^^ r2 ^^^ r3 ^^^ r4 := by simp [xorBytes]
  rw [bccOk, beq_iff_eq, hxor]
  exact BitVec.xor_eq_zero_iff.trans eq_comm

namespace State

/-! ### A stage, from its run -/

section
variable {s t : State} {st : Status}

theorem wakeupStage_of_run (h : (s.atLine .wakeup).runExec (wupaDesc s.params) = (t, st)) :
    s.wakeupStage = (t, stageStatus (st == .ok) .wakeup st) := by
  rw [wakeupStage, h]

theorem anticollStage_of_run {level : Nat} (h : (s.atLine .anticoll).runExec (anticollDesc s.params level) = (t, st)) :
    s.anticollStage level = (t, stageStatus (st == .ok && bccOk t.rxSlice) .collision st) := by
  rw [anticollStage, h]

theorem selectStage_of_run {level : Nat} {part : Bytes} {bcc : Byte}
    (h : (s.atLine .select).runExec (selectDesc s.params level part bcc) = (t, st)) :
    s.selectStage level part bcc = (t, stageStatus (st == .ok) .select st) := by
  rw [selectStage, h]

theorem haltStage_of_run (h : (s.atLine .halt).runExec (hltaDesc s.params) = (t, st)) :
    s.haltStage = (t, stageStatus (st == .timer) .halt st) := by
  rw [haltStage, h]

end

/-! ### What a run leaves, from its result -/

/-- Outside FATAL a run that does not end in FATAL leaves the engine outside FATAL. -/
theorem runExec_notFatal {d : Descriptor} {l : Line} {s t : State} {st : Status} (hs : s.st ≠ .fatal)
    (h : (s.atLine l).runExec d = (t, st)) (hst : st ≠ .fatal) : t.st ≠ .fatal := by
  have hrun := runExec_run d (s.atLine l) (by rwa [h])
  rw [h] at hrun
  exact hrun.st ▸ hs

theorem rxSlice_length_of_run {d : Descriptor} {s t : State} {st : Status} (h : s.runExec d = (t, st)) (hst : st = .ok)
    (hf : d.family = .transceive) (hl : d.rxLen.toNat ≠ 0) : t.rxSlice.length = d.rxLen.toNat := by
  have hreply := runExec_reply d s hf hl
  rw [h] at hreply
  exact hreply hst

/-! ### The ends of a command that is one stage (R418) -/

section
variable {t : State} {err st : Status}

theorem afterStage_fatal {good : Bool} {k : State → State} (hst : st = .fatal) :
    afterStage (t, stageStatus good err st) k = t := by
  rw [stageStatus, if_pos hst]
  rfl

variable (ht : st ≠ .fatal → t.st ≠ .fatal)
include ht

theorem afterStage_good {good : Bool} {data : State → Bytes} (hst : st ≠ .fatal) (hgood : good = true) :
    afterStage (t, stageStatus good err st) (fun u => u.finish .ok (data u)) = t.answered 0x00 (data t) := by
  have hok : stageStatus good err st = .ok := by rw [stageStatus, if_neg hst, if_pos hgood]
  rw [hok]
  exact finish_answered .ok _ t (ht hst)

theorem afterStage_error {good : Bool} {k : State → State} (herr : err ≠ .ok ∧ err ≠ .fatal) (hst : st ≠ .fatal)
    (hbad : good = false) : afterStage (t, stageStatus good err st) k = t.answered err.code [] := by
  obtain ⟨hok, hfatal⟩ := herr
  have hstage : stageStatus good err st = err := by
    rw [stageStatus, if_neg hst, hbad]
    rfl
  rw [hstage, afterStage, if_neg hfatal, if_neg hok, fail_answered err t (ht hst)]

/-- Where one status `g` of the run is the stage's success, the run's status alone decides the command's end. -/
theorem afterStage_by_status {g : Status} {data : State → Bytes} (hg : g ≠ .fatal) (herr : err ≠ .ok ∧ err ≠ .fatal) :
    let u := afterStage (t, stageStatus (st == g) err st) fun u => u.finish .ok (data u)
    (st = g → u = t.answered 0x00 (data t)) ∧ (st ≠ g → st ≠ .fatal → u = t.answered err.code []) ∧
      (st = .fatal → u = t) :=
  ⟨fun h => afterStage_good ht (h ▸ hg) (beq_iff_eq.mpr h),
    fun hne hst => afterStage_error ht herr hst (beq_eq_false_iff_ne.mpr hne), afterStage_fatal⟩

end

end State

/-! ### What each instruction does, its operands in range -/

section
variable {s t : State} {st : Status} (hs : s.st ≠ .fatal)
include hs

theorem exec_wakeup (h : (s.atLine .wakeup).runExec (wupaDesc s.params) = (t, st)) :
    exec .wakeup s =
      .next (State.afterStage (t, State.stageStatus (st == .ok) .wakeup st) fun u => u.finish .ok u.rxSlice) := by
  rw [← State.wakeupStage_of_run h]
  exact congrArg Host.Outcome.next (State.command_ok hs rfl)

theorem exec_anticoll {l : Byte} (hl : levelOk l = true)
    (h : (s.atLine .anticoll).runExec (anticollDesc s.params l.toNat) = (t, st)) :
    exec (.anticoll l) s =
      .next (State.afterStage (t, State.stageStatus (st == .ok && bccOk t.rxSlice) .collision st)
        fun u => u.finish .ok u.rxSlice) := by
  rw [← State.anticollStage_of_run h]
  exact congrArg Host.Outcome.next (State.command_ok hs hl)

theorem exec_select {l bcc : Byte} {part : Bytes} (hl : levelOk l = true) (hpart : partOk part = true)
    (h : (s.atLine .select).runExec (selectDesc s.params l.toNat part bcc) = (t, st)) :
    exec (.select l part bcc) s =
      .next (State.afterStage (t, State.stageStatus (st == .ok) .select st) fun u => u.finish .ok u.rxSlice) := by
  have hok : (levelOk l && partOk part) = true := by rw [hl, hpart]; rfl
  rw [← State.selectStage_of_run h]
  exact congrArg Host.Outcome.next (State.command_ok hs hok)

theorem exec_halt (h : (s.atLine .halt).runExec (hltaDesc s.params) = (t, st)) :
    exec .halt s = .next (State.afterStage (t, State.stageStatus (st == .timer) .halt st) fun u => u.finish .ok []) := by
  rw [← State.haltStage_of_run h]
  exact congrArg Host.Outcome.next (State.command_ok hs rfl)

end

end Sys2Proof.Machine

/-! ### The statements on activation -/

namespace Sys2Proof.Proofs

open Machine

/-- Settles O40: by the run's status. -/
theorem wakeupAnswersTheAtqa : Obligations.WakeupAnswersTheAtqa := by
  intro s t st hs hrun
  obtain ⟨hanswer, herror, hfatal⟩ := State.afterStage_by_status (err := .wakeup) (g := .ok) (data := State.rxSlice)
    (State.runExec_notFatal hs hrun) nofun ⟨nofun, nofun⟩
  rw [exec_wakeup hs hrun]
  exact ⟨rfl, fun hok => ⟨congrArg _ (hanswer hok), State.rxSlice_length_of_run hrun hok rfl nofun⟩,
    fun hne hst => congrArg _ (herror hne hst), fun hst => congrArg _ (hfatal hst)⟩

/-- Settles O41: by the level, then by the run's status and, where it is OK, by the BCC check. -/
theorem anticollChecksTheBcc : Obligations.AnticollChecksTheBcc := by
  refine fun l sel s t st hs => ⟨rfl, fun hsel hrun => ?run, fun hout => ?param⟩
  case param => exact congrArg Host.Outcome.next (State.command_bad hs (levelOk_of_outside hout))
  case run =>
    obtain ⟨hl, rfl⟩ := level_of_sel hsel
    have ht := State.runExec_notFatal hs hrun
    have hcollision {good : Bool} {k : State → State} (hst : st ≠ .fatal) (hbad : good = false) :
        State.afterStage (t, State.stageStatus good .collision st) k = t.answered 0x09 [] :=
      State.afterStage_error ht ⟨nofun, nofun⟩ hst hbad
    rw [exec_anticoll hs hl hrun]
    refine ⟨fun r0 r1 r2 r3 r4 hok hreply => ⟨fun hbcc => ?answered, fun hbcc => ?collision⟩,
      fun hok => State.rxSlice_length_of_run hrun hok rfl nofun, fun hne hst => ?error,
      fun hst => congrArg _ (State.afterStage_fatal hst)⟩
    case answered =>
      have hgood : (st == .ok && bccOk t.rxSlice) = true := by
        rw [hok, hreply, bccOk_iff.mpr hbcc]
        rfl
      rw [State.afterStage_good ht (hok ▸ nofun) hgood, hreply]
    case collision =>
      have hbcc : bccOk t.rxSlice = false := Bool.eq_false_iff.mpr (mt (fun h => bccOk_iff.mp (hreply ▸ h)) hbcc)
      rw [hcollision (hok ▸ nofun) (by rw [hbcc, Bool.and_false])]
    case error => rw [hcollision hst (by rw [beq_eq_false_iff_ne.mpr hne, Bool.false_and])]

/-- Settles O42: by the level, then by the run's status; the BCC goes into the frame unchecked. -/
theorem selectAnswersTheSak : Obligations.SelectAnswersTheSak := by
  refine fun l sel p0 p1 p2 p3 bcc s t st hs => ⟨rfl, fun hsel hrun => ?run, fun hout => ?param⟩
  case param =>
    have hbad : (levelOk l && partOk [p0, p1, p2, p3]) = false := by rw [levelOk_of_outside hout, Bool.false_and]
    exact congrArg Host.Outcome.next (State.command_bad hs hbad)
  case run =>
    obtain ⟨hl, rfl⟩ := level_of_sel hsel
    obtain ⟨hanswer, herror, hfatal⟩ := State.afterStage_by_status (err := .select) (g := .ok) (data := State.rxSlice)
      (State.runExec_notFatal hs hrun) nofun ⟨nofun, nofun⟩
    rw [exec_select (part := [p0, p1, p2, p3]) (bcc := bcc) hs hl rfl hrun]
    exact ⟨fun hok => ⟨congrArg _ (hanswer hok), State.rxSlice_length_of_run hrun hok rfl nofun⟩,
      fun hne hst => congrArg _ (herror hne hst), fun hst => congrArg _ (hfatal hst)⟩

/-- Settles O43: by the run's status, where the timeout is the success. -/
theorem haltSucceedsOnSilence : Obligations.HaltSucceedsOnSilence := by
  intro s t st hs hrun
  obtain ⟨hsilence, herror, hfatal⟩ := State.afterStage_by_status (err := .halt) (g := .timer) (data := fun _ => [])
    (State.runExec_notFatal hs hrun) nofun ⟨nofun, nofun⟩
  rw [exec_halt hs hrun]
  exact ⟨rfl, fun htimer => congrArg _ (hsilence htimer), fun hne hst => congrArg _ (herror hne hst),
    fun hst => congrArg _ (hfatal hst)⟩

end Sys2Proof.Proofs
end

section
/-! The exchanges of one block (R323 to R326, R350, R351): READ_BLOCK and READ_PAGE are one read stage, then `finish`;
WRITE_BLOCK is two phases, and what a command makes of a phase's end is said once, for both. -/

namespace Sys2Proof.Machine

/-! ### Operands and checks -/

theorem blockDataOk_of_length {data : Bytes} (h : data.length = 16) : blockDataOk data = true := beq_iff_eq.mpr h

/-- The check a phase of a block write makes of its run's status and reply (R325, R326). -/
theorem acknowledged_iff {st : Status} {reply : Bytes} :
    (st == .ok && ackOk reply) = true ↔ st = .ok ∧ reply.getD 0 0 &&& 0x0F = 0x0A := by
  rw [Bool.and_eq_true, beq_iff_eq, ackOk, beq_iff_eq, Config.mfAck]

theorem not_acknowledged {st : Status} {reply : Bytes} (h : st ≠ .ok ∨ reply.getD 0 0 &&& 0x0F ≠ 0x0A) :
    (st == .ok && ackOk reply) = false :=
  Bool.eq_false_iff.mpr (mt acknowledged_iff.mp (not_and_or.mpr h))

namespace State

/-! ### The stages, from their runs -/

section
variable {s t : State} {st : Status}

theorem readStage_of_run {b : Byte} (h : (s.atLine .read).runExec (mfReadDesc s.params b) = (t, st)) :
    s.readStage b = (t, stageStatus (st == .ok) .read st) := by
  rw [readStage, h]

theorem writePhase_of_run {l : Line} {d : Descriptor} (h : (s.atLine l).runExec d = (t, st)) :
    s.writePhase l d = (t, stageStatus (st == .ok && ackOk t.rxSlice) .write st) := by
  rw [writePhase, h]

/-- The run of a stage leaves the parameters, from which the next stage takes its descriptor. -/
theorem params_of_run {l : Line} {d : Descriptor} (h : (s.atLine l).runExec d = (t, st)) : t.params = s.params := by
  have hkept := lineRun_kept l d s
  rw [h] at hkept
  exact hkept.params

/-- A stage that succeeds goes on with the rest of its command. -/
theorem afterStage_goes {good : Bool} {err : Status} {k : State → State} (hst : st ≠ .fatal) (hgood : good = true) :
    afterStage (t, stageStatus good err st) k = k t := by
  rw [stageStatus, if_neg hst, if_pos hgood]
  rfl

/-- The ends of a phase of a block write: the command goes on where the phase is acknowledged, and ends with `ERR_WRITE`
where it is not; a FATAL run has ended it (R325, R326). -/
theorem afterStage_writePhase {l : Line} {d : Descriptor} (hs : s.st ≠ .fatal) (h : (s.atLine l).runExec d = (t, st))
    (k : State → State) :
    let u := afterStage (s.writePhase l d) k
    (st = .ok → t.rxSlice.getD 0 0 &&& 0x0F = 0x0A → u = k t) ∧
      (st ≠ .fatal → st ≠ .ok ∨ t.rxSlice.getD 0 0 &&& 0x0F ≠ 0x0A → u = t.answered 0x0E []) ∧
      (st = .fatal → u = t) := by
  rw [writePhase_of_run h]
  exact ⟨fun hok hack => afterStage_goes (hok ▸ nofun) (acknowledged_iff.mpr ⟨hok, hack⟩),
    fun hst hbad => afterStage_error (runExec_notFatal hs h) ⟨nofun, nofun⟩ hst (not_acknowledged hbad),
    afterStage_fatal⟩

end

end State

/-! ### What each instruction does -/

/-- READ_PAGE is READ_BLOCK under another opcode: the same frame, the same end (R351). -/
theorem exec_readPage_eq_readBlock (b : Byte) (s : State) : exec (.readPage b) s = exec (.readBlock b) s := rfl

section
variable {s : State} (hs : s.st ≠ .fatal)
include hs

theorem exec_readBlock {t : State} {st : Status} {b : Byte}
    (h : (s.atLine .read).runExec (mfReadDesc s.params b) = (t, st)) :
    exec (.readBlock b) s =
      .next (State.afterStage (t, State.stageStatus (st == .ok) .read st) fun u => u.finish .ok u.rxSlice) := by
  rw [← State.readStage_of_run h]
  exact congrArg Host.Outcome.next (State.command_ok hs rfl)

theorem exec_writeBlock {data : Bytes} (blk : Byte) (hdata : data.length = 16) :
    exec (.writeBlock blk data) s = .next (s.writeBlockBody blk data) :=
  congrArg Host.Outcome.next (State.command_ok hs (blockDataOk_of_length hdata))

end

end Sys2Proof.Machine

/-! ### The statements on block exchanges -/

namespace Sys2Proof.Proofs

open Machine

/-- Settles O47: READ_PAGE is READ_BLOCK, and READ_BLOCK ends by its run's status. -/
theorem readBlockAndReadPageAnswerSixteenBytes : Obligations.ReadBlockAndReadPageAnswerSixteenBytes := by
  intro b s t st hs hrun
  obtain ⟨hanswer, herror, hfatal⟩ := State.afterStage_by_status (err := .read) (g := .ok) (data := State.rxSlice)
    (State.runExec_notFatal hs hrun) nofun ⟨nofun, nofun⟩
  rw [exec_readPage_eq_readBlock, exec_readBlock hs hrun]
  refine ⟨rfl, rfl, fun hok => ?answered, fun hne hst => ?error, fun hst => ?fatal⟩
  case answered =>
    exact ⟨congrArg _ (hanswer hok), congrArg _ (hanswer hok), State.rxSlice_length_of_run hrun hok rfl nofun⟩
  case error => exact ⟨congrArg _ (herror hne hst), congrArg _ (herror hne hst)⟩
  case fatal => exact ⟨congrArg _ (hfatal hst), congrArg _ (hfatal hst)⟩

/-- Settles O48: by the end of the command phase and, where that is acknowledged, by the end of the data phase, which
takes its descriptor from the parameters the first run left. -/
theorem writeBlockNeedsBothAcknowledges : Obligations.WriteBlockNeedsBothAcknowledges := by
  intro blk data s t u st1 st2 hs hdata hrun1 hrun2
  obtain ⟨hgoes1, herror1, hfatal1⟩ := State.afterStage_writePhase hs hrun1 fun s1 =>
    State.afterStage (s1.writePhase .writeData (writeDataDesc s1.params data)) fun s2 => s2.finish .ok []
  rw [exec_writeBlock hs blk hdata]
  refine ⟨rfl, fun hst hbad => congrArg _ (herror1 hst hbad), fun hst => congrArg _ (hfatal1 hst),
    fun hok1 hack1 => ?data⟩
  case data =>
    have ht : t.st ≠ .fatal := State.runExec_notFatal hs hrun1 (hok1 ▸ nofun)
    have hrun : (t.atLine .writeData).runExec (writeDataDesc t.params data) = (u, st2) := by
      rw [State.params_of_run hrun1]
      exact hrun2
    obtain ⟨hgoes2, herror2, hfatal2⟩ := State.afterStage_writePhase ht hrun fun s2 => s2.finish .ok []
    have hbody := hgoes1 hok1 hack1
    refine ⟨fun hok2 hack2 => ?acknowledged, fun hst hbad => congrArg _ (hbody.trans (herror2 hst hbad)),
      fun hst => congrArg _ (hbody.trans (hfatal2 hst))⟩
    case acknowledged =>
      have hu : u.st ≠ .fatal := State.runExec_notFatal ht hrun (hok2 ▸ nofun)
      exact congrArg _ (hbody.trans ((hgoes2 hok2 hack2).trans (State.finish_answered .ok [] u hu)))

end Sys2Proof.Proofs
end

section
/-! READ_ULTRALIGHT (R352, R353): a window is one read stage, the loop goes on after one that is read, and the label its
head is entered with plays no part; what stands in the working registers before window `k` is said once. -/

namespace Sys2Proof.Machine

namespace State

/-! ### The window loop, one window at a time -/

/-- The loop's head sets the label of `pc` before anything reads it. -/
theorem windowLoop_atLine (fuel : Nat) (l : Line) (s : State) : windowLoop fuel (s.atLine l) = windowLoop fuel s := by
  cases fuel <;> rfl

theorem windowLoop_ended {fuel : Nat} {s : State} (h : Config.ulMaxPages ≤ s.work.page.toNat) :
    windowLoop fuel s = s.finish .ok (s.clippedImage Config.ulMaxPages) := by
  cases fuel with
  | zero => rfl
  | succ fuel => rw [windowLoop, if_neg (Nat.not_lt.mpr h)]

section
variable {fuel : Nat} {s t : State} {st : Status} (hpage : s.work.page.toNat < Config.ulMaxPages)
  (hrun : (s.atLine .read).runExec (mfReadDesc s.params s.work.page) = (t, st))
include hpage hrun

/-- A window is its read stage, then the branch of that stage's end. -/
theorem windowLoop_window : windowLoop (fuel + 1) s =
    if stageStatus (st == .ok) .read st = .fatal then t
    else if stageStatus (st == .ok) .read st = .ok then windowLoop fuel t.windowRead
    else t.windowFailed := by
  have hstage : (s.atLine .window).readStage s.work.page = (t, stageStatus (st == .ok) .read st) := readStage_of_run hrun
  rw [windowLoop, if_pos hpage, hstage]

theorem windowLoop_read (hst : st = .ok) : windowLoop (fuel + 1) s = windowLoop fuel t.windowRead := by
  rw [windowLoop_window hpage hrun, hst]
  rfl

theorem windowLoop_fatal (hst : st = .fatal) : windowLoop (fuel + 1) s = t := by
  rw [windowLoop_window hpage hrun, hst]
  rfl

theorem windowLoop_failed (hok : st ≠ .ok) (hst : st ≠ .fatal) : windowLoop (fuel + 1) s = t.windowFailed := by
  have hread : stageStatus (st == .ok) .read st = .read := by
    rw [stageStatus, if_neg hst, if_neg (mt beq_iff_eq.mp hok)]
  rw [windowLoop_window hpage hrun, hread]
  rfl

end

end State

/-! ### The working registers before window `k` -/

/-- What a window that is read leaves, the page index written as the next window's page (R352). -/
def State.nextWindow (k : Nat) (s : State) : State :=
  { s with work := { s.work with image := s.work.image ++ s.rxSlice, page := BitVec.ofNat 8 (4 * (k + 1)) } }

/-- What holds before window `k`: the page index is the window's page, and the image has the bytes of the windows before. -/
structure WindowStart (p : Config.Params) (k : Nat) (s : State) : Prop where
  st : s.st ≠ .fatal
  params : s.params = p
  page : s.work.page = BitVec.ofNat 8 (4 * k)
  image : s.work.image.length = 16 * k

namespace WindowStart

variable {p : Config.Params} {k : Nat} {s t : State} {st : Status}

theorem page_toNat (h : WindowStart p k s) (hk : k ≤ 34) : s.work.page.toNat = 4 * k := by
  rw [h.page, BitVec.toNat_ofNat]
  omega

theorem page_lt (h : WindowStart p k s) (hk : k < 34) : s.work.page.toNat < Config.ulMaxPages := by
  rw [h.page_toNat hk.le, Config.ulMaxPages]
  omega

/-- The run of window `k` is the run the loop makes: its frame names the page index, under the same parameters. -/
theorem run_eq (h : WindowStart p k s)
    (hrun : (s.atLine .read).runExec (mfReadDesc p (BitVec.ofNat 8 (4 * k))) = (t, st)) :
    (s.atLine .read).runExec (mfReadDesc s.params s.work.page) = (t, st) := by
  rwa [h.params, h.page]

/-- A run that is not FATAL leaves it: a run does not write the working registers. -/
theorem run (h : WindowStart p k s) {d : Descriptor} (hrun : (s.atLine .read).runExec d = (t, st)) (hst : st ≠ .fatal) :
    WindowStart p k t := by
  have hkept := State.lineRun_kept .read d s
  rw [hrun] at hkept
  exact ⟨State.runExec_notFatal h.st hrun hst, hkept.params.trans h.params, hkept.work ▸ h.page, hkept.work ▸ h.image⟩

/-- A window that is read leads to the start of the next one. -/
theorem nextWindow (h : WindowStart p k s) (hreply : s.rxSlice.length = 16) : WindowStart p (k + 1) (s.nextWindow k) where
  st := h.st
  params := h.params
  page := rfl
  image := by
    rw [State.nextWindow, List.length_append, h.image, hreply]
    rfl

theorem windowRead_eq (h : WindowStart p k s) : s.windowRead = (s.nextWindow k).atLine .next := by
  have hpage : s.work.page + 4 = BitVec.ofNat 8 (4 * (k + 1)) := by
    rw [h.page]
    exact (BitVec.ofNat_add (4 * k) 4).symm
  rw [State.windowRead, hpage]
  rfl

/-- Page 44 is the end boundary a window can fail at: the other one, page 136, has no window (R353). -/
theorem windowFailed_boundary (h : WindowStart p 11 s) : s.windowFailed = s.answered 0x00 s.work.image := by
  have hpage : (s.atLine .boundary).work.page.toNat = 44 := h.page_toNat (by decide)
  have himage : (s.atLine .boundary).clippedImage 44 = s.work.image := List.take_of_length_le h.image.le
  rw [State.windowFailed, hpage, if_pos (by decide), himage]
  exact State.finish_answered .ok _ (s.atLine .boundary) h.st

theorem windowFailed_elsewhere (h : WindowStart p k s) (hk : k < 34) (hne : k ≠ 11) :
    s.windowFailed = s.answered 0x0D [] := by
  have hpage : (s.atLine .boundary).work.page.toNat = 4 * k := h.page_toNat hk.le
  have hboundary : 4 * k ∉ Config.ulEndBoundaries := by
    simp only [Config.ulEndBoundaries, List.mem_cons, List.not_mem_nil, or_false]
    omega
  rw [State.windowFailed, hpage, if_neg hboundary]
  exact State.fail_answered .read (s.atLine .boundary) h.st

end WindowStart

/-! ### Windows that are read one after the other -/

/-- Windows `0` to `n - 1` are read: `u k` is the state before window `k`, `w k` the one its run ends in. -/
def WindowsRead (p : Config.Params) (n : Nat) (u w : Nat → State) : Prop :=
  ∀ k < n, ((u k).atLine .read).runExec (mfReadDesc p (BitVec.ofNat 8 (4 * k))) = (w k, .ok) ∧
    u (k + 1) = (w k).nextWindow k

/-- The loop goes from the first window to the one after the last that is read. -/
theorem WindowsRead.loop {p : Config.Params} {n : Nat} {u w : Nat → State} (h : WindowsRead p n u w)
    (h0 : WindowStart p 0 (u 0)) (hn : n ≤ 34) {k : Nat} (hk : k ≤ n) (fuel : Nat) :
    WindowStart p k (u k) ∧ State.windowLoop (fuel + k) (u 0) = State.windowLoop fuel (u k) := by
  induction k generalizing fuel with
  | zero => exact ⟨h0, rfl⟩
  | succ k ih =>
    obtain ⟨hstart, hloop⟩ := ih (by omega) (fuel + 1)
    obtain ⟨hrun, hnext⟩ := h k (by omega)
    have hend : WindowStart p k (w k) := hstart.run hrun nofun
    have hreply : (w k).rxSlice.length = 16 := State.rxSlice_length_of_run hrun rfl rfl nofun
    rw [hnext]
    refine ⟨hend.nextWindow hreply, ?_⟩
    calc State.windowLoop (fuel + (k + 1)) (u 0)
        = State.windowLoop (fuel + 1) (u k) := by rw [← hloop, Nat.add_right_comm, Nat.add_assoc]
      _ = State.windowLoop fuel (w k).windowRead :=
        State.windowLoop_read (hstart.page_lt (by omega)) (hstart.run_eq hrun) rfl
      _ = State.windowLoop fuel ((w k).nextWindow k) := by rw [hend.windowRead_eq, State.windowLoop_atLine]

/-! ### What the instruction does -/

theorem exec_readUltralight {s : State} (hs : s.st ≠ .fatal) :
    exec .readUltralight s =
      .next (State.windowLoop Config.ulMaxPages { s with work := { s.work with image := [], page := 0 } }) := by
  have hbody : s.readUltralightBody = _ :=
    State.windowLoop_atLine Config.ulMaxPages .clearImage { s with work := { s.work with image := [], page := 0 } }
  exact congrArg Host.Outcome.next ((State.command_ok hs rfl).trans hbody)

end Sys2Proof.Machine

/-! ### The statement on the full page read -/

namespace Sys2Proof.Proofs

open Machine

/-- Settles O53: the windows that are read lead to window `n`, where the loop ends by the page index, which is 136, or by
the run's status. -/
theorem readUltralightStopsAtABoundary : Obligations.ReadUltralightStopsAtABoundary := by
  intro s v st n u w hs h0 hn hwindows
  have hfirst : WindowStart s.params 0 (u 0) := h0 ▸ ⟨hs, rfl, rfl, rfl⟩
  obtain ⟨fuel, hfuel⟩ : ∃ fuel, Config.ulMaxPages = fuel + 1 + n := ⟨134 - n, by rw [Config.ulMaxPages]; omega⟩
  obtain ⟨hstart, hloop⟩ := WindowsRead.loop hwindows hfirst hn le_rfl (fuel + 1)
  rw [exec_readUltralight hs, ← h0, hfuel, hloop]
  refine ⟨rfl, fun hall => ?all, fun hlt hrun hok => ?stopped⟩
  case all =>
    subst hall
    have hpage : Config.ulMaxPages ≤ (u 34).work.page.toNat := by
      rw [hstart.page_toNat le_rfl]
      decide
    rw [State.windowLoop_ended hpage, State.finish_answered _ _ _ hstart.st]
    exact ⟨rfl, hstart.image⟩
  case stopped =>
    have hpage := hstart.page_lt hlt
    have hlast := hstart.run_eq hrun
    refine ⟨fun hat hst => ?boundary, fun hat hst => ?elsewhere, fun hst => ?fatal⟩
    case boundary =>
      subst hat
      have hend := hstart.run hrun hst
      rw [State.windowLoop_failed hpage hlast hok hst, hend.windowFailed_boundary]
      exact ⟨rfl, hend.image⟩
    case elsewhere =>
      rw [State.windowLoop_failed hpage hlast hok hst, (hstart.run hrun hst).windowFailed_elsewhere hlt hat]
    case fatal => rw [State.windowLoop_fatal hpage hlast hst]

end Sys2Proof.Proofs
end

section
/-! Power-up (R450): the step in RESET, stated as the registers it writes and the pin events it shows. -/

namespace Sys2Proof.Machine

namespace State

/-- Everything the power-up sequence does (R450): the host port is emptied first, so there is no key in `H_CMD` to zero. -/
theorem powerUpSequence_eq (s : State) : s.powerUpSequence = { s with
    st := .idle
    sess := ⟨false, 0⟩
    work := { s.work with keyA := zeroKeyBank, keyB := zeroKeyBank }
    host := ⟨[], [], false⟩
    pRst := true
    hist := s.hist ++ [.pin false, .wait Config.resetLowMs, .pin true, .wait Config.resetWaitMs] } := by
  have hcmd : zeroRange 0 0 [] = [] := rfl
  apply State.ext_fields <;> simp [powerUpSequence, resetPulse, closeSession, pin, wait, hcmd]

end State

/-- In RESET no frame is taken: the step is the power-up sequence (R450). -/
theorem step_of_reset {s : State} (hs : s.st = .reset) : step s = .next s.powerUpSequence := by
  rw [step, hs]

end Sys2Proof.Machine

namespace Sys2Proof.Proofs

open Machine

/-- Settles O2: the step in RESET is the power-up sequence, whose waits and key bank are the numbers of R450 and R451. -/
theorem powerUpRunsTheResetSequence : Obligations.PowerUpRunsTheResetSequence := by
  refine ⟨rfl, fun s hs => ?_⟩
  rw [step_of_reset hs, State.powerUpSequence_eq]
  rfl

end Sys2Proof.Proofs
end

section
/-! The decoder and the encoder undo each other: host frames (R120 to R128), bus frames (R140 to R143), card frames (R160). -/

namespace Sys2Proof

open Machine

/-! ### Operands of more than one byte, EXECUTE's control bytes, operand ranges -/

theorem loByte_u16 (lo hi : Byte) : loByte (u16 lo hi) = lo := BitVec.extractLsb'_append_eq_right

theorem hiByte_u16 (lo hi : Byte) : hiByte (u16 lo hi) = hi := BitVec.extractLsb'_append_eq_left

theorem u16_loByte_hiByte (t : BitVec 16) : u16 (loByte t) (hiByte t) = t :=
  (BitVec.extractLsb'_append_extractLsb'_eq_extractLsb' rfl).trans BitVec.extractLsb'_eq_self

theorem familyOfBit_familyBit (f : Family) : familyOfBit (familyBit f) = f := by cases f <;> rfl

theorem familyBit_familyOfBit (b : Bool) : familyBit (familyOfBit b) = b := by cases b <;> rfl

/-- The bits of a byte whose bits 7:3 are 0 (R128 `C0`). -/
theorem byte_of_low_bits : ∀ b : Byte, b.extractLsb' 3 5 = 0 →
    (0 : BitVec 5) ++ BitVec.ofBool (b.getLsbD 2) ++ BitVec.ofBool (b.getLsbD 1) ++ BitVec.ofBool (b.getLsbD 0) = b := by
  decide +kernel

/-- The two fields of a byte whose bits 3 and 7 are 0 (R128 `C1`). -/
theorem byte_of_fields : ∀ b : Byte, b.getLsbD 3 = false → b.getLsbD 7 = false →
    (0 : BitVec 1) ++ b.extractLsb' 4 3 ++ (0 : BitVec 1) ++ b.extractLsb' 0 3 = b := by
  decide +kernel

theorem controlReservedOk_iff {c0 c1 : Byte} :
    controlReservedOk c0 c1 = true ↔ c0.extractLsb' 3 5 = 0 ∧ c1.getLsbD 3 = false ∧ c1.getLsbD 7 = false := by
  simp [controlReservedOk, and_assoc]

theorem controlC0_fields (d : Descriptor) :
    (controlC0 d).extractLsb' 3 5 = 0 ∧ (controlC0 d).getLsbD 0 = familyBit d.family ∧
      (controlC0 d).getLsbD 1 = d.crcTx ∧ (controlC0 d).getLsbD 2 = d.crcRx := by
  rw [controlC0]
  generalize familyBit d.family = f, d.crcTx = tx, d.crcRx = rx
  revert f tx rx
  decide

theorem controlC1_fields (d : Descriptor) :
    (controlC1 d).getLsbD 3 = false ∧ (controlC1 d).getLsbD 7 = false ∧
      (controlC1 d).extractLsb' 0 3 = d.txBits ∧ (controlC1 d).extractLsb' 4 3 = d.rxBits := by
  rw [controlC1]
  generalize d.rxBits = rx, d.txBits = tx
  revert rx tx
  decide +kernel

/-- The control bytes of a descriptor have their reserved bits 0, and the descriptor is read back from them. -/
theorem assembleDescriptor_control (d : Descriptor) :
    controlReservedOk (controlC0 d) (controlC1 d) = true ∧
      assembleDescriptor (controlC0 d) (controlC1 d) d.rxLen d.rxCap (loByte d.timeout) (hiByte d.timeout) d.tx = d := by
  obtain ⟨hres0, hfam, htx, hrx⟩ := controlC0_fields d
  obtain ⟨hres3, hres7, htxBits, hrxBits⟩ := controlC1_fields d
  refine ⟨controlReservedOk_iff.mpr ⟨hres0, hres3, hres7⟩, ?_⟩
  simp only [assembleDescriptor, hfam, htx, hrx, htxBits, hrxBits, familyOfBit_familyBit, u16_loByte_hiByte]

/-- Control bytes with their reserved bits 0 are those of the descriptor read from them. -/
theorem control_assembleDescriptor {c0 c1 : Byte} (rxl cap tl th : Byte) (tx : Bytes) (h : controlReservedOk c0 c1 = true) :
    controlC0 (assembleDescriptor c0 c1 rxl cap tl th tx) = c0 ∧
      controlC1 (assembleDescriptor c0 c1 rxl cap tl th tx) = c1 := by
  obtain ⟨hres0, hres3, hres7⟩ := controlReservedOk_iff.mp h
  refine ⟨?_, byte_of_fields c1 hres3 hres7⟩
  rw [controlC0, assembleDescriptor, familyBit_familyOfBit]
  exact byte_of_low_bits c0 hres0

theorem byteOfNat_toNat (b : Byte) : byteOfNat b.toNat = b := BitVec.ofNat_toNat ..

theorem byteOfNat_length {s : Bytes} {b : Byte} (h : s.length = b.toNat) : byteOfNat s.length = b := by
  rw [h, byteOfNat_toNat]

theorem toNat_byteOfNat {n : Nat} (h : n ≤ 255) : (byteOfNat n).toNat = n := by
  rw [byteOfNat, BitVec.toNat_ofNat]
  omega

theorem authOk_iff {keysel sector : Byte} {key uid4 : Bytes} :
    authOk keysel sector key uid4 = true ↔ keysel.toNat ≤ 1 ∧ sector.toNat ≤ 63 ∧ key.length = 6 ∧ uid4.length = 4 := by
  simp [authOk, keyselOk, sectorOk, keyOk, uid4Ok, and_assoc]

theorem classicOk_iff {uidlen : Byte} {uid keyA keyB : Bytes} :
    classicOk uidlen uid keyA keyB = true ↔
      uidlenOk uidlen = true ∧ uid.length = 10 ∧ keyA.length = 96 ∧ keyB.length = 96 := by
  simp [classicOk, and_assoc]

/-- The operands of a card authenticate frame (R160). -/
theorem authFrame_wellFormed {sector : Byte} {key uid4 : Bytes} :
    (sectorOk sector && keyOk key && uid4Ok uid4) = true ↔ sector.toNat ≤ 63 ∧ key.length = 6 ∧ uid4.length = 4 := by
  simp [sectorOk, keyOk, uid4Ok, and_assoc]

/-! ### Decoding, then encoding -/

theorem code_of_hostOpOf {b : Byte} {o : HostOp} (h : hostOpOf b = some o) : o.code = b :=
  beq_iff_eq.mp (List.find?_some (p := fun o : HostOp => o.code == b) h)

/-- What a decoded host frame is: within the port's size, an opcode with its operands, in the length of the opcode (R124). -/
theorem decodeHost_eq_ok {f : Bytes} {i : Instr} (h : decodeHost f = .ok i) :
    ∃ (o : HostOp) (ops : Bytes), f = o.code :: ops ∧ f.length ≤ 255 ∧
      f.length = hostFrameLength o (f.getD 1 0) (f.getD 3 0) ∧ decodeOperands o ops = .ok i := by
  cases f with
  | nil => cases h
  | cons b0 ops =>
    rw [decodeHost] at h
    split at h
    · cases h
    next hmax =>
      split at h
      · cases h
      next o ho =>
        split at h
        · next hlen =>
          obtain rfl := code_of_hostOpOf ho
          exact ⟨o, ops, rfl, by omega, hlen, h⟩
        · cases h

/-- Every operand byte stands in the encoding of the instruction read from it. -/
theorem encode_of_decodeOperands {p : Config.Params} {o : HostOp} {ops : Bytes} {i : Instr}
    (hlen : (o.code :: ops).length = hostFrameLength o (ops.getD 0 0) (ops.getD 2 0))
    (h : decodeOperands o ops = .ok i) : encode p i = o.code :: ops := by
  cases o with
  | hardReset | startSession | endSession | init | wakeup | halt | scan | readUltralight =>
    cases h
    obtain rfl := List.eq_nil_of_length_eq_zero (Nat.succ.inj hlen)
    rfl
  | regRead | regWrite | regModify | fifoRead | carrier | anticoll | select | readBlock | readPage | writeBlock =>
    simp only [decodeOperands] at h
    split at h <;> cases h
    rfl
  | fifoWrite =>
    simp only [decodeOperands] at h
    split at h <;> cases h
    next n s =>
      have hn : s.length = n.toNat := by
        simp only [List.length_cons, hostFrameLength, List.getD_cons_zero] at hlen
        omega
      rw [encode, byteOfNat_length hn]
  | setTimeout =>
    simp only [decodeOperands] at h
    split at h <;> cases h
    rw [encode, loByte_u16, hiByte_u16]
  | execute =>
    simp only [decodeOperands] at h
    split at h
    · next c0 c1 n rxl cap tl th s =>
      split at h <;> cases h
      next hres =>
        obtain ⟨h0, h1⟩ := control_assembleDescriptor rxl cap tl th s hres
        have hn : s.length = n.toNat := by
          simp only [List.length_cons, hostFrameLength, List.getD_cons_succ, List.getD_cons_zero] at hlen
          omega
        rw [encode, h0, h1]
        simp only [assembleDescriptor, byteOfNat_length hn, loByte_u16, hiByte_u16]
        rfl
    · cases h
  | auth =>
    simp only [decodeOperands] at h
    split at h <;> cases h
    rw [encode, List.take_append_drop]
  | readClassic =>
    simp only [decodeOperands] at h
    split at h <;> cases h
    next ul rest =>
      rw [encode, List.append_assoc, ← List.drop_drop (i := 96) (j := 10), List.take_append_drop, List.take_append_drop]

/-- A host frame that decodes is the encoding of what it decodes to (R120, R127). -/
theorem encode_of_decodeHost {p : Config.Params} {f : Bytes} {i : Instr} (h : decodeHost f = .ok i) :
    encode p i = f := by
  obtain ⟨o, ops, rfl, -, hlen, hops⟩ := decodeHost_eq_ok h
  exact encode_of_decodeOperands hlen hops

theorem length_of_decodeHost {f : Bytes} {i : Instr} (h : decodeHost f = .ok i) : 1 ≤ f.length ∧ f.length ≤ 255 := by
  obtain ⟨o, ops, rfl, hmax, -, -⟩ := decodeHost_eq_ok h
  exact ⟨Nat.succ_pos _, hmax⟩

theorem port_of_decodeHost {f : Bytes} {i : Instr} (h : decodeHost f = .ok i) : i.port = .host := by
  obtain ⟨o, ops, -, -, -, hops⟩ := decodeHost_eq_ok h
  cases o with
  | hardReset | startSession | endSession | init | wakeup | halt | scan | readUltralight => cases hops; rfl
  | execute =>
    simp only [decodeOperands] at hops
    split at hops
    · split at hops <;> cases hops
      rfl
    · cases hops
  | _ =>
    simp only [decodeOperands] at hops
    split at hops <;> cases hops
    rfl

/-! ### Encoding, then decoding -/

/-- A frame of an opcode's length is decoded by its operands. -/
theorem decodeHost_of_length {o : HostOp} {ops : Bytes} (hmax : (o.code :: ops).length ≤ 255)
    (hlen : (o.code :: ops).length = hostFrameLength o (ops.getD 0 0) (ops.getD 2 0)) :
    decodeHost (o.code :: ops) = decodeOperands o ops := by
  have hlen' : (o.code :: ops).length = hostFrameLength o ((o.code :: ops).getD 1 0) ((o.code :: ops).getD 3 0) := hlen
  rw [decodeHost, if_neg (Nat.not_lt.mpr hmax), hostOpOf_code]
  exact if_pos hlen'

theorem decodeHost_encode {p : Config.Params} {i : Instr} (hport : i.port = .host) (hwf : i.wellFormed = true) :
    decodeHost (encode p i) = .ok i := by
  cases i with
  | regRead _ | regWrite _ _ | regModify _ _ _ | fifoRead _ | hardReset | startSession | endSession | init | carrier _
  | wakeup | anticoll _ | halt | scan | readBlock _ | readPage _ | readUltralight => rfl
  | fifoWrite s =>
    have hs : s.length ≤ 253 := of_decide_eq_true hwf
    refine decodeHost_of_length (o := .fifoWrite) (ops := byteOfNat s.length :: s) ?_ ?_
    · simp only [List.length_cons]; omega
    · simp only [List.length_cons, hostFrameLength, List.getD_cons_zero, toNat_byteOfNat (n := s.length) (by omega)]; omega
  | setTimeout t =>
    have h : decodeHost (encode p (.setTimeout t)) = .ok (.setTimeout (u16 (loByte t) (hiByte t))) := rfl
    rw [h, u16_loByte_hiByte]
  | execute d =>
    obtain ⟨htx, -⟩ := executeOk_iff.mp hwf
    obtain ⟨hres, hd⟩ := assembleDescriptor_control d
    have h : decodeHost (encode p (.execute d)) = decodeOperands .execute (controlC0 d :: controlC1 d ::
        byteOfNat d.tx.length :: d.rxLen :: d.rxCap :: loByte d.timeout :: hiByte d.timeout :: d.tx) := by
      refine decodeHost_of_length (o := .execute) (ops := controlC0 d :: controlC1 d :: byteOfNat d.tx.length ::
        d.rxLen :: d.rxCap :: loByte d.timeout :: hiByte d.timeout :: d.tx) ?_ ?_
      · simp only [List.length_cons]; omega
      · simp only [List.length_cons, hostFrameLength, List.getD_cons_zero, List.getD_cons_succ,
          toNat_byteOfNat (n := d.tx.length) (by omega)]
        omega
    rw [h, decodeOperands, if_pos hres, hd]
  | select l part k =>
    have hpart : part.length = 4 := by
      simp only [Instr.wellFormed, Bool.and_eq_true] at hwf
      exact beq_iff_eq.mp hwf.2
    obtain ⟨p0, p1, p2, p3, rfl⟩ := List.length_eq_four.mp hpart
    rfl
  | auth ks sec key u =>
    obtain ⟨-, -, hkey, hu⟩ := authOk_iff.mp hwf
    refine (decodeHost_of_length (o := .auth) (ops := ks :: sec :: (key ++ u)) ?_ ?_).trans ?_
    · simp only [List.length_cons, List.length_append]; omega
    · simp only [List.length_cons, List.length_append, hostFrameLength]; omega
    · rw [decodeOperands, List.take_left' hkey, List.drop_left' hkey]
  | writeBlock b data =>
    have hdata : data.length = 16 := beq_iff_eq.mp hwf
    refine decodeHost_of_length (o := .writeBlock) (ops := b :: data) ?_ ?_ <;>
      simp only [List.length_cons, hostFrameLength] <;> omega
  | readClassic ul uid ka kb =>
    obtain ⟨-, huid, hka, hkb⟩ := classicOk_iff.mp hwf
    refine (decodeHost_of_length (o := .readClassic) (ops := ul :: (uid ++ ka ++ kb)) ?_ ?_).trans ?_
    · simp only [List.length_cons, List.length_append]; omega
    · simp only [List.length_cons, List.length_append, hostFrameLength]; omega
    · have h106 : (uid ++ ka).length = 106 := by rw [List.length_append]; omega
      rw [decodeOperands, List.drop_left' h106, List.append_assoc, List.take_left' huid, List.drop_left' huid,
        List.take_left' hka]
  | _ => cases hport

/-! ### Bus frames (R140 to R143) -/

theorem addr_byte_le (a : Config.Addr) : a.byte.toNat ≤ 63 := by
  rw [Config.Addr.byte, BitVec.toNat_setWidth]
  have := a.isLt
  omega

/-- Bits 7 and 0 of a first byte tell a read from a write, and bits 6:1 are the address (R84). -/
theorem address_byte : ∀ a : Byte, a.toNat ≤ 63 →
    (readByte a &&& 0x81 = 0x80 ∧ busAddr (readByte a) = a) ∧ (writeByte a &&& 0x81 = 0x00 ∧ busAddr (writeByte a) = a) := by
  decide +kernel

theorem readByte_ne_writeByte {a b : Byte} (ha : a.toNat ≤ 63) (hb : b.toNat ≤ 63) : readByte a ≠ writeByte b := by
  intro h
  have hr := (address_byte a ha).1.1
  rw [h, (address_byte b hb).2.1] at hr
  cases hr

theorem readByte_inj {a b : Byte} (ha : a.toNat ≤ 63) (hb : b.toNat ≤ 63) (h : readByte a = readByte b) : a = b := by
  rw [← (address_byte a ha).1.2, h, (address_byte b hb).1.2]

theorem writeByte_inj {a b : Byte} (ha : a.toNat ≤ 63) (hb : b.toNat ≤ 63) (h : writeByte a = writeByte b) : a = b := by
  rw [← (address_byte a ha).2.2, h, (address_byte b hb).2.2]

theorem fifoReadFrame_succ (c : Config.Chip) (n : Nat) :
    fifoReadFrame c (n + 1) = readByte c.fifoData.byte :: (List.replicate n (readByte c.fifoData.byte) ++ [Config.dummy]) :=
  rfl

section
variable (c : Config.Chip)

theorem decodeBus_regRead {a : Byte} (ha : a.toNat ≤ 63) (hne : a ≠ c.fifoData.byte) :
    decodeBus c (regReadFrame a) = .ok (.busRegRead a) := by
  obtain ⟨hmask, haddr⟩ := (address_byte a ha).1
  have hfifo := addr_byte_le c.fifoData
  rw [regReadFrame, decodeBus, if_neg fun h => hne (readByte_inj ha hfifo h), if_neg (readByte_ne_writeByte ha hfifo),
    if_pos ⟨hmask, rfl⟩, haddr]

theorem decodeBus_regWrite {a : Byte} (v : Byte) (ha : a.toNat ≤ 63) (hne : a ≠ c.fifoData.byte) :
    decodeBus c (regWriteFrame a v) = .ok (.busRegWrite a v) := by
  obtain ⟨hmask, haddr⟩ := (address_byte a ha).2
  have hfifo := addr_byte_le c.fifoData
  have hread : ¬(writeByte a &&& 0x81 = 0x80 ∧ v = Config.dummy) := by
    rw [hmask]
    exact fun h => absurd h.1 (by decide)
  rw [regWriteFrame, decodeBus, if_neg (readByte_ne_writeByte hfifo ha).symm, if_neg fun h => hne (writeByte_inj ha hfifo h),
    if_neg hread, if_pos hmask, haddr]

theorem decodeBus_fifoRead {n : Nat} (hn : fifoCountOk n = true) :
    decodeBus c (fifoReadFrame c n) = .ok (.busFifoRead n) := by
  cases n with
  | zero => cases hn
  | succ n =>
    have hlen : (List.replicate n (readByte c.fifoData.byte) ++ [Config.dummy]).length = n + 1 := by simp
    rw [fifoReadFrame_succ]
    refine (if_pos rfl).trans ?_
    rw [hlen, ← fifoReadFrame_succ, hn, beq_self_eq_true]
    rfl

theorem decodeBus_fifoWrite {s : Bytes} (hs : fifoPushOk s = true) :
    decodeBus c (fifoWriteFrame c s) = .ok (.busFifoWrite s) := by
  have hfifo := addr_byte_le c.fifoData
  exact (if_neg (readByte_ne_writeByte hfifo hfifo).symm).trans ((if_pos rfl).trans (if_pos hs))

end

/-! ### Card frames (R160) -/

section
variable {c : Config.Card}

/-- What the decoder of card frames needs of the command bytes' difference. -/
theorem command_bytes_differ (hd : c.distinct = true) :
    (c.sel1 ≠ c.sel2 ∧ c.sel1 ≠ c.sel3 ∧ c.sel2 ≠ c.sel3) ∧ c.authA ≠ c.authB ∧
      (c.hlta0 ≠ c.mfRead ∧ c.hlta0 ≠ c.mfWrite ∧ c.mfRead ≠ c.mfWrite) ∧
      ∀ sel, sel = c.sel1 ∨ sel = c.sel2 ∨ sel = c.sel3 → sel ≠ c.hlta0 ∧ sel ≠ c.mfRead ∧ sel ≠ c.mfWrite := by
  have hnodup : [c.sel1, c.sel2, c.sel3, c.hlta0, c.authA, c.authB, c.mfRead, c.mfWrite].Nodup := of_decide_eq_true hd
  simp only [List.nodup_cons, List.mem_cons, not_or] at hnodup
  refine ⟨?levels, ?keys, ?memory, ?other⟩
  case other => rintro sel (rfl | rfl | rfl) <;> simp only [hnodup, ne_eq, not_false_eq_true, and_self]
  all_goals simp only [hnodup, ne_eq, not_false_eq_true, and_self]

theorem decodeCard_anticoll (hd : c.distinct = true) {sel : Byte} (hsel : sel = c.sel1 ∨ sel = c.sel2 ∨ sel = c.sel3) :
    decodeCard c [sel, Config.anticollNvb] = cardAnticollOf c sel := by
  obtain ⟨-, -, -, hother⟩ := command_bytes_differ hd
  obtain ⟨hhlta, hread, hwrite⟩ := hother sel hsel
  rw [decodeCard, if_neg fun h => hhlta h.1, if_neg hread, if_neg hwrite, if_pos rfl]

theorem decodeCard_select (sel : Byte) {part : Bytes} (bcc : Byte) (hpart : part.length = 4) :
    decodeCard c ([sel, Config.selectNvb] ++ part ++ [bcc]) = cardSelectOf c sel part bcc := by
  obtain ⟨p0, p1, p2, p3, rfl⟩ := List.length_eq_four.mp hpart
  rfl

theorem decodeCard_twelve (b0 b1 : Byte) {rest : Bytes} (h : rest.length = 10) :
    decodeCard c (b0 :: b1 :: rest) = cardAuthOf c b0 b1 rest := by
  match rest, h with
  | [_, _, _, _, _, _, _, _, _, _], _ => rfl

theorem sector_byte : ∀ s : Byte, s.toNat ≤ 63 →
    (byteOfNat (4 * s.toNat)).toNat % 4 = 0 ∧ byteOfNat (4 * s.toNat) >>> 2 = s := by decide +kernel

theorem decodeCard_auth (hd : c.distinct = true) (keyB : Bool) {sector : Byte} {key uid4 : Bytes} (hs : sector.toNat ≤ 63)
    (hkey : key.length = 6) (hu : uid4.length = 4) :
    decodeCard c (authBytes c keyB sector key uid4) =
      .ok (if keyB then .cardAuthB sector key uid4 else .cardAuthA sector key uid4) := by
  obtain ⟨-, hauth, -, -⟩ := command_bytes_differ hd
  obtain ⟨hblk, hshift⟩ := sector_byte sector hs
  have hrest : (key ++ uid4).length = 10 := by rw [List.length_append, hkey, hu]
  have h : authBytes c keyB sector key uid4 = authByte c keyB :: byteOfNat (4 * sector.toNat) :: (key ++ uid4) := rfl
  rw [h, decodeCard_twelve _ _ hrest, cardAuthOf, if_pos ⟨hrest, hblk⟩, hshift, List.take_left' hkey, List.drop_left' hkey]
  cases keyB with
  | false => exact if_pos rfl
  | true => exact (if_neg hauth.symm).trans (if_pos rfl)

theorem decodeCard_encode {p : Config.Params} {i : Instr} (hport : i.port = .card) (hwf : i.wellFormed = true)
    (hd : p.card.distinct = true) : decodeCard p.card (encode p i) = .ok i := by
  obtain ⟨⟨h12, h13, h23⟩, -, ⟨hread, hwrite, hreadWrite⟩, -⟩ := command_bytes_differ hd
  cases i with
  | cardWupa => exact if_pos rfl
  | cardHlta => exact if_pos ⟨rfl, rfl⟩
  | cardRead a => exact (if_neg fun h => hread h.1.symm).trans (if_pos rfl)
  | cardWrite a => exact (if_neg fun h => hwrite h.1.symm).trans ((if_neg hreadWrite.symm).trans (if_pos rfl))
  | cardAnticollL1 => exact (decodeCard_anticoll hd (.inl rfl)).trans (if_pos rfl)
  | cardAnticollL2 => exact (decodeCard_anticoll hd (.inr (.inl rfl))).trans ((if_neg h12.symm).trans (if_pos rfl))
  | cardAnticollL3 =>
    exact (decodeCard_anticoll hd (.inr (.inr rfl))).trans
      ((if_neg h13.symm).trans ((if_neg h23.symm).trans (if_pos rfl)))
  | cardSelectL1 part k => exact (decodeCard_select _ k (beq_iff_eq.mp hwf)).trans (if_pos rfl)
  | cardSelectL2 part k =>
    exact (decodeCard_select _ k (beq_iff_eq.mp hwf)).trans ((if_neg h12.symm).trans (if_pos rfl))
  | cardSelectL3 part k =>
    exact (decodeCard_select _ k (beq_iff_eq.mp hwf)).trans
      ((if_neg h13.symm).trans ((if_neg h23.symm).trans (if_pos rfl)))
  | cardAuthA s key u =>
    obtain ⟨hs, hkey, hu⟩ := authFrame_wellFormed.mp hwf
    exact decodeCard_auth hd false hs hkey hu
  | cardAuthB s key u =>
    obtain ⟨hs, hkey, hu⟩ := authFrame_wellFormed.mp hwf
    exact decodeCard_auth hd true hs hkey hu
  | _ => cases hport

end

/-! ### The three encodings -/

theorem decodeBus_encode {p : Config.Params} {i : Instr} (hport : i.port = .bus) (hwf : i.wellFormed = true)
    (hread : i ≠ .busRegRead p.chip.fifoData.byte) (hwrite : ∀ v, i ≠ .busRegWrite p.chip.fifoData.byte v) :
    decodeBus p.chip (encode p i) = .ok i := by
  cases i with
  | busRegRead a => exact decodeBus_regRead _ (of_decide_eq_true hwf) fun h => hread (by rw [h])
  | busRegWrite a v => exact decodeBus_regWrite _ v (of_decide_eq_true hwf) fun h => hwrite v (by rw [h])
  | busFifoRead n => exact decodeBus_fifoRead _ hwf
  | busFifoWrite s => exact decodeBus_fifoWrite _ hwf
  | _ => cases hport

theorem port_of_decodeBus {c : Config.Chip} {f : Bytes} {i : Instr} (h : decodeBus c f = .ok i) : i.port = .bus := by
  unfold decodeBus at h
  repeat' split at h
  all_goals cases h
  all_goals rfl

theorem port_of_cardAnticollOf {c : Config.Card} {sel : Byte} {i : Instr} (h : cardAnticollOf c sel = .ok i) :
    i.port = .card := by
  unfold cardAnticollOf at h
  repeat' split at h
  all_goals cases h
  all_goals rfl

theorem port_of_cardSelectOf {c : Config.Card} {sel k : Byte} {part : Bytes} {i : Instr}
    (h : cardSelectOf c sel part k = .ok i) : i.port = .card := by
  unfold cardSelectOf at h
  repeat' split at h
  all_goals cases h
  all_goals rfl

theorem port_of_cardAuthOf {c : Config.Card} {sel blk : Byte} {rest : Bytes} {i : Instr}
    (h : cardAuthOf c sel blk rest = .ok i) : i.port = .card := by
  unfold cardAuthOf at h
  repeat' split at h
  all_goals cases h
  all_goals rfl

theorem port_of_decodeCard {c : Config.Card} {f : Bytes} {i : Instr} (h : decodeCard c f = .ok i) : i.port = .card := by
  unfold decodeCard at h
  split at h
  · split at h <;> cases h
    rfl
  · split at h
    · cases h; rfl
    · split at h
      · cases h; rfl
      · split at h
        · cases h; rfl
        · split at h
          · exact port_of_cardAnticollOf h
          · cases h
  · split at h
    · exact port_of_cardSelectOf h
    · cases h
  · exact port_of_cardAuthOf h
  · cases h

/-- A frame decodes to an instruction of the encoding it is offered in. -/
theorem port_of_decodeOffer {p : Config.Params} {o : Offer} {i : Instr} (h : decodeOffer p o = .ok i) :
    i.port = o.port := by
  obtain ⟨port, f⟩ := o
  cases port with
  | host => exact port_of_decodeHost h
  | bus => exact port_of_decodeBus h
  | card => exact port_of_decodeCard h

theorem decodeOffer_encode {p : Config.Params} {i : Instr} (hwf : i.wellFormed = true)
    (hcard : i.port = .card → p.card.distinct = true) (hread : i ≠ .busRegRead p.chip.fifoData.byte)
    (hwrite : ∀ v, i ≠ .busRegWrite p.chip.fifoData.byte v) : decodeOffer p ⟨i.port, encode p i⟩ = .ok i := by
  cases hport : i.port with
  | host => exact decodeHost_encode hport hwf
  | bus => exact decodeBus_encode hport hwf hread hwrite
  | card => exact decodeCard_encode hport hwf (hcard hport)

end Sys2Proof

namespace Sys2Proof.Proofs

open Machine

/-- Settles O5: by the encoding; the register frames at the FIFO-data address are FIFO frames of one byte as they stand. -/
theorem decodeUndoesEncode : Obligations.DecodeUndoesEncode :=
  ⟨fun _ _ hwf hcard hread hwrite => decodeOffer_encode hwf hcard hread hwrite, fun _ => ⟨rfl, fun _ => rfl⟩, by decide⟩

/-- Settles O6: every operand byte stands in the encoding of the instruction read from it. -/
theorem hostFramesReencode : Obligations.HostFramesReencode := fun _ _ _ h =>
  ⟨encode_of_decodeHost h, length_of_decodeHost h⟩

/-- Settles O7: the decoder computes each. -/
theorem writtenOutFramesDecode : Obligations.WrittenOutFramesDecode :=
  ⟨rfl, rfl, rfl, rfl, rfl, rfl, rfl, rfl, rfl, rfl, rfl⟩

end Sys2Proof.Proofs
end

section
/-! The acceptance of an offered frame (R122, R124), and what holds of every step: FATAL is sticky, a rejected frame is
`ERR_PARAM`, a host command ends with its result, and the invariant of the engine between commands is kept. -/

namespace Sys2Proof.Machine

/-! ### Bus and card frames run on their own (R140 to R143, R160) -/

/-- The multiplexer operation of a bus frame. -/
def busOperation : Instr → Option (State → State)
  | .busRegRead a => some fun s => (s.regRead a).2
  | .busRegWrite a v => some (State.regWrite a v)
  | .busFifoRead n => some fun s => (s.fifoRead n).2
  | .busFifoWrite b => some (State.fifoWrite b)
  | _ => none

/-- The descriptor of a card frame. -/
def cardDescriptor (p : Config.Params) : Instr → Option Descriptor
  | .cardWupa => some (wupaDesc p)
  | .cardAnticollL1 => some (anticollDesc p 1)
  | .cardSelectL1 part k => some (selectDesc p 1 part k)
  | .cardAnticollL2 => some (anticollDesc p 2)
  | .cardSelectL2 part k => some (selectDesc p 2 part k)
  | .cardAnticollL3 => some (anticollDesc p 3)
  | .cardSelectL3 part k => some (selectDesc p 3 part k)
  | .cardHlta => some (hltaDesc p)
  | .cardAuthA sec key u => some (authDesc p false sec key u)
  | .cardAuthB sec key u => some (authDesc p true sec key u)
  | .cardRead a => some (mfReadDesc p a)
  | .cardWrite b => some (mfWriteDesc p b)
  | _ => none

/-- An instruction is a host command, a bus frame or a card frame. -/
theorem busOperation_or_cardDescriptor {i : Instr} (p : Config.Params) (hport : i.port ≠ .host) :
    (∃ op, busOperation i = some op) ∨ ∃ d, cardDescriptor p i = some d := by
  cases i with
  | busRegRead _ | busRegWrite _ _ | busFifoRead _ | busFifoWrite _ => exact .inl ⟨_, rfl⟩
  | cardWupa | cardAnticollL1 | cardSelectL1 _ _ | cardAnticollL2 | cardSelectL2 _ _ | cardAnticollL3
  | cardSelectL3 _ _ | cardHlta | cardAuthA _ _ _ | cardAuthB _ _ _ | cardRead _ | cardWrite _ => exact .inr ⟨_, rfl⟩
  | _ => exact absurd rfl hport

/-- A bus frame is its operation. -/
theorem exec_busOperation {i : Instr} {op : State → State} (h : busOperation i = some op) (s : State) :
    exec i s = .next (s.internal op) := by
  cases i with
  | busRegRead _ | busRegWrite _ _ | busFifoRead _ | busFifoWrite _ => cases h; rfl
  | _ => cases h

/-- Only what a body does to the state at hand counts. -/
theorem State.internal_congr {s : State} {body body' : State → State} (h : body s = body' s) :
    s.internal body = s.internal body' := by rw [internal, internal, h]

/-- A card frame is one executor run. -/
theorem exec_cardDescriptor {i : Instr} {d : Descriptor} {s : State} (h : cardDescriptor s.params i = some d) :
    exec i s = .next (s.internal fun s => (s.runExec d).1) := by
  cases i with
  | cardWupa | cardAnticollL1 | cardSelectL1 _ _ | cardAnticollL2 | cardSelectL2 _ _ | cardAnticollL3
  | cardSelectL3 _ _ | cardHlta | cardAuthA _ _ _ | cardAuthB _ _ _ | cardRead _ | cardWrite _ =>
    cases h
    exact congrArg Host.Outcome.next (State.internal_congr rfl)
  | _ => cases h

theorem busOperation_busOnly {i : Instr} {op : State → State} (h : busOperation i = some op) (s : State) :
    BusOnly s (op s) := by
  cases i with
  | busRegRead a => cases h; exact State.regRead_busOnly a s
  | busRegWrite a v => cases h; exact State.regWrite_busOnly a v s
  | busFifoRead n => cases h; exact State.fifoRead_busOnly n s
  | busFifoWrite b => cases h; exact State.fifoWrite_busOnly b s
  | _ => cases h

/-- A bus or card frame outside FATAL is a stretch of bus operations, or a run that may end in FATAL. -/
theorem exec_frame_end {i : Instr} {s t : State} (hport : i.port ≠ .host) (hs : s.st ≠ .fatal) (h : exec i s = .next t) :
    ∃ st, StageEnd s t st := by
  rcases busOperation_or_cardDescriptor s.params hport with ⟨op, hop⟩ | ⟨d, hd⟩
  · rw [exec_busOperation hop, s.internal_run _ hs] at h
    cases h
    exact ⟨.ok, (busOperation_busOnly hop s).stretch.toStage (by decide)⟩
  · rw [exec_cardDescriptor hd, s.internal_run _ hs] at h
    cases h
    exact ⟨_, State.runExec_stage d s⟩

/-! ### Every instruction in FATAL (R404) -/

theorem exec_host_fatal {i : Instr} {s : State} (hport : i.port = .host) (hi : i ≠ .hardReset) (hs : s.st = .fatal) :
    exec i s = .next (s.writeResult .fatal []) := by
  cases i with
  | hardReset => exact absurd rfl hi
  | busRegRead _ | busRegWrite _ _ | busFifoRead _ | busFifoWrite _ => cases hport
  | cardWupa | cardAnticollL1 | cardSelectL1 _ _ | cardAnticollL2 | cardSelectL2 _ _ | cardAnticollL3
  | cardSelectL3 _ _ | cardHlta | cardAuthA _ _ _ | cardAuthB _ _ _ | cardRead _ | cardWrite _ => cases hport
  | _ => exact congrArg Host.Outcome.next (s.commandWith_fatal _ _ _ hs)

theorem exec_frame_fatal {i : Instr} {s : State} (hport : i.port ≠ .host) (hs : s.st = .fatal) :
    exec i s = .next s := by
  rcases busOperation_or_cardDescriptor s.params hport with ⟨op, hop⟩ | ⟨d, hd⟩
  · rw [exec_busOperation hop, s.internal_fatal _ hs]
  · rw [exec_cardDescriptor hd, s.internal_fatal _ hs]

theorem exec_next (i : Instr) (s : State) : ∃ t, exec i s = .next t := by cases i <;> exact ⟨_, rfl⟩

/-! ### The acceptance of a host frame (R122) -/

namespace State

variable {s : State} {f : Bytes}

/-- A host frame is taken: H_CMD holds it, and the engine is BUSY at the command's first step. -/
theorem acceptHost_busy (h : s.st ≠ .fatal ∨ f = hardResetFrame) (hf : f.length ≤ 255) :
    s.acceptHost f = { s with
      st := .busy
      pc := ⟨f.getD 0 0, .first⟩
      host := ⟨f, s.host.res, false⟩
      hist := s.hist ++ [.command f] } := by
  have hne : ¬((s.log (.command f)).st = .fatal ∧ f ≠ hardResetFrame) := by
    rintro ⟨hfatal, hframe⟩
    exact h.elim (absurd hfatal) (absurd · hframe)
  have htake : f.take hostFrameMax = f := List.take_of_length_le hf
  rw [acceptHost, if_neg hne, htake]
  rfl

/-- In FATAL a frame other than HARD_RESET's is only consumed. -/
theorem acceptHost_fatal (hs : s.st = .fatal) (hf : f ≠ hardResetFrame) : s.acceptHost f = s.log (.command f) :=
  if_pos ⟨hs, hf⟩

/-- What the acceptance of a host frame leaves alone, and the size of what it leaves in H_CMD. -/
structure Accepted (f : Bytes) (s u : State) : Prop where
  d : u.d = s.d
  ident : u.ident = s.ident
  work : u.work = s.work
  pRst : u.pRst = s.pRst
  params : u.params = s.params
  hist : u.hist = s.hist ++ [.command f]
  cmd : u.host.cmd.length ≤ 255 ∨ u.host.cmd = s.host.cmd

theorem acceptHost_accepted (f : Bytes) (s : State) : Accepted f s (s.acceptHost f) := by
  unfold acceptHost
  simp only
  split
  · exact ⟨rfl, rfl, rfl, rfl, rfl, rfl, .inr rfl⟩
  · exact ⟨rfl, rfl, rfl, rfl, rfl, rfl, .inl (List.length_take_le _ _)⟩

/-- A bus or card frame goes to its unit as it is. -/
theorem accept_frame {o : Offer} (h : o.port ≠ .host) (s : State) : s.accept o = s := by
  obtain ⟨port, frame⟩ := o
  cases port with
  | host => exact absurd rfl h
  | bus | card => rfl

/-! ### A rejected host frame (R124, R36) -/

theorem cleanKeys_cases (s : State) : s.cleanKeys = s.zeroKeys 3 9 ∨ s.cleanKeys = s.zeroKeys 12 204 ∨ s.cleanKeys = s := by
  unfold cleanKeys
  split
  · exact .inl rfl
  · split
    · exact .inr (.inl rfl)
    · exact .inr (.inr rfl)

theorem cleanKeys_auth (h : s.host.cmd.getD 0 0 = 0x40) : s.cleanKeys = s.zeroKeys 3 9 := if_pos h

theorem cleanKeys_classic (h : s.host.cmd.getD 0 0 = 0x43) : s.cleanKeys = s.zeroKeys 12 204 := by
  rw [cleanKeys, if_neg (by rw [h]; decide), if_pos h]
  rfl

theorem cleanKeys_other (h40 : s.host.cmd.getD 0 0 ≠ 0x40) (h43 : s.host.cmd.getD 0 0 ≠ 0x43) : s.cleanKeys = s := by
  rw [cleanKeys, if_neg h40, if_neg h43]

theorem cleanKeys_st (s : State) : s.cleanKeys.st = s.st := by
  rcases s.cleanKeys_cases with h | h | h <;> rw [h] <;> rfl

theorem rejectHost_param (hs : s.st ≠ .fatal) : s.rejectHost = s.cleanKeys.answered 0x02 [] :=
  commandWith_param hs s.cleanKeys_st rfl

theorem rejectHost_fatal (hs : s.st = .fatal) : s.rejectHost = s.writeResult .fatal [] := commandWith_fatal _ _ _ _ hs

theorem rejectHost_command (s : State) : CommandEnd False s s.rejectHost := by
  refine commandWith_command (fun hs => ?_) fun _ h => by cases h
  rcases s.cleanKeys_cases with h | h | h <;> rw [h]
  · exact zeroKeys_command 3 9 (by decide) (param_command _ hs)
  · exact zeroKeys_command 12 204 (by decide) (param_command _ hs)
  · exact param_command _ hs

theorem rejectHost_regs (s : State) : RegsKept s s.rejectHost := by
  refine commandWith_regs ?_ fun h => by cases h
  rcases s.cleanKeys_cases with h | h | h <;> rw [h]
  · exact zeroKeys_regs 3 9 s
  · exact zeroKeys_regs 12 204 s
  · exact RegsKept.refl s

end State

/-- A host instruction with an operand out of range is rejected as an undecodable frame of its opcode is (R124, R36). -/
theorem exec_illFormed {i : Instr} {u : State} {p : Config.Params} (hport : i.port = .host) (hwf : i.wellFormed = false)
    (hs : u.st ≠ .fatal) (hcmd : u.host.cmd = encode p i) : exec i u = .next u.rejectHost := by
  have hother {ok : Bool} {body : State → State} (hok : ok = false) (h40 : (encode p i).getD 0 0 ≠ 0x40)
      (h43 : (encode p i).getD 0 0 ≠ 0x43) : u.command ok body = u.rejectHost := by
    rw [State.rejectHost_param hs, State.cleanKeys_other (by rw [hcmd]; exact h40) (by rw [hcmd]; exact h43)]
    exact State.command_bad hs hok
  have hkeys {clean body : State → State} {ok : Bool} (hok : ok = false) (hst : (clean u).st = u.st)
      (hc : u.cleanKeys = clean u) : u.commandWith clean ok body = u.rejectHost := by
    rw [State.rejectHost_param hs, hc]
    exact State.commandWith_param hs hst hok
  cases i with
  | regRead _ | regWrite _ _ | regModify _ _ _ | fifoWrite _ | execute _ | carrier _ | anticoll _ | select _ _ _
  | writeBlock _ _ =>
    exact congrArg Host.Outcome.next (hother hwf (by simp [encode, HostOp.code]) (by simp [encode, HostOp.code]))
  | auth k sec key uid =>
    have hc : u.cleanKeys = u.zeroAuthKeys := State.cleanKeys_auth (by rw [hcmd]; rfl)
    exact congrArg Host.Outcome.next (hkeys hwf rfl hc)
  | readClassic ul uid ka kb =>
    have hc : u.cleanKeys = u.zeroClassicKeys := State.cleanKeys_classic (by rw [hcmd]; rfl)
    exact congrArg Host.Outcome.next (hkeys hwf rfl hc)
  | fifoRead _ | setTimeout _ | hardReset | startSession | endSession | init | wakeup | halt | scan | readBlock _
  | readPage _ | readUltralight => cases hwf
  | _ => cases hport

/-! ### A step takes the oldest offered frame (R122) -/

section
variable {s : State} {o : Offer} {rest : List Offer} {f : Bytes}

theorem step_of_waiting (h : s.st = .idle ∨ s.st = .fatal) (ho : s.offers = []) : step s = .next s := by
  rcases h with h | h <;> rw [step, h, takeNext, ho]

theorem step_of_offer (h : s.st = .idle ∨ s.st = .fatal) (ho : s.offers = o :: rest) :
    step s = runOffer o (s.setOffers rest) := by
  rcases h with h | h <;> rw [step, h, takeNext, ho]

theorem runOffer_of_ok {i : Instr} (hd : decodeOffer s.params o = .ok i) : runOffer o s = exec i (s.accept o) := by
  rw [runOffer, hd]

theorem runOffer_of_error {e : DecodeError} (hd : decodeOffer s.params o = .error e) :
    runOffer o s = rejectOffer o (s.accept o) := by rw [runOffer, hd]

/-- A byte string offered as a bus or card frame that is none has no next state. -/
theorem rejectOffer_frame {t : State} (h : o.port ≠ .host) : rejectOffer o s ≠ .next t := by
  obtain ⟨port, frame⟩ := o
  cases port with
  | host => exact absurd rfl h
  | bus | card => nofun

/-- A host frame is HARD_RESET's exactly where it decodes to HARD_RESET (R261). -/
theorem eq_hardResetFrame_iff {i : Instr} (hd : decodeHost f = .ok i) : f = State.hardResetFrame ↔ i = .hardReset := by
  constructor
  · rintro rfl
    cases hd
    rfl
  · rintro rfl
    exact (encode_of_decodeHost (p := Config.params) hd).symm

/-- A host frame that is the frame of no well-formed instruction is rejected, outside FATAL and in it (R124). -/
theorem runOffer_invalid {p : Config.Params} (hmax : f.length ≤ 255)
    (hinvalid : ∀ i : Instr, i.port = .host → i.wellFormed = true → encode p i ≠ f) :
    runOffer ⟨.host, f⟩ s = .next (s.acceptHost f).rejectHost := by
  have hframe : f ≠ State.hardResetFrame := fun h => hinvalid .hardReset rfl rfl h.symm
  cases hd : decodeHost f with
  | error e => exact runOffer_of_error (o := ⟨.host, f⟩) hd
  | ok i =>
    rw [runOffer_of_ok (s := s) (o := ⟨.host, f⟩) hd]
    have henc := encode_of_decodeHost (p := p) hd
    have hport : i.port = .host := port_of_decodeHost hd
    have hwf : i.wellFormed = false := by
      cases h : i.wellFormed with
      | false => rfl
      | true => exact absurd henc (hinvalid i hport h)
    change exec i (s.acceptHost f) = _
    by_cases hs : s.st = .fatal
    · have hi : i ≠ .hardReset := fun h => hframe ((eq_hardResetFrame_iff hd).mpr h)
      rw [State.acceptHost_fatal hs hframe, State.rejectHost_fatal (s := s.log (.command f)) hs]
      exact exec_host_fatal (s := s.log (.command f)) hport hi hs
    · have hbusy := State.acceptHost_busy (.inl hs) hmax
      exact exec_illFormed (p := p) hport hwf (by rw [hbusy]; nofun) (by rw [hbusy, henc])

end

/-! ### The bytes of H_CMD that hold keys (R334) -/

theorem zeroRange_eq_mapIdx {lo hi : Nat} (h : lo ≤ hi) (b : Bytes) :
    zeroRange lo hi b = b.mapIdx fun k x => if lo ≤ k ∧ k < hi then 0 else x := by
  apply List.ext_getElem
  · rw [State.zeroRange_length lo hi b h, List.length_mapIdx]
  · intro k hk hk'
    rw [List.length_mapIdx] at hk'
    simp only [zeroRange, List.getElem_mapIdx, List.getElem_append, List.length_append, List.length_take,
      List.length_replicate, List.getElem_take, List.getElem_replicate, List.getElem_drop]
    split
    · next hlo =>
      split
      · next hlo' => rw [if_neg (by omega)]
      · next hlo' => rw [if_pos (by omega)]
    · next hhi =>
      rw [if_neg (by omega)]
      congr 1
      omega

/-! ### The invariant of the engine between commands -/

/-- The result frame of a payload of at most 1024 bytes is well formed (R121). -/
theorem resultFrame_length (st : Status) {data : Bytes} (h : data.length ≤ 1024) :
    3 ≤ (State.resultFrame st data).length ∧
      (State.resultFrame st data).length = 3 + ((State.resultFrame st data).getD 1 0).toNat +
        256 * ((State.resultFrame st data).getD 2 0).toNat ∧
      (State.resultFrame st data).length ≤ 1027 := by
  have hlen : (State.resultFrame st data).length = 3 + data.length := by
    simp only [State.resultFrame, List.length_append, List.length_cons, List.length_nil]
  have h1 : ((State.resultFrame st data).getD 1 0).toNat = data.length % 256 := BitVec.toNat_ofNat ..
  have h2 : ((State.resultFrame st data).getD 2 0).toNat = data.length / 256 % 256 := BitVec.toNat_ofNat ..
  rw [h1, h2, hlen]
  omega

theorem resultWellFormed_resultFrame (st : Status) {data : Bytes} (h : data.length ≤ 1024) :
    resultWellFormed (State.resultFrame st data) = true := by
  obtain ⟨h3, hlen, hmax⟩ := resultFrame_length st h
  simp only [resultWellFormed, Bool.or_eq_true, Bool.and_eq_true, decide_eq_true_eq, beq_iff_eq]
  exact .inr ⟨⟨h3, hlen⟩, hmax⟩

/-- Every transfer of a stretch of bus operations is well framed, so the record stays well framed. -/
theorem framed_append {h evs : List Event} (hh : ∀ e ∈ h, e.wellFramed = true) (hevs : ∀ e ∈ evs, e.wellFramed = true) :
    ∀ e ∈ h ++ evs, e.wellFramed = true := fun e he => (List.mem_append.mp he).elim (hh e) (hevs e)

/-- What a host command is entered with. -/
structure Entered (u : State) : Prop where
  receive : ReceiveInv u.d
  cmd : u.host.cmd.length ≤ 255
  framed : ∀ e ∈ u.hist, e.wellFramed = true

/-- A host command that ends keeps the invariant, if it keeps the registers' sizes and leaves no key. -/
theorem CommandEnd.inv {x : Prop} {u t : State} (k : CommandEnd x u t) (hu : Entered u) (hident : IdentInv t.ident)
    (hwork : WorkInv t.work) (hkeys : t.st ≠ .fatal → KeysZero t.work) (hpRst : t.pRst = true) : Inv t := by
  obtain ⟨evs, st, data, hquiet, hhist, ans⟩ := k.ends
  have hne : t.host.res ≠ [] := by rw [ans.res]; exact List.cons_ne_nil _ _
  refine ⟨?notBusy, k.receive hu.receive, hident, hwork, ⟨k.cmd ▸ hu.cmd, ?res, fun _ => hne⟩, hkeys, ?fatal,
    fun _ => hpRst, ?framed⟩
  case notBusy => rcases ans.state with ⟨h, -⟩ | ⟨h, -⟩ <;> rw [h] <;> decide
  case res => rw [ans.res]; exact resultWellFormed_resultFrame st ans.size
  case fatal =>
    intro hfatal
    rcases ans.state with ⟨h, -⟩ | ⟨-, rfl, rfl⟩
    · rw [h] at hfatal; cases hfatal
    · exact ⟨ans.res, ans.valid⟩
  case framed =>
    rw [hhist]
    exact framed_append (framed_append hu.framed fun e he => (hquiet e he).2) (by simp [Event.wellFramed])

/-- A bus or card frame outside FATAL keeps the invariant, if it keeps the registers' sizes and leaves no key. -/
theorem StageEnd.inv {s t : State} {st : Status} (h : StageEnd s t st) (hs : Inv s) (hidle : s.st = .idle)
    (hident : IdentInv t.ident) (hwork : WorkInv t.work) (hkeys : t.st ≠ .fatal → KeysZero t.work) : Inv t := by
  have hrel : s.pRst = true := hs.released (by rw [hidle]; decide)
  by_cases hst : st = .fatal
  case neg =>
    have k := h.goes hst
    obtain ⟨evs, hhist, hbus⟩ := k.hist
    have ht : t.st = .idle := k.st.trans hidle
    exact ⟨by rw [ht]; nofun, k.receive hs.receive, hident, hwork, k.host ▸ hs.host, hkeys, by rw [ht]; nofun,
      fun _ => k.pRst.trans hrel, hhist ▸ framed_append hs.framed fun e he => (hbus e he).2⟩
  case pos =>
    have k := h.breaks hst
    obtain ⟨evs, hhist, hbus⟩ := k.hist
    have hhost : HostInv t.host := k.host ▸ ⟨hs.host.cmd, rfl, fun _ => List.cons_ne_nil _ _⟩
    have hfatal : t.host.res = [0xFF, 0x00, 0x00] ∧ t.host.resValid = true := k.host ▸ ⟨rfl, rfl⟩
    refine ⟨by rw [k.st]; nofun, k.receive, hident, hwork, hhost, hkeys, fun _ => hfatal, fun _ => k.pRst.trans hrel,
      ?framed⟩
    rw [hhist]
    exact framed_append (framed_append hs.framed fun e he => (hbus e he).2) (by simp [Event.wellFramed])

theorem Inv.setOffers {s : State} (h : Inv s) (rest : List Offer) : Inv (s.setOffers rest) :=
  ⟨h.notBusy, h.receive, h.ident, h.work, h.host, h.keys, h.fatal, h.released, h.framed⟩

theorem State.Accepted.entered {f : Bytes} {s u : State} (h : State.Accepted f s u) (hs : Inv s) : Entered u := by
  refine ⟨h.d ▸ hs.receive, h.cmd.elim id fun hcmd => hcmd ▸ hs.host.cmd, ?framed⟩
  rw [h.hist]
  exact framed_append hs.framed (by simp [Event.wellFramed])

/-- HARD_RESET zeroes the keys (R261). -/
theorem hardReset_keysZero (u : State) : KeysZero (u.hardResetBody.finish .ok []).work := by
  rw [State.finish_work, State.hardResetBody_eq]
  exact ⟨rfl, rfl⟩

/-- The step that takes a host frame keeps the invariant: the keys are zero when the command is entered, but in FATAL, where
only HARD_RESET runs. -/
theorem runOffer_host_inv {f : Bytes} {s t : State} (hs : Inv s) (hst : s.st = .idle ∨ s.st = .fatal)
    (h : runOffer ⟨.host, f⟩ s = .next t) : Inv t := by
  have hacc := State.acceptHost_accepted f s
  have hpRst : (s.acceptHost f).pRst = true := by
    rw [hacc.pRst]
    exact hs.released (by rcases hst with h | h <;> rw [h] <;> decide)
  have hident : IdentInv (s.acceptHost f).ident := hacc.ident ▸ hs.ident
  have hwork : WorkInv (s.acceptHost f).work := hacc.work ▸ hs.work
  have hkeys (hidle : s.st = .idle) : KeysZero (s.acceptHost f).work :=
    hacc.work ▸ hs.keys (by rw [hidle]; decide)
  cases hd : decodeHost f with
  | error e =>
    have hreject : Host.Outcome.next (s.acceptHost f).rejectHost = .next t :=
      (runOffer_of_error (s := s) (o := ⟨.host, f⟩) hd).symm.trans h
    cases hreject
    have k := State.rejectHost_regs (s.acceptHost f)
    refine (State.rejectHost_command _).inv (hacc.entered hs) (k.ident hident) (k.work hwork) (fun hn => ?_) (k.pRst hpRst)
    rcases hst with hidle | hfatal
    · exact k.keys (hkeys hidle)
    · have hframe : f ≠ State.hardResetFrame := by rintro rfl; cases hd
      rw [State.acceptHost_fatal hfatal hframe, State.rejectHost_fatal (s := s.log (.command f)) hfatal] at hn
      exact absurd hfatal hn
  | ok i =>
    have hexec : exec i (s.acceptHost f) = .next t := (runOffer_of_ok (s := s) (o := ⟨.host, f⟩) hd).symm.trans h
    have hport := port_of_decodeHost hd
    obtain ⟨ki, kw, kk, kp⟩ := exec_regs i _ t hexec
    refine (exec_command i hport _ t hexec).inv (hacc.entered hs) (ki hident) (kw hwork) (fun hn => ?_) (kp hpRst)
    rcases hst with hidle | hfatal
    · exact kk (hkeys hidle) hn
    · by_cases hi : i = .hardReset
      · subst hi
        cases hexec
        exact hardReset_keysZero _
      · rw [State.acceptHost_fatal hfatal fun hf => hi ((eq_hardResetFrame_iff hd).mp hf),
          exec_host_fatal (s := s.log (.command f)) hport hi hfatal] at hexec
        cases hexec
        exact absurd hfatal hn

/-- The step that takes a bus or card frame keeps the invariant. -/
theorem runOffer_frame_inv {o : Offer} {s t : State} (hport : o.port ≠ .host) (hs : Inv s)
    (hst : s.st = .idle ∨ s.st = .fatal) (h : runOffer o s = .next t) : Inv t := by
  cases hd : decodeOffer s.params o with
  | error e => exact absurd ((runOffer_of_error hd).symm.trans h) (rejectOffer_frame hport)
  | ok i =>
    have hexec : exec i s = .next t := by
      rw [← State.accept_frame hport s, ← runOffer_of_ok hd]
      exact h
    have hi : i.port ≠ .host := by rwa [port_of_decodeOffer hd]
    rcases hst with hidle | hfatal
    · have hs' : s.st ≠ .fatal := by rw [hidle]; nofun
      obtain ⟨ki, kw, kk, -⟩ := exec_regs i s t hexec
      obtain ⟨st, hend⟩ := exec_frame_end hi hs' hexec
      exact hend.inv hs hidle (ki hs.ident) (kw hs.work) (kk (hs.keys hs'))
    · cases (exec_frame_fatal hi hfatal).symm.trans hexec
      exact hs

theorem powerUpSequence_inv {s : State} (hs : Inv s) : Inv s.powerUpSequence := by
  rw [State.powerUpSequence_eq]
  exact ⟨nofun, hs.receive, hs.ident, ⟨hs.work.image, hs.work.uid, zeroKeyBank_shaped, zeroKeyBank_shaped⟩,
    ⟨Nat.zero_le _, rfl, nofun⟩, fun _ => ⟨rfl, rfl⟩, nofun, fun _ => rfl,
    framed_append hs.framed (by simp [Event.wellFramed])⟩

/-- Every step keeps the invariant. -/
theorem step_inv {s t : State} (hs : Inv s) (h : step s = .next t) : Inv t := by
  cases hst : s.st with
  | reset =>
    cases (step_of_reset hst).symm.trans h
    exact powerUpSequence_inv hs
  | busy => exact absurd hst hs.notBusy
  | idle | fatal =>
    have hst' : s.st = .idle ∨ s.st = .fatal := by rw [hst]; simp
    cases ho : s.offers with
    | nil =>
      cases (step_of_waiting hst' ho).symm.trans h
      exact hs
    | cons o rest =>
      have hrun := (step_of_offer hst' ho).symm.trans h
      obtain ⟨port, f⟩ := o
      cases port with
      | host => exact runOffer_host_inv (hs.setOffers rest) hst' hrun
      | bus | card => exact runOffer_frame_inv (fun h => by cases h) (hs.setOffers rest) hst' hrun

end Sys2Proof.Machine
end
section
/-! The statements on encoding, acceptance and the whole machine, and the values at reset. -/

namespace Sys2Proof.Machine.State

/-- The bytes of H_CMD and the key registers that a rejected frame's opcode asks to zero (R36, R334). -/
theorem cleanKeys_eq {u : State} {op : Byte} (hop : u.host.cmd.getD 0 0 = op) : u.cleanKeys = { u with
    work := if op = 0x40 ∨ op = 0x43 then { u.work with keyA := zeroKeyBank, keyB := zeroKeyBank } else u.work
    host := { u.host with cmd := u.host.cmd.mapIdx fun k b =>
      if (op = 0x40 ∧ 3 ≤ k ∧ k ≤ 8) ∨ (op = 0x43 ∧ 12 ≤ k ∧ k ≤ 203) then 0 else b } } := by
  by_cases h40 : op = 0x40
  · subst h40
    rw [cleanKeys_auth hop]
    apply ext_fields <;> simp [zeroRange_eq_mapIdx, Nat.lt_succ_iff]
  · by_cases h43 : op = 0x43
    · subst h43
      rw [cleanKeys_classic hop]
      apply ext_fields <;> simp [zeroRange_eq_mapIdx, Nat.lt_succ_iff]
    · rw [cleanKeys_other (by rw [hop]; exact h40) (by rw [hop]; exact h43)]
      simp only [h40, h43, false_and, or_self, if_false]
      have hcmd : u.host.cmd.mapIdx (fun _ b => b) = u.host.cmd := List.ext_getElem (by simp) (by simp)
      apply ext_fields <;> simp only [hcmd]

end Sys2Proof.Machine.State

namespace Sys2Proof.Proofs

open Machine

/-- Settles O1: each register is a field of the state at reset. -/
theorem resetHoldsTheStatedValues : Obligations.ResetHoldsTheStatedValues :=
  ⟨rfl, rfl, rfl, rfl, rfl, rfl, rfl, rfl, rfl⟩

/-- Settles O3: clause by clause; the four events of the power-up sequence are no transfers. -/
theorem resetSatisfiesTheInvariant : Obligations.ResetSatisfiesTheInvariant where
  notBusy := nofun
  receive := ⟨rfl, by decide, by decide⟩
  ident := ⟨rfl, by decide, rfl, rfl⟩
  work := ⟨by decide, by decide, zeroKeyBank_shaped, zeroKeyBank_shaped⟩
  host := ⟨by decide, rfl, nofun⟩
  keys := fun _ => ⟨rfl, rfl⟩
  fatal := nofun
  released := fun _ => rfl
  framed := by simp [State.reset, Event.wellFramed]

/-- Settles O4: by the state of the engine, then by the port of the frame that is taken. -/
theorem everyStepKeepsTheInvariant : Obligations.EveryStepKeepsTheInvariant := fun _ _ hs h => step_inv hs h

/-- Settles O8: a frame that does not decode and an instruction with an operand out of range are rejected alike. -/
theorem invalidHostFrameIsErrParam : Obligations.InvalidHostFrameIsErrParam := by
  intro s f rest op hs hoffers _ hmax hop hinvalid
  have hidle : (s.setOffers rest).st ≠ .fatal := by rw [State.setOffers_st, hs]; nofun
  have hbusy := State.acceptHost_busy (f := f) (.inl hidle) hmax
  rw [step_of_offer (.inl hs) hoffers, runOffer_invalid hmax hinvalid, State.rejectHost_param (by rw [hbusy]; nofun),
    State.cleanKeys_eq (op := op) (by rw [hbusy]; exact hop), hbusy]
  refine congrArg Host.Outcome.next
    (State.ext_fields hs.symm (by rw [← hop]; rfl) rfl rfl rfl rfl rfl rfl rfl rfl rfl rfl rfl (List.append_assoc ..))

/-- Settles O9: by the port and the state; only HARD_RESET's frame decodes to HARD_RESET. -/
theorem stepRunsTheDecodedFrame : Obligations.StepRunsTheDecodedFrame := by
  intro s o rest i hd hoffers
  have hrun (hs : s.st = .idle ∨ s.st = .fatal) : step s = exec i ((s.setOffers rest).accept o) :=
    (step_of_offer hs hoffers).trans (runOffer_of_ok (s := s.setOffers rest) hd)
  obtain ⟨port, f⟩ := o
  refine ⟨?host, ?fatal, ?frame, fun hs => step_of_waiting hs rfl⟩
  case host =>
    rintro rfl hs
    have hframe : (s.setOffers rest).st ≠ .fatal ∨ f = State.hardResetFrame :=
      hs.imp (fun h => by rw [State.setOffers_st, h]; nofun) fun h => (eq_hardResetFrame_iff hd).mpr h.2
    rw [hrun (hs.imp_right And.left)]
    exact congrArg (exec i) (State.acceptHost_busy hframe (length_of_decodeHost hd).2)
  case fatal =>
    rintro rfl hs hi
    rw [hrun (.inr hs)]
    exact congrArg (exec i) (State.acceptHost_fatal hs fun h => hi ((eq_hardResetFrame_iff hd).mp h))
  case frame =>
    intro hport hs
    rw [hrun hs, State.accept_frame hport]
    rfl

/-- Settles O55: no command but HARD_RESET runs in FATAL, and a rejected frame is answered as a command is. -/
theorem fatalIsSticky : Obligations.FatalIsSticky := by
  intro i s hs
  refine ⟨fun hport hi => exec_host_fatal hport hi hs, fun hport => exec_frame_fatal hport hs, ?invalid⟩
  intro f rest hoffers _ hmax hinvalid
  have hframe : f ≠ State.hardResetFrame := fun h => hinvalid .hardReset rfl rfl h.symm
  rw [step_of_offer (.inr hs) hoffers, runOffer_invalid hmax hinvalid, State.acceptHost_fatal (s := s.setOffers rest) hs hframe,
    State.rejectHost_fatal (s := (s.setOffers rest).log (.command f)) hs, State.writeResult_fatal]
  exact congrArg Host.Outcome.next (State.ext_fields rfl rfl rfl rfl rfl rfl rfl rfl rfl rfl rfl rfl rfl (List.append_assoc ..))

/-- Settles O56: every host command ends with one result frame (`CommandEnd`). -/
theorem hostCommandEndsWithItsResult : Obligations.HostCommandEndsWithItsResult := by
  intro i s hport
  obtain ⟨t, h⟩ := exec_next i s
  obtain ⟨evs, st, data, hquiet, hhist, ans⟩ := (exec_command i hport s t h).ends
  obtain ⟨h3, hlen, hmax⟩ := resultFrame_length st ans.size
  refine ⟨t, h, ans.valid, ans.state.imp And.left And.left, ?_⟩
  rw [ans.res]
  exact ⟨h3, hlen, hmax, evs, hhist, hquiet⟩

/-- Settles O57: the status of the one result frame is a produced one, with a payload on `OK` and for EXECUTE alone. -/
theorem nothingPartialIsReturned : Obligations.NothingPartialIsReturned := by
  intro i s t hport h
  obtain ⟨evs, st, data, -, -, ans⟩ := (exec_command i hport s t h).ends
  obtain ⟨hgeneric, hchip⟩ := ans.produced
  rw [ans.res]
  have hcode : (State.resultFrame st data).getD 0 0 = st.code := rfl
  rw [hcode]
  constructor
  · cases st <;> first | exact absurd rfl hgeneric | exact absurd rfl hchip | decide
  · intro hi hst
    have hok : st ≠ .ok := by rintro rfl; exact hst rfl
    rw [ans.empty hok fun ⟨d, hd⟩ => hi d hd]
    rfl

/-- Settles O59: the default tables are finite, and every field reads and writes the bits of its mask. -/
theorem defaultParametersAreTheSpecs : Obligations.DefaultParametersAreTheSpecs := by
  refine ⟨⟨rfl, rfl⟩, ?chip, ?card⟩
  case chip =>
    rintro c rfl
    exact ⟨rfl, rfl, rfl, rfl, ⟨rfl, rfl, rfl⟩, by decide +kernel, by decide +kernel, by decide +kernel⟩
  case card =>
    rintro c rfl
    exact ⟨rfl, rfl, rfl, by decide +kernel⟩

end Sys2Proof.Proofs
end

section
/-! The bus transfer and the frames of the opcode table's other rows; the closed form of the prescaler; what changes the session
and the reset line. -/

namespace Sys2Proof.Machine

/-! ### The prescaler in closed form (R201) -/

/-- With `q = N / 65536`, a prescaler fits exactly from `⌈q / 2⌉` on. -/
theorem reload_fits_iff_half {N p : Nat} : N / (p * 2 + 1) ≤ Config.reloadMax ↔ (N / 65536 + 1) / 2 ≤ p := by
  rw [reload_fits_iff]
  omega

theorem timerPair_closed_form {t : Nat} (h : (timerTicks t / 65536 + 1) / 2 ≤ Config.prescalerMax) :
    timerPair t = ((timerTicks t / 65536 + 1) / 2, timerTicks t / ((timerTicks t / 65536 + 1) / 2 * 2 + 1)) :=
  timerPair_first h (reload_fits_iff_half.mpr (Nat.le_refl _)) fun _ hk =>
    Nat.lt_of_not_le fun hfit => Nat.not_le.mpr hk (reload_fits_iff_half.mp hfit)

/-! ### The session and the reset line (R34, R38, R260) -/

namespace State

/-- The session registers and the reset line. -/
def lines (s : State) : Session × Bool := (s.sess, s.pRst)

variable {s : State}

@[simp] theorem lines_atLine (l : Line) (s : State) : (s.atLine l).lines = s.lines := rfl

@[simp] theorem lines_setIdent (v : Ident) (s : State) : (s.setIdent v).lines = s.lines := rfl

@[simp] theorem lines_setWork (v : Work) (s : State) : (s.setWork v).lines = s.lines := rfl

@[simp] theorem lines_zeroKeys (lo hi : Nat) (s : State) : (s.zeroKeys lo hi).lines = s.lines := rfl

@[simp] theorem lines_writeResult (st : Status) (data : Bytes) (s : State) : (s.writeResult st data).lines = s.lines := rfl

@[simp] theorem lines_finish (st : Status) (data : Bytes) (s : State) : (s.finish st data).lines = s.lines := by
  simp [lines]

@[simp] theorem lines_fail (st : Status) (s : State) : (s.fail st).lines = s.lines := lines_finish ..

end State

theorem Kept.lines {s t : State} (h : Kept s t) : t.lines = s.lines := Prod.ext h.sess h.pRst

theorem BusOnly.lines {s t : State} (h : BusOnly s t) : t.lines = s.lines := Prod.ext h.sess h.pRst

theorem StageEnd.lines {s t : State} {st : Status} (h : StageEnd s t st) : t.lines = s.lines := by
  by_cases hst : st = .fatal
  · exact Prod.ext (h.breaks hst).sess (h.breaks hst).pRst
  · exact Prod.ext (h.goes hst).sess (h.goes hst).pRst

namespace State

variable {s : State}

theorem lines_commandWith {clean body : State → State} {ok : Bool} (hc : (clean s).lines = s.lines)
    (hb : (body s).lines = s.lines) : (s.commandWith clean ok body).lines = s.lines := by
  unfold commandWith
  split
  · rfl
  · split
    · exact hb
    · exact (lines_fail ..).trans hc

theorem lines_command {ok : Bool} {body : State → State} (hb : (body s).lines = s.lines) :
    (s.command ok body).lines = s.lines := lines_commandWith rfl hb

/-- The end of a command from a stage's answer keeps the lines if the rest of the command does. -/
theorem lines_afterStage {r : State × Status} {k : State → State} (h : r.1.lines = s.lines)
    (hk : (k r.1).lines = r.1.lines) : (afterStage r k).lines = s.lines := by
  unfold afterStage
  split
  · exact h
  · split
    · exact hk.trans h
    · exact (lines_fail ..).trans h

/-- A command that is one stage and its answer. -/
theorem lines_stageCommand {r : State × Status} {data : State → Bytes} (h : StageEnd s r.1 r.2) :
    (afterStage r fun u => u.finish .ok (data u)).lines = s.lines := lines_afterStage h.lines (lines_finish ..)

theorem lines_withExec {d : Descriptor} {k : State → Status → State} (hk : ∀ u st, (k u st).lines = u.lines) :
    (s.withExec d k).lines = s.lines := by
  unfold withExec
  simp only
  split
  · exact (runExec_kept d s).lines
  · exact (hk _ _).trans (runExec_kept d s).lines

theorem lines_scanFinish (levels : Nat) (s : State) : (s.scanFinish levels).lines = s.lines := by simp [scanFinish]

theorem lines_scanCascade (s : State) : s.scanCascade.lines = s.lines := by
  unfold scanCascade
  split
  · exact lines_fail ..
  · exact lines_afterStage (cascadeLoop_end ..).lines (lines_afterStage (scanHalt_end _).lines (lines_scanFinish ..))

theorem lines_scanBody (s : State) : s.scanBody.lines = s.lines := by
  refine lines_afterStage (by rw [(wakeupStage_end _).lines, lines_setIdent, lines_atLine]) ?_
  rw [lines_scanCascade, lines_setIdent, lines_atLine]

theorem lines_authInstr (k sec : Byte) (key u : Bytes) (s : State) : (s.authInstr k sec key u).lines = s.lines := by
  have h := (authBody_end (k == 1) sec key u s).lines
  unfold authInstr
  simp only
  repeat' split
  all_goals simpa [zeroAuthKeys_eq] using h

theorem lines_sectorLoop (n sec : Nat) (s : State) : (s.sectorLoop n sec).1.lines = s.lines := by
  induction n generalizing sec s with
  | zero => rfl
  | succ n ih =>
    have hread := (readSector_end sec s).stage.lines
    unfold sectorLoop
    simp only
    split
    · rw [ih]; exact hread
    · exact hread

theorem lines_readClassicBody (ul : Byte) (u a b : Bytes) (s : State) : (s.readClassicBody ul u a b).lines = s.lines := by
  have h := lines_sectorLoop Config.sectors 0 (s.loadClassic ul u a b)
  have hload : (s.loadClassic ul u a b).lines = s.lines := rfl
  unfold readClassicBody
  simp only
  repeat' split
  all_goals simpa [zeroClassicKeys_eq, hload] using h

theorem lines_writeBlockBody (b : Byte) (data : Bytes) (s : State) : (s.writeBlockBody b data).lines = s.lines :=
  lines_afterStage (writePhase_end ..).lines (lines_afterStage (writePhase_end ..).lines (lines_finish ..))

theorem lines_windowFailed (s : State) : s.windowFailed.lines = s.lines := by
  unfold windowFailed
  simp only
  split <;> simp

theorem lines_windowRead (s : State) : s.windowRead.lines = s.lines := rfl

theorem lines_windowLoop (fuel : Nat) (s : State) : (windowLoop fuel s).lines = s.lines := by
  induction fuel generalizing s with
  | zero => exact lines_finish ..
  | succ fuel ih =>
    have hread : ((s.atLine .window).readStage s.work.page).1.lines = s.lines := (readStage_kept _ _).lines
    unfold windowLoop
    simp only
    split
    · split
      · exact hread
      · split
        · rw [ih, lines_windowRead, hread]
        · rw [lines_windowFailed, hread]
    · exact lines_finish ..

end State

/-- Every instruction but the four of the session keeps the session registers and the reset line (R260). -/
theorem exec_lines {i : Instr} {s t : State} (h : exec i s = .next t) (hreset : i ≠ .hardReset) (hstart : i ≠ .startSession)
    (hend : i ≠ .endSession) (hcarrier : ∀ m, i ≠ .carrier m) : t.lines = s.lines := by
  by_cases hport : i.port = .host
  case neg =>
    by_cases hs : s.st = .fatal
    · cases (exec_frame_fatal hport hs).symm.trans h
      rfl
    · obtain ⟨st, k⟩ := exec_frame_end hport hs h
      exact k.lines
  case pos =>
    have hbus {l : Line} {ok : Bool} {data : State → Bytes} {op : State → State} (k : BusOnly (s.atLine l) (op s)) :
        (s.command ok fun u => (op u).finish .ok (data u)).lines = s.lines :=
      State.lines_command ((State.lines_finish ..).trans k.lines)
    cases i with
    | hardReset => exact absurd rfl hreset
    | startSession => exact absurd rfl hstart
    | endSession => exact absurd rfl hend
    | carrier m => exact absurd rfl (hcarrier m)
    | regRead a => cases h; exact hbus (State.regRead_busOnly ..)
    | regWrite a v => cases h; exact hbus (State.regWrite_busOnly ..)
    | regModify a m b => cases h; exact hbus (State.regModify_busOnly ..)
    | fifoRead n => cases h; exact hbus (State.fifoRead_busOnly ..)
    | fifoWrite b => cases h; exact hbus (State.fifoWrite_busOnly ..)
    | setTimeout t => cases h; exact hbus (State.setTimeout_busOnly ..)
    | execute d => cases h; exact State.lines_command (State.lines_withExec (s := s.atLine .exec) fun _ _ => State.lines_finish ..)
    | init => cases h; exact State.lines_command ((State.lines_finish ..).trans (State.initBody_busOnly s).lines)
    | wakeup => cases h; exact State.lines_command (State.lines_stageCommand (State.wakeupStage_end s))
    | anticoll l => cases h; exact State.lines_command (State.lines_stageCommand (State.anticollStage_end ..))
    | select l part k => cases h; exact State.lines_command (State.lines_stageCommand (State.selectStage_end ..))
    | halt => cases h; exact State.lines_command (State.lines_stageCommand (State.haltStage_end s))
    | readBlock b | readPage b => cases h; exact State.lines_command (State.lines_stageCommand (State.readStage_end ..))
    | scan => cases h; exact State.lines_command (State.lines_scanBody s)
    | auth k sec key u => cases h; exact State.lines_commandWith rfl (State.lines_authInstr ..)
    | writeBlock b data => cases h; exact State.lines_command (State.lines_writeBlockBody ..)
    | readClassic ul u a b => cases h; exact State.lines_commandWith rfl (State.lines_readClassicBody ..)
    | readUltralight => cases h; exact State.lines_command (State.lines_windowLoop ..)
    | _ => cases hport

/-- Every instruction but HARD_RESET keeps the reset line (R38). -/
theorem exec_pRst {i : Instr} {s t : State} (h : exec i s = .next t) (hreset : i ≠ .hardReset) : t.pRst = s.pRst := by
  have hcommand {ok : Bool} {body : State → State} (hb : (body s).pRst = s.pRst) : (s.command ok body).pRst = s.pRst := by
    unfold State.command State.commandWith
    split
    · rfl
    · split
      · exact hb
      · exact State.finish_pRst ..
  have hcarrier (m : BitVec 2) (u : State) : (u.carrierBody m).pRst = u.pRst := by simp [State.carrierBody]
  cases i with
  | startSession =>
    cases h
    exact hcommand ((State.finish_pRst ..).trans ((hcarrier 3 s.initBody).trans s.initBody_busOnly.pRst))
  | endSession => cases h; exact hcommand ((State.finish_pRst ..).trans (hcarrier 0 s))
  | carrier m => cases h; exact hcommand ((State.finish_pRst ..).trans (hcarrier _ s))
  | _ => exact congrArg Prod.snd (exec_lines h hreset nofun nofun nofun)

/-! ### The bus transfer (R82) -/

theorem State.xfer_scripted {s : State} {out inp rest : Bytes} (hin : s.env.busIn = inp ++ rest)
    (hlen : inp.length = out.length) : (s.xfer out).1 = inp ∧ (s.xfer out).2.env = { s.env with busIn := rest } := by
  have henv : s.env = { s.env with busIn := inp ++ rest } := by rw [← hin]
  have hdraw : Env.drawBytes out.length s.env = (inp, { s.env with busIn := rest }) := by
    rw [← hlen, henv, Env.drawBytes_append]
  exact ⟨congrArg Prod.fst hdraw, congrArg Prod.snd hdraw⟩

end Sys2Proof.Machine

namespace Sys2Proof.Proofs

open Machine

/-- Settles O18: the search's first prescaler that fits is the closed form. -/
theorem prescalerHasAClosedForm : Obligations.PrescalerHasAClosedForm := fun _ h => timerPair_closed_form h

/-- Settles O39: `exec_lines` for the session registers, and the three other session instructions leave the reset line too. -/
theorem onlySessionInstructionsChangeTheSession : Obligations.OnlySessionInstructionsChangeTheSession :=
  fun _ _ _ h => ⟨fun hreset hstart hend hcarrier => congrArg Prod.fst (exec_lines h hreset hstart hend hcarrier), exec_pRst h⟩

/-- Settles O10: the length is that of the draw, and scripted bytes are drawn in order. -/
theorem transferIsFullDuplex : Obligations.TransferIsFullDuplex := fun out s =>
  ⟨s.xfer_length out, rfl, fun _ _ hin hlen => State.xfer_scripted hin hlen⟩

/-- Settles O16: each bus frame is its operation of the multiplexer. -/
theorem busFramesAreOneTransfer : Obligations.BusFramesAreOneTransfer := by
  intro a v n b s hs
  have hrun {i : Instr} {op : State → State} (h : busOperation i = some op) : exec i s = .next (op s) := by
    rw [exec_busOperation h, s.internal_run op hs]
  refine ⟨hrun (op := fun u => (u.regRead a).2) rfl, hrun (op := State.regWrite a v) rfl, ?read,
    hrun (op := fun u => (u.fifoRead 0).2) rfl, fun hb => ?write, hrun (op := State.fifoWrite []) rfl⟩
  case read =>
    rw [hrun rfl, s.fifoRead_of_ne_zero (Nat.succ_ne_zero n)]
    rfl
  case write =>
    rw [hrun rfl, s.fifoWrite_of_ne_nil hb]
    rfl

/-- Settles O54: each card frame is one run on its row's descriptor. -/
theorem cardFramesRunTheirDescriptors : Obligations.CardFramesRunTheirDescriptors := by
  rintro c s p0 p1 p2 p3 k sec a key uid4 data rfl hs
  have hrun {i : Instr} {d : Descriptor} (h : cardDescriptor s.params i = some d) : exec i s = .next (s.runExec d).1 := by
    rw [exec_cardDescriptor h, s.internal_run _ hs]
  have hblock : byteOfNat (4 * sec.toNat) = 4 * sec := by
    rw [byteOfNat, BitVec.ofNat_mul, BitVec.ofNat_toNat, BitVec.setWidth_eq]
    rfl
  have hauth (keyB : Bool) : authBytes s.params.card keyB sec key uid4 =
      [if keyB then s.params.card.authB else s.params.card.authA, 4 * sec] ++ key ++ uid4 := by
    rw [authBytes, hblock]
    rfl
  refine ⟨hrun rfl, hrun rfl, hrun rfl, hrun rfl, hrun rfl, hrun rfl, hrun rfl, hrun rfl, ?authA, ?authB, hrun rfl, hrun rfl,
    rfl⟩
  case authA => exact hrun (congrArg some (congrArg (Descriptor.mk .authenticate false false 0 0 0 0 s.params.tAuth) (hauth false)))
  case authB => exact hrun (congrArg some (congrArg (Descriptor.mk .authenticate false false 0 0 0 0 s.params.tAuth) (hauth true)))

end Sys2Proof.Proofs
end

section
/-! No register that R451 leaves unspecified is read before it is written: two states that differ only in such registers take
steps to states that differ only there (`SameButUnspecified`). An operation of the bus shows the same of both; an executor run
loads the descriptor registers fresh, so from there on they agree too. -/

namespace Sys2Proof.Machine

namespace SameButUnspecified

variable {s t : State} (h : SameButUnspecified s t)
include h

/-! ### Registers that are written, unspecified or not -/

theorem setPc (v w : Pc) : SameButUnspecified (s.setPc v) (t.setPc w) :=
  ⟨h.st, h.sess, h.host, h.pRst, h.offers, h.env, h.params, h.hist⟩

theorem atLine (l : Line) : SameButUnspecified (s.atLine l) (t.atLine l) := h.setPc _ _

theorem atPhase (p : Phase) : SameButUnspecified (s.atPhase p) (t.atPhase p) := h.setPc _ _

theorem setD (v w : Desc) : SameButUnspecified (s.setD v) (t.setD w) :=
  ⟨h.st, h.sess, h.host, h.pRst, h.offers, h.env, h.params, h.hist⟩

theorem setIdent (v w : Ident) : SameButUnspecified (s.setIdent v) (t.setIdent w) :=
  ⟨h.st, h.sess, h.host, h.pRst, h.offers, h.env, h.params, h.hist⟩

theorem setWork (v w : Work) : SameButUnspecified (s.setWork v) (t.setWork w) :=
  ⟨h.st, h.sess, h.host, h.pRst, h.offers, h.env, h.params, h.hist⟩

theorem setROut (v w : Bytes) : SameButUnspecified (s.setROut v) (t.setROut w) :=
  ⟨h.st, h.sess, h.host, h.pRst, h.offers, h.env, h.params, h.hist⟩

theorem setXStatus (v w : Status) : SameButUnspecified (s.setXStatus v) (t.setXStatus w) :=
  ⟨h.st, h.sess, h.host, h.pRst, h.offers, h.env, h.params, h.hist⟩

theorem setSt (v : EngineState) : SameButUnspecified (s.setSt v) (t.setSt v) :=
  ⟨rfl, h.sess, h.host, h.pRst, h.offers, h.env, h.params, h.hist⟩

theorem setSess {v w : Session} (hv : v = w) : SameButUnspecified (s.setSess v) (t.setSess w) :=
  ⟨h.st, hv, h.host, h.pRst, h.offers, h.env, h.params, h.hist⟩

theorem setHost {v w : HostPort} (hv : v = w) : SameButUnspecified (s.setHost v) (t.setHost w) :=
  ⟨h.st, h.sess, hv, h.pRst, h.offers, h.env, h.params, h.hist⟩

theorem setPRst (v : Bool) : SameButUnspecified (s.setPRst v) (t.setPRst v) :=
  ⟨h.st, h.sess, h.host, rfl, h.offers, h.env, h.params, h.hist⟩

theorem setOffers (v : List Offer) : SameButUnspecified (s.setOffers v) (t.setOffers v) :=
  ⟨h.st, h.sess, h.host, h.pRst, rfl, h.env, h.params, h.hist⟩

theorem setEnv {v w : Env} (hv : v = w) : SameButUnspecified (s.setEnv v) (t.setEnv w) :=
  ⟨h.st, h.sess, h.host, h.pRst, h.offers, hv, h.params, h.hist⟩

theorem log {e f : Event} (he : e = f) : SameButUnspecified (s.log e) (t.log f) :=
  ⟨h.st, h.sess, h.host, h.pRst, h.offers, h.env, h.params, by rw [State.log_hist, State.log_hist, h.hist, he]⟩

/-! ### The bus -/

theorem xfer_bytes (out : Bytes) : (s.xfer out).1 = (t.xfer out).1 := by rw [State.xfer, State.xfer, h.env]

theorem xfer (out : Bytes) : SameButUnspecified (s.xfer out).2 (t.xfer out).2 :=
  (h.setEnv (by rw [h.env])).log (by rw [h.env])

theorem regRead_value (a : Byte) : (s.regRead a).1 = (t.regRead a).1 := 
  congrArg (fun b : Bytes => b.getD 1 0) (h.xfer_bytes (regReadFrame a))

theorem regRead (a : Byte) : SameButUnspecified (s.regRead a).2 (t.regRead a).2 := (h.xfer _).setROut _ _

theorem regWrite (a v : Byte) : SameButUnspecified (s.regWrite a v) (t.regWrite a v) := h.xfer _

theorem regModify (a m : Byte) (set : Bool) : SameButUnspecified (s.regModify a m set) (t.regModify a m set) := by
  unfold State.regModify
  simp only [(h.atPhase .modifyRead).regRead_value a]
  exact (((h.atPhase .modifyRead).regRead a).atPhase .modifyWrite).regWrite a _

theorem fifoRead (n : Nat) : (s.fifoRead n).1 = (t.fifoRead n).1 ∧ SameButUnspecified (s.fifoRead n).2 (t.fifoRead n).2 := by
  by_cases hn : n = 0
  · subst hn
    exact ⟨rfl, h.setROut _ _⟩
  · rw [s.fifoRead_of_ne_zero hn, t.fifoRead_of_ne_zero hn, h.params]
    exact ⟨congrArg (·.drop 1) (h.xfer_bytes _), (h.xfer _).setROut _ _⟩

theorem fifoWrite (b : Bytes) : SameButUnspecified (s.fifoWrite b) (t.fifoWrite b) := by
  unfold State.fifoWrite
  split
  · exact h
  · rw [h.params]
    exact h.xfer _

theorem setTimeout (v : BitVec 16) : SameButUnspecified (s.setTimeout v) (t.setTimeout v) := by
  unfold State.setTimeout
  simp only [h.params]
  exact (((((((((h.atPhase _).atPhase _).regWrite _ _).atPhase _).regWrite _ _).atPhase _).regWrite _ _).atPhase _).regWrite _ _)

theorem regWrites (l : List (Config.Addr × Byte)) : SameButUnspecified (s.regWrites l) (t.regWrites l) := by
  induction l generalizing s t with
  | nil => exact h
  | cons w l ih => exact ih (h.regWrite w.1.byte w.2)

theorem pin (level : Bool) : SameButUnspecified (s.pin level) (t.pin level) := (h.setPRst level).log rfl

theorem wait (ms : Nat) : SameButUnspecified (s.wait ms) (t.wait ms) := h.log rfl

/-! ### The end of a command -/

theorem writeResult (st : Status) (data : Bytes) : SameButUnspecified (s.writeResult st data) (t.writeResult st data) :=
  (h.setHost (by rw [h.host])).log rfl

theorem finish (st : Status) {data data' : Bytes} (hdata : data = data') :
    SameButUnspecified (s.finish st data) (t.finish st data') := by
  subst hdata
  exact ⟨by simp [h.st], by simp [h.sess], by simp [h.host], by simp [h.pRst], by simp [h.offers], by simp [h.env],
    by simp [h.params], by simp [h.hist]⟩

theorem fail {st st' : Status} (hst : st = st') : SameButUnspecified (s.fail st) (t.fail st') := by
  subst hst
  exact h.finish st rfl

theorem raiseFatal : SameButUnspecified s.raiseFatal t.raiseFatal := (h.setSt .fatal).finish .fatal rfl

theorem zeroKeys (lo hi : Nat) : SameButUnspecified (s.zeroKeys lo hi) (t.zeroKeys lo hi) :=
  (h.setWork _ _).setHost (by rw [State.setWork_host, State.setWork_host, h.host])

theorem commandWith {clean body body' : State → State} (ok : Bool) (hc : SameButUnspecified (clean s) (clean t))
    (hb : ok = true → SameButUnspecified (body s) (body' t)) :
    SameButUnspecified (s.commandWith clean ok body) (t.commandWith clean ok body') := by
  unfold State.commandWith
  by_cases hs : s.st = .fatal
  · rw [if_pos hs, if_pos (h.st.symm.trans hs)]
    exact h.writeResult .fatal []
  · rw [if_neg hs, if_neg fun ht => hs (h.st.trans ht)]
    split
    · next hok => exact hb hok
    · exact hc.fail rfl

theorem command {ok : Bool} {body body' : State → State} (hb : ok = true → SameButUnspecified (body s) (body' t)) :
    SameButUnspecified (s.command ok body) (t.command ok body') := h.commandWith ok h hb

theorem internal {body body' : State → State} (hb : SameButUnspecified (body s) (body' t)) :
    SameButUnspecified (s.internal body) (t.internal body') := by
  unfold State.internal
  by_cases hs : s.st = .fatal
  · rw [if_pos hs, if_pos (h.st.symm.trans hs)]
    exact h
  · rw [if_neg hs, if_neg fun ht => hs (h.st.trans ht)]
    exact hb

end SameButUnspecified

/-! ### The executor -/

/-- Differ only in unspecified registers, of the descriptor registers at most in `D_IRQ`. -/
structure SameOutputs (s t : State) : Prop extends SameButUnspecified s t where
  d : { s.d with irq := t.d.irq } = t.d

/-- Differ only in unspecified registers, and in no descriptor register: what a snapshot leaves. -/
structure SameDesc (s t : State) : Prop extends SameButUnspecified s t where
  d : s.d = t.d

theorem SameDesc.outputs {s t : State} (h : SameDesc s t) : SameOutputs s t := ⟨h.1, by rw [h.d]⟩

theorem SameOutputs.rxSlice {s t : State} (h : SameOutputs s t) : s.rxSlice = t.rxSlice := by
  rw [State.rxSlice, State.rxSlice, ← h.d]

theorem SameOutputs.executePayload {s t : State} (h : SameOutputs s t) : s.executePayload = t.executePayload := by
  rw [State.executePayload, State.executePayload, h.rxSlice, ← h.d]

/-- What two branches lead to is the same. -/
def SameFlow : Flow → Flow → Prop
  | .goOn s, .goOn t => SameDesc s t
  | .stop s st, .stop t st' => SameDesc s t ∧ st = st'
  | _, _ => False

theorem SameFlow.andThen {f f' : Flow} {p : Phase} {g : State → Flow} (hf : SameFlow f f')
    (hg : ∀ s t, SameDesc s t → SameFlow (g s) (g t)) : SameFlow (f.andThen p g) (f'.andThen p g) := by
  cases f with
  | goOn s =>
    cases f' with
    | goOn t => exact hg _ _ ⟨SameButUnspecified.atPhase hf.1 p, hf.d⟩
    | stop t st => exact hf.elim
  | stop s st =>
    cases f' with
    | goOn t => exact hf.elim
    | stop t st' => exact hf

namespace SameDesc

variable {s t : State} (h : SameDesc s t)
include h

theorem clearFlag (m : Byte) : SameDesc (s.clearFlag m) (t.clearFlag m) := by
  unfold State.clearFlag
  rw [h.params]
  exact ⟨(h.1.atPhase .clear).regWrite _ _, h.d⟩

theorem regRead (a : Byte) : SameDesc (s.regRead a).2 (t.regRead a).2 := ⟨h.1.regRead a, h.d⟩

theorem regModify (a m : Byte) (set : Bool) : SameDesc (s.regModify a m set) (t.regModify a m set) :=
  ⟨h.1.regModify a m set, h.d⟩

/-- A write of descriptor registers that depends on them alone. -/
theorem setD {v w : Desc} (hv : v = w) : SameDesc (s.setD v) (t.setD w) := ⟨h.1.setD v w, hv⟩

theorem branchTimer : SameFlow s.branchTimer t.branchTimer := by
  unfold State.branchTimer
  rw [h.params, h.d]
  split
  · exact ⟨h.clearFlag _, rfl⟩
  · exact h

theorem readError : SameDesc s.readError.1 t.readError.1 ∧ s.readError.2 = t.readError.2 := by
  unfold State.readError
  simp only [h.params, h.1.regRead_value]
  have herr := (h.regRead t.params.chip.error.byte).setD
    (v := { s.d with err := (t.regRead t.params.chip.error.byte).1 })
    (w := { t.d with err := (t.regRead t.params.chip.error.byte).1 }) (by rw [h.d])
  split
  · refine ⟨(herr.regRead t.params.chip.coll.byte).setD ?_, rfl⟩
    have hcoll := herr.1.regRead_value t.params.chip.coll.byte
    simp only [State.regRead_d, State.setD_d, h.d] at hcoll ⊢
    rw [hcoll]
  · exact ⟨herr, rfl⟩

theorem branchErr : SameFlow s.branchErr t.branchErr := by
  unfold State.branchErr
  rw [h.params, h.d]
  split
  · exact ⟨h.readError.1.clearFlag _, h.readError.2⟩
  · exact h

theorem feed : SameDesc s.feed t.feed := by
  unfold State.feed
  rw [h.params, h.d]
  split
  · exact h
  · have hpush : SameDesc (s.fifoWrite (t.d.txPend.take Config.chunk)) (t.fifoWrite (t.d.txPend.take Config.chunk)) :=
      ⟨h.1.fifoWrite _, by simp [h.d]⟩
    refine SameDesc.regModify (hpush.setD ?_) _ _ _
    rw [hpush.d]

theorem branchLoAlert : SameFlow s.branchLoAlert t.branchLoAlert := by
  unfold State.branchLoAlert
  rw [h.params, h.d]
  split
  · exact h.feed.clearFlag _
  · exact h

theorem fifoRead (n : Nat) : SameDesc (s.fifoRead n).2 (t.fifoRead n).2 := ⟨(h.1.fifoRead n).2, by simp [h.d]⟩

theorem raiseFatal : SameDesc s.raiseFatal t.raiseFatal := ⟨h.1.raiseFatal, h.d⟩

theorem appendRx {b b' : Bytes} (hb : b = b') (n : Nat) : SameDesc (s.appendRx b n) (t.appendRx b' n) := by
  subst hb
  exact h.setD (by rw [h.d])

theorem branchHiAlert : SameFlow s.branchHiAlert t.branchHiAlert := by
  have hread := h.fifoRead Config.chunk
  have hbytes := (h.1.fifoRead Config.chunk).1
  unfold State.branchHiAlert
  simp only [h.params, h.d, hread.d]
  split
  · split
    · exact ⟨hread.raiseFatal, rfl⟩
    · exact (hread.appendRx hbytes Config.chunk).clearFlag _
  · exact h

theorem branchIdle : SameFlow s.branchIdle t.branchIdle := by
  unfold State.branchIdle
  rw [h.params, h.d]
  split
  · exact ⟨h.clearFlag _, rfl⟩
  · exact h

theorem drainRemainder (n : Nat) : SameFlow (s.drainRemainder n) (t.drainRemainder n) := by
  have hread := h.fifoRead n
  have hdrained := (hread.appendRx (h.1.fifoRead n).1 n).clearFlag t.params.chip.irqRx
  unfold State.drainRemainder
  simp only [hread.d, h.params]
  split
  · exact ⟨hread.raiseFatal, rfl⟩
  · exact ⟨hdrained, by rw [hdrained.d]⟩

theorem readLastBits : SameDesc s.readLastBits t.readLastBits := by
  unfold State.readLastBits
  simp only [h.params, h.1.regRead_value]
  exact (h.regRead _).setD (by rw [State.regRead_d, State.regRead_d, h.d])

theorem branchRx : SameFlow s.branchRx t.branchRx := by
  unfold State.branchRx
  simp only [h.params, h.d]
  split
  · rw [h.readLastBits.1.regRead_value]
    exact (h.readLastBits.regRead _).drainRemainder _
  · exact h

theorem branchTx : SameFlow s.branchTx t.branchTx := by
  unfold State.branchTx
  rw [h.params, h.d]
  split
  · exact (h.setD rfl).clearFlag _
  · exact h

end SameDesc

namespace SameOutputs

variable {s t : State} (h : SameOutputs s t)
include h

theorem atPhase (p : Phase) : SameOutputs (s.atPhase p) (t.atPhase p) := ⟨h.1.atPhase p, h.d⟩

theorem atLine (l : Line) : SameOutputs (s.atLine l) (t.atLine l) := ⟨h.1.atLine l, h.d⟩

theorem regRead (a : Byte) : SameOutputs (s.regRead a).2 (t.regRead a).2 := ⟨h.1.regRead a, h.d⟩

theorem setXStatus (st : Status) : SameOutputs (s.setXStatus st) (t.setXStatus st) := ⟨h.1.setXStatus st st, h.d⟩

/-- The snapshot writes `D_IRQ`, the one descriptor register that was not yet written (R216). -/
theorem snapshot : SameDesc s.snapshot t.snapshot := by
  unfold State.snapshot
  simp only [h.params, (h.1.atPhase .snapshot).regRead_value]
  refine ⟨((h.1.atPhase .snapshot).regRead _).setD _ _, ?_⟩
  exact congrArg (fun d : Desc => { d with irq := ((t.atPhase .snapshot).regRead t.params.chip.comIrq.byte).1 }) h.d

theorem iteration : SameFlow s.iteration t.iteration := by
  have hsnapshot : SameFlow (.goOn s.snapshot) (.goOn t.snapshot) := h.snapshot
  exact ((((((hsnapshot.andThen fun _ _ k => k.branchTimer).andThen fun _ _ k => k.branchErr).andThen
    fun _ _ k => k.branchLoAlert).andThen fun _ _ k => k.branchHiAlert).andThen fun _ _ k => k.branchIdle).andThen
    fun _ _ k => k.branchRx).andThen fun _ _ k => k.branchTx

theorem execLoop (n : Nat) : SameOutputs (s.execLoop n).1 (t.execLoop n).1 ∧ (s.execLoop n).2 = (t.execLoop n).2 := by
  induction n generalizing s t with
  | zero => exact ⟨h.atPhase .loop, rfl⟩
  | succ n ih =>
    have hiter := (h.atPhase .loop).iteration
    unfold State.execLoop
    cases hs : (s.atPhase .loop).iteration with
    | goOn u =>
      rw [hs] at hiter
      cases ht : (t.atPhase .loop).iteration with
      | goOn v =>
        rw [ht] at hiter
        exact ih (SameDesc.outputs hiter)
      | stop v st => rw [ht] at hiter; exact hiter.elim
    | stop u st =>
      rw [hs] at hiter
      cases ht : (t.atPhase .loop).iteration with
      | goOn v => rw [ht] at hiter; exact hiter.elim
      | stop v st' =>
        rw [ht] at hiter
        exact ⟨hiter.1.outputs, hiter.2⟩

theorem execExit : SameOutputs s.execExit t.execExit := by
  unfold State.execExit
  simp only [h.params]
  exact ⟨(((h.1.atPhase _).regModify _ _ _).atPhase _).regWrite _ _, h.d⟩

end SameOutputs

/-- Differ only in unspecified registers, of the descriptor registers at most in `D_IRQ` and `D_T0`: what LOAD leaves. -/
structure SameLoaded (s t : State) : Prop extends SameButUnspecified s t where
  d : { s.d with irq := t.d.irq, t0 := t.d.t0 } = t.d

/-- LOAD writes every descriptor register but `D_IRQ` and `D_T0` (R207). -/
theorem SameButUnspecified.execLoad {s t : State} (h : SameButUnspecified s t) (d : Descriptor) :
    SameLoaded (s.execLoad d) (t.execLoad d) :=
  ⟨(h.atPhase .load).setD _ _, by unfold State.execLoad; rw [h.params]; rfl⟩

namespace SameLoaded

variable {s t : State} (h : SameLoaded s t)
include h

/-- What PRE-RUN and PRIME read. -/
theorem inputs : s.d.family = t.d.family ∧ s.d.cmd = t.d.cmd ∧ s.d.crcTx = t.d.crcTx ∧ s.d.crcRx = t.d.crcRx ∧
    s.d.txBits = t.d.txBits ∧ s.d.rxBits = t.d.rxBits ∧ s.d.timeout = t.d.timeout ∧ s.d.txPend = t.d.txPend := by
  rw [← h.d]
  exact ⟨rfl, rfl, rfl, rfl, rfl, rfl, rfl, rfl⟩

theorem execPreRun : SameLoaded s.execPreRun t.execPreRun := by
  refine ⟨?_, by rw [State.execPreRun_d, State.execPreRun_d]; exact h.d⟩
  obtain ⟨-, -, hcrcTx, hcrcRx, -, -, htimeout, -⟩ := h.inputs
  unfold State.execPreRun
  simp only [h.params, hcrcTx, hcrcRx, htimeout]
  exact ((((((((((((((h.1.atPhase _).regWrite _ _).atPhase _).regWrite _ _).atPhase _).regWrite _ _).atPhase _).regWrite
    _ _).atPhase _).regWrite _ _).atPhase _).regModify _ _ _).atPhase _).regModify _ _ _).atPhase _ |>.setTimeout _

theorem primeCommand : SameLoaded s.primeCommand t.primeCommand := by
  refine ⟨?_, h.d⟩
  obtain ⟨-, hcmd, -⟩ := h.inputs
  unfold State.primeCommand
  rw [h.params, hcmd]
  exact (h.1.atPhase _).regWrite _ _

theorem primeFraming {rxBits rxBits' : BitVec 3} (hrx : rxBits = rxBits') :
    SameLoaded (s.primeFraming rxBits) (t.primeFraming rxBits') := by
  refine ⟨?_, h.d⟩
  obtain ⟨-, -, -, -, htxBits, -⟩ := h.inputs
  unfold State.primeFraming
  rw [h.params, htxBits, hrx]
  exact (h.1.atPhase _).regWrite _ _

theorem clearPending : SameLoaded (s.setD { s.d with txPend := [] }) (t.setD { t.d with txPend := [] }) := by
  refine ⟨h.1.setD _ _, ?_⟩
  rw [State.setD_d, State.setD_d, ← h.d]

theorem primeAuthenticate : SameLoaded s.primeAuthenticate t.primeAuthenticate := by
  obtain ⟨-, -, -, -, -, -, -, hpending⟩ := h.inputs
  have hpush : SameLoaded ((s.atPhase .push).fifoWrite t.d.txPend) ((t.atPhase .push).fifoWrite t.d.txPend) :=
    ⟨(h.1.atPhase .push).fifoWrite _, by simpa using h.d⟩
  unfold State.primeAuthenticate
  rw [hpending]
  exact (SameLoaded.primeCommand hpush.clearPending).primeFraming rfl

theorem execPrime : SameLoaded s.execPrime t.execPrime := by
  obtain ⟨hfamily, -, -, -, -, hrxBits, -, -⟩ := h.inputs
  cases hf : s.d.family with
  | authenticate =>
    rw [State.execPrime_authenticate hf, State.execPrime_authenticate (hfamily.symm.trans hf)]
    exact h.primeAuthenticate
  | transceive =>
    rw [State.execPrime_transceive hf, State.execPrime_transceive (hfamily.symm.trans hf)]
    exact h.primeCommand.primeFraming hrxBits

/-- `D_T0` is written on entering LOOP (R214). -/
theorem enterLoop : s.enterLoop.1 = t.enterLoop.1 ∧ SameOutputs s.enterLoop.2 t.enterLoop.2 := by
  unfold State.enterLoop
  simp only [h.env]
  exact ⟨trivial, ((h.1.setEnv rfl).setD _ _).atPhase .loop,
    congrArg (fun d : Desc => { d with t0 := t.env.drawTime.1 }) h.d⟩

end SameLoaded

namespace SameButUnspecified

variable {s t : State} (h : SameButUnspecified s t)
include h

/-- An executor run reads no register that it has not written, and leaves all descriptor registers but `D_IRQ` alike. -/
theorem runExec (d : Descriptor) :
    SameOutputs (s.runExec d).1 (t.runExec d).1 ∧ (s.runExec d).2 = (t.runExec d).2 := by
  obtain ⟨hn, hloop⟩ : (s.atLoop d).1 = (t.atLoop d).1 ∧ SameOutputs (s.atLoop d).2 (t.atLoop d).2 :=
    (h.execLoad d).execPreRun.execPrime.enterLoop
  obtain ⟨hend, hst⟩ := hloop.execLoop (t.atLoop d).1
  rw [State.runExec_eq, State.runExec_eq]
  simp only [hn, hst]
  split
  · exact ⟨hend.setXStatus _, rfl⟩
  · exact ⟨(hend.execExit.atPhase _).setXStatus _, rfl⟩

theorem withExec {d : Descriptor} {k : State → Status → State}
    (hk : ∀ u v st, SameOutputs u v → SameButUnspecified (k u st) (k v st)) :
    SameButUnspecified (s.withExec d k) (t.withExec d k) := by
  obtain ⟨hrun, hst⟩ := h.runExec d
  unfold State.withExec
  simp only [hst]
  split
  · exact hrun.1
  · exact hk _ _ _ hrun

end SameButUnspecified

/-! ### The stages -/

/-- Two stages' answers are the same: the status, the reply, and the registers but the unspecified ones. -/
structure SameStage (r q : State × Status) : Prop where
  status : r.2 = q.2
  states : SameOutputs r.1 q.1

namespace SameButUnspecified

variable {s t : State} (h : SameButUnspecified s t)
include h

theorem wakeupStage : SameStage s.wakeupStage t.wakeupStage := by
  unfold State.wakeupStage
  obtain ⟨hrun, hst⟩ := (h.atLine .wakeup).runExec (wupaDesc t.params)
  simp only [h.params, hst]
  exact ⟨rfl, hrun⟩

theorem anticollStage (level : Nat) : SameStage (s.anticollStage level) (t.anticollStage level) := by
  unfold State.anticollStage
  obtain ⟨hrun, hst⟩ := (h.atLine .anticoll).runExec (anticollDesc t.params level)
  simp only [h.params, hst, hrun.rxSlice]
  exact ⟨rfl, hrun⟩

theorem selectStage (level : Nat) (part : Bytes) (bcc : Byte) :
    SameStage (s.selectStage level part bcc) (t.selectStage level part bcc) := by
  unfold State.selectStage
  obtain ⟨hrun, hst⟩ := (h.atLine .select).runExec (selectDesc t.params level part bcc)
  simp only [h.params, hst]
  exact ⟨rfl, hrun⟩

theorem haltStage : SameStage s.haltStage t.haltStage := by
  unfold State.haltStage
  obtain ⟨hrun, hst⟩ := (h.atLine .halt).runExec (hltaDesc t.params)
  simp only [h.params, hst]
  exact ⟨rfl, hrun⟩

theorem readStage (a : Byte) : SameStage (s.readStage a) (t.readStage a) := by
  unfold State.readStage
  obtain ⟨hrun, hst⟩ := (h.atLine .read).runExec (mfReadDesc t.params a)
  simp only [h.params, hst]
  exact ⟨rfl, hrun⟩

theorem writePhase (l : Line) (d : Descriptor) : SameStage (s.writePhase l d) (t.writePhase l d) := by
  unfold State.writePhase
  obtain ⟨hrun, hst⟩ := (h.atLine l).runExec d
  simp only [hst, hrun.rxSlice]
  exact ⟨rfl, hrun⟩

theorem authBody (keyB : Bool) (sector : Byte) (key uid4 : Bytes) :
    SameStage (s.authBody keyB sector key uid4) (t.authBody keyB sector key uid4) := by
  unfold State.authBody
  obtain ⟨hrun, hst⟩ := (h.atLine .auth).runExec (authDesc t.params keyB sector key uid4)
  simp only [h.params, hst]
  split
  · have hbit := hrun.atLine .authStatus
    rw [hbit.1.regRead_value]
    exact ⟨rfl, hbit.regRead _⟩
  · exact ⟨rfl, hrun⟩

end SameButUnspecified

/-- What ends a command from a stage's answer is the same, if the rest of the command is. -/
theorem SameButUnspecified.afterStage {r q : State × Status} {k k' : State → State} (hst : r.2 = q.2)
    (h : SameButUnspecified r.1 q.1) (hk : r.2 = .ok → SameButUnspecified (k r.1) (k' q.1)) :
    SameButUnspecified (State.afterStage r k) (State.afterStage q k') := by
  unfold State.afterStage
  rw [← hst]
  split
  · exact h
  · split
    · next hok => exact hk hok
    · exact h.fail rfl

/-- A command that is one stage and its answer. -/
theorem SameStage.finish {r q : State × Status} {data : State → Bytes} (h : SameStage r q)
    (hdata : data r.1 = data q.1) :
    SameButUnspecified (State.afterStage r fun u => u.finish .ok (data u)) (State.afterStage q fun u => u.finish .ok (data u)) :=
  .afterStage h.status h.states.1 fun _ => h.states.1.finish .ok hdata

/-! ### SCAN -/

/-- The identity registers that SCAN has written after `n` levels agree (R287). -/
structure SameIdent (n : Nat) (i j : Ident) : Prop where
  atqa : i.atqa = j.atqa
  uid : i.uid = j.uid
  bccSize : i.bcc.length = 3 ∧ j.bcc.length = 3
  sakSize : i.sak.length = 3 ∧ j.sak.length = 3
  bcc : ∀ k < n, i.bcc.getD k 0 = j.bcc.getD k 0
  sak : ∀ k < n, i.sak.getD k 0 = j.sak.getD k 0

/-- Entries below `n` agree after entry `n` is set to the same value. -/
theorem getD_set_agree {a b : Bytes} {n : Nat} (x : Byte) (ha : n < a.length) (hb : n < b.length)
    (h : ∀ k < n, a.getD k 0 = b.getD k 0) : ∀ k < n + 1, (a.set n x).getD k 0 = (b.set n x).getD k 0 := by
  intro k hk
  simp only [List.getD_eq_getElem?_getD, List.getElem?_set, ha, hb] at h ⊢
  split
  · rfl
  · exact h k (by omega)

/-- Differ only in unspecified registers, and not in the identity registers of `n` levels. -/
structure SameScan (n : Nat) (s t : State) : Prop extends SameButUnspecified s t where
  ident : SameIdent n s.ident t.ident

/-- Two answers of the cascade loop are the same: `n` levels are recorded where it succeeded. -/
structure SameCascade (n : Nat) (r q : State × Status) : Prop where
  status : r.2 = q.2
  states : SameButUnspecified r.1 q.1
  ident : r.2 = .ok → SameIdent n r.1.ident q.1.ident

theorem SameScan.recordLevel {n : Nat} {s t : State} (h : SameScan n s t) (hn : n < 3) (last : Bool)
    (part : Bytes) (bcc sak : Byte) :
    SameScan (n + 1) (s.recordLevel (n + 1) last part bcc sak) (t.recordLevel (n + 1) last part bcc sak) := by
  have hi := h.ident
  obtain ⟨hsbcc, htbcc⟩ := hi.bccSize
  obtain ⟨hssak, htsak⟩ := hi.sakSize
  refine ⟨(h.1.atLine .record).setIdent _ _, hi.atqa, by simp [State.recordLevel, hi.uid], ?_, ?_, ?_, ?_⟩
  · simpa [State.recordLevel] using hi.bccSize
  · simpa [State.recordLevel] using hi.sakSize
  · exact getD_set_agree bcc (by omega) (by omega) hi.bcc
  · exact getD_set_agree sak (by omega) (by omega) hi.sak

theorem SameScan.cascadeLevel {n : Nat} {s t : State} (h : SameScan n s t) (hn : n < 3) (last : Bool) :
    SameCascade (n + 1) (s.cascadeLevel (n + 1) last) (t.cascadeLevel (n + 1) last) := by
  have ha := h.1.anticollStage (n + 1)
  have hreply := ha.states.rxSlice
  have hc := ha.states.1.selectStage (n + 1) ((t.anticollStage (n + 1)).1.rxSlice.take 4)
    ((t.anticollStage (n + 1)).1.rxSlice.getD 4 0)
  unfold State.cascadeLevel
  simp only [ha.status, hreply, hc.status]
  split
  · split
    · have hident : SameScan n _ _ := ⟨hc.states.1, by
        rw [(State.selectStage_kept ..).ident, (State.selectStage_kept ..).ident, (State.anticollStage_kept ..).ident,
          (State.anticollStage_kept ..).ident]
        exact h.ident⟩
      rw [hc.states.rxSlice]
      have hrec := hident.recordLevel hn last ((t.anticollStage (n + 1)).1.rxSlice.take 4)
        ((t.anticollStage (n + 1)).1.rxSlice.getD 4 0)
      exact ⟨rfl, (hrec _).1, fun _ => (hrec _).ident⟩
    · next hne => exact ⟨hc.status, hc.states.1, fun hok => absurd (hc.status.symm.trans hok) hne⟩
  · next hne => exact ⟨ha.status, ha.states.1, fun hok => absurd (ha.status.symm.trans hok) hne⟩

theorem SameScan.cascadeLoop {m n : Nat} {s t : State} (h : SameScan n s t) (hn : n + m ≤ 3) :
    SameCascade (n + m) (s.cascadeLoop m (n + 1)) (t.cascadeLoop m (n + 1)) := by
  induction m generalizing n s t with
  | zero => exact ⟨rfl, h.1, fun _ => h.ident⟩
  | succ m ih =>
    have hlevel := SameScan.cascadeLevel (s := s.atLine .cascade) (t := t.atLine .cascade) ⟨h.1.atLine .cascade, h.ident⟩
      (show n < 3 by omega) (m == 0)
    unfold State.cascadeLoop
    simp only [hlevel.status]
    split
    · next hok =>
      have hnext := ih ⟨hlevel.states, hlevel.ident (hlevel.status.trans hok)⟩ (by omega)
      rwa [show n + 1 + m = n + (m + 1) by omega] at hnext
    · next hne => exact ⟨hlevel.status, hlevel.states, fun hok => absurd (hlevel.status.symm.trans hok) hne⟩

theorem SameScan.scanHalt {n : Nat} {s t : State} (h : SameScan n s t) :
    s.scanHalt.2 = t.scanHalt.2 ∧ SameScan n s.scanHalt.1 t.scanHalt.1 := by
  have hident : SameIdent n s.scanHalt.1.ident t.scanHalt.1.ident := by
    rw [(State.scanHalt_kept s).ident, (State.scanHalt_kept t).ident]
    exact h.ident
  have hstage : s.scanHalt.2 = t.scanHalt.2 ∧ SameButUnspecified s.scanHalt.1 t.scanHalt.1 := by
    unfold State.scanHalt
    rw [h.params]
    split
    · exact ⟨h.1.haltStage.status, h.1.haltStage.states.1⟩
    · exact ⟨rfl, h.1⟩
  exact ⟨hstage.1, hstage.2, hident⟩

theorem perLevel_agree {levels : Nat} {a b : Bytes} (h : ∀ k < levels, a.getD k 0 = b.getD k 0) :
    perLevel levels a = perLevel levels b := by
  unfold perLevel
  refine List.map_congr_left fun k _ => ?_
  split
  · next hk => exact h k hk
  · rfl

theorem SameScan.scanFinish {levels : Nat} {s t : State} (h : SameScan levels s t) (hlevels : 1 ≤ levels) :
    SameButUnspecified (s.scanFinish levels) (t.scanFinish levels) := by
  have hi := h.ident
  refine SameButUnspecified.finish ((h.1.atLine .type).setIdent _ _) .ok ?_
  simp only [identityRecord, State.setIdent_ident, hi.atqa, hi.uid, perLevel_agree hi.bcc, perLevel_agree hi.sak, h.params,
    hi.sak (levels - 1) (by omega)]

theorem SameScan.scanCascade {s t : State} (h : SameScan 0 s t) : SameButUnspecified s.scanCascade t.scanCascade := by
  unfold State.scanCascade
  rw [h.ident.atqa]
  split
  · exact h.1.fail rfl
  · next levels hlevels =>
    obtain ⟨hmin, hmax⟩ := State.cascadeLevels_le hlevels
    have hstart : SameScan 0 ((s.atLine .cascadeLevels).setIdent { s.ident with levels := BitVec.ofNat 2 levels })
        ((t.atLine .cascadeLevels).setIdent { t.ident with levels := BitVec.ofNat 2 levels }) :=
      ⟨(h.1.atLine _).setIdent _ _, h.ident.atqa, h.ident.uid, h.ident.bccSize, h.ident.sakSize, h.ident.bcc, h.ident.sak⟩
    have hloop := hstart.cascadeLoop (m := levels) (by omega)
    rw [Nat.zero_add] at hloop
    refine .afterStage hloop.status hloop.states fun hok => ?_
    obtain ⟨hst, hhalt⟩ := SameScan.scanHalt ⟨hloop.states, hloop.ident hok⟩
    exact .afterStage hst hhalt.1 fun _ => hhalt.scanFinish hmin

theorem SameButUnspecified.scanBody {s t : State} (h : SameButUnspecified s t) (hs : IdentInv s.ident) (ht : IdentInv t.ident) :
    SameButUnspecified s.scanBody t.scanBody := by
  have hwake := ((h.atLine .clearUid).setIdent { s.ident with uid := [] } { t.ident with uid := [] }).wakeupStage
  refine .afterStage hwake.status hwake.states.1 fun _ =>
    SameScan.scanCascade ⟨(hwake.states.1.atLine .atqa).setIdent _ _, ?_⟩
  simp only [State.setIdent_ident, (State.wakeupStage_kept _).ident]
  exact ⟨hwake.states.rxSlice, rfl, ⟨hs.bcc, ht.bcc⟩, ⟨hs.sak, ht.sak⟩, nofun, nofun⟩

/-! ### MIFARE Classic -/

/-- Differ only in unspecified registers, and not in the working registers a full Classic read starts from (R330). -/
structure SameClassic (s t : State) : Prop extends SameButUnspecified s t where
  image : s.work.image = t.work.image
  keyA : s.work.keyA = t.work.keyA
  keyB : s.work.keyB = t.work.keyB
  uid : s.work.uid = t.work.uid

/-- Two answers of a step of a full Classic read are the same. -/
structure SameStep (r q : State × Status) : Prop where
  status : r.2 = q.2
  states : SameClassic r.1 q.1

/-- Two answers of an attempt are the same: what it received too, where it succeeded. -/
structure SameAttempt (r q : State × Status) : Prop extends SameStep r q where
  reply : r.2 = .ok → r.1.rxSlice = q.1.rxSlice

theorem SameClassic.of_work {s t s' t' : State} (h : SameClassic s t) (k : SameButUnspecified s' t')
    (hs : State.SameWork s.work s'.work)
    (ht : State.SameWork t.work t'.work) : SameClassic s' t' :=
  ⟨k, by rw [hs.image, ht.image, h.image], by rw [hs.keyA, ht.keyA, h.keyA], by rw [hs.keyB, ht.keyB, h.keyB],
    by rw [hs.uid, ht.uid, h.uid]⟩

/-- A write of working registers that keeps what a full read starts from. -/
theorem SameClassic.setWork {s t : State} (h : SameClassic s t) {v w : Work} (himage : v.image = w.image)
    (hkeyA : v.keyA = w.keyA) (hkeyB : v.keyB = w.keyB) (huid : v.uid = w.uid) :
    SameClassic (s.setWork v) (t.setWork w) := ⟨h.1.setWork v w, himage, hkeyA, hkeyB, huid⟩

theorem SameClassic.atLine {s t : State} (h : SameClassic s t) (l : Line) : SameClassic (s.atLine l) (t.atLine l) :=
  ⟨h.1.atLine l, h.image, h.keyA, h.keyB, h.uid⟩

theorem SameClassic.clearAttempts {s t : State} (h : SameClassic s t) : SameClassic s.clearAttempts t.clearAttempts :=
  h.setWork h.image h.keyA h.keyB h.uid

theorem SameClassic.countAttempt {s t : State} (h : SameClassic s t) : SameClassic s.countAttempt t.countAttempt :=
  h.setWork h.image h.keyA h.keyB h.uid

theorem SameClassic.appendImage {s t : State} (h : SameClassic s t) {l : Line} {b b' : Bytes} (hb : b = b') :
    SameClassic ((s.atLine l).setWork { s.work with image := s.work.image ++ b })
      ((t.atLine l).setWork { t.work with image := t.work.image ++ b' }) :=
  (h.atLine l).setWork (by rw [h.image, hb]) h.keyA h.keyB h.uid

theorem SameClassic.setBlock {s t : State} (h : SameClassic s t) (b : BitVec 2) :
    SameClassic ((s.atLine .block).setWork { s.work with block := b }) ((t.atLine .block).setWork { t.work with block := b }) :=
  (h.atLine .block).setWork h.image h.keyA h.keyB h.uid

theorem SameClassic.setSector {s t : State} (h : SameClassic s t) (sec : BitVec 5) :
    SameClassic ((s.atLine .sector).setWork { s.work with sector := sec })
      ((t.atLine .sector).setWork { t.work with sector := sec }) :=
  (h.atLine .sector).setWork h.image h.keyA h.keyB h.uid

/-- A stage that keeps the working registers is an attempt. -/
theorem SameStage.attempt {s t : State} {r q : State × Status} (k : SameStage r q) (h : SameClassic s t) (hs : Kept s r.1)
    (ht : Kept t q.1) : SameAttempt r q :=
  ⟨⟨k.status, h.of_work k.states.1 (hs.work ▸ State.SameWork.refl _) (ht.work ▸ State.SameWork.refl _)⟩,
    fun _ => k.states.rxSlice⟩

theorem SameClassic.attempts {head : Line} {exhausted : Status} {f g : State → State × Status} (hexhausted : exhausted ≠ .ok)
    (hf : ∀ u v, SameClassic u v → SameAttempt (f u) (g v)) {n : Nat} {s t : State} (h : SameClassic s t) :
    SameAttempt (State.attempts head f exhausted n s) (State.attempts head g exhausted n t) := by
  induction n generalizing s t with
  | zero => exact ⟨⟨rfl, h.atLine head⟩, fun hok => absurd hok hexhausted⟩
  | succ n ih =>
    have hstep := hf _ _ (h.atLine head).countAttempt
    unfold State.attempts
    simp only [hstep.status]
    split
    · exact hstep
    · exact ih hstep.states

theorem SameClassic.sectorAuth {s t : State} (h : SameClassic s t) (sec : Nat) :
    SameAttempt (s.sectorAuth sec) (t.sectorAuth sec) := by
  refine SameClassic.attempts (by decide) (fun u v k => ?_) h.clearAttempts
  rw [k.keyA, k.uid, k.params]
  exact (k.1.authBody _ _ _ _).attempt k (State.authBody_kept ..) (State.authBody_kept ..)

/-- The end of a block's attempts: what a successful one received is appended to the image. -/
theorem SameAttempt.append {r q : State × Status} (h : SameAttempt r q) :
    SameStep
      (if r.2 = .ok then ((r.1.atLine .append).setWork { r.1.work with image := r.1.work.image ++ r.1.rxSlice }, .ok) else r)
      (if q.2 = .ok then ((q.1.atLine .append).setWork { q.1.work with image := q.1.work.image ++ q.1.rxSlice }, .ok)
        else q) := by
  rw [h.status]
  split
  · next hok => exact ⟨rfl, h.states.appendImage (h.reply (h.status.trans hok))⟩
  · exact h.toSameStep

theorem SameClassic.readAttempts {s t : State} (h : SameClassic s t) (addr : Byte) (n : Nat) :
    SameAttempt (State.attempts .readAttempt (fun u => u.readStage addr) .read n s)
      (State.attempts .readAttempt (fun u => u.readStage addr) .read n t) :=
  h.attempts (by decide) fun _ _ k => (k.1.readStage addr).attempt k (State.readStage_kept ..) (State.readStage_kept ..)

theorem SameClassic.blockRead {s t : State} (h : SameClassic s t) (sec b : Nat) :
    SameStep (s.blockRead sec b) (t.blockRead sec b) := by
  have hattempts := (h.setBlock (BitVec.ofNat 2 b)).clearAttempts.readAttempts (byteOfNat (4 * sec + b)) Config.maxAttempts
  unfold State.blockRead
  exact hattempts.append

theorem SameClassic.blockLoop {s t : State} (h : SameClassic s t) (sec n b : Nat) :
    SameStep (State.blockLoop sec n b s) (State.blockLoop sec n b t) := by
  induction n generalizing b s t with
  | zero => exact ⟨rfl, h⟩
  | succ n ih =>
    have hread := h.blockRead sec b
    unfold State.blockLoop
    simp only [hread.status]
    split
    · exact ih hread.states (b + 1)
    · exact hread

theorem SameClassic.trailer {s t : State} (h : SameClassic s t) (sec : Nat) :
    Machine.trailer s.params.card (s.work.keyA.getD sec []) (s.work.keyB.getD sec []) =
      Machine.trailer t.params.card (t.work.keyA.getD sec []) (t.work.keyB.getD sec []) := by
  rw [h.keyA, h.keyB, h.params]

theorem SameClassic.appendTrailer {s t : State} (h : SameClassic s t) (sec : Nat) :
    SameClassic (s.appendTrailer sec) (t.appendTrailer sec) := by
  have htrailer := h.trailer sec
  unfold State.appendTrailer
  exact h.appendImage htrailer

/-- The end of a sector: its trailer is appended where its blocks were read. -/
theorem SameStep.endSector {r q : State × Status} (h : SameStep r q) (sec : Nat) :
    SameStep (if r.2 = .ok then (r.1.appendTrailer sec, .ok) else r) (if q.2 = .ok then (q.1.appendTrailer sec, .ok) else q) := by
  rw [h.status]
  split
  · exact ⟨rfl, h.states.appendTrailer sec⟩
  · exact h

theorem SameClassic.readSector {s t : State} (h : SameClassic s t) (sec : Nat) :
    SameStep (s.readSector sec) (t.readSector sec) := by
  have hauth := (h.setSector (BitVec.ofNat 5 sec)).sectorAuth sec
  have hblocks := hauth.states.blockLoop sec Config.dataBlocks 0
  unfold State.readSector
  simp only [hauth.status]
  split
  · exact hblocks.endSector sec
  · exact hauth.toSameStep

theorem SameClassic.sectorLoop {s t : State} (h : SameClassic s t) (n sec : Nat) :
    SameStep (s.sectorLoop n sec) (t.sectorLoop n sec) := by
  induction n generalizing sec s t with
  | zero => exact ⟨rfl, h⟩
  | succ n ih =>
    have hread := h.readSector sec
    unfold State.sectorLoop
    simp only [hread.status]
    split
    · exact ih hread.states (sec + 1)
    · exact hread

namespace SameButUnspecified

variable {s t : State} (h : SameButUnspecified s t)
include h

theorem readClassicBody (ul : Byte) (uid ka kb : Bytes) :
    SameButUnspecified (s.readClassicBody ul uid ka kb) (t.readClassicBody ul uid ka kb) := by
  have hloop := SameClassic.sectorLoop (s := s.loadClassic ul uid ka kb) (t := t.loadClassic ul uid ka kb)
    ⟨(h.atLine .loadKeys).setWork _ _, rfl, rfl, rfl, rfl⟩ Config.sectors 0
  have hzero := (hloop.states.1.atLine .zeroKeys).zeroKeys 12 204
  unfold State.readClassicBody
  simp only [hloop.status]
  split
  · exact hloop.states.1
  · split
    · exact hzero.finish .ok hloop.states.image
    · exact hzero.fail rfl

theorem authInstr (keysel sector : Byte) (key uid4 : Bytes) :
    SameButUnspecified (s.authInstr keysel sector key uid4) (t.authInstr keysel sector key uid4) := by
  have hauth := h.authBody (keysel == 1) sector key uid4
  have hzero := (hauth.states.1.atLine .zeroKeys).zeroKeys 3 9
  unfold State.authInstr
  simp only [hauth.status]
  split
  · exact hauth.states.1
  · split
    · exact hzero.finish .ok rfl
    · exact hzero.fail rfl

theorem writeBlockBody (block : Byte) (data : Bytes) :
    SameButUnspecified (s.writeBlockBody block data) (t.writeBlockBody block data) := by
  have hfirst := h.writePhase .writeCommand (mfWriteDesc t.params block)
  unfold State.writeBlockBody
  rw [h.params]
  refine .afterStage hfirst.status hfirst.states.1 fun _ => ?_
  have hsecond := hfirst.states.1.writePhase .writeData
    (writeDataDesc (t.writePhase .writeCommand (mfWriteDesc t.params block)).1.params data)
  rw [hfirst.states.params]
  exact .afterStage hsecond.status hsecond.states.1 fun _ => hsecond.states.1.finish .ok rfl

end SameButUnspecified

/-! ### MIFARE Ultralight/NTAG -/

/-- Differ only in unspecified registers, and not in the page and the image of a full Ultralight read (R352). -/
structure SamePage (s t : State) : Prop extends SameButUnspecified s t where
  image : s.work.image = t.work.image
  page : s.work.page = t.work.page

namespace SamePage

variable {s t : State} (h : SamePage s t)
include h

theorem clippedImage (pages : Nat) : s.clippedImage pages = t.clippedImage pages := by
  rw [State.clippedImage, State.clippedImage, h.image]

theorem atLine (l : Line) : SamePage (s.atLine l) (t.atLine l) := ⟨h.1.atLine l, h.image, h.page⟩

theorem windowFailed : SameButUnspecified s.windowFailed t.windowFailed := by
  have hline := h.atLine .boundary
  unfold State.windowFailed
  simp only [hline.page]
  by_cases hpage : (t.atLine .boundary).work.page.toNat ∈ Config.ulEndBoundaries
  · rw [if_pos hpage, if_pos hpage]
    exact hline.1.finish .ok (hline.clippedImage _)
  · rw [if_neg hpage, if_neg hpage]
    exact hline.1.fail rfl

theorem windowLoop (fuel : Nat) : SameButUnspecified (State.windowLoop fuel s) (State.windowLoop fuel t) := by
  induction fuel generalizing s t with
  | zero => exact h.1.finish .ok (h.clippedImage _)
  | succ fuel ih =>
    have hread := (h.1.atLine .window).readStage t.work.page
    have hpage : SamePage ((s.atLine .window).readStage t.work.page).1 ((t.atLine .window).readStage t.work.page).1 := by
      refine ⟨hread.states.1, ?_, ?_⟩ <;> rw [(State.readStage_kept ..).work, (State.readStage_kept ..).work]
      · exact h.image
      · exact h.page
    unfold State.windowLoop
    simp only [h.page, hread.status]
    split
    · split
      · exact hread.states.1
      · split
        · refine ih ⟨(hread.states.1.atLine .next).setWork _ _, ?_, ?_⟩
          · simp only [State.windowRead, State.setWork_work, hpage.image, hread.states.rxSlice]
          · simp only [State.windowRead, State.setWork_work, hpage.page]
        · exact hpage.windowFailed
    · exact h.1.finish .ok (h.clippedImage _)

end SamePage

/-- The acceptance of a frame keeps the identity registers. -/
theorem State.accept_ident (o : Offer) (s : State) : (s.accept o).ident = s.ident := by
  obtain ⟨port, f⟩ := o
  cases port with
  | host => exact (State.acceptHost_accepted f s).ident
  | bus | card => rfl

namespace SameButUnspecified

variable {s t : State} (h : SameButUnspecified s t)
include h

theorem readUltralightBody : SameButUnspecified s.readUltralightBody t.readUltralightBody := by
  have hstart : SamePage ((s.atLine .clearImage).setWork { s.work with image := [], page := 0 })
      ((t.atLine .clearImage).setWork { t.work with image := [], page := 0 }) :=
    ⟨(h.atLine .clearImage).setWork _ _, rfl, rfl⟩
  exact hstart.windowLoop Config.ulMaxPages

/-! ### Session control -/

theorem initBody : SameButUnspecified s.initBody t.initBody := by
  unfold State.initBody
  simp only [h.params]
  exact (((h.atLine .initWrites).regWrites _).atLine .initStatus).regModify _ _ _

theorem carrierBody (mode : BitVec 2) : SameButUnspecified (s.carrierBody mode) (t.carrierBody mode) := by
  unfold State.carrierBody
  simp only [h.params]
  have hwaves := (((h.atLine .carrierWave1).regModify t.params.chip.txControl.byte t.params.chip.tx1RfEn
    (mode.getLsbD 0)).atLine .carrierWave2).regModify t.params.chip.txControl.byte t.params.chip.tx2RfEn (mode.getLsbD 1)
  exact (hwaves.atLine .carrierMode).setSess (by rw [hwaves.sess])

theorem setActive (v : Bool) : SameButUnspecified (s.setActive v) (t.setActive v) :=
  (h.atLine .active).setSess (by rw [h.sess])

theorem closeSession : SameButUnspecified s.closeSession t.closeSession := h.setSess rfl

theorem resetPulse : SameButUnspecified s.resetPulse t.resetPulse :=
  (((h.pin false).wait Config.resetLowMs).pin true).wait Config.resetWaitMs

theorem hardResetBody : SameButUnspecified s.hardResetBody t.hardResetBody := by
  have hlow := (h.atLine .pinLow).pin false
  have hhigh := ((hlow.atLine .waitLow).wait Config.resetLowMs |>.atLine .pinHigh).pin true
  have hclosed := (((hhigh.atLine .waitHigh).wait Config.resetWaitMs).atLine .closeSession).closeSession
  unfold State.hardResetBody
  exact ((hclosed.atLine .zeroKeys).zeroKeys 0 0 |>.atLine .toIdle).setSt .idle

theorem powerUpSequence : SameButUnspecified s.powerUpSequence t.powerUpSequence :=
  ((h.setHost rfl).resetPulse.closeSession.zeroKeys 0 0).setSt .idle

/-! ### Every instruction -/

/-- A bus frame is one multiplexer operation. -/
theorem busOperation {i : Instr} {op : State → State} (hop : Machine.busOperation i = some op) :
    SameButUnspecified (op s) (op t) := by
  cases i with
  | busRegRead a => cases hop; exact h.regRead a
  | busRegWrite a v => cases hop; exact h.regWrite a v
  | busFifoRead n => cases hop; exact (h.fifoRead n).2
  | busFifoWrite b => cases hop; exact h.fifoWrite b
  | _ => cases hop

theorem exec_frame {i : Instr} (hport : i.port ≠ .host) :
    ∃ s' t', exec i s = .next s' ∧ exec i t = .next t' ∧ SameButUnspecified s' t' := by
  rcases busOperation_or_cardDescriptor s.params hport with ⟨op, hop⟩ | ⟨d, hd⟩
  · exact ⟨_, _, exec_busOperation hop s, exec_busOperation hop t, h.internal (h.busOperation hop)⟩
  · have hd' : cardDescriptor t.params i = some d := h.params ▸ hd
    exact ⟨_, _, exec_cardDescriptor hd, exec_cardDescriptor hd', h.internal (h.runExec d).1.1⟩

/-- Every instruction, the identity registers having their sizes (SCAN writes the entries of its levels one by one). -/
theorem exec (hs : IdentInv s.ident) (ht : IdentInv t.ident) (i : Instr) :
    ∃ s' t', Machine.exec i s = .next s' ∧ Machine.exec i t = .next t' ∧ SameButUnspecified s' t' := by
  cases i with
  | regRead a =>
    exact ⟨_, _, rfl, rfl, h.command fun _ =>
      ((h.atLine .transfer).regRead a).finish .ok (by rw [(h.atLine .transfer).regRead_value])⟩
  | regWrite a v => exact ⟨_, _, rfl, rfl, h.command fun _ => ((h.atLine .transfer).regWrite a v).finish .ok rfl⟩
  | regModify a m set => exact ⟨_, _, rfl, rfl, h.command fun _ => ((h.atLine .modify).regModify a m _).finish .ok rfl⟩
  | fifoRead n =>
    obtain ⟨hbytes, hread⟩ := (h.atLine .transfer).fifoRead n.toNat
    exact ⟨_, _, rfl, rfl, h.command fun _ => hread.finish .ok hbytes⟩
  | fifoWrite b => exact ⟨_, _, rfl, rfl, h.command fun _ => ((h.atLine .transfer).fifoWrite b).finish .ok rfl⟩
  | setTimeout n => exact ⟨_, _, rfl, rfl, h.command fun _ => ((h.atLine .timer).setTimeout _).finish .ok rfl⟩
  | execute f => exact ⟨_, _, rfl, rfl, h.command fun _ =>
    (h.atLine .exec).withExec fun _ _ st k => k.1.finish st k.executePayload⟩
  | hardReset => exact ⟨_, _, rfl, rfl, h.hardResetBody.finish .ok rfl⟩
  | startSession =>
    exact ⟨_, _, rfl, rfl, h.command fun _ => ((h.initBody.carrierBody 3).setActive true).finish .ok rfl⟩
  | endSession => exact ⟨_, _, rfl, rfl, h.command fun _ => ((h.carrierBody 0).setActive false).finish .ok rfl⟩
  | init => exact ⟨_, _, rfl, rfl, h.command fun _ => h.initBody.finish .ok rfl⟩
  | carrier mode => exact ⟨_, _, rfl, rfl, h.command fun _ => (h.carrierBody _).finish .ok rfl⟩
  | wakeup => exact ⟨_, _, rfl, rfl, h.command fun _ => h.wakeupStage.finish h.wakeupStage.states.rxSlice⟩
  | anticoll level =>
    exact ⟨_, _, rfl, rfl, h.command fun _ => (h.anticollStage _).finish (h.anticollStage _).states.rxSlice⟩
  | select level part bcc =>
    exact ⟨_, _, rfl, rfl, h.command fun _ => (h.selectStage _ part bcc).finish (h.selectStage _ part bcc).states.rxSlice⟩
  | halt => exact ⟨_, _, rfl, rfl, h.command fun _ => h.haltStage.finish rfl⟩
  | scan => exact ⟨_, _, rfl, rfl, h.command fun _ => h.scanBody hs ht⟩
  | auth keysel sector key uid4 =>
    exact ⟨_, _, rfl, rfl, h.commandWith _ (h.zeroKeys 3 9) fun _ => h.authInstr keysel sector key uid4⟩
  | readBlock b => exact ⟨_, _, rfl, rfl, h.command fun _ => (h.readStage b).finish (h.readStage b).states.rxSlice⟩
  | writeBlock b data => exact ⟨_, _, rfl, rfl, h.command fun _ => h.writeBlockBody b data⟩
  | readClassic ul uid ka kb =>
    exact ⟨_, _, rfl, rfl, h.commandWith _ (h.zeroKeys 12 204) fun _ => h.readClassicBody ul uid ka kb⟩
  | readPage page => exact ⟨_, _, rfl, rfl, h.command fun _ => (h.readStage page).finish (h.readStage page).states.rxSlice⟩
  | readUltralight => exact ⟨_, _, rfl, rfl, h.command fun _ => h.readUltralightBody⟩
  | _ => exact h.exec_frame (fun hport => by cases hport)

/-! ### A step -/

theorem acceptHost (f : Bytes) : SameButUnspecified (s.acceptHost f) (t.acceptHost f) := by
  have hlog := h.log (rfl : Event.command f = .command f)
  unfold State.acceptHost
  simp only [hlog.st]
  split
  · exact hlog
  · exact ((hlog.setHost (by rw [hlog.host])).setSt .busy).setPc _ _

theorem cleanKeys : SameButUnspecified s.cleanKeys t.cleanKeys := by
  unfold State.cleanKeys
  rw [h.host]
  split
  · exact h.zeroKeys 3 9
  · split
    · exact h.zeroKeys 12 204
    · exact h

theorem rejectHost : SameButUnspecified s.rejectHost t.rejectHost := h.commandWith false h.cleanKeys nofun

theorem accept (o : Offer) : SameButUnspecified (s.accept o) (t.accept o) := by
  obtain ⟨port, f⟩ := o
  cases port with
  | host => exact h.acceptHost f
  | bus | card => exact h

/-- A taken frame is run or rejected, the same way in both. -/
theorem runOffer {o : Offer} {s' : State} (hs : IdentInv s.ident) (ht : IdentInv t.ident)
    (hrun : Machine.runOffer o s = .next s') :
    ∃ t', Machine.runOffer o t = .next t' ∧ SameButUnspecified s' t' := by
  cases hd : decodeOffer s.params o with
  | ok i =>
    have hd' : decodeOffer t.params o = .ok i := h.params ▸ hd
    obtain ⟨u, v, hu, hv, huv⟩ := (h.accept o).exec (State.accept_ident o s ▸ hs) (State.accept_ident o t ▸ ht) i
    rw [runOffer_of_ok hd, hu] at hrun
    cases hrun
    exact ⟨v, (runOffer_of_ok hd').trans hv, huv⟩
  | error e =>
    have hd' : decodeOffer t.params o = .error e := h.params ▸ hd
    rw [runOffer_of_error hd] at hrun
    rw [runOffer_of_error hd']
    obtain ⟨port, f⟩ := o
    cases port with
    | host => cases hrun; exact ⟨_, rfl, (h.acceptHost f).rejectHost⟩
    | bus | card => cases hrun

theorem step {s' : State} (hs : IdentInv s.ident) (ht : IdentInv t.ident) (hstep : Machine.step s = .next s') :
    ∃ t', Machine.step t = .next t' ∧ SameButUnspecified s' t' := by
  have hst := h.st.symm
  cases hs0 : s.st with
  | reset =>
    rw [hs0] at hst
    cases (step_of_reset hs0).symm.trans hstep
    exact ⟨_, step_of_reset hst, h.powerUpSequence⟩
  | busy =>
    rw [Machine.step, hs0] at hstep
    cases hstep
  | idle | fatal =>
    rw [hs0] at hst
    have hws : s.st = .idle ∨ s.st = .fatal := by rw [hs0]; simp
    have hwt : t.st = .idle ∨ t.st = .fatal := by rw [hst]; simp
    cases ho : s.offers with
    | nil =>
      cases (step_of_waiting hws ho).symm.trans hstep
      exact ⟨_, step_of_waiting hwt (h.offers ▸ ho), h⟩
    | cons o rest =>
      rw [step_of_offer hws ho] at hstep
      rw [step_of_offer hwt (h.offers ▸ ho)]
      exact (h.setOffers rest).runOffer hs ht hstep

end SameButUnspecified

end Sys2Proof.Machine

namespace Sys2Proof.Proofs

open Machine

/-- Settles O58: each step of the model is the same in both states; what it reads of an unspecified register it has
written before. -/
theorem unspecifiedRegistersAreNeverRead : Obligations.UnspecifiedRegistersAreNeverRead :=
  fun _ _ _ hs ht h hstep => h.step hs.ident ht.ident hstep

end Sys2Proof.Proofs
end

section
/-! The loops' entry labels; EXIT; the order in which one iteration of LOOP acts on simultaneous flags; the silent chip; the
frame of a run. -/

namespace Sys2Proof.Machine

namespace State

/-! ### The label a loop is entered with (R31) -/

/-- LOOP sets the label inside the line before anything reads it. -/
theorem execLoop_setPc {s : State} {l : StepLabel} (hline : l.line = s.pc.step.line) (n : Nat) :
    execLoop n (s.setPc ⟨s.pc.op, l⟩) = execLoop n s := by
  have hhead : (s.setPc ⟨s.pc.op, l⟩).atPhase .loop = s.atPhase .loop := by
    unfold atPhase
    rw [setPc_pc, hline]
    rfl
  cases n with
  | zero => rw [execLoop, execLoop, hhead]
  | succ n => rw [execLoop, execLoop, hhead]

theorem attempts_setPc (head : Line) (f : State → State × Status) (x : Status) (n : Nat) (s : State) (l : StepLabel) :
    attempts head f x n (s.setPc ⟨s.pc.op, l⟩) = attempts head f x n s := by cases n <;> rfl

theorem cascadeLoop_setPc (n level : Nat) (s : State) (l : StepLabel) :
    (s.setPc ⟨s.pc.op, l⟩).cascadeLoop (n + 1) level = s.cascadeLoop (n + 1) level := rfl

theorem windowLoop_setPc (n : Nat) (s : State) (l : StepLabel) :
    windowLoop n (s.setPc ⟨s.pc.op, l⟩) = windowLoop n s := by cases n <;> rfl

/-! ### The branches on a snapshot (R216, R416) -/

variable {s : State}

/-- An iteration in which neither the timer nor an error is flagged is its five other branches, from the third on. -/
theorem iteration_past_err (htimer : s.snapshot.d.irq &&& s.params.chip.irqTimer = 0)
    (herr : s.snapshot.d.irq &&& s.params.chip.irqErr = 0) :
    s.iteration = (((((s.snapshot.atPhase .loAlert).branchLoAlert).andThen .hiAlert branchHiAlert).andThen
      .idle branchIdle).andThen .rx branchRx).andThen .tx branchTx := by
  have h1 : (s.snapshot.atPhase .timer).branchTimer = .goOn (s.snapshot.atPhase .timer) := branchTimer_skip htimer
  have h2 : (s.snapshot.atPhase .err).branchErr = .goOn (s.snapshot.atPhase .err) := branchErr_skip herr
  simp only [iteration, Flow.andThen, h1, atPhase_atPhase, h2]

theorem iteration_timer (htimer : s.snapshot.d.irq &&& s.params.chip.irqTimer ≠ 0) :
    s.iteration = .stop ((s.snapshot.atPhase .timer).clearFlag s.params.chip.irqTimer) .timer := by
  have h1 : (s.snapshot.atPhase .timer).branchTimer =
      .stop ((s.snapshot.atPhase .timer).clearFlag s.params.chip.irqTimer) .timer := branchTimer_act htimer
  simp only [iteration, Flow.andThen, h1]

/-- The error branch receives nothing (R218). -/
theorem readError_receive (s : State) : s.readError.1.d.rxBuf = s.d.rxBuf ∧ s.readError.1.d.rxCnt = s.d.rxCnt := by
  unfold readError
  simp only
  split
  · exact ⟨rfl, rfl⟩
  · exact ⟨rfl, rfl⟩

theorem iteration_err (htimer : s.snapshot.d.irq &&& s.params.chip.irqTimer = 0)
    (herr : s.snapshot.d.irq &&& s.params.chip.irqErr ≠ 0) :
    ∃ u st, s.iteration = .stop u st ∧ (st = .comm ∨ st = .collision) ∧
      u.d.rxBuf = s.d.rxBuf ∧ u.d.rxCnt = s.d.rxCnt := by
  have h1 : (s.snapshot.atPhase .timer).branchTimer = .goOn (s.snapshot.atPhase .timer) := branchTimer_skip htimer
  obtain ⟨hbuf, hcnt⟩ := (s.snapshot.atPhase .err).readError_receive
  have h2 : (s.snapshot.atPhase .err).branchErr = .stop ((s.snapshot.atPhase .err).readError.1.clearFlag s.params.chip.irqErr)
      (s.snapshot.atPhase .err).readError.2 := branchErr_act herr rfl
  refine ⟨(s.snapshot.atPhase .err).readError.1.clearFlag s.params.chip.irqErr, _, ?_,
    (readError_status (s.snapshot.atPhase .err)).symm, hbuf, hcnt⟩
  simp only [iteration, Flow.andThen, h1, atPhase_atPhase, h2]

/-- A feed changes of the descriptor registers only the pending bytes (R219). -/
theorem feed_d (s : State) : s.feed.d = { s.d with txPend := s.feed.d.txPend } := by
  unfold feed
  split
  · rfl
  · simp

theorem drainRemainder_stops (n : Nat) (s : State) :
    ∃ u st, s.drainRemainder n = .stop u st ∧ u.d.sendDone = s.d.sendDone := by
  unfold drainRemainder
  simp only
  have hdone : (s.fifoRead n).2.d.sendDone = s.d.sendDone := congrArg Desc.sendDone (fifoRead_d s n)
  split
  · exact ⟨_, _, rfl, hdone⟩
  · exact ⟨_, _, rfl, hdone⟩

/-- A receive ends the run, the send marked finished or not as before (R222). -/
theorem branchRx_stops (hset : s.d.irq &&& s.params.chip.irqRx ≠ 0) (hfam : s.d.family = .transceive) :
    ∃ u st, s.branchRx = .stop u st ∧ u.d.sendDone = s.d.sendDone := by
  rw [branchRx_act hset hfam rfl rfl]
  exact drainRemainder_stops _ _

/-- Where a receive is flagged and no high watermark acts, the iteration ends with the receive; what stands before it
leaves its flag (R416). -/
theorem rx_after (u : State) (hhi : u.d.irq &&& u.params.chip.irqHiAlert = 0 ∨ u.d.sendDone = false)
    (hset : u.d.irq &&& u.params.chip.irqRx ≠ 0) (hfam : u.d.family = .transceive) :
    (((((Flow.goOn u).andThen .hiAlert branchHiAlert).andThen .idle branchIdle).andThen .rx branchRx).andThen .tx branchTx =
      (u.atPhase .rx).branchRx) ∧ ∃ v st, (u.atPhase .rx).branchRx = .stop v st ∧ v.d.sendDone = u.d.sendDone := by
  obtain ⟨v, st, hrx, hdone⟩ := branchRx_stops (s := u.atPhase .rx) hset hfam
  have h4 : (u.atPhase .hiAlert).branchHiAlert = .goOn (u.atPhase .hiAlert) := branchHiAlert_skip hhi
  have h5 : (u.atPhase .idle).branchIdle = .goOn (u.atPhase .idle) := branchIdle_skip (.inr hfam)
  refine ⟨?_, v, st, hrx, hdone⟩
  simp only [Flow.andThen, h4, atPhase_atPhase, h5, hrx]

/-- Where neither a low watermark, a high watermark, a finished command nor a receive acts, the last branch decides. -/
theorem iteration_tx (htimer : s.snapshot.d.irq &&& s.params.chip.irqTimer = 0)
    (herr : s.snapshot.d.irq &&& s.params.chip.irqErr = 0) (hlo : s.snapshot.d.irq &&& s.params.chip.irqLoAlert = 0)
    (hhi : s.snapshot.d.irq &&& s.params.chip.irqHiAlert = 0 ∨ s.d.sendDone = false)
    (hidle : s.snapshot.d.irq &&& s.params.chip.irqIdle = 0 ∨ s.d.family = .transceive)
    (hrx : s.snapshot.d.irq &&& s.params.chip.irqRx = 0 ∨ s.d.family = .authenticate) :
    s.iteration = (s.snapshot.atPhase .tx).branchTx := by
  have h3 : (s.snapshot.atPhase .loAlert).branchLoAlert = .goOn (s.snapshot.atPhase .loAlert) := branchLoAlert_skip hlo
  have h4 : (s.snapshot.atPhase .hiAlert).branchHiAlert = .goOn (s.snapshot.atPhase .hiAlert) := branchHiAlert_skip hhi
  have h5 : (s.snapshot.atPhase .idle).branchIdle = .goOn (s.snapshot.atPhase .idle) := branchIdle_skip hidle
  have h6 : (s.snapshot.atPhase .rx).branchRx = .goOn (s.snapshot.atPhase .rx) := branchRx_skip hrx
  rw [iteration_past_err htimer herr, h3]
  simp only [Flow.andThen, atPhase_atPhase, h4, h5, h6]

/-- A low watermark is fed before the receive acts. -/
theorem iteration_feed_rx (htimer : s.snapshot.d.irq &&& s.params.chip.irqTimer = 0)
    (herr : s.snapshot.d.irq &&& s.params.chip.irqErr = 0) (hlo : s.snapshot.d.irq &&& s.params.chip.irqLoAlert ≠ 0)
    (hrx : s.snapshot.d.irq &&& s.params.chip.irqRx ≠ 0) (hfam : s.d.family = .transceive)
    (hhi : s.snapshot.d.irq &&& s.params.chip.irqHiAlert = 0 ∨ s.d.sendDone = false) :
    s.iteration =
        (((s.snapshot.atPhase .loAlert).feed.clearFlag s.params.chip.irqLoAlert).atPhase .rx).branchRx ∧
      ∃ u st, s.iteration = .stop u st := by
  have h3 : (s.snapshot.atPhase .loAlert).branchLoAlert =
      .goOn ((s.snapshot.atPhase .loAlert).feed.clearFlag s.params.chip.irqLoAlert) := branchLoAlert_act hlo
  have hd : ((s.snapshot.atPhase .loAlert).feed.clearFlag s.params.chip.irqLoAlert).d =
    { s.snapshot.d with txPend := (s.snapshot.atPhase .loAlert).feed.d.txPend } := feed_d (s.snapshot.atPhase .loAlert)
  have hp : ((s.snapshot.atPhase .loAlert).feed.clearFlag s.params.chip.irqLoAlert).params = s.params :=
    (feed_loopOnly (s.snapshot.atPhase .loAlert)).params
  obtain ⟨hact, u, st, hstop, -⟩ := rx_after ((s.snapshot.atPhase .loAlert).feed.clearFlag s.params.chip.irqLoAlert)
    (by rw [hd, hp]; exact hhi) (by rw [hd, hp]; exact hrx) (by rw [hd]; exact hfam)
  rw [iteration_past_err htimer herr, h3]
  exact ⟨hact, u, st, hact.trans hstop⟩

/-- With no low watermark the receive acts on the snapshot. -/
theorem iteration_rx (htimer : s.snapshot.d.irq &&& s.params.chip.irqTimer = 0)
    (herr : s.snapshot.d.irq &&& s.params.chip.irqErr = 0) (hlo : s.snapshot.d.irq &&& s.params.chip.irqLoAlert = 0)
    (hrx : s.snapshot.d.irq &&& s.params.chip.irqRx ≠ 0) (hfam : s.d.family = .transceive) (hdone : s.d.sendDone = false) :
    s.iteration = (s.snapshot.atPhase .rx).branchRx ∧ ∃ u st, s.iteration = .stop u st ∧ u.d.sendDone = false := by
  have h3 : (s.snapshot.atPhase .loAlert).branchLoAlert = .goOn (s.snapshot.atPhase .loAlert) := branchLoAlert_skip hlo
  obtain ⟨hact, u, st, hstop, hsend⟩ := rx_after (s.snapshot.atPhase .loAlert) (.inr hdone) hrx hfam
  rw [iteration_past_err htimer herr, h3]
  exact ⟨hact, u, st, hact.trans hstop, hsend.trans hdone⟩

end State

end Sys2Proof.Machine

namespace Sys2Proof.Proofs

open Machine

/-- Settles O60: each loop sets the label before it reads it. -/
theorem loopEntryLabelPlaysNoPart : Obligations.LoopEntryLabelPlaysNoPart := by
  rintro s _ l rfl
  exact ⟨fun hline n => State.execLoop_setPc hline n, rfl, fun head f x n => ⟨State.attempts_setPc head f x n s l, rfl⟩,
    fun n level => State.cascadeLoop_setPc n level s l, fun n => State.windowLoop_setPc n s l⟩

/-- Settles O30: `execExit` unfolded, at the byte that was read. -/
theorem exitClearsStartSend : Obligations.ExitClearsStartSend := by
  rintro _ s s1 v rfl hr
  obtain ⟨rfl, rfl⟩ := Prod.ext_iff.mp hr
  rfl

/-- Settles O29: the branches before the one that acts are skipped on the snapshot, and those after a stop are not reached. -/
theorem simultaneousFlagsActInOrder : Obligations.SimultaneousFlagsActInOrder := by
  rintro _ s _ v s1 rfl hr rfl
  obtain ⟨rfl, rfl⟩ := Prod.ext_iff.mp hr
  refine ⟨State.iteration_timer, State.iteration_err, fun htimer herr =>
    ⟨?feed, ?receive, ?sent, ?transceive, ?authenticate⟩⟩
  case feed => exact State.iteration_feed_rx htimer herr
  case receive => exact State.iteration_rx htimer herr
  case sent =>
    intro hlo _ hidle hrx htx hdone
    rw [State.iteration_tx htimer herr hlo (.inr hdone) (.inl hidle) (.inl hrx), State.branchTx_act htx]
    rfl
  case transceive =>
    intro hlo hhi hrx htx hfam
    rw [State.iteration_tx htimer herr hlo (.inl hhi) (.inr hfam) (.inl hrx), State.branchTx_skip htx]
    rfl
  case authenticate =>
    intro hlo hhi hidle htx hfam
    rw [State.iteration_tx htimer herr hlo (.inl hhi) (.inl hidle) (.inr hfam), State.branchTx_skip htx]
    rfl

end Sys2Proof.Proofs

end

section
/-! Executor runs as a whole: how EXIT and a FATAL end close the record, a chip that never raises a flag, and the standard
transceive run. -/

namespace Sys2Proof.Machine

namespace State

/-! ### EXIT's three transfers (R226) -/

theorem hist_append {s t u : State} {a b : List Event} (h : t.hist = s.hist ++ a) (k : u.hist = t.hist ++ b) :
    u.hist = s.hist ++ (a ++ b) := by rw [k, h, List.append_assoc]

/-- A register read is recorded with the two bytes it returned. -/
theorem regRead_records (a : Byte) (s : State) :
    ∃ x, (s.regRead a).2.hist = s.hist ++ [.xfer (regReadFrame a) [x, (s.regRead a).1]] := ⟨_, rfl⟩

/-- A read-modify-write is recorded with the byte it read and the byte it wrote back (R182). -/
theorem regModify_records (a m : Byte) (set : Bool) (s : State) :
    ∃ (x v : Byte) (y : Bytes), (s.regModify a m set).hist =
      s.hist ++ [.xfer (regReadFrame a) [x, v], .xfer (regWriteFrame a (modified v m set)) y] := by
  obtain ⟨x, hread⟩ := regRead_records a (s.atPhase .modifyRead)
  exact ⟨x, _, _, hist_append (s := s) hread
    (regWrite_hist (((s.atPhase .modifyRead).regRead a).2.atPhase .modifyWrite) a _)⟩

/-- What EXIT adds to the record. -/
def ExitRecord (c : Config.Chip) (evs : List Event) : Prop :=
  ∃ (x v : Byte) (y z : Bytes), evs =
    [.xfer (regReadFrame c.bitFraming.byte) [x, v],
      .xfer (regWriteFrame c.bitFraming.byte (v &&& (0xFF ^^^ c.startSend))) y,
      .xfer (regWriteFrame c.command.byte (c.commandField.put c.cmdIdle.toNat)) z]

theorem execExit_hist (s : State) : ∃ evs, s.execExit.hist = s.hist ++ evs ∧ ExitRecord s.params.chip evs := by
  obtain ⟨x, v, y, hmodify⟩ := regModify_records s.params.chip.bitFraming.byte s.params.chip.startSend false
    (s.atPhase .exitFraming)
  exact ⟨_, hist_append (s := s) hmodify (regWrite_hist (((s.atPhase .exitFraming).regModify s.params.chip.bitFraming.byte
    s.params.chip.startSend false).atPhase .exitCommand) _ _), x, v, y, _, rfl⟩

/-- A run that does not end in FATAL is LOOP's end, then EXIT and the return of its status (R206). -/
theorem runExec_of_loop {d : Descriptor} {s u : State} {st : Status}
    (h : execLoop (s.atLoop d).1 (s.atLoop d).2 = (u, st)) (hst : st ≠ .fatal) :
    s.runExec d = ((u.execExit.atPhase .result).setXStatus st, st) := by
  rw [runExec_eq, h]
  exact if_neg hst

/-- A run that ends in FATAL ends where LOOP did (R206, R228). -/
theorem runExec_of_loop_fatal {d : Descriptor} {s u : State}
    (h : execLoop (s.atLoop d).1 (s.atLoop d).2 = (u, .fatal)) : s.runExec d = (u.setXStatus .fatal, .fatal) := by
  rw [runExec_eq, h]
  rfl

end State

/-! ### The drain that ends a run in FATAL (R228) -/

/-- The record ends with a FIFO read of at least one byte and the FATAL answer. -/
def DrainEnd (s t : State) : Prop :=
  ∃ (evs : List Event) (n : Nat) (inp : Bytes),
    t.hist = s.hist ++ evs ++ [.xfer (fifoReadFrame s.params.chip (n + 1)) inp, .result [0xFF, 0x00, 0x00]] ∧ BusEvents evs

theorem RunOnly.drainEnd {s t u : State} (h : RunOnly s t) (k : DrainEnd t u) : DrainEnd s u := by
  obtain ⟨evs, n, inp, hhist, hevs⟩ := k
  obtain ⟨evs', hhist', hevs'⟩ := h.hist
  refine ⟨evs' ++ evs, n, inp, ?_, hevs'.append hevs⟩
  rw [hhist, hhist', h.params]
  simp only [List.append_assoc]

/-- Where a branch ends the run in FATAL, its drain is the last transfer. -/
def FlowDrain (s : State) : Flow → Prop
  | .goOn _ => True
  | .stop t st => st = .fatal → DrainEnd s t

theorem RunOnly.flowDrain {s t : State} {f : Flow} (h : RunOnly s t) (k : FlowDrain t f) : FlowDrain s f := by
  cases f with
  | goOn _ => trivial
  | stop u st => exact fun hst => h.drainEnd (k hst)

/-- What a stretch of branches has done: it kept the receive registers in agreement, or ended the run. -/
theorem FlowDrain.andThen {s : State} {f : Flow} {p : Phase} {g : State → Flow} (hf : FlowSpec s f ∧ FlowDrain s f)
    (hspec : ∀ t, FlowSpec t (g t)) (hg : ∀ t, ReceiveInv t.d → FlowDrain t (g t)) (hs : ReceiveInv s.d) :
    FlowSpec s (f.andThen p g) ∧ FlowDrain s (f.andThen p g) := by
  refine ⟨hf.1.andThen hspec, ?_⟩
  cases f with
  | stop t st => exact hf.2
  | goOn t =>
    have ht : LoopOnly s (t.atPhase p) := LoopOnly.trans hf.1 (t.atPhase_busOnly p).loopOnly
    exact ht.toRunOnly.flowDrain (hg _ (ht.receive hs))

namespace State

variable {s : State}

/-- A drain that overflows has read at least one byte, as what was received before fits. -/
theorem drainEnd_fifoRead {n : Nat} (hs : ReceiveInv s.d) (ho : drainOverflows (s.fifoRead n).2.d n = true) :
    DrainEnd s (s.fifoRead n).2.raiseFatal := by
  rw [fifoRead_d, drainOverflows_iff] at ho
  have hfits := hs.fits
  obtain ⟨m, rfl⟩ := Nat.exists_eq_succ_of_ne_zero (n := n) (by omega)
  refine ⟨[], m, (s.xfer (fifoReadFrame s.params.chip (m + 1))).1, ?_, BusEvents.nil⟩
  rw [fifoRead_of_ne_zero s (Nat.succ_ne_zero m)]
  have hhist : (s.xfer (fifoReadFrame s.params.chip (m + 1))).2.hist =
    s.hist ++ [.xfer (fifoReadFrame s.params.chip (m + 1)) (s.xfer (fifoReadFrame s.params.chip (m + 1))).1] := rfl
  exact (congrArg (· ++ [Event.result [0xFF, 0x00, 0x00]]) hhist).trans (by simp)

theorem branchTimer_drain (s : State) : FlowDrain s s.branchTimer := by
  unfold branchTimer
  split
  · nofun
  · trivial

theorem branchErr_drain (s : State) : FlowDrain s s.branchErr := by
  unfold branchErr
  split
  · intro hst
    rcases s.readError_status with h | h
    · cases h.symm.trans hst
    · cases h.symm.trans hst
  · trivial

theorem branchLoAlert_drain (s : State) : FlowDrain s s.branchLoAlert := by
  unfold branchLoAlert
  split
  · trivial
  · trivial

theorem branchHiAlert_drain (hs : ReceiveInv s.d) : FlowDrain s s.branchHiAlert := by
  unfold branchHiAlert
  split
  · simp only
    split
    · next ho => exact fun _ => drainEnd_fifoRead hs ho
    · trivial
  · trivial

theorem branchIdle_drain (s : State) : FlowDrain s s.branchIdle := by
  unfold branchIdle
  split
  · nofun
  · trivial

theorem drainRemainder_drain (n : Nat) (hs : ReceiveInv s.d) : FlowDrain s (s.drainRemainder n) := by
  unfold drainRemainder
  simp only
  split
  · next ho => exact fun _ => drainEnd_fifoRead hs ho
  · intro hst
    rcases receiveStatus_cases (((s.fifoRead n).2.appendRx (s.fifoRead n).1 n).clearFlag s.params.chip.irqRx).d with h | ⟨h, -⟩
    · cases h.symm.trans hst
    · cases h.symm.trans hst

theorem branchRx_drain (hs : ReceiveInv s.d) : FlowDrain s s.branchRx := by
  have hlevel := s.readLastBits_loopOnly.trans (regRead_busOnly s.params.chip.fifoLevel.byte s.readLastBits).loopOnly
  unfold branchRx
  split
  · exact hlevel.toRunOnly.flowDrain (drainRemainder_drain _ (hlevel.receive hs))
  · trivial

theorem branchTx_drain (s : State) : FlowDrain s s.branchTx := by
  unfold branchTx
  split
  · trivial
  · trivial

theorem iteration_drain (hs : ReceiveInv s.d) : FlowDrain s s.iteration := by
  have hsnapshot := s.snapshot_loopOnly
  have hr := hsnapshot.receive hs
  have hstart : FlowSpec s.snapshot (.goOn s.snapshot) ∧ FlowDrain s.snapshot (.goOn s.snapshot) :=
    ⟨LoopOnly.refl _, trivial⟩
  have h1 := FlowDrain.andThen (p := .timer) hstart branchTimer_spec (fun t _ => t.branchTimer_drain) hr
  have h2 := FlowDrain.andThen (p := .err) h1 branchErr_spec (fun t _ => t.branchErr_drain) hr
  have h3 := FlowDrain.andThen (p := .loAlert) h2 branchLoAlert_spec (fun t _ => t.branchLoAlert_drain) hr
  have h4 := FlowDrain.andThen (p := .hiAlert) h3 branchHiAlert_spec (fun t k => branchHiAlert_drain k) hr
  have h5 := FlowDrain.andThen (p := .idle) h4 branchIdle_spec (fun t _ => t.branchIdle_drain) hr
  have h6 := FlowDrain.andThen (p := .rx) h5 branchRx_spec (fun t k => branchRx_drain k) hr
  have h7 := FlowDrain.andThen (p := .tx) h6 branchTx_spec (fun t _ => t.branchTx_drain) hr
  exact hsnapshot.toRunOnly.flowDrain h7.2

theorem execLoop_drain {n : Nat} (hs : ReceiveInv s.d) (hst : (s.execLoop n).2 = .fatal) : DrainEnd s (s.execLoop n).1 := by
  induction n generalizing s with
  | zero => cases hst
  | succ n ih =>
    have hhead := (s.atPhase_busOnly .loop).loopOnly
    have hspec := (s.atPhase .loop).iteration_spec
    have hdrain := iteration_drain (hhead.receive hs)
    unfold execLoop at hst ⊢
    cases hiter : (s.atPhase .loop).iteration with
    | goOn t =>
      rw [hiter] at hspec hst
      have ht : LoopOnly s t := hhead.trans hspec
      exact ht.toRunOnly.drainEnd (ih (ht.receive hs) hst)
    | stop t st =>
      rw [hiter] at hdrain hst
      exact hhead.toRunOnly.drainEnd (hdrain hst)

/-- How a run closes the record: with EXIT's three transfers, or with the drain that did not fit and the FATAL answer. -/
theorem runExec_record (d : Descriptor) (s : State) :
    ((s.runExec d).2 ≠ .fatal → ∃ evs exit, (s.runExec d).1.hist = s.hist ++ evs ++ exit ∧
      ExitRecord s.params.chip exit ∧ BusEvents evs) ∧
    ((s.runExec d).2 = .fatal → DrainEnd s (s.runExec d).1) := by
  have hload := s.execLoad_runOnly d
  have hstart := s.atLoop_loopOnly d
  have hrun := hload.trans hstart.toRunOnly
  have hend := execLoop_spec (s.atLoop d).1 (s.atLoop d).2
  cases hloop : execLoop (s.atLoop d).1 (s.atLoop d).2 with
  | mk u st =>
    rw [hloop] at hend
    by_cases hst : st = .fatal
    · subst hst
      rw [runExec_of_loop_fatal hloop]
      refine ⟨fun h => absurd rfl h, fun _ => hrun.drainEnd ?_⟩
      have hdrain := execLoop_drain (n := (s.atLoop d).1) (hstart.receive (s.execLoad_receive d)) (by rw [hloop])
      rw [hloop] at hdrain
      exact hdrain
    · rw [runExec_of_loop hloop hst]
      refine ⟨fun _ => ?_, fun h => absurd h hst⟩
      have hu := hrun.trans (hend.loop hst).toRunOnly
      obtain ⟨evs, hhist, hevs⟩ := hu.hist
      obtain ⟨exit, hexit, hrecord⟩ := u.execExit_hist
      exact ⟨evs, exit, hexit.trans (by rw [hhist]), hu.params ▸ hrecord, hevs⟩

/-! ### A chip that never raises a flag (R230) -/

/-- A snapshot takes two bytes and holds the second. -/
theorem snapshot_scripted {x v : Byte} {rest : Bytes} (hin : s.env.busIn = x :: v :: rest) :
    s.snapshot.d = { s.d with irq := v } ∧ s.snapshot.env.busIn = rest ∧
      s.snapshot.hist = s.hist ++ [.xfer (regReadFrame s.params.chip.comIrq.byte) [x, v]] := by
  obtain ⟨hbytes, henv⟩ := xfer_scripted (s := s.atPhase .snapshot) (out := regReadFrame s.params.chip.comIrq.byte)
    (inp := [x, v]) (rest := rest) hin rfl
  refine ⟨?_, congrArg Env.busIn henv, ?_⟩
  · exact congrArg (fun b : Bytes => { s.d with irq := b.getD 1 0 }) hbytes
  · exact congrArg (fun b => s.hist ++ [Event.xfer (regReadFrame s.params.chip.comIrq.byte) b]) hbytes

/-- With no flag in the snapshot an iteration is the snapshot. -/
theorem iteration_silent (hirq : s.snapshot.d.irq = 0) : s.iteration = .goOn (s.snapshot.atPhase .tx) := by
  have hnone (m : Byte) : s.snapshot.d.irq &&& m = 0 := by rw [hirq]; exact BitVec.zero_and
  have hrest : s.iteration = (s.snapshot.atPhase .tx).branchTx := by
    cases hfam : s.d.family with
    | transceive => exact iteration_tx (hnone _) (hnone _) (hnone _) (.inl (hnone _)) (.inr hfam) (.inl (hnone _))
    | authenticate => exact iteration_tx (hnone _) (hnone _) (hnone _) (.inl (hnone _)) (.inl (hnone _)) (.inr hfam)
  rw [hrest]
  exact branchTx_skip (hnone _)

/-- LOOP on snapshots without a flag ends when the deadline has come, nothing received (R225, R230). -/
theorem execLoop_silent {n : Nat} {b rest : Bytes} (hin : s.env.busIn = b ++ rest) (hlen : b.length = 2 * n)
    (hsilent : ∀ k < n, b.getD (2 * k + 1) 0 = 0x00) :
    ∃ t evs, s.execLoop n = (t, .timer) ∧ t.rxSlice = s.rxSlice ∧ t.params = s.params ∧ t.hist = s.hist ++ evs ∧
      evs.map Event.sent = List.replicate n (regReadFrame s.params.chip.comIrq.byte) := by
  induction n generalizing s b with
  | zero => exact ⟨_, [], rfl, rfl, rfl, by simp, rfl⟩
  | succ n ih =>
    obtain ⟨x, v, b, rfl⟩ : ∃ x v b', b = x :: v :: b' := by
      match b, hlen with
      | x :: v :: b', _ => exact ⟨x, v, b', rfl⟩
    have hv : v = 0x00 := hsilent 0 (Nat.succ_pos n)
    subst hv
    obtain ⟨hd, henv, hhist⟩ := snapshot_scripted (s := s.atPhase .loop) hin
    obtain ⟨t, evs, hloop, hslice, hparams, hhist', hsent⟩ := ih (s := (s.atPhase .loop).snapshot.atPhase .tx) (b := b)
      henv (by simp only [List.length_cons] at hlen; omega) fun k hk => hsilent (k + 1) (Nat.succ_lt_succ hk)
    refine ⟨t, .xfer (regReadFrame s.params.chip.comIrq.byte) [x, 0x00] :: evs, ?_, hslice.trans ?_, hparams, ?_, ?_⟩
    · rw [execLoop, iteration_silent (by rw [hd]), ← hloop]
    · have hslice' : (s.atPhase .loop).snapshot.rxSlice = s.rxSlice := by rw [rxSlice, hd]; rfl
      exact hslice'
    · refine hhist'.trans ?_
      have hstart : ((s.atPhase .loop).snapshot.atPhase .tx).hist = _ := hhist
      rw [hstart, List.append_assoc]
      rfl
    · rw [List.map_cons, hsent, List.replicate_succ]
      rfl

theorem execPrime_received (s : State) : s.execPrime.d.rxBuf = s.d.rxBuf := by
  cases hf : s.d.family with
  | transceive =>
    rw [execPrime_transceive hf]
    rfl
  | authenticate => rw [execPrime_authenticate hf, primeAuthenticate_d]

/-- Nothing is received before LOOP (R207). -/
theorem atLoop_rxSlice (d : Descriptor) (s : State) : (s.atLoop d).2.rxSlice = [] := by
  have hbuf : (s.atLoop d).2.d.rxBuf = [] := by
    have hprime := (s.execLoad d).execPreRun.execPrime_received
    rw [execPreRun_d] at hprime
    exact hprime
  rw [rxSlice, hbuf, List.take_nil]

/-- A run returns at most as many bytes as its descriptor has room for (R228). -/
theorem runExec_capacity (d : Descriptor) (s : State) : (s.runExec d).1.rxSlice.length ≤ d.rxCap.toNat := by
  have hend := s.runExec_spec d
  have hcap : (s.runExec d).1.d.rxCap.toNat ≤ d.rxCap.toNat := by
    rw [hend.kept.rxCap]
    exact (BitVec.toNat_setWidth 11 d.rxCap).le.trans (Nat.mod_le ..)
  exact (rxSlice_length _ hend.receive).le.trans (hend.receive.fits.trans hcap)

end State

end Sys2Proof.Machine

namespace Sys2Proof.Proofs

open Machine

/-- Settles O31: LOOP makes one snapshot per false draw, then EXIT closes the record. -/
theorem silentChipTimesOut : Obligations.SilentChipTimesOut := by
  rintro _ d s u n b rest rfl hstart hin hlen hsilent
  have hloop : s.atLoop d = (n, u) := hstart
  obtain ⟨t, evs, hrun, hslice, hparams, hhist, hsent⟩ := State.execLoop_silent hin hlen hsilent
  have hrun' : State.execLoop (s.atLoop d).1 (s.atLoop d).2 = (t, .timer) := by rw [hloop]; exact hrun
  have hu : u.params = s.params := by
    have hkept := ((s.execLoad_runOnly d).trans (s.atLoop_loopOnly d).toRunOnly).params
    rwa [hloop] at hkept
  have hempty : u.rxSlice = [] := by
    have h := s.atLoop_rxSlice d
    rwa [hloop] at h
  obtain ⟨exit, hexit, x, v, y, z, hrecord⟩ := t.execExit_hist
  rw [State.runExec_of_loop hrun' (by decide)]
  refine ⟨rfl, ?slice, evs, x, v, y, z, ?record, by rw [hsent, hu]⟩
  case slice =>
    have hkept : t.execExit.rxSlice = t.rxSlice := rfl
    exact hkept.trans (hslice.trans hempty)
  case record =>
    refine hexit.trans ?_
    rw [hrecord, hhist, hparams, hu]

/-- Settles O32: what `runExec_spec` says of every run, and how a run closes the record. -/
theorem executorRunFrame : Obligations.ExecutorRunFrame := by
  rintro _ d s t st rfl hrun
  have hspec := s.runExec_spec d
  have hkept := s.runExec_kept d
  have hcap := s.runExec_capacity d
  obtain ⟨hexit, hdrain⟩ := s.runExec_record d
  rw [hrun] at hspec hkept hcap hexit hdrain
  refine ⟨⟨hkept.sess, hkept.ident, hkept.work, hkept.pRst, hkept.offers, hkept.params, hkept.op⟩, hspec.status,
    fun hok hfam hlen => hspec.length hok hfam fun h => hlen (BitVec.eq_of_toNat_eq h), hcap, fun hst => ?run,
    fun hst => ?fatal⟩
  case run =>
    obtain ⟨evs, _, hhist, ⟨x, v, y, z, rfl⟩, hevs⟩ := hexit hst
    exact ⟨(hspec.run hst).st, (hspec.run hst).host, evs, x, v, y, z, hhist, hevs⟩
  case fatal =>
    obtain ⟨evs, n, inp, hhist, hevs⟩ := hdrain hst
    exact ⟨(hspec.fatal hst).st, (hspec.fatal hst).host, evs, n, inp, hhist, hevs⟩

end Sys2Proof.Proofs

end

section
/-! SCAN (R287 to R295): the levels that succeed lead to the next level, and the stage that does not ends the command. -/

namespace Sys2Proof.Machine

/-! ### The levels and the tag type -/

/-- Bits 7:6 of the first ATQA byte, as the number that a shift leaves (R288). -/
theorem extractLsb'_eq_shift (b : Byte) : (b.extractLsb' 6 2).toNat = (b >>> 6).toNat := by
  have hb := b.isLt
  rw [BitVec.extractLsb'_toNat, BitVec.toNat_ushiftRight, Nat.shiftRight_eq_div_pow]
  omega

theorem cascadeLevels_some {b : Byte} {levels : Nat} (h : (b >>> 6).toNat + 1 = levels) (hle : levels ≤ 3) :
    cascadeLevels b = some levels := by
  unfold cascadeLevels
  rw [extractLsb'_eq_shift]
  obtain h' | h' | h' : (b >>> 6).toNat = 0 ∨ (b >>> 6).toNat = 1 ∨ (b >>> 6).toNat = 2 := by omega
  all_goals
    rw [← h, h']
    rfl

theorem cascadeLevels_none {b : Byte} (h : b >>> 6 = 3) : cascadeLevels b = none := by
  unfold cascadeLevels
  rw [extractLsb'_eq_shift, h]
  rfl

/-- The tag type is the first entry of the SAK in the table (R289). -/
theorem sakClass_listed {c : Config.Card} {sak type : Byte} {pre post : List (Byte × Byte)}
    (h : c.sakTable = pre ++ (sak, type) :: post) (hfirst : ∀ r ∈ pre, r.1 ≠ sak) : sakClass c sak = type := by
  have hpre : pre.find? (fun r => r.1 == sak) = none :=
    List.find?_eq_none.mpr fun r hr => by simpa using hfirst r hr
  rw [sakClass, h, List.find?_append, hpre, Option.none_or, List.find?_cons_of_pos (by simp)]

theorem sakClass_unlisted {c : Config.Card} {sak : Byte} (h : ∀ r ∈ c.sakTable, r.1 ≠ sak) :
    sakClass c sak = c.sakOther := by
  have hnone : c.sakTable.find? (fun r => r.1 == sak) = none :=
    List.find?_eq_none.mpr fun r hr => by simpa using h r hr
  rw [sakClass, hnone]

theorem sakClass_default (sak : Byte) : sakClass Config.cardDefault sak =
    if sak = 0x08 ∨ sak = 0x09 ∨ sak = 0x18 then 0x01 else if sak = 0x00 then 0x02 else 0x00 := by
  by_cases h08 : sak = 0x08
  · subst h08; rfl
  by_cases h09 : sak = 0x09
  · subst h09; rfl
  by_cases h18 : sak = 0x18
  · subst h18; rfl
  by_cases h00 : sak = 0x00
  · subst h00; rfl
  rw [if_neg (not_or.mpr ⟨h08, not_or.mpr ⟨h09, h18⟩⟩), if_neg h00]
  refine sakClass_unlisted fun r hr => ?_
  simp only [Config.cardDefault, List.mem_cons, List.not_mem_nil, or_false] at hr
  obtain rfl | rfl | rfl | rfl := hr
  · exact Ne.symm h08
  · exact Ne.symm h09
  · exact Ne.symm h18
  · exact Ne.symm h00

/-! ### The identity record (R129, R294) -/

/-- The UID bytes of the first `n` of `levels` levels. -/
def uidOfParts (levels : Nat) (part : Nat → Bytes) (n : Nat) : Bytes :=
  (List.range n).flatMap fun k => if k + 1 = levels then part k else (part k).drop 1

theorem uidOfParts_succ (levels : Nat) (part : Nat → Bytes) (n : Nat) :
    uidOfParts levels part (n + 1) = uidOfParts levels part n ++ if n + 1 = levels then part n else (part n).drop 1 := by
  rw [uidOfParts, List.range_succ, List.flatMap_append, List.flatMap_singleton]
  rfl

theorem uidOfParts_length {levels : Nat} {part : Nat → Bytes} (hpart : ∀ k < levels, (part k).length = 4) {n : Nat}
    (hn : n < levels) : (uidOfParts levels part n).length = 3 * n := by
  induction n with
  | zero => rfl
  | succ n ih =>
    rw [uidOfParts_succ, if_neg (by omega), List.length_append, ih (by omega), List.length_drop, hpart n (by omega)]
    rfl

/-- A UID has three bytes per level and one more (R294). -/
theorem uidOfParts_length_all {levels : Nat} {part : Nat → Bytes} (hpart : ∀ k < levels, (part k).length = 4)
    (hpos : 1 ≤ levels) : (uidOfParts levels part levels).length = 3 * levels + 1 := by
  obtain ⟨n, rfl⟩ := Nat.exists_eq_add_of_le' hpos
  rw [uidOfParts_succ, if_pos rfl, List.length_append, uidOfParts_length hpart (Nat.lt_succ_self n), hpart n (Nat.lt_succ_self n)]
  omega

theorem perLevel_eq {levels : Nat} {bs : Bytes} {f : Nat → Byte} (h : ∀ k < levels, bs.getD k 0 = f k) (hle : levels ≤ 3) :
    perLevel levels bs = (List.range levels).map f ++ List.replicate (3 - levels) 0 := by
  obtain ⟨m, hm⟩ := Nat.exists_eq_add_of_le hle
  rw [perLevel, hm, List.range_add, List.map_append, Nat.add_sub_cancel_left]
  congr 1
  · exact List.map_congr_left fun k hk => by rw [if_pos (List.mem_range.mp hk), h k (List.mem_range.mp hk)]
  · refine List.eq_replicate_iff.mpr ⟨by simp, fun b hb => ?_⟩
    obtain ⟨_, hk, rfl⟩ := List.mem_map.mp hb
    obtain ⟨k, -, rfl⟩ := List.mem_map.mp hk
    exact if_neg (by omega)

/-- The identity record of a finished SCAN (R129). -/
theorem identityRecord_eq {type : Byte} {atqa bs ss : Bytes} {levels : Nat} {part : Nat → Bytes} {bcc sak : Nat → Byte}
    (hpart : ∀ k < levels, (part k).length = 4) (hpos : 1 ≤ levels) (hle : levels ≤ 3)
    (hbcc : ∀ k < levels, bs.getD k 0 = bcc k) (hsak : ∀ k < levels, ss.getD k 0 = sak k) :
    identityRecord type atqa levels (uidOfParts levels part levels) bs ss =
      [type, atqa.getD 0 0, atqa.getD 1 0, BitVec.ofNat 8 levels, BitVec.ofNat 8 (3 * levels + 1)] ++
        ((List.range levels).flatMap fun k => if k + 1 = levels then part k else (part k).drop 1) ++
        List.replicate (9 - 3 * levels) 0 ++
        (List.range levels).map bcc ++ List.replicate (3 - levels) 0 ++
        (List.range levels).map sak ++ List.replicate (3 - levels) 0 := by
  have hpad : 10 - (3 * levels + 1) = 9 - 3 * levels := by omega
  rw [identityRecord, padUid, uidOfParts_length_all hpart hpos, perLevel_eq hbcc hle, perLevel_eq hsak hle, hpad]
  simp only [List.append_assoc, uidOfParts, byteOfNat]

/-! ### The levels that succeed (R287) -/

section
variable {p : Config.Params} {levels n k : Nat} {u a c : Nat → State} {part : Nat → Bytes} {bcc sak : Nat → Byte}
  (h : ScanLevelsRead p levels n u a c part bcc sak)
include h

theorem ScanLevelsRead.part_length (hk : k < n) : (part k).length = 4 := by
  obtain ⟨-, -, hpart, -⟩ := h k hk
  exact hpart

/-- What the two runs of a level keep. -/
theorem ScanLevelsRead.kept (hk : k < n) : Kept (u k) (c k) ∧ ((u k).st ≠ .fatal → (c k).st ≠ .fatal) := by
  obtain ⟨hanti, -, -, -, hselect, -, -⟩ := h k hk
  have ha := State.lineRun_kept .anticoll (anticollDesc p (k + 1)) (u k)
  have hc := State.lineRun_kept .select (selectDesc p (k + 1) (part k) (bcc k)) (a k)
  rw [hanti] at ha
  rw [hselect] at hc
  exact ⟨ha.trans hc, fun hu => State.runExec_notFatal (State.runExec_notFatal hu hanti nofun) hselect nofun⟩

theorem ScanLevelsRead.succ_params (hk : k < n) : (u (k + 1)).params = (u k).params := by
  obtain ⟨-, -, -, -, -, -, hnext⟩ := h k hk
  rw [hnext]
  exact (h.kept hk).1.params

theorem ScanLevelsRead.params (h0 : (u 0).params = p) (hk : k ≤ n) : (u k).params = p := by
  induction k with
  | zero => exact h0
  | succ k ih => exact (h.succ_params hk).trans (ih (by omega))

theorem ScanLevelsRead.notFatal (h0 : (u 0).st ≠ .fatal) (hk : k ≤ n) : (u k).st ≠ .fatal := by
  induction k with
  | zero => exact h0
  | succ k ih =>
    obtain ⟨-, -, -, -, -, -, hnext⟩ := h k hk
    rw [hnext]
    exact (h.kept hk).2 (ih (by omega))

/-- A level that succeeds leads to the next one. -/
theorem ScanLevelsRead.level (hp : (u k).params = p) (hk : k < n) {last : Bool} (hlast : last = true ↔ k + 1 = levels)
    (l : Line) : ((u k).atLine l).cascadeLevel (k + 1) last = ((u (k + 1)).atLine .record, .ok) := by
  obtain ⟨hanti, hreply, hpart, hbcc, hselect, hsak, hnext⟩ := h k hk
  have hanti' : (((u k).atLine l).atLine .anticoll).runExec (anticollDesc ((u k).atLine l).params (k + 1)) = (a k, .ok) := by
    rw [State.atLine_params, State.atLine_atLine, hp]
    exact hanti
  have ha : ((u k).atLine l).anticollStage (k + 1) = (a k, .ok) := by
    rw [State.anticollStage_of_run hanti', hreply, hbcc]
    rfl
  have hpart' : (a k).rxSlice.take 4 = part k := by rw [hreply, ← hpart, List.take_left]
  have hbcc' : (a k).rxSlice.getD 4 0 = bcc k := by
    rw [hreply, ← hpart, List.getD_append_right _ _ _ _ le_rfl, Nat.sub_self]
    rfl
  have hparams : (a k).params = p := (State.params_of_run hanti).trans hp
  have hselect' : ((a k).atLine .select).runExec (selectDesc (a k).params (k + 1) (part k) (bcc k)) = (c k, .ok) := by
    rw [hparams]
    exact hselect
  have hc : (a k).selectStage (k + 1) (part k) (bcc k) = (c k, .ok) := by
    rw [State.selectStage_of_run hselect']
    rfl
  have huid : uidBytesOfPart last (part k) = if k + 1 = levels then part k else (part k).drop 1 := by
    unfold uidBytesOfPart
    by_cases hl : k + 1 = levels
    · rw [if_pos (hlast.mpr hl), if_pos hl, List.take_of_length_le hpart.le]
    · rw [if_neg (mt hlast.mp hl), if_neg hl, List.take_of_length_le (by rw [List.length_drop, hpart])]
  rw [State.cascadeLevel, ha]
  simp only [if_true, hpart', hbcc', hc, hsak]
  rw [State.recordLevel, huid, hnext]
  rfl

/-- The levels that succeed lead the loop from the first level to the one after the last of them. -/
theorem ScanLevelsRead.loop (h0 : (u 0).params = p) (hn : n ≤ levels) (hk : k ≤ n) (l : Line) :
    ∃ l', ((u 0).atLine l).cascadeLoop levels 1 = ((u k).atLine l').cascadeLoop (levels - k) (k + 1) := by
  induction k with
  | zero => exact ⟨l, rfl⟩
  | succ k ih =>
    obtain ⟨l', hloop⟩ := ih (by omega)
    have hlevel := h.level (h.params h0 (by omega)) hk (last := levels - (k + 1) == 0)
      (by rw [beq_iff_eq]; omega) .cascade
    have hm : levels - k = levels - (k + 1) + 1 := by omega
    refine ⟨.record, hloop.trans ?_⟩
    rw [hm, State.cascadeLoop]
    simp only [State.atLine_atLine, hlevel, if_true]

end

/-! ### The identity registers after the levels (R294) -/

/-- The identity registers hold the levels below `n`. -/
structure LevelsHeld (levels n : Nat) (atqa : Bytes) (part : Nat → Bytes) (bcc sak : Nat → Byte) (i : Ident) : Prop where
  atqa : i.atqa = atqa
  uid : i.uid = uidOfParts levels part n
  bccSize : i.bcc.length = 3
  sakSize : i.sak.length = 3
  bcc : ∀ k < n, i.bcc.getD k 0 = bcc k
  sak : ∀ k < n, i.sak.getD k 0 = sak k

/-- Setting entry `n` extends an agreement on the entries below it. -/
theorem getD_set_extend {b : Bytes} {n : Nat} {f : Nat → Byte} (hn : n < b.length) (h : ∀ k < n, b.getD k 0 = f k) :
    ∀ k < n + 1, (b.set n (f n)).getD k 0 = f k := by
  intro k hk
  rw [List.getD_eq_getElem _ _ (by rw [List.length_set]; omega), List.getElem_set]
  split
  · next heq => rw [heq]
  · rw [← h k (by omega), List.getD_eq_getElem _ _ (by omega)]

theorem ScanLevelsRead.held {p : Config.Params} {levels n : Nat} {u a c : Nat → State} {part : Nat → Bytes}
    {bcc sak : Nat → Byte} {atqa : Bytes} (h : ScanLevelsRead p levels n u a c part bcc sak) (hn : n ≤ 3)
    (h0 : LevelsHeld levels 0 atqa part bcc sak (u 0).ident) {k : Nat} (hk : k ≤ n) :
    LevelsHeld levels k atqa part bcc sak (u k).ident := by
  induction k with
  | zero => exact h0
  | succ k ih =>
    have hheld := ih (by omega)
    obtain ⟨-, -, -, -, -, -, hnext⟩ := h k hk
    have hident := (h.kept hk).1.ident
    rw [hnext]
    constructor
    case atqa => exact (congrArg Ident.atqa hident).trans hheld.atqa
    case uid => rw [hident, hheld.uid, uidOfParts_succ]
    case bccSize => rw [hident, List.length_set, hheld.bccSize]
    case sakSize => rw [hident, List.length_set, hheld.sakSize]
    case bcc => rw [hident]; exact getD_set_extend (by rw [hheld.bccSize]; omega) hheld.bcc
    case sak => rw [hident]; exact getD_set_extend (by rw [hheld.sakSize]; omega) hheld.sak

/-! ### SCAN, from its runs -/

theorem exec_scan {s : State} (hs : s.st ≠ .fatal) : exec .scan s = .next s.scanBody :=
  congrArg Host.Outcome.next (State.command_ok hs rfl)

namespace State

variable {s t : State} {st : Status}

theorem scanBody_of_run
    (h : (atLine .wakeup { s with ident := { s.ident with uid := [] } }).runExec (wupaDesc s.params) = (t, st)) :
    s.scanBody = afterStage (t, stageStatus (st == .ok) .wakeup st) fun s1 =>
      ((s1.atLine .atqa).setIdent { s1.ident with atqa := s1.rxSlice }).scanCascade := by
  have hwake : ((s.atLine .clearUid).setIdent { s.ident with uid := [] }).wakeupStage =
    (t, stageStatus (st == .ok) .wakeup st) := wakeupStage_of_run h
  rw [scanBody, hwake]

theorem stageStatus_fails {good : Bool} {err : Status} (herr : err ≠ .ok) (hfail : st = .fatal ∨ good = false) :
    stageStatus good err st ≠ .ok := by
  intro hok
  obtain ⟨hst, hgood⟩ := (stageStatus_ok good err st herr).mp hok
  rcases hfail with hf | hf
  · exact hst hf
  · exact Bool.false_ne_true (hf.symm.trans hgood)

/-- After a wake-up that succeeds SCAN goes on with the ATQA. -/
theorem scanBody_awake
    (h : (atLine .wakeup { s with ident := { s.ident with uid := [] } }).runExec (wupaDesc s.params) = (t, .ok)) :
    s.scanBody = ((t.atLine .atqa).setIdent { t.ident with atqa := t.rxSlice }).scanCascade :=
  (scanBody_of_run h).trans (afterStage_goes nofun rfl)

/-- The anticollision of a level fails: the loop ends with that stage's status (R287). -/
theorem cascadeLoop_anticoll_fails {level : Nat} (h : (s.atLine .anticoll).runExec (anticollDesc s.params level) = (t, st))
    (hfail : st = .fatal ∨ (st == .ok && bccOk t.rxSlice) = false) (n : Nat) (l : Line) :
    (s.atLine l).cascadeLoop (n + 1) level = (t, stageStatus (st == .ok && bccOk t.rxSlice) .collision st) := by
  have hstage : ((s.atLine l).atLine .cascade).anticollStage level =
    (t, stageStatus (st == .ok && bccOk t.rxSlice) .collision st) := anticollStage_of_run h
  have hne : stageStatus (st == .ok && bccOk t.rxSlice) .collision st ≠ .ok := stageStatus_fails nofun hfail
  rw [cascadeLoop, cascadeLevel, hstage]
  simp only [if_neg hne]

/-- The select of a level fails after its anticollision succeeded. -/
theorem cascadeLoop_select_fails {x : State} {level : Nat}
    (hanti : (s.atLine .anticoll).runExec (anticollDesc s.params level) = (x, .ok)) (hbcc : bccOk x.rxSlice = true)
    (h : (x.atLine .select).runExec (selectDesc s.params level (x.rxSlice.take 4) (x.rxSlice.getD 4 0)) = (t, st))
    (hfail : st ≠ .ok) (n : Nat) (l : Line) :
    (s.atLine l).cascadeLoop (n + 1) level = (t, stageStatus (st == .ok) .select st) := by
  have hstage : ((s.atLine l).atLine .cascade).anticollStage level = (x, .ok) := by
    have hrun : (((s.atLine l).atLine .cascade).atLine .anticoll).runExec (anticollDesc s.params level) = (x, .ok) := hanti
    rw [anticollStage_of_run (s := (s.atLine l).atLine .cascade) hrun, hbcc]
    rfl
  have hselect : x.selectStage level (x.rxSlice.take 4) (x.rxSlice.getD 4 0) = (t, stageStatus (st == .ok) .select st) := by
    refine selectStage_of_run ?_
    rw [params_of_run hanti]
    exact h
  have hne : stageStatus (st == .ok) .select st ≠ .ok := stageStatus_fails nofun (.inr (beq_eq_false_iff_ne.mpr hfail))
  rw [cascadeLoop, cascadeLevel, hstage]
  simp only [if_true, hselect, if_neg hne]

theorem scanHalt_of_run {p : Config.Params} (hp : s.params = p) (hincl : p.scanIncludesHalt = true)
    (h : (s.atLine .halt).runExec (hltaDesc p) = (t, st)) {l : Line} :
    (s.atLine l).scanHalt = (t, stageStatus (st == .timer) .halt st) := by
  have hrun : ((s.atLine l).atLine .halt).runExec (hltaDesc (s.atLine l).params) = (t, st) := by
    rw [atLine_params, hp]
    exact h
  rw [scanHalt, atLine_params, hp, if_pos hincl]
  exact haltStage_of_run hrun

theorem scanFinish_atLine (levels : Nat) (s : State) (l : Line) : (s.atLine l).scanFinish levels = s.scanFinish levels := rfl

theorem scanFinish_answered {levels : Nat} (hs : s.st ≠ .fatal) : s.scanFinish levels =
    answered 0x00 (identityRecord (sakClass s.params.card (s.ident.sak.getD (levels - 1) 0)) s.ident.atqa levels
        s.ident.uid s.ident.bcc s.ident.sak)
      { s with ident := { s.ident with type := sakClass s.params.card (s.ident.sak.getD (levels - 1) 0) } } :=
  finish_answered .ok _ _ hs

end State

/-- SCAN's wake-up succeeds and its ATQA gives `levels` levels; `u0` is the state before the first of them (R287, R288). -/
structure ScanStart (s w : State) (levels : Nat) (u0 : State) : Prop where
  st : s.st ≠ .fatal
  wake : (State.atLine .wakeup { s with ident := { s.ident with uid := [] } }).runExec (wupaDesc s.params) = (w, .ok)
  count : ((w.rxSlice.getD 0 0) >>> 6).toNat + 1 = levels
  le : levels ≤ 3
  start : u0 = { w with ident := { w.ident with atqa := w.rxSlice, levels := BitVec.ofNat 2 levels } }

namespace ScanStart

variable {s w : State} {levels n : Nat} {u a c : Nat → State} {part : Nat → Bytes} {bcc sak : Nat → Byte}
  (h : ScanStart s w levels (u 0))
include h

theorem params : (u 0).params = s.params := by
  have hw : w.params = s.params := State.params_of_run (s := { s with ident := { s.ident with uid := [] } }) h.wake
  rw [h.start]
  exact hw

theorem notFatal : (u 0).st ≠ .fatal := by
  have hw : w.st ≠ .fatal := State.runExec_notFatal (s := { s with ident := { s.ident with uid := [] } }) h.st h.wake nofun
  rw [h.start]
  exact hw

theorem scanBody : s.scanBody = State.afterStage (((u 0).atLine .cascadeLevels).cascadeLoop levels 1) fun s2 =>
    State.afterStage s2.scanHalt (State.scanFinish levels) := by
  have hlevels : cascadeLevels
      (((w.atLine .atqa).setIdent { w.ident with atqa := w.rxSlice }).ident.atqa.getD 0 0) = some levels :=
    cascadeLevels_some h.count h.le
  rw [State.scanBody_awake h.wake, State.scanCascade, hlevels, h.start]
  rfl

/-- The levels that succeed lead SCAN to the one after the last of them. -/
theorem scanBody_level (hread : ScanLevelsRead s.params levels n u a c part bcc sak) (hn : n ≤ levels) :
    ∃ l, s.scanBody = State.afterStage (((u n).atLine l).cascadeLoop (levels - n) (n + 1)) fun s2 =>
      State.afterStage s2.scanHalt (State.scanFinish levels) := by
  obtain ⟨l, hloop⟩ := hread.loop h.params hn le_rfl .cascadeLevels
  exact ⟨l, by rw [h.scanBody, hloop]⟩

/-- After the last level SCAN goes on with the halt, where it includes one, and the record. -/
theorem scanBody_levels (hread : ScanLevelsRead s.params levels levels u a c part bcc sak) :
    ∃ l, s.scanBody = State.afterStage ((u levels).atLine l).scanHalt (State.scanFinish levels) := by
  obtain ⟨l, hloop⟩ := h.scanBody_level hread le_rfl
  exact ⟨l, by rw [hloop, Nat.sub_self]; rfl⟩

/-- The halt, where SCAN includes one, has timed out: SCAN ends with its record (R290). -/
theorem scanBody_halted {v : State} {vst : Status} (hread : ScanLevelsRead s.params levels levels u a c part bcc sak)
    (hhalt : if s.params.scanIncludesHalt then ((u levels).atLine .halt).runExec (hltaDesc s.params) = (v, vst) ∧ vst = .timer
      else v = u levels) :
    ∃ l, s.scanBody = (v.atLine l).scanFinish levels ∧ Kept (u levels) v ∧ v.st ≠ .fatal := by
  obtain ⟨l, hbody⟩ := h.scanBody_levels hread
  have hparams := hread.params h.params le_rfl
  have hst := hread.notFatal h.notFatal le_rfl
  split at hhalt
  · next hincl =>
    obtain ⟨hrun, rfl⟩ := hhalt
    have hkept := State.lineRun_kept .halt (hltaDesc s.params) (u levels)
    rw [hrun] at hkept
    rw [hbody, State.scanHalt_of_run hparams hincl hrun]
    exact ⟨.type, rfl, hkept, State.runExec_notFatal hst hrun nofun⟩
  · next hincl =>
    subst hhalt
    have hskip : ((u levels).atLine l).scanHalt = ((u levels).atLine l, .ok) := by
      rw [State.scanHalt, State.atLine_params, hparams, if_neg hincl]
    rw [hbody, hskip]
    exact ⟨l, rfl, Kept.refl _, hst⟩

end ScanStart

end Sys2Proof.Machine

namespace Sys2Proof.Proofs

open Machine

/-- Settles O44: the levels hold the identity registers' entries, which the record of the last step answers. -/
theorem scanAnswersTheIdentity : Obligations.ScanAnswersTheIdentity := by
  refine ⟨fun s w v vst levels u a c part bcc sak type hs hbccs hsaks hwake hlevels hle h0 hread hhalt htype => ?_,
    sakClass_default⟩
  have hstart : ScanStart s w levels (u 0) := ⟨hs, hwake, hlevels, hle, h0⟩
  have hpos : 1 ≤ levels := by omega
  have hwident : w.ident = { s.ident with uid := [] } := by
    have hkept := State.lineRun_kept .wakeup (wupaDesc s.params) { s with ident := { s.ident with uid := [] } }
    rw [hstart.wake] at hkept
    exact hkept.ident
  have hheld0 : LevelsHeld levels 0 w.rxSlice part bcc sak (u 0).ident := by
    rw [h0, hwident]
    exact ⟨rfl, rfl, hbccs, hsaks, nofun, nofun⟩
  have hheld := hread.held hle hheld0 le_rfl
  have hparams := hread.params hstart.params le_rfl
  obtain ⟨lv, hscan, hv, hvst⟩ := hstart.scanBody_halted hread hhalt
  have htype' : sakClass v.params.card (v.ident.sak.getD (levels - 1) 0) = type := by
    rw [hv.params, hparams, hv.ident, hheld.sak (levels - 1) (by omega)]
    rcases htype with ⟨pre, post, htable, hfirst⟩ | ⟨hunlisted, rfl⟩
    · exact sakClass_listed htable hfirst
    · exact sakClass_unlisted hunlisted
  rw [exec_scan hs, hscan, State.scanFinish_atLine, State.scanFinish_answered hvst, htype', hv.ident, hheld.atqa, hheld.uid,
    identityRecord_eq (fun k hk => hread.part_length hk) hpos hle hheld.bcc hheld.sak]

/-- Settles O45: each stage that fails ends SCAN with its own status. -/
theorem scanStopsAtTheFirstFailure : Obligations.ScanStopsAtTheFirstFailure := by
  intro s w wst hs hwake
  have hw := State.runExec_notFatal (s := { s with ident := { s.ident with uid := [] } }) hs hwake
  have hbody := State.scanBody_of_run hwake
  rw [exec_scan hs]
  refine ⟨fun hne hst => ?wakeup, fun hst => ?fatal, fun hok hatqa => ?reserved,
    fun levels n u a c part bcc sak x y xst yst hok hlevels hle h0 hread => ?levels⟩
  case wakeup =>
    rw [hbody, State.afterStage_error (err := .wakeup) hw ⟨nofun, nofun⟩ hst (beq_eq_false_iff_ne.mpr hne)]
    rfl
  case fatal => rw [hbody, State.afterStage_fatal hst]
  case reserved =>
    subst hok
    have hnone : cascadeLevels
        (((w.atLine .atqa).setIdent { w.ident with atqa := w.rxSlice }).ident.atqa.getD 0 0) = none :=
      cascadeLevels_none hatqa
    rw [State.scanBody_awake hwake, State.scanCascade, hnone]
    exact congrArg _ (State.fail_answered .activate _ (hw nofun))
  case levels =>
    subst hok
    have hstart : ScanStart s w levels (u 0) := ⟨hs, hwake, hlevels, hle, h0⟩
    refine ⟨fun hlt hanti => ?level, fun hall hincl hhalt => ?halt⟩
    case level =>
      have hu := hread.notFatal hstart.notFatal le_rfl
      have hp := hread.params hstart.params le_rfl
      obtain ⟨l, hlevel⟩ := hstart.scanBody_level hread hlt.le
      have hx := State.runExec_notFatal hu hanti
      rw [← hp] at hanti
      have hm : levels - n = levels - (n + 1) + 1 := by omega
      rw [hlevel, hm]
      refine ⟨fun hst hbad => ?collision, fun hst => ?fatal, fun hok hbcc hselect => ?select⟩
      case collision =>
        have hfail : (xst == .ok && bccOk x.rxSlice) = false := by
          rcases hbad with hne | hbcc
          · rw [beq_eq_false_iff_ne.mpr hne, Bool.false_and]
          · rw [hbcc, Bool.and_false]
        rw [State.cascadeLoop_anticoll_fails hanti (.inr hfail),
          State.afterStage_error (err := .collision) hx ⟨nofun, nofun⟩ hst hfail]
        rfl
      case fatal => rw [State.cascadeLoop_anticoll_fails hanti (.inl hst), State.afterStage_fatal hst]
      case select =>
        subst hok
        have hy := State.runExec_notFatal (hx nofun) hselect
        rw [← hp] at hselect
        refine ⟨fun hne hst => ?_, fun hst => ?_⟩
        · rw [State.cascadeLoop_select_fails hanti hbcc hselect hne,
            State.afterStage_error (err := .select) hy ⟨nofun, nofun⟩ hst (beq_eq_false_iff_ne.mpr hne)]
          rfl
        · rw [State.cascadeLoop_select_fails hanti hbcc hselect (hst ▸ nofun), State.afterStage_fatal hst]
    case halt =>
      subst hall
      have hx := State.runExec_notFatal (hread.notFatal hstart.notFatal le_rfl) hhalt
      have hp := hread.params hstart.params le_rfl
      obtain ⟨l, hlast⟩ := hstart.scanBody_levels hread
      rw [hlast, State.scanHalt_of_run hp hincl hhalt]
      exact ⟨fun hne hst => congrArg _ (State.afterStage_error hx ⟨nofun, nofun⟩ hst (beq_eq_false_iff_ne.mpr hne)),
        fun hst => congrArg _ (State.afterStage_fatal hst)⟩

end Sys2Proof.Proofs

end

section
/-! MIFARE Classic (R320, R330 to R332): AUTH, and the attempts of a sector's authenticate step. -/

namespace Sys2Proof.Machine

namespace State

/-! ### The authenticate exchange (R320, R321) -/

section
variable {s t : State} {st : Status} {keyB : Bool} {sec : Byte} {key uid4 : Bytes}

/-- Where the run succeeds, the status bit decides. -/
theorem authBody_of_run_ok {b : Byte} {v : State}
    (h : (s.atLine .auth).runExec (authDesc s.params keyB sec key uid4) = (t, .ok))
    (hbit : t.regRead s.params.chip.status2.byte = (b, v)) :
    s.authBody keyB sec key uid4 = (v.atLine .authStatus, if b &&& s.params.chip.crypto1On ≠ 0 then .ok else .auth) := by
  obtain ⟨rfl, rfl⟩ := Prod.ext_iff.mp hbit
  have hset (x : Byte) : crypto1Set s.params.chip x = true ↔ x &&& s.params.chip.crypto1On ≠ 0 := bne_iff_ne
  rw [authBody, h]
  simp only [if_true, hset]
  rfl

theorem authBody_of_run_failed (h : (s.atLine .auth).runExec (authDesc s.params keyB sec key uid4) = (t, st))
    (hst : st ≠ .ok) : s.authBody keyB sec key uid4 = (t, stageStatus false .auth st) := by
  rw [authBody, h]
  exact if_neg hst

/-- The exchange's run starts at its own label. -/
theorem authBody_atLine (l : Line) : (s.atLine l).authBody keyB sec key uid4 = s.authBody keyB sec key uid4 := rfl

theorem authBody_status (keyB : Bool) (sec : Byte) (key uid4 : Bytes) (s : State) :
    (s.authBody keyB sec key uid4).2 = .ok ∨ (s.authBody keyB sec key uid4).2 = .auth ∨
      (s.authBody keyB sec key uid4).2 = .fatal := by
  unfold authBody
  simp only
  split
  · split
    · exact .inl rfl
    · exact .inr (.inl rfl)
  · unfold stageStatus
    split
    · exact .inr (.inr rfl)
    · exact .inr (.inl rfl)

/-- AUTH answers the exchange's status, the keys zeroed first (R334). -/
theorem authInstr_of_body {k : Byte} (h : s.authBody (k == 1) sec key uid4 = (t, st)) (hst : st ≠ .fatal)
    (ht : t.st ≠ .fatal) : s.authInstr k sec key uid4 = (t.zeroKeys 3 9).answered st.code [] := by
  rw [authInstr, h]
  simp only [if_neg hst]
  split
  · next hok =>
    subst hok
    exact finish_answered .ok [] _ ht
  · exact fail_answered st _ ht

theorem authInstr_of_body_fatal {k : Byte} (h : s.authBody (k == 1) sec key uid4 = (t, .fatal)) :
    s.authInstr k sec key uid4 = t := by
  rw [authInstr, h]
  rfl

end

end State

theorem exec_auth {k sec : Byte} {key uid4 : Bytes} {s : State} (hs : s.st ≠ .fatal) (hok : authOk k sec key uid4 = true) :
    exec (.auth k sec key uid4) s = .next (s.authInstr k sec key uid4) :=
  congrArg Host.Outcome.next (State.commandWith_ok hs hok)

/-- The two key selectors name the two authenticate commands (R320). -/
theorem authDesc_of_keysel {p : Config.Params} {k sec : Byte} {key uid4 : Bytes} (hk : k.toNat ≤ 1) :
    authDesc p (k == 1) sec key uid4 = ⟨.authenticate, false, false, 0, 0, 0, 0, p.tAuth,
      [if k = 0 then p.card.authA else p.card.authB, 4 * sec] ++ key ++ uid4⟩ := by
  have haddr : byteOfNat (4 * sec.toNat) = 4 * sec := BitVec.eq_of_toNat_eq (by simp [byteOfNat, BitVec.toNat_mul])
  have hbyte : authByte p.card (k == 1) = if k = 0 then p.card.authA else p.card.authB := by
    obtain rfl | rfl : k = 0 ∨ k = 1 := by bv_omega
    · rfl
    · rfl
  rw [authDesc, authBytes, haddr, hbyte]

/-! ### Attempts (R330, R331) -/

namespace State

/-- `W_ATTEMPT` is `j`. -/
def withAttempt (j : Nat) (s : State) : State := { s with work := { s.work with attempt := BitVec.ofNat 2 j } }

/-- The attempt after attempt `j` is counted as `j + 1`. -/
theorem countAttempt_eq {s : State} {j : Nat} (h : s.work.attempt = BitVec.ofNat 2 j) :
    s.countAttempt = s.withAttempt (j + 1) := by
  have hnext : s.work.attempt + 1 = BitVec.ofNat 2 (j + 1) := by
    rw [h]
    exact (BitVec.ofNat_add j 1).symm
  rw [countAttempt, hnext]
  rfl

section
variable {head : Line} {f : State → State × Status} {x : Status} (hline : ∀ l s, f (s.atLine l) = f s)
include hline

/-- One attempt; the loop's label plays no part in it. -/
theorem attempts_succ {s t : State} {j : Nat} {st : Status} (hcount : s.work.attempt = BitVec.ofNat 2 j)
    (hrun : f (s.withAttempt (j + 1)) = (t, st)) (n : Nat) :
    attempts head f x (n + 1) s = if st = .ok ∨ st = .fatal then (t, st) else attempts head f x n t := by
  have hhead : f (s.atLine head).countAttempt = (t, st) := by
    rw [← hrun, ← countAttempt_eq hcount]
    exact hline head s.countAttempt
  rw [attempts, hhead]

variable (hwork : ∀ s, (f s).1.work = s.work)
include hwork

omit hline in
/-- An attempt leaves its count. -/
theorem attempt_of_run {s t : State} {j : Nat} {st : Status} (hrun : f (s.withAttempt j) = (t, st)) :
    t.work.attempt = BitVec.ofNat 2 j := by
  have hw := hwork (s.withAttempt j)
  rw [hrun] at hw
  exact congrArg Work.attempt hw

/-- After `k` attempts that failed the next one is attempt `k + 1`, from where the last one ended. -/
theorem attempts_after {v : Nat → State} {k : Nat} {bad : Status} (hbad : bad ≠ .ok ∧ bad ≠ .fatal)
    (hfail : ∀ j < k, f ((v j).withAttempt (j + 1)) = (v (j + 1), bad)) (n : Nat) :
    ∃ u, attempts head f x (n + k) (v 0).clearAttempts = attempts head f x n u ∧
      u.work.attempt = BitVec.ofNat 2 k ∧ u.withAttempt (k + 1) = (v k).withAttempt (k + 1) := by
  induction k generalizing n with
  | zero => exact ⟨(v 0).clearAttempts, rfl, rfl, rfl⟩
  | succ k ih =>
    obtain ⟨u, hreach, hcount, hnext⟩ := ih (fun j hj => hfail j (by omega)) (n + 1)
    have hlast := hfail k (Nat.lt_succ_self k)
    refine ⟨v (k + 1), ?_, attempt_of_run hwork hlast, rfl⟩
    rw [← Nat.add_assoc, Nat.add_right_comm, hreach, attempts_succ hline hcount (hnext ▸ hlast)]
    exact if_neg (not_or.mpr hbad)

/-- The attempt after those that failed decides, or leads to the attempts that remain (R331). -/
theorem attempts_next {v : Nat → State} {k : Nat} {bad st : Status} {t : State} (hbad : bad ≠ .ok ∧ bad ≠ .fatal)
    (hfail : ∀ j < k, f ((v j).withAttempt (j + 1)) = (v (j + 1), bad)) (hlast : f ((v k).withAttempt (k + 1)) = (t, st))
    (n : Nat) : attempts head f x (n + 1 + k) (v 0).clearAttempts =
      if st = .ok ∨ st = .fatal then (t, st) else attempts head f x n t := by
  obtain ⟨u, hreach, hcount, hnext⟩ := attempts_after (head := head) (x := x) hline hwork hbad hfail (n + 1)
  rw [hreach, attempts_succ hline hcount (hnext ▸ hlast)]

end

/-- One attempt of a sector's authenticate step: key A and the chosen UID bytes (R330, R332). -/
def authAttempt (sec : Nat) (s : State) : State × Status :=
  s.authBody false (byteOfNat sec) (s.work.keyA.getD sec []) (authUid s.params.card s.work.uid)

theorem sectorAuth_eq (sec : Nat) (s : State) :
    s.sectorAuth sec = attempts .authAttempt (authAttempt sec) .auth 3 s.clearAttempts := rfl

theorem authAttempt_atLine (sec : Nat) (l : Line) (s : State) : (s.atLine l).authAttempt sec = s.authAttempt sec := rfl

theorem authAttempt_kept (sec : Nat) (s : State) : Kept s (s.authAttempt sec).1 := authBody_kept ..

section
variable {s u : State} {j : Nat} (hw : u.work = (s.withAttempt j).work) (hp : u.params = s.params)
include hw hp

/-- An attempt from where an earlier one ended: key and UID bytes are those the step started with (R330). -/
theorem authAttempt_eq (sec n : Nat) : (u.withAttempt n).authAttempt sec =
    State.authBody false (BitVec.ofNat 8 sec) (s.work.keyA.getD sec [])
      ((s.work.uid.drop s.params.card.authUidOffset).take 4) { u with work := { s.work with attempt := BitVec.ofNat 2 n } } := by
  have hstate : u.withAttempt n = { u with work := { s.work with attempt := BitVec.ofNat 2 n } } := by
    rw [withAttempt, hw]
    rfl
  rw [authAttempt, hstate, authUid, hp]
  rfl

/-- An attempt keeps them. -/
theorem kept_of_authAttempt {sec n : Nat} {t : State} {st : Status} (h : (u.withAttempt n).authAttempt sec = (t, st)) :
    t.work = (s.withAttempt n).work ∧ t.params = s.params := by
  have hkept := authAttempt_kept sec (u.withAttempt n)
  rw [h] at hkept
  refine ⟨hkept.work.trans ?_, hkept.params.trans hp⟩
  rw [withAttempt, hw]
  rfl

end

end State

end Sys2Proof.Machine

namespace Sys2Proof.Proofs

open Machine

/-- Settles O46: by the run's status and, where it is OK, by the status bit. -/
theorem authIsDecidedByTheStatusBit : Obligations.AuthIsDecidedByTheStatusBit := by
  intro k sec key uid4 s t v st b hs hkey huid
  refine ⟨rfl, fun hk hsec hrun => ?run, fun hout => ?param⟩
  case param =>
    have hbad : authOk k sec key uid4 = false := Bool.eq_false_iff.mpr fun hok => by
      obtain ⟨hk, hsec, -⟩ := authOk_iff.mp hok
      omega
    exact congrArg Host.Outcome.next (State.commandWith_param hs rfl hbad)
  case run =>
    rw [← authDesc_of_keysel hk] at hrun
    rw [exec_auth hs (authOk_iff.mpr ⟨hk, hsec, hkey, huid⟩)]
    have ht := State.runExec_notFatal hs hrun
    refine ⟨fun hok => ⟨?empty, fun hbit => ?bit⟩, fun hne hst => ?failed, fun hst => ?fatal⟩
    case empty =>
      have hcap := State.runExec_capacity (authDesc s.params (k == 1) sec key uid4) (s.atLine .auth)
      rw [hrun] at hcap
      exact List.eq_nil_of_length_eq_zero (Nat.le_zero.mp hcap)
    case bit =>
      subst hok
      have hbody := State.authBody_of_run_ok hrun hbit
      have hv : (v.atLine .authStatus).st ≠ .fatal := by
        obtain ⟨-, rfl⟩ := Prod.ext_iff.mp hbit
        exact ht nofun
      refine ⟨fun hset => ?_, fun hclear => ?_⟩
      · rw [if_pos hset] at hbody
        exact congrArg _ (State.authInstr_of_body hbody nofun hv)
      · rw [if_neg (not_not.mpr hclear)] at hbody
        exact congrArg _ (State.authInstr_of_body hbody nofun hv)
    case failed =>
      have hbody := State.authBody_of_run_failed hrun hne
      rw [State.stageStatus, if_neg hst] at hbody
      exact congrArg _ (State.authInstr_of_body hbody nofun (ht hst))
    case fatal =>
      subst hst
      exact congrArg _ (State.authInstr_of_body_fatal (State.authBody_of_run_failed hrun nofun))

/-- Settles O49: one attempt after the other, each from where the one before it ended. -/
theorem sectorAuthMakesAtMostThreeAttempts : Obligations.SectorAuthMakesAtMostThreeAttempts := by
  rintro sec s s1 s2 s3 st1 st2 st3 _ _ rfl rfl h1 h2 h3
  have hattempt1 : (s.withAttempt 1).authAttempt sec = (s1, st1) := h1
  obtain ⟨hw1, hp1⟩ := State.kept_of_authAttempt (s := s) (u := s.withAttempt 0) (j := 0) (n := 1) rfl rfl hattempt1
  have hattempt2 : (s1.withAttempt 2).authAttempt sec = (s2, st2) := (State.authAttempt_eq hw1 hp1 sec 2).trans h2
  obtain ⟨hw2, hp2⟩ := State.kept_of_authAttempt hw1 hp1 hattempt2
  have hattempt3 : (s2.withAttempt 3).authAttempt sec = (s3, st3) := (State.authAttempt_eq hw2 hp2 sec 3).trans h3
  have hfirst := State.attempts_succ (head := .authAttempt) (x := .auth) (State.authAttempt_atLine sec)
    (s := s.clearAttempts) (j := 0) rfl hattempt1 2
  have hsecond := State.attempts_succ (head := .authAttempt) (x := .auth) (State.authAttempt_atLine sec)
    (j := 1) (congrArg Work.attempt hw1) hattempt2 1
  have hthird := State.attempts_succ (head := .authAttempt) (x := .auth) (State.authAttempt_atLine sec)
    (j := 2) (congrArg Work.attempt hw2) hattempt3 0
  rw [State.sectorAuth_eq, hfirst]
  refine ⟨fun hst => if_pos hst, fun hfail1 hst => ?_, fun hfail1 hfail2 hst => ?_, fun hfail1 hfail2 hfail3 => ?_, ?_⟩
  · rw [hfail1, if_neg (by decide), hsecond, if_pos hst]
  · rw [hfail1, if_neg (by decide), hsecond, hfail2, if_neg (by decide), hthird, if_pos hst]
  · rw [hfail1, if_neg (by decide), hsecond, hfail2, if_neg (by decide), hthird, hfail3, if_neg (by decide)]
    rfl
  · have hstatus := State.authBody_status false (BitVec.ofNat 8 sec) (s.work.keyA.getD sec [])
      ((s.work.uid.drop s.params.card.authUidOffset).take 4) { s with work := { s.work with attempt := 1 } }
    rwa [h1] at hstatus

end Sys2Proof.Proofs

end

section
/-! A sector of the full read (R330, R335): the attempts of its blocks, what each block leaves, and its trailer. -/

namespace Sys2Proof.Machine

namespace State

/-! ### The attempts of a block -/

/-- What a block that was read leaves: its reply stands at the end of the image (R330). -/
def appendReply (s : State) : State := (s.atLine .append).setWork { s.work with image := s.work.image ++ s.rxSlice }

/-- `W_BLOCK` is `b`. -/
def withBlock (b : Nat) (s : State) : State := { s with work := { s.work with block := BitVec.ofNat 2 b } }

/-- The read attempts of a block. -/
def blockAttempts (sec b n : Nat) (s : State) : State × Status :=
  attempts .readAttempt (fun u => u.readStage (byteOfNat (4 * sec + b))) .read n s

theorem blockAttempts_atLine (sec b n : Nat) (l : Line) (s : State) :
    (s.atLine l).blockAttempts sec b n = s.blockAttempts sec b n := attempts_setPc _ _ _ n s _

theorem blockRead_of_attempts {sec b : Nat} {s t : State} {st : Status}
    (h : ((s.withBlock b).atLine .block).clearAttempts.blockAttempts sec b 3 = (t, st)) :
    s.blockRead sec b = if st = .ok then (t.appendReply, .ok) else (t, st) := by
  have hattempts : attempts .readAttempt (fun u => u.readStage (byteOfNat (4 * sec + b))) .read Config.maxAttempts
      ((s.atLine .block).setWork { s.work with block := BitVec.ofNat 2 b }).clearAttempts = (t, st) := h
  rw [blockRead, hattempts]
  rfl

theorem readStage_atLine (a : Byte) (l : Line) (s : State) : (s.atLine l).readStage a = s.readStage a := rfl

theorem readStage_work (a : Byte) (s : State) : (s.readStage a).1.work = s.work := (readStage_kept a s).work

/-- A read exchange fails with its one error, if not in FATAL. -/
theorem blockAttempts_next {sec b k : Nat} {v : Nat → State} {t : State} {st : Status}
    (hfail : ∀ j < k, ((v j).withAttempt (j + 1)).readStage (byteOfNat (4 * sec + b)) = (v (j + 1), .read))
    (hlast : ((v k).withAttempt (k + 1)).readStage (byteOfNat (4 * sec + b)) = (t, st)) (n : Nat) :
    (v 0).clearAttempts.blockAttempts sec b (n + 1 + k) =
      if st = .ok ∨ st = .fatal then (t, st) else t.blockAttempts sec b n :=
  attempts_next (bad := .read) (readStage_atLine _) (readStage_work _) ⟨nofun, nofun⟩ hfail hlast n

/-- The read exchanges of a block keep the parameters and the working registers but the attempt count. -/
theorem blockAttempts_kept {sec b k : Nat} {v : Nat → State} {st : Nat → Status}
    (hrun : ∀ j < k, ((v j).withAttempt (j + 1)).readStage (byteOfNat (4 * sec + b)) = (v (j + 1), st j)) :
    SameWork (v 0).work (v k).work ∧ (v k).params = (v 0).params := by
  induction k with
  | zero => exact ⟨SameWork.refl _, rfl⟩
  | succ k ih =>
    obtain ⟨hw, hp⟩ := ih fun j hj => hrun j (by omega)
    have hkept := readStage_kept (byteOfNat (4 * sec + b)) ((v k).withAttempt (k + 1))
    rw [hrun k (Nat.lt_succ_self k)] at hkept
    exact ⟨hw.trans (hkept.work ▸ ⟨rfl, rfl, rfl, rfl, rfl, rfl, rfl⟩), hkept.params.trans hp⟩

end State

/-! ### Blocks that are read one after the other -/

/-- Block `b` is read at attempt `m`: `v j` is the state after attempt `j` (R331). -/
def BlockReads (sec b m : Nat) (v : Nat → State) : Prop :=
  1 ≤ m ∧ m ≤ 3 ∧ ∀ j < m, ((v j).withAttempt (j + 1)).readStage (byteOfNat (4 * sec + b)) =
    (v (j + 1), if j + 1 = m then .ok else .read)

namespace BlockReads

variable {sec b m : Nat} {v : Nat → State} (h : BlockReads sec b m v)
include h

theorem attempts : (v 0).clearAttempts.blockAttempts sec b 3 = (v m, .ok) := by
  obtain ⟨hpos, hle, hrun⟩ := h
  obtain ⟨k, rfl⟩ := Nat.exists_eq_add_of_le' hpos
  obtain ⟨n, hn⟩ : ∃ n, 3 = n + 1 + k := ⟨2 - k, by omega⟩
  have hlast := hrun k (Nat.lt_succ_self k)
  rw [if_pos rfl] at hlast
  have hfail (j : Nat) (hj : j < k) : ((v j).withAttempt (j + 1)).readStage (byteOfNat (4 * sec + b)) = (v (j + 1), .read) := by
    rw [hrun j (by omega), if_neg (by omega)]
  rw [hn, State.blockAttempts_next hfail hlast, if_pos (.inl rfl)]

/-- A block is read from where its attempts start, whatever the label. -/
theorem blockRead {u : State} (hu : (u.withBlock b).atLine .block = (v 0).atLine .block) :
    u.blockRead sec b = ((v m).appendReply, .ok) := by
  have hattempts : ((u.withBlock b).atLine .block).clearAttempts.blockAttempts sec b 3 = (v m, .ok) := by
    rw [hu, ← h.attempts]
    exact State.blockAttempts_atLine sec b 3 .block (v 0).clearAttempts
  rw [State.blockRead_of_attempts hattempts]
  rfl

theorem kept : State.SameWork (v 0).work (v m).work ∧ (v m).params = (v 0).params := State.blockAttempts_kept h.2.2

theorem reply_length : (v m).rxSlice.length = 16 := by
  obtain ⟨hpos, -, hrun⟩ := h
  obtain ⟨k, rfl⟩ := Nat.exists_eq_add_of_le' hpos
  have hlast := hrun k (Nat.lt_succ_self k)
  rw [if_pos rfl] at hlast
  have hreply := State.readStage_reply (byteOfNat (4 * sec + b)) ((v k).withAttempt (k + 1))
  rw [hlast] at hreply
  exact hreply rfl

end BlockReads

/-- The blocks below `n` are read: `v b j` is the state after attempt `j` of block `b`, and what a block leaves is where the
next one starts (R330). -/
def BlocksRead (sec n : Nat) (m : Nat → Nat) (v : Nat → Nat → State) : Prop :=
  ∀ b < n, BlockReads sec b (m b) (v b) ∧
    v (b + 1) 0 = { v b (m b) with work := { (v b (m b)).work with
      image := (v b (m b)).work.image ++ (v b (m b)).rxSlice
      block := BitVec.ofNat 2 (b + 1) } }

namespace BlocksRead

variable {sec n : Nat} {m : Nat → Nat} {v : Nat → Nat → State} (h : BlocksRead sec n m v)
include h

/-- Where a block starts after another one was read. -/
theorem start_succ {b : Nat} (hb : b < n) :
    ((v b (m b)).appendReply.withBlock (b + 1)).atLine .block = (v (b + 1) 0).atLine .block := by
  rw [(h b hb).2]
  rfl

/-- The blocks that are read lead the loop to the next one. -/
theorem loop {a : State} (h0 : v 0 0 = a.withBlock 0) (hn : n ≤ 3) {k : Nat} (hk : k ≤ n) :
    ∃ u : State, State.blockLoop sec 3 0 a = State.blockLoop sec (3 - k) k u ∧
      (u.withBlock k).atLine .block = (v k 0).atLine .block ∧ ∀ b, k = b + 1 → u = (v b (m b)).appendReply := by
  induction k with
  | zero => exact ⟨a, rfl, by rw [h0], nofun⟩
  | succ k ih =>
    obtain ⟨u, hloop, hstart, -⟩ := ih (by omega)
    have hm : 3 - k = 3 - (k + 1) + 1 := by omega
    refine ⟨(v k (m k)).appendReply, ?_, h.start_succ hk, fun b hb => by cases hb; rfl⟩
    rw [hloop, hm, State.blockLoop, (h k hk).1.blockRead hstart]
    rfl

/-- What the blocks below `k` leave for the next one: the parameters, the key banks, and the image with their replies. -/
theorem held {k : Nat} (hk : k ≤ n) : (v k 0).params = (v 0 0).params ∧ (v k 0).work.keyA = (v 0 0).work.keyA ∧
    (v k 0).work.keyB = (v 0 0).work.keyB ∧
    (v k 0).work.image = (v 0 0).work.image ++ (List.range k).flatMap fun b => (v b (m b)).rxSlice := by
  induction k with
  | zero => exact ⟨rfl, rfl, rfl, (List.append_nil _).symm⟩
  | succ k ih =>
    obtain ⟨hp, hA, hB, himage⟩ := ih (by omega)
    obtain ⟨hw, hp'⟩ := (h k hk).1.kept
    rw [(h k hk).2]
    refine ⟨hp'.trans hp, hw.keyA.trans hA, hw.keyB.trans hB, ?_⟩
    rw [hw.image, himage, List.append_assoc, List.range_succ, List.flatMap_append, List.flatMap_singleton]

end BlocksRead

/-! ### The sector (R330, R335) -/

namespace State

theorem sectorAuth_atLine (sec : Nat) (l : Line) (s : State) : (s.atLine l).sectorAuth sec = s.sectorAuth sec := by
  rw [sectorAuth_eq, sectorAuth_eq]
  exact attempts_setPc _ _ _ 3 s.clearAttempts _

section
variable {sec : Nat} {s a : State} {ast : Status}
  (h : State.sectorAuth sec { s with work := { s.work with sector := BitVec.ofNat 5 sec } } = (a, ast))
include h

/-- A sector whose authenticate step fails ends there. -/
theorem readSector_unauthenticated (hst : ast ≠ .ok) : s.readSector sec = (a, ast) := by
  have hauth : ((s.atLine .sector).setWork { s.work with sector := BitVec.ofNat 5 sec }).sectorAuth sec = (a, ast) := by
    rw [← h]
    exact sectorAuth_atLine sec .sector { s with work := { s.work with sector := BitVec.ofNat 5 sec } }
  rw [readSector, hauth]
  exact if_neg hst

/-- A sector whose authenticate step succeeds is its blocks, then its trailer. -/
theorem readSector_authenticated (hst : ast = .ok) {u : State} {ust : Status}
    (hblocks : blockLoop sec 3 0 a = (u, ust)) :
    s.readSector sec = if ust = .ok then (u.appendTrailer sec, .ok) else (u, ust) := by
  have hauth : ((s.atLine .sector).setWork { s.work with sector := BitVec.ofNat 5 sec }).sectorAuth sec = (a, .ok) := by
    rw [← hst, ← h]
    exact sectorAuth_atLine sec .sector { s with work := { s.work with sector := BitVec.ofNat 5 sec } }
  have hblocks' : blockLoop sec Config.dataBlocks 0 a = (u, ust) := hblocks
  rw [readSector, hauth]
  simp only [if_true, hblocks']

/-- The authenticate step keeps the working registers but the sector index and the attempt count. -/
theorem work_of_sectorAuth (hst : ast = .ok) : a.params = s.params ∧ a.work.image = s.work.image ∧
    a.work.keyA = s.work.keyA ∧ a.work.keyB = s.work.keyB := by
  obtain ⟨hw, -⟩ := sectorAuth_work sec { s with work := { s.work with sector := BitVec.ofNat 5 sec } }
  have hend := sectorAuth_end sec { s with work := { s.work with sector := BitVec.ofNat 5 sec } }
  rw [h] at hw hend
  exact ⟨(hend.goes (hst ▸ nofun)).params, hw.image, hw.keyA, hw.keyB⟩

end

/-- The trailer of a sector comes after its last block's reply. -/
theorem appendTrailer_appendReply (sec : Nat) (s : State) : s.appendReply.appendTrailer sec =
    atLine .trailer { s with work := { s.work with
      image := s.work.image ++ s.rxSlice ++ s.work.keyA.getD sec [] ++ s.params.card.accessBits ++
        s.work.keyB.getD sec [] } } := by
  have htrailer : s.work.image ++ s.rxSlice ++
      trailer s.params.card (s.work.keyA.getD sec []) (s.work.keyB.getD sec []) =
    s.work.image ++ s.rxSlice ++ s.work.keyA.getD sec [] ++ s.params.card.accessBits ++ s.work.keyB.getD sec [] := by
    simp only [trailer, List.append_assoc]
  rw [← htrailer]
  rfl

end State

namespace BlocksRead

variable {sec n : Nat} {m : Nat → Nat} {v : Nat → Nat → State} (h : BlocksRead sec n m v)
include h

/-- What stands in the registers after the last read of block `b`, before its reply is appended. -/
theorem held_last {a : State} (h0 : v 0 0 = a.withBlock 0) {b : Nat} (hb : b < n) :
    (v b (m b)).params = a.params ∧ (v b (m b)).work.keyA = a.work.keyA ∧ (v b (m b)).work.keyB = a.work.keyB ∧
    (v b (m b)).work.image = a.work.image ++ (List.range b).flatMap fun b => (v b (m b)).rxSlice := by
  obtain ⟨hp, hA, hB, himage⟩ := h.held hb.le
  obtain ⟨hw, hp'⟩ := (h b hb).1.kept
  rw [h0] at hp hA hB himage
  exact ⟨hp'.trans hp, hw.keyA.trans hA, hw.keyB.trans hB, hw.image.trans himage⟩

end BlocksRead

/-- A sector's three blocks are read: its trailer ends it, and no transfer is made for the trailer block (R335). -/
theorem BlocksRead.readSector {sec : Nat} {m : Nat → Nat} {v : Nat → Nat → State} (h : BlocksRead sec 3 m v) {s a : State}
    (hauth : State.sectorAuth sec { s with work := { s.work with sector := BitVec.ofNat 5 sec } } = (a, .ok))
    (h0 : v 0 0 = a.withBlock 0) :
    s.readSector sec = (State.atLine .trailer { v 2 (m 2) with work := { (v 2 (m 2)).work with
      image := s.work.image ++ (v 0 (m 0)).rxSlice ++ (v 1 (m 1)).rxSlice ++ (v 2 (m 2)).rxSlice ++
        s.work.keyA.getD sec [] ++ s.params.card.accessBits ++ s.work.keyB.getD sec [] } }, .ok) := by
  obtain ⟨u, hloop, -, hu⟩ := h.loop h0 le_rfl le_rfl
  obtain ⟨hp, hA, hB, himage⟩ := h.held_last h0 (show 2 < 3 by decide)
  obtain ⟨hp', himage', hA', hB'⟩ := State.work_of_sectorAuth hauth rfl
  have hreplies : (v 2 (m 2)).work.image = s.work.image ++ (v 0 (m 0)).rxSlice ++ (v 1 (m 1)).rxSlice := by
    rw [himage, himage', List.append_assoc]
    simp [List.range_succ]
  have haccess : (v 2 (m 2)).params.card.accessBits = s.params.card.accessBits := by rw [hp, hp']
  rw [State.readSector_authenticated hauth rfl hloop, if_pos rfl, hu 2 rfl, State.appendTrailer_appendReply, hreplies,
    hA, hA', hB, hB', haccess]

/-- A sector adds 64 bytes: three blocks of 16, two keys of 6 and 4 access bytes (R330, R335). -/
theorem State.SectorEnd.image_length {sec : Nat} {s t : State} (h : State.SectorEnd sec s t .ok) (hsec : sec < 16)
    (hA : keyBankShaped s.work.keyA = true) (hB : keyBankShaped s.work.keyB = true) :
    t.work.image.length = s.work.image.length + 64 := by
  obtain ⟨d, hd, himage⟩ := h.read rfl
  rw [himage]
  simp only [Machine.trailer, List.length_append, hd, State.keyBankShaped_getD hA hsec, State.keyBankShaped_getD hB hsec]
  rfl

end Sys2Proof.Machine

namespace Sys2Proof.Proofs

open Machine

/-- Settles O50: by the authenticate step, by whether all three blocks are read, and by the end of the attempts of the
block that is not. -/
theorem readSectorAddsSixtyFourBytes : Obligations.ReadSectorAddsSixtyFourBytes := by
  refine fun sec s a ast n m v hauth => ⟨State.readSector_unauthenticated hauth, fun hst hn h0 hblocks => ?_⟩
  subst hst
  have hread : BlocksRead sec n m v := fun b hb => by
    obtain ⟨hpos, hle, hrun, hnext⟩ := hblocks b hb
    exact ⟨⟨hpos, hle, hrun⟩, hnext⟩
  refine ⟨fun hall => ?whole, fun hlt k w wst hk hfail hlast => ?stopped⟩
  case whole =>
    subst hall
    have hsector := hread.readSector hauth h0
    refine ⟨hsector, fun b hb => (hread b hb).1.reply_length, fun hsec hA hB => ?_⟩
    have hend := State.readSector_end sec s
    have hok : (s.readSector sec).2 = .ok := by rw [hsector]
    rw [hok] at hend
    exact hend.image_length hsec hA hB
  case stopped =>
    obtain ⟨u, hloop, hstart, -⟩ := hread.loop h0 hn le_rfl
    have hm : 3 - n = 3 - (n + 1) + 1 := by omega
    have hattempts := State.blockAttempts_next (v := v n) hfail hlast
    have hblock {t : State} {st : Status} (h : (v n 0).clearAttempts.blockAttempts sec n 3 = (t, st)) (hne : st ≠ .ok) :
        s.readSector sec = (t, st) := by
      have hstart' : ((u.withBlock n).atLine .block).clearAttempts.blockAttempts sec n 3 = (t, st) := by
        rw [hstart, ← h]
        exact State.blockAttempts_atLine sec n 3 .block (v n 0).clearAttempts
      have hlast : u.blockRead sec n = (t, st) := by rw [State.blockRead_of_attempts hstart', if_neg hne]
      have hblocks' : State.blockLoop sec 3 0 a = (t, st) := by
        rw [hloop, hm, State.blockLoop, hlast]
        exact if_neg hne
      rw [State.readSector_authenticated hauth rfl hblocks', if_neg hne]
    refine ⟨fun hst => hblock ?_ nofun, fun hk2 hst => hblock ?_ nofun⟩
    · obtain ⟨r, hr⟩ : ∃ r, 3 = r + 1 + k := ⟨2 - k, by omega⟩
      rw [hr, hattempts, if_pos (.inr hst), hst]
    · subst hk2 hst
      exact hattempts 0

end Sys2Proof.Proofs

end

section
/-! The full read (R330, R334, R36): the sectors in order, and the keys that end with their command. -/

namespace Sys2Proof.Machine

/-! ### The sectors in order (R330) -/

/-- Sectors 0 to `n - 1` are read: `u k` is the state before sector `k`. -/
def SectorsRead (n : Nat) (u : Nat → State) : Prop := ∀ k < n, (u k).readSector k = (u (k + 1), .ok)

namespace State

theorem readSector_atLine (sec : Nat) (l : Line) (s : State) : (s.atLine l).readSector sec = s.readSector sec := rfl

theorem sectorLoop_atLine (n sec : Nat) (l : Line) (s : State) :
    (s.atLine l).sectorLoop (n + 1) sec = s.sectorLoop (n + 1) sec := by
  rw [sectorLoop, sectorLoop, readSector_atLine]

end State

/-- The sectors that are read lead the loop to the next one. -/
theorem SectorsRead.loop {n : Nat} {u : Nat → State} (h : SectorsRead n u) (hn : n ≤ 16) {k : Nat} (hk : k ≤ n) :
    (u 0).sectorLoop 16 0 = (u k).sectorLoop (16 - k) k := by
  induction k with
  | zero => rfl
  | succ k ih =>
    have hm : 16 - k = 16 - (k + 1) + 1 := by omega
    rw [ih (by omega), hm, State.sectorLoop, h k hk]
    rfl

/-- A sector that fails ends the loop. -/
theorem SectorsRead.stop {n : Nat} {u : Nat → State} (h : SectorsRead n u) (hn : n < 16) {v : State} {st : Status}
    (hlast : (u n).readSector n = (v, st)) (hst : st ≠ .ok) : (u 0).sectorLoop 16 0 = (v, st) := by
  have hm : 16 - n = 16 - (n + 1) + 1 := by omega
  rw [h.loop hn.le le_rfl, hm, State.sectorLoop, hlast]
  exact if_neg hst

section
variable {ul : Byte} {uid ka kb : Bytes} {s v : State} {st : Status}

/-- READ_CLASSIC ends as its sectors do: the keys are zeroed first, but in FATAL (R334). -/
theorem State.readClassicBody_of_loop (h : (s.loadClassic ul uid ka kb).sectorLoop 16 0 = (v, st)) (hst : st ≠ .fatal)
    (hv : v.st ≠ .fatal) : s.readClassicBody ul uid ka kb =
      (v.zeroKeys 12 204).answered st.code (if st = .ok then v.work.image else []) := by
  have hloop : State.sectorLoop Config.sectors 0 (s.loadClassic ul uid ka kb) = (v, st) := h
  rw [readClassicBody, hloop]
  simp only [if_neg hst]
  split
  · next hok =>
    subst hok
    exact State.finish_answered .ok _ _ hv
  · exact State.fail_answered st _ hv

theorem State.readClassicBody_of_loop_fatal (h : (s.loadClassic ul uid ka kb).sectorLoop 16 0 = (v, .fatal)) :
    s.readClassicBody ul uid ka kb = v := by
  have hloop : State.sectorLoop Config.sectors 0 (s.loadClassic ul uid ka kb) = (v, .fatal) := h
  rw [readClassicBody, hloop]
  rfl

theorem exec_readClassic (hs : s.st ≠ .fatal) (hok : classicOk ul uid ka kb = true) :
    exec (.readClassic ul uid ka kb) s = .next (s.readClassicBody ul uid ka kb) :=
  congrArg Host.Outcome.next (State.commandWith_ok hs hok)

end

theorem uidlenOk_iff {l : Byte} : uidlenOk l = true ↔ l = 4 ∨ l = 7 ∨ l = 10 := by
  have hval (n : Nat) (hn : n < 256) : l.toNat = n ↔ l = BitVec.ofNat 8 n := by
    rw [← BitVec.toNat_inj, BitVec.toNat_ofNat, Nat.mod_eq_of_lt hn]
  simp only [uidlenOk, Bool.or_eq_true, beq_iff_eq, hval 4 (by decide), hval 7 (by decide), hval 10 (by decide), or_assoc]
  exact Iff.rfl

/-! ### Keys end with their command (R36, R334) -/

/-- The bytes `lo .. hi` of `H_CMD` and every key register are zeroed. -/
structure KeysGone (lo hi : Nat) (s t : State) : Prop where
  cmd : t.host.cmd = zeroRange lo hi s.host.cmd
  keys : KeysZero t.work

/-- A command that zeroes its keys and then answers. -/
theorem keysGone_answered {lo hi : Nat} {s u : State} (h : u.host.cmd = s.host.cmd) (st : Byte) (data : Bytes) :
    KeysGone lo hi s ((u.zeroKeys lo hi).answered st data) :=
  ⟨congrArg (zeroRange lo hi) h, rfl, rfl⟩

/-- A command with keys, its operands in range or not. -/
theorem keysGone_commandWith {lo hi : Nat} {s : State} {ok : Bool} {body : State → State} (hs : s.st ≠ .fatal)
    (hbody : (body s).st ≠ .fatal → KeysGone lo hi s (body s))
    (ht : (s.commandWith (State.zeroKeys lo hi) ok body).st ≠ .fatal) :
    KeysGone lo hi s (s.commandWith (State.zeroKeys lo hi) ok body) := by
  cases ok with
  | true =>
    rw [State.commandWith_ok hs rfl] at ht ⊢
    exact hbody ht
  | false =>
    rw [State.commandWith_param hs rfl rfl]
    exact keysGone_answered rfl _ _

theorem keysGone_authInstr {k sec : Byte} {key uid4 : Bytes} {s : State} (hs : s.st ≠ .fatal)
    (ht : (s.authInstr k sec key uid4).st ≠ .fatal) : KeysGone 3 9 s (s.authInstr k sec key uid4) := by
  have hend := State.authBody_end (k == 1) sec key uid4 s
  cases hbody : s.authBody (k == 1) sec key uid4 with
  | mk t st =>
    rw [hbody] at hend
    by_cases hst : st = .fatal
    · subst hst
      rw [State.authInstr_of_body_fatal hbody] at ht
      exact absurd (hend.breaks rfl).st ht
    · have hgoes := hend.goes hst
      rw [State.authInstr_of_body hbody hst (hgoes.st ▸ hs)]
      exact keysGone_answered (congrArg HostPort.cmd hgoes.host) _ _

theorem keysGone_readClassic {ul : Byte} {uid ka kb : Bytes} {s : State} (hs : s.st ≠ .fatal) (ha : ka.length = 96)
    (hb : kb.length = 96) (ht : (s.readClassicBody ul uid ka kb).st ≠ .fatal) :
    KeysGone 12 204 s (s.readClassicBody ul uid ka kb) := by
  have hend := (State.classicLoop_end ul uid ka kb s ha hb).stage
  cases hloop : State.sectorLoop Config.sectors 0 (s.loadClassic ul uid ka kb) with
  | mk t st =>
    rw [hloop] at hend
    by_cases hst : st = .fatal
    · subst hst
      rw [State.readClassicBody_of_loop_fatal hloop] at ht
      exact absurd (hend.breaks rfl).st ht
    · have hgoes := hend.goes hst
      have hcmd : t.host.cmd = s.host.cmd := congrArg HostPort.cmd hgoes.host
      rw [State.readClassicBody_of_loop hloop hst (hgoes.st ▸ hs)]
      exact keysGone_answered hcmd _ _

/-! ### The frames that carry keys (R127) -/

theorem hostOp_of_code {o o' : HostOp} (h : o.code = o'.code) : o = o' :=
  Option.some.inj ((hostOpOf_code o).symm.trans ((congrArg hostOpOf h).trans (hostOpOf_code o')))

/-- The bytes before `lo` and from `hi` on stand. -/
theorem zeroRange_append {a b c : Bytes} {lo hi : Nat} (ha : a.length = lo) (hb : b.length = hi - lo) (hle : lo ≤ hi) :
    zeroRange lo hi (a ++ b ++ c) = a ++ List.replicate (hi - lo) 0 ++ c := by
  have hab : (a ++ b).length = hi := by rw [List.length_append, ha, hb]; omega
  have hmin : min hi (a ++ b ++ c).length = hi := by rw [List.length_append, hab]; omega
  rw [zeroRange, hmin, List.drop_left' hab, List.append_assoc a b c, List.take_left' ha]

theorem authFrame_of_decode {f : Bytes} {k sec : Byte} {key uid4 : Bytes} (h : decodeHost f = .ok (.auth k sec key uid4)) :
    f = [0x40, k, sec] ++ key ++ uid4 ∧ key.length = 6 := by
  have hframe := encode_of_decodeHost (p := Config.params) h
  obtain ⟨o, ops, rfl, -, hlen, hops⟩ := decodeHost_eq_ok h
  have ho : o = .auth := hostOp_of_code (List.head_eq_of_cons_eq hframe).symm
  subst ho
  refine ⟨hframe.symm, ?_⟩
  simp only [decodeOperands] at hops
  split at hops <;> cases hops
  next rest =>
    simp only [List.length_cons, hostFrameLength] at hlen
    rw [List.length_take]
    omega

theorem classicFrame_of_decode {f : Bytes} {ul : Byte} {uid ka kb : Bytes} (h : decodeHost f = .ok (.readClassic ul uid ka kb)) :
    f = [0x43, ul] ++ uid ++ ka ++ kb ∧ uid.length = 10 ∧ ka.length = 96 ∧ kb.length = 96 := by
  have hframe := encode_of_decodeHost (p := Config.params) h
  obtain ⟨o, ops, rfl, -, hlen, hops⟩ := decodeHost_eq_ok h
  have ho : o = .readClassic := hostOp_of_code (List.head_eq_of_cons_eq hframe).symm
  subst ho
  refine ⟨hframe.symm, ?_⟩
  simp only [decodeOperands] at hops
  split at hops <;> cases hops
  next rest =>
    simp only [List.length_cons, hostFrameLength] at hlen
    simp only [List.length_take, List.length_drop]
    omega

end Sys2Proof.Machine

namespace Sys2Proof.Proofs

open Machine

/-- Settles O51: the sectors that are read lead to sector `n`, where the loop ends or the sector fails. -/
theorem readClassicReadsTheSectorsInOrder : Obligations.ReadClassicReadsTheSectorsInOrder := by
  intro ul uid ka kb s v st n u hs huid hka hkb
  refine ⟨fun hul h0 hn hread => ?run, fun h4 h7 h10 => ?param⟩
  case param =>
    have hbad : classicOk ul uid ka kb = false := Bool.eq_false_iff.mpr fun hok => by
      obtain ⟨hul, -⟩ := classicOk_iff.mp hok
      rcases uidlenOk_iff.mp hul with h | h | h
      · exact h4 h
      · exact h7 h
      · exact h10 h
    exact congrArg Host.Outcome.next (State.commandWith_param hs rfl hbad)
  case run =>
    have hsectors : SectorsRead n u := hread
    have hstart : (s.loadClassic ul uid ka kb).sectorLoop 16 0 = (u 0).sectorLoop 16 0 := by
      have hload : s.loadClassic ul uid ka kb = (u 0).atLine .loadKeys := by rw [h0]; rfl
      rw [hload]
      exact State.sectorLoop_atLine 15 0 .loadKeys (u 0)
    have hend := State.classicLoop_end ul uid ka kb s hka hkb
    have hloop' : State.sectorLoop Config.sectors 0 (s.loadClassic ul uid ka kb) = (u 0).sectorLoop 16 0 := hstart
    rw [hloop'] at hend
    rw [exec_readClassic hs (classicOk_iff.mpr ⟨uidlenOk_iff.mpr hul, huid, hka, hkb⟩)]
    refine ⟨fun hall => ?whole, fun hlt hlast hst => ?stopped⟩
    case whole =>
      subst hall
      have hloop : (u 0).sectorLoop 16 0 = (u 16, .ok) := hsectors.loop le_rfl le_rfl
      rw [hloop] at hend
      have hu : (u 16).st ≠ .fatal := (hend.stage.goes nofun).st ▸ hs
      refine ⟨?_, (hend.whole rfl).trans (by rfl)⟩
      rw [State.readClassicBody_of_loop (hstart.trans hloop) nofun hu]
      rfl
    case stopped =>
      have hloop := hsectors.stop hlt hlast hst
      rw [hloop] at hend
      refine ⟨fun hne => ⟨?_, ?_⟩, fun hfatal => ?_⟩
      · rw [State.readClassicBody_of_loop (hstart.trans hloop) hne ((hend.stage.goes hne).st ▸ hs), if_neg hst]
      · rcases hend.status with h | h | h
        · exact absurd h hst
        · exact absurd h hne
        · exact h
      · subst hfatal
        rw [State.readClassicBody_of_loop_fatal (hstart.trans hloop)]

/-- Settles O52: every end of AUTH and READ_CLASSIC but FATAL zeroes the keys and then answers. -/
theorem keysDoNotOutliveTheirCommand : Obligations.KeysDoNotOutliveTheirCommand := by
  intro i s t hs hdecode hexec ht
  refine ⟨?auth, ?classic⟩
  case auth =>
    rintro k sec key uid4 rfl
    obtain ⟨hframe, hkey⟩ := authFrame_of_decode hdecode
    cases hexec
    obtain ⟨hcmd, hA, hB⟩ := keysGone_commandWith hs (keysGone_authInstr hs) ht
    refine ⟨hcmd.trans ?_, hA, hB⟩
    rw [hframe]
    exact zeroRange_append rfl hkey (by decide)
  case classic =>
    rintro ul uid ka kb rfl
    obtain ⟨hframe, huid, hka, hkb⟩ := classicFrame_of_decode hdecode
    cases hexec
    obtain ⟨hcmd, hA, hB⟩ := keysGone_commandWith hs (keysGone_readClassic hs hka hkb) ht
    refine ⟨hcmd.trans ?_, hA, hB⟩
    have hkeys : (ka ++ kb).length = 204 - 12 := by rw [List.length_append, hka, hkb]
    have hhead : ([0x43, ul] ++ uid).length = 12 := by rw [List.length_append, huid]; rfl
    have hzero := zeroRange_append (c := []) hhead hkeys (by decide)
    rwa [List.append_nil, List.append_nil, ← List.append_assoc, ← hframe] at hzero

end Sys2Proof.Proofs

end

section
/-! The standard transceive run (R206 to R227): a bus whose bytes are given, followed through PRE-RUN, PRIME, three iterations
of LOOP and EXIT with the default chip map. -/

namespace Sys2Proof.Machine

/-- From `s` to `t` the record grows by `n` events. -/
def Recorded (n : Nat) (s t : State) : Prop := ∃ evs : List Event, t.hist = s.hist ++ evs ∧ evs.length = n

theorem Recorded.trans {m n : Nat} {s t u : State} (h : Recorded m s t) (k : Recorded n t u) : Recorded (m + n) s u := by
  obtain ⟨evs, hhist, hlen⟩ := h
  obtain ⟨evs', hhist', hlen'⟩ := k
  exact ⟨evs ++ evs', by rw [hhist', hhist, List.append_assoc], by rw [List.length_append, hlen, hlen']⟩

namespace Sends

variable {outs : List Bytes} {s t : State} (h : Sends outs s t)
include h

theorem recorded : Recorded outs.length s t := by
  obtain ⟨evs, hhist, -, hsent⟩ := h.hist
  exact ⟨evs, hhist, by rw [← hsent, List.length_map]⟩

/-- Of a bus whose bytes are given a stretch takes as many as it sends. -/
theorem scripted {inp rest : Bytes} (hin : s.env.busIn = inp ++ rest) (hlen : inp.length = outs.flatten.length) :
    t.env = { s.env with busIn := rest } := by
  have henv : s.env = { s.env with busIn := inp ++ rest } := by rw [← hin]
  rw [h.env, ← hlen, henv, Env.drawBytes_append]

theorem busIn {inp rest : Bytes} (hin : s.env.busIn = inp ++ rest) (hlen : inp.length = outs.flatten.length) :
    t.env.busIn = rest := by rw [h.scripted hin hlen]

omit h in
theorem regModify (a m : Byte) (set : Bool) (s : State) :
    Sends [regReadFrame a, regWriteFrame a (State.modified (s.regRead a).1 m set)] s (s.regModify a m set) :=
  ((regRead a s).trans (regWrite a (State.modified (s.regRead a).1 m set) _)).of_eq rfl rfl rfl rfl

end Sends

namespace State

variable {s : State}

/-! ### The reads whose bytes count -/

theorem regRead_scripted {a x v : Byte} {rest : Bytes} (hin : s.env.busIn = [x, v] ++ rest) :
    (s.regRead a).1 = v ∧ (s.regRead a).2.env.busIn = rest ∧ Recorded 1 s (s.regRead a).2 := by
  obtain ⟨hbytes, henv⟩ := xfer_scripted (out := regReadFrame a) hin rfl
  exact ⟨congrArg (fun b : Bytes => b.getD 1 0) hbytes, congrArg Env.busIn henv, (Sends.regRead a s).recorded⟩

/-- A FIFO read answers the bytes after the first (R142). -/
theorem fifoRead_scripted {x : Byte} {b rest : Bytes} (hb : b ≠ []) (hin : s.env.busIn = (x :: b) ++ rest) :
    (s.fifoRead b.length).1 = b ∧ (s.fifoRead b.length).2.env.busIn = rest ∧ Recorded 1 s (s.fifoRead b.length).2 := by
  have hne : b.length ≠ 0 := fun h => hb (List.eq_nil_of_length_eq_zero h)
  obtain ⟨hbytes, henv⟩ := xfer_scripted (out := fifoReadFrame s.params.chip b.length) hin (by simp [fifoReadFrame])
  rw [s.fifoRead_of_ne_zero hne]
  exact ⟨by rw [hbytes]; rfl, congrArg Env.busIn henv, [_], rfl, rfl⟩

theorem snapshot_recorded (s : State) : Recorded 1 s s.snapshot := ⟨[_], rfl, rfl⟩

/-! ### The feed (R219) -/

/-- The low watermark's branch from the snapshot on. -/
def fed (s : State) : State := (s.atPhase .loAlert).feed.clearFlag s.params.chip.irqLoAlert

theorem fed_params (s : State) : s.fed.params = s.params := (feed_loopOnly (s.atPhase .loAlert)).params

theorem feed_sends (hne : s.d.txPend ≠ []) (hle : s.d.txPend.length ≤ Config.chunk) : ∃ v,
    Sends [fifoWriteFrame s.params.chip s.d.txPend, regReadFrame s.params.chip.bitFraming.byte,
      regWriteFrame s.params.chip.bitFraming.byte v] s s.feed ∧ s.feed.d.txPend = [] := by
  have htake : s.d.txPend.take Config.chunk = s.d.txPend := List.take_of_length_le hle
  have hdrop : s.d.txPend.drop Config.chunk = [] := List.drop_of_length_le hle
  have hfeed := feed_of_ne_nil hne rfl
  rw [htake, hdrop] at hfeed
  rw [hfeed]
  exact ⟨_, (Sends.xfer (fifoWriteFrame s.params.chip s.d.txPend) s).trans ((Sends.regModify
    s.params.chip.bitFraming.byte s.params.chip.startSend true _).of_eq rfl rfl rfl rfl), rfl⟩

/-- Pending bytes that fit one chunk are pushed, and `StartSend` is set. -/
theorem fed_pending (hne : s.d.txPend ≠ []) (hle : s.d.txPend.length ≤ Config.chunk) {f rest : Bytes}
    (hin : s.env.busIn = f ++ rest) (hf : f.length = s.d.txPend.length + 7) :
    s.fed.env.busIn = rest ∧ Recorded 4 s s.fed ∧ s.fed.d = { s.d with txPend := [] } := by
  obtain ⟨v, hsends, hpend⟩ := feed_sends (s := s.atPhase .loAlert) hne hle
  have hall : Sends _ s s.fed := (hsends.trans (Sends.phaseWrite .clear (s.atPhase .loAlert).feed.params.chip.comIrq.byte
    s.params.chip.irqLoAlert (s.atPhase .loAlert).feed)).of_atPhase
  refine ⟨hall.busIn hin ?_, hall.recorded, ?_⟩
  · rw [hf]
    simp [fifoWriteFrame, regReadFrame, regWriteFrame]
  · have hd := (s.atPhase .loAlert).feed_d
    rw [hpend] at hd
    exact hd

/-- With nothing pending the flag alone is cleared. -/
theorem fed_nil (hnil : s.d.txPend = []) {f rest : Bytes} (hin : s.env.busIn = f ++ rest) (hf : f.length = 2) :
    s.fed.env.busIn = rest ∧ Recorded 1 s s.fed ∧ s.fed.d = s.d := by
  have hfeed : (s.atPhase .loAlert).feed = s.atPhase .loAlert := feed_nil hnil
  have hclear : Sends [regWriteFrame s.params.chip.comIrq.byte s.params.chip.irqLoAlert] s s.fed := by
    rw [fed, hfeed]
    exact (Sends.phaseWrite .clear _ _ (s.atPhase .loAlert)).of_atPhase
  refine ⟨hclear.busIn hin (by rw [hf]; rfl), hclear.recorded, ?_⟩
  rw [fed, hfeed]
  rfl

/-! ### The three iterations -/

/-- A low watermark is fed; where no other branch acts before it, the transmission branch follows. -/
theorem iteration_feed_tx (htimer : s.snapshot.d.irq &&& s.params.chip.irqTimer = 0)
    (herr : s.snapshot.d.irq &&& s.params.chip.irqErr = 0) (hlo : s.snapshot.d.irq &&& s.params.chip.irqLoAlert ≠ 0)
    (hhi : s.snapshot.d.irq &&& s.params.chip.irqHiAlert = 0) (hrx : s.snapshot.d.irq &&& s.params.chip.irqRx = 0)
    (hfam : s.d.family = .transceive) : s.iteration = (s.snapshot.fed.atPhase .tx).branchTx := by
  have hd : s.snapshot.fed.d = { s.snapshot.d with txPend := (s.snapshot.atPhase .loAlert).feed.d.txPend } :=
    feed_d (s.snapshot.atPhase .loAlert)
  have hp : s.snapshot.fed.params = s.params := s.snapshot.fed_params
  have h3 : (s.snapshot.atPhase .loAlert).branchLoAlert = .goOn s.snapshot.fed := branchLoAlert_act hlo
  have h4 : (s.snapshot.fed.atPhase .hiAlert).branchHiAlert = .goOn (s.snapshot.fed.atPhase .hiAlert) :=
    branchHiAlert_skip (.inl (by rw [atPhase_d, atPhase_params, hd, hp]; exact hhi))
  have h5 : (s.snapshot.fed.atPhase .idle).branchIdle = .goOn (s.snapshot.fed.atPhase .idle) :=
    branchIdle_skip (.inr (by rw [atPhase_d, hd]; exact hfam))
  have h6 : (s.snapshot.fed.atPhase .rx).branchRx = .goOn (s.snapshot.fed.atPhase .rx) :=
    branchRx_skip (.inl (by rw [atPhase_d, atPhase_params, hd, hp]; exact hrx))
  rw [iteration_past_err htimer herr, h3]
  simp only [Flow.andThen, h4, h5, h6, atPhase_atPhase]

section
variable (hchip : s.params.chip = Config.chipDefault) (hfam : s.d.family = .transceive)
include hchip hfam

/-- Flag byte 04: the send bytes are pushed and `StartSend` is set (R219). -/
theorem iteration_push {x : Byte} {f rest : Bytes} (hne : s.d.txPend ≠ []) (hle : s.d.txPend.length ≤ Config.chunk)
    (hin : s.env.busIn = x :: 0x04 :: (f ++ rest)) (hf : f.length = s.d.txPend.length + 7) :
    ∃ u, s.iteration = .goOn u ∧ u.env.busIn = rest ∧ Recorded 5 s u ∧ u.params = s.params ∧
      u.d = { s.d with irq := 0x04, txPend := [] } := by
  obtain ⟨hd, henv, -⟩ := snapshot_scripted hin
  have hirq : s.snapshot.d.irq = 0x04 := by rw [hd]
  obtain ⟨hbus, hrec, hfed⟩ := fed_pending (s := s.snapshot) (by rw [hd]; exact hne) (by rw [hd]; exact hle) henv
    (by rw [hd]; exact hf)
  have hiter : s.iteration = (s.snapshot.fed.atPhase .tx).branchTx := by
    refine iteration_feed_tx ?_ ?_ ?_ ?_ ?_ hfam <;> rw [hirq, hchip] <;> decide
  have htx : (s.snapshot.fed.atPhase .tx).branchTx = .goOn (s.snapshot.fed.atPhase .tx) := by
    refine branchTx_skip ?_
    rw [atPhase_d, atPhase_params, fed_params, hfed, hirq]
    exact (congrArg (fun c : Config.Chip => (0x04 : Byte) &&& c.irqTx) hchip).trans (by decide)
  refine ⟨s.snapshot.fed.atPhase .tx, hiter.trans htx, hbus, s.snapshot_recorded.trans hrec, s.snapshot.fed_params, ?_⟩
  rw [atPhase_d, hfed, hd]

/-- Flag byte 44: nothing is pending, and the send is marked finished (R219, R223). -/
theorem iteration_sent {x : Byte} {f rest : Bytes} (hnil : s.d.txPend = [])
    (hin : s.env.busIn = x :: 0x44 :: (f ++ rest)) (hf : f.length = 4) :
    ∃ u, s.iteration = .goOn u ∧ u.env.busIn = rest ∧ Recorded 3 s u ∧ u.params = s.params ∧
      u.d = { s.d with irq := 0x44, sendDone := true } := by
  obtain ⟨hd, henv, -⟩ := snapshot_scripted hin
  have hirq : s.snapshot.d.irq = 0x44 := by rw [hd]
  obtain ⟨f0, f1, rfl, hf0, hf1⟩ : ∃ f0 f1, f = f0 ++ f1 ∧ f0.length = 2 ∧ f1.length = 2 :=
    ⟨f.take 2, f.drop 2, (List.take_append_drop 2 f).symm, by simp [hf], by simp [hf]⟩
  rw [List.append_assoc] at henv
  obtain ⟨hbus, hrec, hfed⟩ := fed_nil (s := s.snapshot) (by rw [hd]; exact hnil) henv hf0
  have hiter : s.iteration = (s.snapshot.fed.atPhase .tx).branchTx := by
    refine iteration_feed_tx ?_ ?_ ?_ ?_ ?_ hfam <;> rw [hirq, hchip] <;> decide
  have htx : (s.snapshot.fed.atPhase .tx).branchTx =
      .goOn (((s.snapshot.fed.atPhase .tx).setD { s.snapshot.fed.d with sendDone := true }).clearFlag
        (s.snapshot.fed.atPhase .tx).params.chip.irqTx) := by
    refine branchTx_act ?_
    rw [atPhase_d, atPhase_params, fed_params, hfed, hirq]
    exact fun h => absurd ((congrArg (fun c : Config.Chip => (0x44 : Byte) &&& c.irqTx) hchip).symm.trans h) (by decide)
  have hclear : Sends _ s.snapshot.fed (((s.snapshot.fed.atPhase .tx).setD { s.snapshot.fed.d with sendDone := true }).clearFlag
      (s.snapshot.fed.atPhase .tx).params.chip.irqTx) :=
    (Sends.phaseWrite .clear (s.snapshot.fed.atPhase .tx).params.chip.comIrq.byte
      (s.snapshot.fed.atPhase .tx).params.chip.irqTx
      ((s.snapshot.fed.atPhase .tx).setD { s.snapshot.fed.d with sendDone := true })).of_eq rfl rfl rfl rfl
  refine ⟨_, hiter.trans htx, hclear.busIn hbus (by rw [hf1]; rfl),
    (s.snapshot_recorded.trans hrec).trans hclear.recorded, s.snapshot.fed_params, ?_⟩
  have hfed' : s.snapshot.fed.d = { s.d with irq := 0x44 } := hfed.trans hd
  exact congrArg (fun d : Desc => { d with sendDone := true }) hfed'

end

/-- The completed receive on the bytes of the bus: last-bit count, level, the reply (R222). -/
theorem branchRx_scripted {x5 ctl x6 lvl x7 : Byte} {reply f rest : Bytes} (hchip : s.params.chip = Config.chipDefault)
    (hset : s.d.irq &&& s.params.chip.irqRx ≠ 0) (hfam : s.d.family = .transceive) (hbuf : s.d.rxBuf = [])
    (hcnt : s.d.rxCnt = 0) (hin : s.env.busIn = [x5, ctl] ++ ([x6, lvl] ++ ((x7 :: reply) ++ (f ++ rest)))) (hf : f.length = 2) (hreply : reply ≠ [])
    (hlvl : lvl.toNat = reply.length) (hmax : reply.length ≤ 127) (hcap : reply.length ≤ s.d.rxCap.toNat)
    (hlen : s.d.rxLen = 0 ∨ s.d.rxLen.toNat = reply.length) :
    ∃ u, s.branchRx = .stop u .ok ∧ u.env.busIn = rest ∧ Recorded 4 s u ∧ u.params = s.params ∧ u.rxSlice = reply ∧
      u.d.rxBitsAct = ctl.setWidth 3 := by
  obtain ⟨hctl, hbus1, hrec1⟩ := regRead_scripted (a := s.params.chip.control.byte) hin
  obtain ⟨hlevel, hbus2, hrec2⟩ := regRead_scripted (s := s.readLastBits) (a := s.params.chip.fifoLevel.byte) hbus1
  have hcount : fifoLevelOf s.params.chip lvl = reply.length := by
    rw [hchip, fifoLevelOf, Config.Field.get]
    simp only [Config.chipDefault]
    omega
  have hbits : rxLastBitsOf s.params.chip ctl = ctl.setWidth 3 := by
    rw [hchip]
    exact BitVec.eq_of_toNat_eq (by simp [rxLastBitsOf, Config.Field.get, Config.chipDefault])
  have hact : s.branchRx = (s.readLastBits.regRead s.params.chip.fifoLevel.byte).2.drainRemainder reply.length := by
    rw [branchRx, if_pos (guardRx_iff.mpr ⟨hset, hfam⟩)]
    simp only [hlevel, hcount]
  generalize hw : (s.readLastBits.regRead s.params.chip.fifoLevel.byte).2 = w at hbus2 hrec2 hact
  have hd : w.d = { s.d with rxBitsAct := ctl.setWidth 3 } := by
    rw [← hw, regRead_d, ← hbits, ← hctl]
    rfl
  have hp : w.params = s.params := by rw [← hw]; rfl
  obtain ⟨hbytes, hbus3, hrec3⟩ := fifoRead_scripted (s := w) hreply hbus2
  have hdrained : w.fifoRead reply.length = (reply, (w.fifoRead reply.length).2) := Prod.ext hbytes rfl
  generalize ht : (w.fifoRead reply.length).2 = t at hbus3 hrec3 hdrained
  have htd : t.d = w.d := d_of_fifoRead hdrained
  have hcnt' : w.d.rxCnt.toNat = 0 := by
    rw [hd]
    exact congrArg BitVec.toNat hcnt
  have hfits : w.d.rxCnt.toNat + reply.length ≤ w.d.rxCap.toNat := by
    rw [hcnt', hd, Nat.zero_add]
    exact hcap
  have hok : ¬(w.d.rxLen ≠ 0 ∧ w.d.rxCnt.toNat + reply.length ≠ w.d.rxLen.toNat) := by
    rw [hcnt', hd, Nat.zero_add]
    rintro ⟨hne, hlen'⟩
    exact hlen.elim hne fun h => hlen' h.symm
  have hstop := drainRemainder_fits hdrained hfits
  rw [if_neg hok] at hstop
  have hclear : Sends _ t ((t.appendRx reply reply.length).clearFlag w.params.chip.irqRx) :=
    (Sends.phaseWrite .clear t.params.chip.comIrq.byte w.params.chip.irqRx (t.appendRx reply reply.length)).of_eq rfl rfl rfl rfl
  have hbuf' : (t.appendRx reply reply.length).d.rxBuf = reply := by
    have happend : (t.appendRx reply reply.length).d.rxBuf = t.d.rxBuf ++ reply := rfl
    rw [happend, htd, hd]
    exact congrArg (· ++ reply) hbuf
  have hcount' : (t.appendRx reply reply.length).d.rxCnt.toNat = reply.length := by
    have happend : (t.appendRx reply reply.length).d.rxCnt = BitVec.ofNat 11 (t.d.rxCnt.toNat + reply.length) := rfl
    rw [happend, htd, hcnt', Nat.zero_add, BitVec.toNat_ofNat]
    omega
  have hslice : (t.appendRx reply reply.length).rxSlice = reply := by rw [rxSlice, hbuf', hcount', List.take_length]
  have htp : t.params = s.params := by rw [← hp, ← ht, fifoRead_params]
  refine ⟨_, hact.trans hstop, hclear.busIn hbus3 (by rw [hf]; rfl), ((hrec1.trans hrec2).trans hrec3).trans hclear.recorded,
    htp, hslice, ?_⟩
  have hbits' : ((t.appendRx reply reply.length).clearFlag w.params.chip.irqRx).d.rxBitsAct = t.d.rxBitsAct := rfl
  rw [hbits', htd, hd]

/-- Flag byte 24: the low watermark has nothing to feed, and the receive ends the run (R219, R222). -/
theorem iteration_receive {x x5 ctl x6 lvl x7 : Byte} {reply f f' rest : Bytes} (hchip : s.params.chip = Config.chipDefault)
    (hfam : s.d.family = .transceive) (hnil : s.d.txPend = []) (hbuf : s.d.rxBuf = []) (hcnt : s.d.rxCnt = 0)
    (hin : s.env.busIn = x :: 0x24 :: (f ++ ([x5, ctl] ++ ([x6, lvl] ++ ((x7 :: reply) ++ (f' ++ rest))))))
    (hf : f.length = 2) (hf' : f'.length = 2) (hreply : reply ≠ [])
    (hlvl : lvl.toNat = reply.length) (hmax : reply.length ≤ 127) (hcap : reply.length ≤ s.d.rxCap.toNat)
    (hlen : s.d.rxLen = 0 ∨ s.d.rxLen.toNat = reply.length) :
    ∃ u, s.iteration = .stop u .ok ∧ u.env.busIn = rest ∧ Recorded 6 s u ∧ u.params = s.params ∧ u.rxSlice = reply ∧
      u.d.rxBitsAct = ctl.setWidth 3 := by
  obtain ⟨hd, henv, -⟩ := snapshot_scripted hin
  have hirq : s.snapshot.d.irq = 0x24 := by rw [hd]
  obtain ⟨hbus, hrec, hfed⟩ := fed_nil (s := s.snapshot) (by rw [hd]; exact hnil) henv hf
  have hiter : s.iteration = (s.snapshot.fed.atPhase .rx).branchRx := by
    refine (iteration_feed_rx ?_ ?_ ?_ ?_ hfam (.inl ?_)).1 <;> rw [hirq, hchip] <;> decide
  have hfed' : (s.snapshot.fed.atPhase .rx).d = { s.d with irq := 0x24 } := hfed.trans hd
  have hp : (s.snapshot.fed.atPhase .rx).params = s.params := s.snapshot.fed_params
  have hset : (s.snapshot.fed.atPhase .rx).d.irq &&& (s.snapshot.fed.atPhase .rx).params.chip.irqRx ≠ 0 := by
    rw [hfed', hp, hchip]
    exact (by decide : (0x24 : Byte) &&& Config.chipDefault.irqRx ≠ 0)
  obtain ⟨u, hstop, hbusu, hrecu, hpu, hslice, hbits⟩ := branchRx_scripted (s := s.snapshot.fed.atPhase .rx) (f := f')
    (by rw [hp]; exact hchip) hset (by rw [hfed']; exact hfam) (by rw [hfed']; exact hbuf) (by rw [hfed']; exact hcnt)
    hbus hf' hreply hlvl hmax (by rw [hfed']; exact hcap) (by rw [hfed']; exact hlen)
  have hrec' : Recorded 2 s (s.snapshot.fed.atPhase .rx) := s.snapshot_recorded.trans hrec
  exact ⟨u, hiter.trans hstop, hbusu, hrec'.trans hrecu, hpu.trans hp, hslice, hbits⟩

/-! ### Before and after LOOP -/

/-- PRE-RUN is 13 transfers of two bytes (R208 to R211). -/
theorem execPreRun_scripted {f rest : Bytes} (hin : s.env.busIn = f ++ rest) (hf : f.length = 26) :
    s.execPreRun.env = { s.env with busIn := rest } ∧ Recorded 13 s s.execPreRun := by
  have hall := s.preRunRxCrc_sends.trans (Sends.setTimeout s.d.timeout (s.preRunRxCrc.atPhase .timeout)).of_atPhase
  rw [execPreRun_eq]
  exact ⟨hall.scripted hin (by rw [hf]; rfl), hall.recorded⟩

theorem primeTransceive_d (s : State) : s.primeTransceive.d = s.d := rfl

/-- PRIME of the transceive family is two transfers of two bytes (R213). -/
theorem primeTransceive_scripted {f rest : Bytes} (hin : s.env.busIn = f ++ rest) (hf : f.length = 4) :
    s.primeTransceive.env = { s.env with busIn := rest } ∧ Recorded 2 s s.primeTransceive := by
  have hprime := prime_sends (s := s) (d := s.d) s.d.rxBits rfl rfl rfl
  exact ⟨hprime.scripted hin (by rw [hf]; rfl), hprime.recorded⟩

/-- Before LOOP a transceive run makes 15 transfers and changes no descriptor register. -/
theorem beforeLoop_scripted {f rest : Bytes} (hfam : s.d.family = .transceive) (hin : s.env.busIn = f ++ rest)
    (hf : f.length = 30) : s.execPreRun.execPrime.env = { s.env with busIn := rest } ∧
      Recorded 15 s s.execPreRun.execPrime ∧ s.execPreRun.execPrime.d = s.d := by
  obtain ⟨f0, f1, rfl, hf0, hf1⟩ : ∃ f0 f1, f = f0 ++ f1 ∧ f0.length = 26 ∧ f1.length = 4 :=
    ⟨f.take 26, f.drop 26, (List.take_append_drop 26 f).symm, by simp [hf], by simp [hf]⟩
  rw [List.append_assoc] at hin
  obtain ⟨henv, hrec⟩ := execPreRun_scripted hin hf0
  have hbus : s.execPreRun.env.busIn = f1 ++ rest := by rw [henv]
  obtain ⟨henv', hrec'⟩ := primeTransceive_scripted hbus hf1
  have hfam' : s.execPreRun.d.family = .transceive := by rw [execPreRun_d]; exact hfam
  rw [execPrime_transceive hfam', primeTransceive_d, execPreRun_d, henv', henv]
  exact ⟨rfl, hrec.trans hrec', rfl⟩

/-- LOOP is entered with the next deadline of the environment (R215). -/
theorem enterLoop_scripted {n : Nat} {ns : List Nat} (h : s.env.deadlines = n :: ns) :
    s.enterLoop.1 = n ∧ s.enterLoop.2.env.busIn = s.env.busIn ∧ s.enterLoop.2.hist = s.hist := by
  have htime : s.env.drawTime.2.deadlines = n :: ns ∧ s.env.drawTime.2.busIn = s.env.busIn := by
    unfold Env.drawTime
    split
    · exact ⟨h, rfl⟩
    · exact ⟨h, rfl⟩
  obtain ⟨hdeadlines, hbus⟩ := htime
  have hdraw : s.env.drawTime.2.drawDeadline = (n, { s.env.drawTime.2 with deadlines := ns }) := by
    rw [Env.drawDeadline, hdeadlines]
  refine ⟨congrArg Prod.fst hdraw, ?_, rfl⟩
  exact (congrArg (fun r : Nat × Env => r.2.busIn) hdraw).trans hbus

/-- EXIT on the bytes of the bus: three transfers of two bytes (R226). -/
theorem execExit_scripted {f rest : Bytes} (hin : s.env.busIn = f ++ rest) (hf : f.length = 6) :
    s.execExit.env.busIn = rest ∧ Recorded 3 s s.execExit := by
  have hall : Sends _ s s.execExit := (Sends.phaseModify .exitFraming s.params.chip.bitFraming.byte s.params.chip.startSend
    false s).trans (Sends.phaseWrite .exitCommand s.params.chip.command.byte
      (s.params.chip.commandField.put s.params.chip.cmdIdle.toNat) _)
  exact ⟨hall.busIn hin (by rw [hf]; rfl), hall.recorded⟩

/-- Where the run starts LOOP: 15 transfers on, the descriptor loaded, the first deadline drawn (R207 to R215). -/
theorem atLoop_scripted {d : Descriptor} {n : Nat} {ns : List Nat} {f rest : Bytes} (hfam : d.family = .transceive)
    (hin : s.env.busIn = f ++ rest) (hf : f.length = 30) (hdeadlines : s.env.deadlines = n :: ns) :
    (s.atLoop d).1 = n ∧ (s.atLoop d).2.env.busIn = rest ∧ Recorded 15 s (s.atLoop d).2 ∧
      (s.atLoop d).2.params = s.params ∧ (s.atLoop d).2.d = { (s.execLoad d).d with t0 := (s.atLoop d).2.d.t0 } := by
  obtain ⟨henv, hrec, hd⟩ := beforeLoop_scripted (s := s.execLoad d) hfam hin hf
  obtain ⟨hn, hbus, hhist⟩ := enterLoop_scripted (s := (s.execLoad d).execPreRun.execPrime) (n := n) (ns := ns)
    (by rw [henv]; exact hdeadlines)
  have hkept := ((s.execLoad_runOnly d).trans (s.atLoop_loopOnly d).toRunOnly).params
  obtain ⟨evs, hevs, hlen⟩ := hrec
  refine ⟨hn, hbus.trans (by rw [henv]), ⟨evs, hhist.trans hevs, hlen⟩, hkept, ?_⟩
  exact congrArg (fun v : Desc => { v with t0 := (s.atLoop d).2.d.t0 }) hd

/-- LOOP goes on after an iteration that did not end it. -/
theorem execLoop_goOn {u : State} (h : (s.atPhase .loop).iteration = .goOn u) (n : Nat) :
    s.execLoop (n + 1) = u.execLoop n := by rw [execLoop, h]

theorem execLoop_stop {u : State} {st : Status} (h : (s.atPhase .loop).iteration = .stop u st) (n : Nat) :
    s.execLoop (n + 1) = (u, st) := by rw [execLoop, h]

/-- LOOP on the flag bytes 04, 44 and 24: the send, its end, and the receive (R214 to R225). -/
theorem execLoop_scripted {n : Nat} {f1 f2 f3 reply f4 rest : Bytes} {x1 x2 x3 x4 x5 ctl x6 lvl : Byte}
    (hchip : s.params.chip = Config.chipDefault) (hfam : s.d.family = .transceive) (hne : s.d.txPend ≠ [])
    (hle : s.d.txPend.length ≤ 32) (hbuf : s.d.rxBuf = []) (hcnt : s.d.rxCnt = 0)
    (hin : s.env.busIn = x1 :: 0x04 :: (f1 ++ x2 :: 0x44 :: (f2 ++ x3 :: 0x24 :: (f3 ++ ([x4, ctl] ++ ([x5, lvl] ++
      ((x6 :: reply) ++ (f4 ++ rest))))))))
    (hf1 : f1.length = s.d.txPend.length + 7) (hf2 : f2.length = 4) (hf3 : f3.length = 2) (hf4 : f4.length = 2)
    (hreply : reply ≠ []) (hlvl : lvl.toNat = reply.length) (hmax : reply.length ≤ 127)
    (hcap : reply.length ≤ s.d.rxCap.toNat) (hlen : s.d.rxLen = 0 ∨ s.d.rxLen.toNat = reply.length) :
    ∃ u, s.execLoop (n + 3) = (u, .ok) ∧ u.env.busIn = rest ∧ Recorded 14 s u ∧ u.rxSlice = reply ∧
      u.d.rxBitsAct = ctl.setWidth 3 := by
  obtain ⟨u1, hiter1, hbus1, hrec1, hp1, hd1⟩ := iteration_push (s := s.atPhase .loop) hchip hfam hne hle hin hf1
  obtain ⟨u2, hiter2, hbus2, hrec2, hp2, hd2⟩ := iteration_sent (s := u1.atPhase .loop)
    (by rw [atPhase_params, hp1]; exact hchip)
    (by rw [atPhase_d, hd1]; exact hfam) (by rw [atPhase_d, hd1]) hbus1 hf2
  have hd : u2.d = { s.d with irq := 0x44, txPend := [], sendDone := true } := by
    rw [hd2, atPhase_d, hd1]
    rfl
  obtain ⟨u3, hiter3, hbus3, hrec3, -, hslice, hbits⟩ := iteration_receive (s := u2.atPhase .loop)
    (by rw [atPhase_params, hp2, atPhase_params, hp1]; exact hchip) (by rw [atPhase_d, hd]; exact hfam)
    (by rw [atPhase_d, hd]) (by rw [atPhase_d, hd]; exact hbuf) (by rw [atPhase_d, hd]; exact hcnt) hbus2 hf3 hf4 hreply hlvl
    hmax (by rw [atPhase_d, hd]; exact hcap) (by rw [atPhase_d, hd]; exact hlen)
  refine ⟨u3, ?_, hbus3, ?_, hslice, hbits⟩
  · rw [execLoop_goOn hiter1, execLoop_goOn hiter2, execLoop_stop hiter3]
  · exact Recorded.trans (t := u2) (Recorded.trans (t := u1) hrec1 hrec2) hrec3

end State

end Sys2Proof.Machine

namespace Sys2Proof.Proofs

open Machine

/-- Settles O33: the 15 transfers before LOOP, its three iterations, and EXIT, on the bytes of the bus. -/
theorem standardTransceiveRunSucceeds : Obligations.StandardTransceiveRunSucceeds := by
  intro d s n ns f0 f1 f2 f3 f4 f5 f6 reply rest x1 x2 x3 x4 x5 x6 x7 x8 bf ctl lvl bf2 hchip hfam hne hle hf0 hf1 hf2 hf3
    hf4 hf5 hf6 hreply hlvl hmax hlen hcap hdeadlines hin
  have hin' : s.env.busIn = f0 ++ (x1 :: 0x04 :: ((f1 ++ [x2, bf] ++ f2) ++ x3 :: 0x44 :: (f3 ++ x4 :: 0x24 :: (f4 ++
      ([x5, ctl] ++ ([x6, lvl] ++ ((x7 :: reply) ++ (f5 ++ (([x8, bf2] ++ f6) ++ rest))))))))) := by
    rw [hin]
    simp only [List.append_assoc, List.cons_append, List.nil_append]
  obtain ⟨hn, hbus, hrec, hp, hd⟩ := State.atLoop_scripted hfam hin' hf0 hdeadlines
  have hsend : (f1 ++ [x2, bf] ++ f2).length = d.tx.length + 7 := by
    simp only [List.length_append, List.length_cons, List.length_nil, hf1, hf2]
  have hroom : reply.length ≤ (d.rxCap.setWidth 11).toNat := by
    have hwidth := d.rxCap.isLt
    rw [BitVec.toNat_setWidth, Nat.mod_eq_of_lt (by omega)]
    exact hcap
  obtain ⟨u, hloop, hbus', hrec', hslice, hbits⟩ := State.execLoop_scripted (n := n) (s := (s.atLoop d).2)
    (by rw [hp]; exact hchip) (by rw [hd]; exact hfam) (by rw [hd]; exact hne) (by rw [hd]; exact hle) (by rw [hd]; rfl)
    (by rw [hd]; rfl) hbus (by rw [hd]; exact hsend) hf3 hf4 hf5 hreply hlvl hmax (by rw [hd]; exact hroom)
    (by rw [hd]; exact hlen)
  rw [← hn] at hloop
  obtain ⟨hbus'', hrec''⟩ := State.execExit_scripted hbus' (show ([x8, bf2] ++ f6).length = 6 by
    rw [List.length_append, hf6]; rfl)
  rw [State.runExec_of_loop hloop nofun]
  have hrun : Recorded 32 s u.execExit := Recorded.trans (t := u) (Recorded.trans (t := (s.atLoop d).2) hrec hrec') hrec''
  exact ⟨rfl, hslice, hbits, hbus'', hrun⟩

end Sys2Proof.Proofs

end
